-- ==== Sys2Proof/Word.lean ====
section
/-! DEFINITION. The word types of the machine. -/

namespace Sys2Proof

/-- A byte of memory (20_memory.md R61). -/
abbrev Byte := BitVec 8

/-- A 32-bit instruction word (30_encoding.md R80). -/
abbrev Insn := BitVec 32

/-- The container of an XLEN-bit value. XLEN is a parameter, 32 or 64 (00_scope.md R6); with XLEN = 32 the
upper half is zero, which every write keeps (`truncX`). -/
abbrev Word := BitVec 64

/-- The content of one vector register: a pattern of VLEN bits, bit `i` being `Nat.testBit · i`. VLEN is a
parameter of the hart (00_scope.md R6), so the pattern is kept as the number it is in binary, below `2 ^ VLEN`. -/
abbrev VBits := Nat

/-- The number of an integer register, `x0` to `x31` (10_state.md R21). -/
abbrev XReg := Fin 32

/-- The number of a vector register, `v0` to `v31` (10_state.md R30). -/
abbrev VReg := Fin 32

end Sys2Proof
end

