-- ==== Sys2Proof/Config.lean ====
section
/-! DEFINITION. What an implementation fixes. First the parameters of 00_scope.md R6 that a model takes as
arguments: plain data, held in `State.params`, which no step changes. Then the values the spec leaves free:
constants without a body, of which nothing can be proved but what their type says. -/

namespace Sys2Proof

/-- XLEN: 32 or 64 (00_scope.md R6). -/
inductive XLen where
  | x32
  | x64
  deriving DecidableEq, Repr

/-- The number of bits XLEN. -/
def XLen.bits : XLen → Nat
  | .x32 => 32
  | .x64 => 64

/-- `EXT`: which of the seven extensions of 00_scope.md R1 the hart implements. -/
structure Extensions where
  zvqldot8i : Bool
  zvfwldot16bf : Bool
  zvfqldot8mxf : Bool
  zvreddot32a8i : Bool
  zvreddot32a16bf : Bool
  zvreddot32a8mxf : Bool
  zvreddot32a32f : Bool
  deriving DecidableEq, Repr

/-- Where one bit of an operand stands in an instruction word: nowhere, with a fixed value, or at a bit of the word. -/
inductive FieldBit where
  | zero
  | one
  | bit (pos : Nat)
  deriving DecidableEq, Repr

/-- One parameter `ENC_*` (00_scope.md R6, 30_encoding.md R86, 92_eei_decisions.md D2): a match and a mask, and the
field map of the four operands, bit by bit with the lowest bit first. The bits of a register number may stand anywhere in
the word, and a map that is shorter than five bits leaves the upper bits of the number 0 (log entry 13). -/
structure LongEncoding where
  fixedBits : Insn
  mask : Insn
  vd : List FieldBit
  vs1 : List FieldBit
  vs2 : List FieldBit
  vm : FieldBit
  deriving DecidableEq, Repr

/-- The five parameters `ENC_*`; `none` where an encoding is not configured, and the instruction then exists as a
decoded term only (30_encoding.md R86). -/
structure LongEncodings where
  vqldotu : Option LongEncoding
  vqldots : Option LongEncoding
  vfwldot : Option LongEncoding
  vfqldot : Option LongEncoding
  vfqldotAlt : Option LongEncoding
  deriving DecidableEq, Repr

/-- A range of addresses `base` to `base + size - 1` of the launch memory (20_memory.md R64). -/
structure Region where
  base : Nat
  size : Nat
  deriving DecidableEq, Repr

/-- What taking an exception does. `stop` is the spec's decision (60_exceptions.md R269, D21): the model stops with
a fault record. `enter` is the trap entry of the base architecture that R269 recalls (log entry 11). -/
inductive TrapPolicy where
  | stop
  | enter
  deriving DecidableEq, Repr

/-- `FP8_DOT`, the function that computes one FP8 dot product (00_scope.md R6, D11): the default of
42_bulk_normalization.md R211, or another function that is substituted for it, of which nothing is assumed (log entry
14). -/
inductive Fp8Function where
  | standard
  | substituted
  deriving DecidableEq, Repr

/-- The parameters of an implementation and of a launch (00_scope.md R6, 20_memory.md R64, 10_state.md R49). -/
structure Params where
  /-- XLEN. -/
  xlen : XLen
  /-- The logarithm of VLEN, which is a power of two. -/
  vlenLog2 : Nat
  /-- ELEN, the widest element. -/
  elen : Nat
  /-- `EXT`. -/
  ext : Extensions
  /-- `ENC_*`. -/
  enc : LongEncodings
  /-- `ALTFMT_BIT`. -/
  altfmtBit : Nat
  /-- `FP8_DOT`. -/
  fp8Dot : Fp8Function
  /-- `START_PC`. -/
  startPc : Word
  /-- `END_PC`; `none` where the launch names no end (log entry 10). -/
  endPc : Option Word
  /-- The ranges that hold the program text. -/
  text : List Region
  /-- The ranges that hold data. -/
  data : List Region
  /-- What taking an exception does. -/
  trapPolicy : TrapPolicy
  deriving DecidableEq, Repr

/-- VLEN, the number of bits of a vector register. -/
def Params.vlen (p : Params) : Nat := 2 ^ p.vlenLog2

/-- All seven extensions present. -/
def Extensions.all : Extensions := ⟨true, true, true, true, true, true, true⟩

/-- No long encoding configured, the value of `ENC_*` that 00_scope.md R6 gives. -/
def LongEncodings.none : LongEncodings := ⟨.none, .none, .none, .none, .none⟩

/-- The parameters `State.reset` takes (log entries 2, 6, 7): the values 95_test_vectors.md uses, no program text, and
the whole address space as data memory. -/
def Params.reset : Params where
  xlen := .x64
  vlenLog2 := 7
  elen := 64
  ext := .all
  enc := .none
  altfmtBit := 8
  fp8Dot := .standard
  startPc := 0x1000
  endPc := none
  text := []
  data := [⟨0, 2 ^ 64⟩]
  trapPolicy := .stop

/-! ## Free values -/

/-- Log entry 3: the content of `x1` to `x31` at reset (10_state.md R49: unspecified; R50: never assumed zero). -/
opaque Config.launchX : Nat → Word

/-- Log entry 3: the content of `v0` to `v31` at reset, of which the low VLEN bits are taken. -/
opaque Config.launchV : Nat → Nat

/-- Log entry 3: `vxsat` at reset. -/
opaque Config.launchVxsat : BitVec 1

/-- Log entry 3: `vxrm` at reset. -/
opaque Config.launchVxrm : BitVec 2

/-- Log entry 3: `mepc` at reset. -/
opaque Config.launchMepc : Word

/-- Log entry 3: `mtval` at reset. -/
opaque Config.launchMtval : Word

/-- Log entry 3: `mtvec` at reset. -/
opaque Config.launchMtvec : Word

/-- Log entry 3: `mstatus.MPIE` at reset. -/
opaque Config.launchMpie : Bool

/-- Log entry 16: `AGNOSTIC` (D17). Whether the agnostic element with index `elem` becomes all ones (`true`) or keeps
its value (`false`) at the execution numbered `draw`. -/
opaque Config.agnosticOnes : (draw elem : Nat) → Bool

/-- Log entry 15: `VL0_POLICY` (D9). `true` is `compute`, `false` is `no_write`. -/
opaque Config.vl0Compute : Bool

/-- Log entry 17: `VSETVL_POLICY` (D24), before it is brought into the range the spec allows. -/
opaque Config.vsetvlChoice : (avl vlmax : Nat) → Nat

/-- Log entry 12: whether the value recorded with an illegal-instruction exception is the instruction word (`true`) or
0 (`false`), 60_exceptions.md R262. -/
opaque Config.tvalHoldsWord : Insn → Bool

/-- Log entry 21: whether element `elem`, above an element at which a vector load or store meets an exception, had
already been transferred (43_host_subset.md R247, "in any order among elements"). -/
opaque Config.overrun : (draw elem : Nat) → Bool

/-- Log entry 21: the bits that an element takes whose bytes nothing has written, where a vector load has transferred it
before it reported an exception at a lower element (10_state.md R50: a free draw). -/
opaque Config.unwrittenElem : (draw elem : Nat) → Nat

/-- Log entry 14: the function substituted for `FP8_DOT`: from whether the factors of each array are E5M2 (`true`) or E4M3,
the number of products, the encoded factors and the encoded addend to the encoded result, invalid and overflow. -/
opaque Config.fp8Dot : (e5m2A e5m2B : Bool) → (n : Nat) → (A B : List Nat) → (C : Nat) → BitVec 32 × Bool × Bool

/-- Log entry 18: whether product `k` of a `vfmmacc.vv` dot product is kept exact (`true`) or rounded to FP32
(`false`), 41_zvbdot_batched.md R171. It may depend on all R173 (a) lets the result depend on. -/
opaque Config.fp32KeepExact : (a b : List (BitVec 32)) → (c : BitVec 32) → (frm : BitVec 3) → (vlmax vl k : Nat) → Bool

/-- Log entry 18: the two operands, as positions among the terms not yet added, that step `step` of the sum of a
`vfmmacc.vv` dot product adds (41_zvbdot_batched.md R172: the shape of the tree is fixed by `vtype` and `vl`). -/
opaque Config.fp32Pick : (vlmax vl step : Nat) → Nat × Nat

/-- Log entry 18: how many bits of precision, beyond FP32's, the adder of step `step` has (R172). -/
opaque Config.fp32ExtraPrecision : (vlmax vl step : Nat) → Nat

/-- Log entry 18: how many exponent bits, beyond FP32's, the adder of step `step` has (R172). -/
opaque Config.fp32ExtraExponent : (vlmax vl step : Nat) → Nat

/-- Log entry 19: whether tininess is detected after rounding (`true`) or before (`false`) when `vfmmacc.vv` raises
`UF` (10_state.md R42: "as IEEE 754 multiplication and addition do"). -/
opaque Config.tininessAfterRounding : Bool

end Sys2Proof
end

