-- ==== Sys2Proof/Syntax.lean ====
section
/-! DEFINITION. The instructions: one constructor for each row of `spec/opcode_table.json`. Operands are the decoded
ones: `vs2` and `ci` of a batched instruction are the scaled values (30_encoding.md R83), `masked` is `vm = 0`
(30_encoding.md R84). -/

namespace Sys2Proof

/-- The 21 instructions of `spec/opcode_table.json`. -/
inductive Instr where
  /-- `vqmmacc.u.vv` (41_zvbdot_batched.md R155). -/
  | vqmmaccU (vd vs2 vs1 : VReg) (ci : Nat) (masked : Bool)
  /-- `vqmmacc.s.vv` (R156). -/
  | vqmmaccS (vd vs2 vs1 : VReg) (ci : Nat) (masked : Bool)
  /-- `vfwmmacc.vv` (R160). -/
  | vfwmmacc (vd vs2 vs1 : VReg) (ci : Nat) (masked : Bool)
  /-- `vfqmmacc.vv` (R163). -/
  | vfqmmacc (vd vs2 vs1 : VReg) (ci : Nat) (masked : Bool)
  /-- `vfqmmacc.alt.vv` (R164). -/
  | vfqmmaccAlt (vd vs2 vs1 : VReg) (ci : Nat) (masked : Bool)
  /-- `vfmmacc.vv` (R170). -/
  | vfmmacc (vd vs2 vs1 : VReg) (ci : Nat) (masked : Bool)
  /-- `vqldotu.vv` (40_zvldot_long.md R115). -/
  | vqldotu (vd vs2 vs1 : VReg) (masked : Bool)
  /-- `vqldots.vv` (R116). -/
  | vqldots (vd vs2 vs1 : VReg) (masked : Bool)
  /-- `vfwldot.vv` (R117). -/
  | vfwldot (vd vs2 vs1 : VReg) (masked : Bool)
  /-- `vfqldot.vv` (R118). -/
  | vfqldot (vd vs2 vs1 : VReg) (masked : Bool)
  /-- `vfqldot.alt.vv` (R119). -/
  | vfqldotAlt (vd vs2 vs1 : VReg) (masked : Bool)
  /-- `add` (43_host_subset.md R233). -/
  | add (rd rs1 rs2 : XReg)
  /-- `sub` (R234). -/
  | sub (rd rs1 rs2 : XReg)
  /-- `addi` (R235). -/
  | addi (rd rs1 : XReg) (imm : BitVec 12)
  /-- `bne` (R236); `offset` is the 13-bit byte offset whose bit 0 is 0. -/
  | bne (rs1 rs2 : XReg) (offset : BitVec 13)
  /-- `vsetvli` (R238). -/
  | vsetvli (rd rs1 : XReg) (zimm : BitVec 11)
  /-- `vmv.v.i` (R241). -/
  | vmvVI (vd : VReg) (simm5 : BitVec 5)
  /-- `vle8.v` (R243). -/
  | vle8 (vd : VReg) (rs1 : XReg) (masked : Bool)
  /-- `vle16.v` (R244). -/
  | vle16 (vd : VReg) (rs1 : XReg) (masked : Bool)
  /-- `vle32.v` (R245). -/
  | vle32 (vd : VReg) (rs1 : XReg) (masked : Bool)
  /-- `vse32.v` (R246). -/
  | vse32 (vs3 : VReg) (rs1 : XReg) (masked : Bool)
  deriving DecidableEq, Repr

end Sys2Proof
end

