-- ==== Sys2Proof/WellFormed.lean ====
section
/-! DEFINITION. Which terms are instructions (the operand values an encoding can hold), and which parameters are those
of a hart. -/

namespace Sys2Proof

/-- The operands of a batched instruction that its encoding can hold: `vs2` is `v0`, `v8`, `v16` or `v24` and `ci` a
multiple of 8 from 0 to 56 (30_encoding.md R83, R91). -/
def batchOperandsWf (vs2 : VReg) (ci : Nat) : Bool :=
  vs2.val % 8 == 0 && ci % 8 == 0 && decide (ci ≤ 56)

/-- The operand values an encoding can hold. -/
def Instr.wf : Instr → Bool
  | .vqmmaccU _ vs2 _ ci _ => batchOperandsWf vs2 ci
  | .vqmmaccS _ vs2 _ ci _ => batchOperandsWf vs2 ci
  | .vfwmmacc _ vs2 _ ci _ => batchOperandsWf vs2 ci
  | .vfqmmacc _ vs2 _ ci _ => batchOperandsWf vs2 ci
  | .vfqmmaccAlt _ vs2 _ ci _ => batchOperandsWf vs2 ci
  | .vfmmacc _ vs2 _ ci _ => batchOperandsWf vs2 ci
  | .vqldotu _ _ _ _ => true
  | .vqldots _ _ _ _ => true
  | .vfwldot _ _ _ _ => true
  | .vfqldot _ _ _ _ => true
  | .vfqldotAlt _ _ _ _ => true
  | .add _ _ _ => true
  | .sub _ _ _ => true
  | .addi _ _ _ => true
  | .bne _ _ offset => !offset.getLsbD 0
  | .vsetvli _ _ _ => true
  | .vmvVI _ _ => true
  | .vle8 _ _ _ => true
  | .vle16 _ _ _ => true
  | .vle32 _ _ _ => true
  | .vse32 _ _ _ => true

/-- A range lies in an address space of `2 ^ bits` bytes. -/
def Region.wf (bits : Nat) (r : Region) : Bool := decide (r.base + r.size ≤ 2 ^ bits)

/-- The machine parameters are those of a hart: VLEN at least 32 and so small that VLMAX fits in XLEN bits, and ELEN from 32
to VLEN (00_scope.md R6, and log entry 26 for the bounds), `ALTFMT_BIT` above the seven fields below it and inside the
immediate of `vsetvli` (10_state.md R37, log entry 23), `START_PC` an aligned address, and launch memory inside the address
space. -/
def Params.wf (p : Params) : Bool :=
  decide (5 ≤ p.vlenLog2) && decide (p.vlenLog2 < p.xlen.bits) && decide (32 ≤ p.elen) && decide (p.elen ≤ p.vlen)
    && decide (8 ≤ p.altfmtBit) && decide (p.altfmtBit ≤ 10)
    && p.startPc.toNat % 4 == 0 && decide (p.startPc.toNat < 2 ^ p.xlen.bits)
    && p.text.all (Region.wf p.xlen.bits) && p.data.all (Region.wf p.xlen.bits)

end Sys2Proof
end

