-- ==== Sys2Proof/Decode.lean ====
section
/-! DEFINITION. The decoder (30_encoding.md R80 to R88, 43_host_subset.md R232 to R246), total on any bytes and
rejecting by name, and after it the encoder. -/

namespace Sys2Proof

/-! ## Bit fields -/

/-- The field of `w` of width `width` whose lowest bit is bit `lsb` (00_scope.md R7). -/
def field (w : Insn) (lsb width : Nat) : Nat := w.toNat / 2 ^ lsb % 2 ^ width

/-- The register number in the five bits of `w` from bit `lsb` up. -/
def regField (w : Insn) (lsb : Nat) : Fin 32 := Fin.ofNat 32 (field w lsb 5)

/-- A `vm` field: 0 means masked by `v0` (30_encoding.md R84). -/
def maskedField (w : Insn) (bit : Nat) : Bool := field w bit 1 == 0

/-- The byte offset of a B-type instruction, `{imm[12], imm[11], imm[10:5], imm[4:1], 0}` (43_host_subset.md R232). -/
def branchField (w : Insn) : BitVec 13 :=
  BitVec.ofNat 13 (field w 31 1 * 4096 + field w 7 1 * 2048 + field w 25 6 * 32 + field w 8 4 * 2)

/-- The bytes of a little-endian number, lowest first (20_memory.md R61). -/
def insnOfBytes (b0 b1 b2 b3 : Byte) : Insn :=
  BitVec.ofNat 32 (b0.toNat + b1.toNat * 2 ^ 8 + b2.toNat * 2 ^ 16 + b3.toNat * 2 ^ 24)

/-- The four bytes of an instruction word, lowest first (20_memory.md R61). -/
def bytesOfInsn (w : Insn) : List Byte :=
  [BitVec.ofNat 8 (w.toNat), BitVec.ofNat 8 (w.toNat / 2 ^ 8), BitVec.ofNat 8 (w.toNat / 2 ^ 16),
    BitVec.ofNat 8 (w.toNat / 2 ^ 24)]

/-! ## The opcode table -/

/-- A fixed field of a row: the bits `lsb` to `lsb + width - 1` hold `value`. -/
structure FixedField where
  lsb : Nat
  width : Nat
  value : Nat
  deriving DecidableEq, Repr

/-- A row of the opcode table that has an encoding: its mnemonic, its fixed fields, whether the hart has its extension,
and its operands. -/
structure OpcodeRow where
  mnemonic : String
  fixed : List FixedField
  present : Extensions → Bool
  build : Insn → Instr

/-- A word is an instance of the row. -/
def OpcodeRow.accepts (row : OpcodeRow) (w : Insn) : Bool :=
  row.fixed.all fun f => field w f.lsb f.width == f.value

/-- The batched operands of format VCI (30_encoding.md R82, R83). -/
def vciOperands (mk : VReg → VReg → VReg → Nat → Bool → Instr) (w : Insn) : Instr :=
  mk (regField w 7) (Fin.ofNat 32 (8 * field w 23 2)) (regField w 15) (8 * field w 20 3) (maskedField w 25)

/-- A row of format VCI with opcode `0x77` (30_encoding.md R85). -/
def vciRow (mnemonic : String) (funct6 funct3 : Nat) (present : Extensions → Bool)
    (mk : VReg → VReg → VReg → Nat → Bool → Instr) : OpcodeRow :=
  ⟨mnemonic, [⟨0, 7, 0x77⟩, ⟨12, 3, funct3⟩, ⟨26, 6, funct6⟩], present, vciOperands mk⟩

/-- A row of a unit-stride vector load or store (43_host_subset.md R242). -/
def unitStrideRow (mnemonic : String) (opcode width : Nat) (mk : VReg → XReg → Bool → Instr) : OpcodeRow :=
  ⟨mnemonic, [⟨0, 7, opcode⟩, ⟨12, 3, width⟩, ⟨20, 5, 0⟩, ⟨26, 6, 0⟩], fun _ => true,
    fun w => mk (regField w 7) (regField w 15) (maskedField w 25)⟩

/-- The sixteen rows of `spec/opcode_table.json` that have an encoding: 30_encoding.md R85, then 43_host_subset.md
R233 to R246. -/
def opcodeTable : List OpcodeRow :=
  [ vciRow "vqmmacc.u.vv" 0b101110 0 (·.zvreddot32a8i) .vqmmaccU,
    vciRow "vqmmacc.s.vv" 0b101111 0 (·.zvreddot32a8i) .vqmmaccS,
    vciRow "vfwmmacc.vv" 0b101100 1 (·.zvreddot32a16bf) .vfwmmacc,
    vciRow "vfqmmacc.vv" 0b101110 1 (·.zvreddot32a8mxf) .vfqmmacc,
    vciRow "vfqmmacc.alt.vv" 0b101111 1 (·.zvreddot32a8mxf) .vfqmmaccAlt,
    vciRow "vfmmacc.vv" 0b101011 1 (·.zvreddot32a32f) .vfmmacc,
    ⟨"add", [⟨0, 7, 0x33⟩, ⟨12, 3, 0⟩, ⟨25, 7, 0⟩], fun _ => true,
      fun w => .add (regField w 7) (regField w 15) (regField w 20)⟩,
    ⟨"sub", [⟨0, 7, 0x33⟩, ⟨12, 3, 0⟩, ⟨25, 7, 0b0100000⟩], fun _ => true,
      fun w => .sub (regField w 7) (regField w 15) (regField w 20)⟩,
    ⟨"addi", [⟨0, 7, 0x13⟩, ⟨12, 3, 0⟩], fun _ => true,
      fun w => .addi (regField w 7) (regField w 15) (BitVec.ofNat 12 (field w 20 12))⟩,
    ⟨"bne", [⟨0, 7, 0x63⟩, ⟨12, 3, 1⟩], fun _ => true,
      fun w => .bne (regField w 15) (regField w 20) (branchField w)⟩,
    ⟨"vsetvli", [⟨0, 7, 0x57⟩, ⟨12, 3, 7⟩, ⟨31, 1, 0⟩], fun _ => true,
      fun w => .vsetvli (regField w 7) (regField w 15) (BitVec.ofNat 11 (field w 20 11))⟩,
    ⟨"vmv.v.i", [⟨0, 7, 0x57⟩, ⟨12, 3, 3⟩, ⟨20, 5, 0⟩, ⟨25, 1, 1⟩, ⟨26, 6, 0b010111⟩], fun _ => true,
      fun w => .vmvVI (regField w 7) (BitVec.ofNat 5 (field w 15 5))⟩,
    unitStrideRow "vle8.v" 0x07 0b000 .vle8,
    unitStrideRow "vle16.v" 0x07 0b101 .vle16,
    unitStrideRow "vle32.v" 0x07 0b110 .vle32,
    unitStrideRow "vse32.v" 0x27 0b110 .vse32 ]

/-! ## The configured long encodings -/

/-- The value of an operand bit in a word. -/
def FieldBit.read (w : Insn) : FieldBit → Bool
  | .zero => false
  | .one => true
  | .bit pos => w.getLsbD pos

/-- The number whose bits stand in `w` at the places of a field map, lowest first. -/
def mappedField (w : Insn) : List FieldBit → Nat
  | [] => 0
  | f :: rest => (f.read w).toNat + 2 * mappedField w rest

/-- The operands of a long instruction at the places its parameter `ENC_*` gives them (30_encoding.md R86); `vm` is 0 where
it is masked (R84). -/
def longOperands {α : Type} (e : LongEncoding) (mk : VReg → VReg → VReg → Bool → α) (w : Insn) : α :=
  mk (Fin.ofNat 32 (mappedField w e.vd)) (Fin.ofNat 32 (mappedField w e.vs2)) (Fin.ofNat 32 (mappedField w e.vs1))
    (!e.vm.read w)

/-- A word is an instance of a configured long encoding. -/
def LongEncoding.accepts (e : LongEncoding) (w : Insn) : Bool := w &&& e.mask == e.fixedBits

/-- The five long instructions: mnemonic, parameter, extension, constructor (40_zvldot_long.md R115 to R119). -/
def longTable (p : Params) : List (String × Option LongEncoding × Bool × (VReg → VReg → VReg → Bool → Instr)) :=
  [ ("vqldotu.vv", p.enc.vqldotu, p.ext.zvqldot8i, .vqldotu),
    ("vqldots.vv", p.enc.vqldots, p.ext.zvqldot8i, .vqldots),
    ("vfwldot.vv", p.enc.vfwldot, p.ext.zvfwldot16bf, .vfwldot),
    ("vfqldot.vv", p.enc.vfqldot, p.ext.zvfqldot8mxf, .vfqldot),
    ("vfqldot.alt.vv", p.enc.vfqldotAlt, p.ext.zvfqldot8mxf, .vfqldotAlt) ]

/-! ## Decoding -/

/-- Why a decoder rejects: the verdict `invalid` of 30_encoding.md R88. -/
inductive DecodeError where
  /-- Fewer than four bytes. -/
  | truncated
  /-- The word matches no row of the opcode table and no configured long encoding (30_encoding.md R88). -/
  | unknownWord
  /-- The word is an instruction of an extension the hart lacks (00_scope.md R6, 30_encoding.md R87). -/
  | absentExtension (mnemonic : String)
  deriving DecidableEq, Repr

/-- The long instruction a word is, among `rows`. -/
def decodeLong (w : Insn) :
    List (String × Option LongEncoding × Bool × (VReg → VReg → VReg → Bool → Instr)) → Except DecodeError Instr
  | [] => .error .unknownWord
  | (_, none, _, _) :: rest => decodeLong w rest
  | (name, some e, present, mk) :: rest =>
    if e.accepts w then
      if present then .ok (longOperands e mk w) else .error (.absentExtension name)
    else decodeLong w rest

/-- The instruction a 32-bit word is (30_encoding.md R87). -/
def decode (p : Params) (w : Insn) : Except DecodeError Instr :=
  match opcodeTable.find? (·.accepts w) with
  | some row => if row.present p.ext then .ok (row.build w) else .error (.absentExtension row.mnemonic)
  | none => decodeLong w (longTable p)

/-- The instruction at the front of a list of bytes, and the bytes after it. Every instruction is four bytes, stored
little-endian (30_encoding.md R80, 20_memory.md R61). -/
def decodeBytes (p : Params) : List Byte → Except DecodeError (Instr × List Byte)
  | b0 :: b1 :: b2 :: b3 :: rest => (decode p (insnOfBytes b0 b1 b2 b3)).map fun i => (i, rest)
  | _ => .error .truncated

/-- The instruction the decoder of the reset machine reads from an instruction whose bits, numbered as
`spec/opcode_table.json` numbers them, are `w`; bits from `nbits` up are 0. -/
def decodeTableWord (nbits w : Nat) : Option Instr :=
  match decodeBytes Params.reset (bytesOfInsn (BitVec.ofNat 32 (w % 2 ^ nbits))) with
  | .ok (i, _) => some i
  | .error _ => none

/-! ## Encoding -/

/-- The value of a `vm` field (30_encoding.md R84). -/
def vmBitOf (masked : Bool) : Nat := if masked then 0 else 1

/-- A word of format VCI (30_encoding.md R82). -/
def encodeVci (funct6 funct3 : Nat) (vd vs2 vs1 : VReg) (ci : Nat) (masked : Bool) : Insn :=
  BitVec.ofNat 32 (funct6 * 2 ^ 26 + vmBitOf masked * 2 ^ 25 + vs2.val / 8 * 2 ^ 23 + ci / 8 * 2 ^ 20
    + vs1.val * 2 ^ 15 + funct3 * 2 ^ 12 + vd.val * 2 ^ 7 + 0x77)

/-- An R-type word (43_host_subset.md R232). -/
def encodeR (funct7 funct3 opcode : Nat) (rd rs1 rs2 : XReg) : Insn :=
  BitVec.ofNat 32 (funct7 * 2 ^ 25 + rs2.val * 2 ^ 20 + rs1.val * 2 ^ 15 + funct3 * 2 ^ 12 + rd.val * 2 ^ 7 + opcode)

/-- The word of a unit-stride vector load or store (43_host_subset.md R242). -/
def encodeUnitStride (opcode width : Nat) (vd : VReg) (rs1 : XReg) (masked : Bool) : Insn :=
  BitVec.ofNat 32 (vmBitOf masked * 2 ^ 25 + rs1.val * 2 ^ 15 + width * 2 ^ 12 + vd.val * 2 ^ 7 + opcode)

/-- The word with one operand bit in its place, every other bit 0. -/
def FieldBit.place (value : Bool) : FieldBit → Insn
  | .bit pos => if value then BitVec.twoPow 32 pos else 0
  | _ => 0

/-- The word with the bits of a number in the places of a field map. -/
def placeMapped (n : Nat) : List FieldBit → Insn
  | [] => 0
  | f :: rest => f.place (n.testBit 0) ||| placeMapped (n / 2) rest

/-- The word of a long instruction under its parameter `ENC_*`; `none` where that is not configured, or cannot hold these
operands. -/
def encodeLong (e : Option LongEncoding) (vd vs2 vs1 : VReg) (masked : Bool) : Option Insn :=
  e.bind fun e =>
    let w := e.fixedBits ||| placeMapped vd e.vd ||| placeMapped vs2 e.vs2 ||| placeMapped vs1 e.vs1 ||| e.vm.place (!masked)
    if e.accepts w && longOperands e (fun d b a m => (d, b, a, m)) w == (vd, vs2, vs1, masked) then some w else none

/-- The word of an instruction. -/
def encode (p : Params) : Instr → Option Insn
  | .vqmmaccU vd vs2 vs1 ci masked => some (encodeVci 0b101110 0 vd vs2 vs1 ci masked)
  | .vqmmaccS vd vs2 vs1 ci masked => some (encodeVci 0b101111 0 vd vs2 vs1 ci masked)
  | .vfwmmacc vd vs2 vs1 ci masked => some (encodeVci 0b101100 1 vd vs2 vs1 ci masked)
  | .vfqmmacc vd vs2 vs1 ci masked => some (encodeVci 0b101110 1 vd vs2 vs1 ci masked)
  | .vfqmmaccAlt vd vs2 vs1 ci masked => some (encodeVci 0b101111 1 vd vs2 vs1 ci masked)
  | .vfmmacc vd vs2 vs1 ci masked => some (encodeVci 0b101011 1 vd vs2 vs1 ci masked)
  | .vqldotu vd vs2 vs1 masked => encodeLong p.enc.vqldotu vd vs2 vs1 masked
  | .vqldots vd vs2 vs1 masked => encodeLong p.enc.vqldots vd vs2 vs1 masked
  | .vfwldot vd vs2 vs1 masked => encodeLong p.enc.vfwldot vd vs2 vs1 masked
  | .vfqldot vd vs2 vs1 masked => encodeLong p.enc.vfqldot vd vs2 vs1 masked
  | .vfqldotAlt vd vs2 vs1 masked => encodeLong p.enc.vfqldotAlt vd vs2 vs1 masked
  | .add rd rs1 rs2 => some (encodeR 0 0 0x33 rd rs1 rs2)
  | .sub rd rs1 rs2 => some (encodeR 0b0100000 0 0x33 rd rs1 rs2)
  | .addi rd rs1 imm => some (BitVec.ofNat 32 (imm.toNat * 2 ^ 20 + rs1.val * 2 ^ 15 + rd.val * 2 ^ 7 + 0x13))
  | .bne rs1 rs2 offset =>
    some (BitVec.ofNat 32 (offset.toNat / 4096 * 2 ^ 31 + offset.toNat / 32 % 64 * 2 ^ 25 + rs2.val * 2 ^ 20
      + rs1.val * 2 ^ 15 + 1 * 2 ^ 12 + offset.toNat / 2 % 16 * 2 ^ 8 + offset.toNat / 2048 % 2 * 2 ^ 7 + 0x63))
  | .vsetvli rd rs1 zimm =>
    some (BitVec.ofNat 32 (zimm.toNat * 2 ^ 20 + rs1.val * 2 ^ 15 + 7 * 2 ^ 12 + rd.val * 2 ^ 7 + 0x57))
  | .vmvVI vd simm5 => some (BitVec.ofNat 32 (0x5E003057 + simm5.toNat * 2 ^ 15 + vd.val * 2 ^ 7))
  | .vle8 vd rs1 masked => some (encodeUnitStride 0x07 0b000 vd rs1 masked)
  | .vle16 vd rs1 masked => some (encodeUnitStride 0x07 0b101 vd rs1 masked)
  | .vle32 vd rs1 masked => some (encodeUnitStride 0x07 0b110 vd rs1 masked)
  | .vse32 vs3 rs1 masked => some (encodeUnitStride 0x27 0b110 vs3 rs1 masked)

/-- The `match` of a row: its fixed fields in place, every operand bit 0 (30_encoding.md R85). -/
def OpcodeRow.matchWord (row : OpcodeRow) : Nat :=
  (row.fixed.map fun f => f.value * 2 ^ f.lsb).sum

/-- The `mask` of a row: the bits of its fixed fields (30_encoding.md R85). -/
def OpcodeRow.maskWord (row : OpcodeRow) : Nat :=
  (row.fixed.map fun f => (2 ^ f.width - 1) * 2 ^ f.lsb).sum

/-! ## Well-formed long encodings -/

/-- Two (match, mask) patterns share no word. -/
def disjointPatterns (m1 k1 m2 k2 : Insn) : Bool := (m1 ^^^ m2) &&& k1 &&& k2 != 0

/-- A parameter `ENC_*` is a pattern that some word has, disjoint from the encoded rows (92_eei_decisions.md D2). -/
def LongEncoding.wf (e : LongEncoding) : Bool :=
  e.fixedBits &&& e.mask == e.fixedBits
    && opcodeTable.all fun row =>
      disjointPatterns e.fixedBits e.mask (BitVec.ofNat 32 row.matchWord) (BitVec.ofNat 32 row.maskWord)

/-- Every bit of the word that the mask leaves open is the place of an operand bit, so that no bit is ignored. D2 does not
ask it. -/
def LongEncoding.covers (e : LongEncoding) : Bool :=
  (List.range 32).all fun k =>
    e.mask.getLsbD k || (e.vd.take 5 ++ e.vs2.take 5 ++ e.vs1.take 5 ++ [e.vm]).contains (.bit k)

/-- The parameters `ENC_*` that are configured. -/
def LongEncodings.configured (enc : LongEncodings) : List LongEncoding :=
  [enc.vqldotu, enc.vqldots, enc.vfwldot, enc.vfqldot, enc.vfqldotAlt].filterMap id

/-- The configured parameters `ENC_*` are well formed and pairwise disjoint (92_eei_decisions.md D2). -/
def LongEncodings.wf (enc : LongEncodings) : Bool :=
  enc.configured.all LongEncoding.wf &&
    decide (enc.configured.Pairwise fun a b => disjointPatterns a.fixedBits a.mask b.fixedBits b.mask = true)

/-- No configured parameter `ENC_*` leaves a bit of the word without a use. -/
def LongEncodings.covers (enc : LongEncodings) : Bool := enc.configured.all LongEncoding.covers

end Sys2Proof
end

