-- ==== Sys2Proof/Machine/Bits.lean ====
section
/-! DEFINITION. Bit-field and byte-order helpers (00_scope.md R7, R8; 20_memory.md R61). -/

namespace Sys2Proof.Machine

/-- The `width` bits of `n` whose lowest is bit `lsb` (00_scope.md R7). -/
def bitField (n lsb width : Nat) : Nat := n / 2 ^ lsb % 2 ^ width

/-- `n` with the `width` bits from bit `lsb` up replaced by those of `value`: the bits above the field, the field, the
bits below it. -/
def setBitField (n lsb width value : Nat) : Nat :=
  n / 2 ^ (lsb + width) * 2 ^ (lsb + width) + value % 2 ^ width * 2 ^ lsb + n % 2 ^ lsb

/-- The number whose little-endian bytes are `bytes` (20_memory.md R61). -/
def natOfBytes : List Byte → Nat
  | [] => 0
  | b :: rest => b.toNat + 2 ^ 8 * natOfBytes rest

/-- The `n` little-endian bytes of a number (20_memory.md R61). -/
def bytesOfNat : (n value : Nat) → List Byte
  | 0, _ => []
  | n + 1, value => BitVec.ofNat 8 value :: bytesOfNat n (value / 2 ^ 8)

/-- The bit length of a number: the position of its leading 1, counting from 1; 0 for 0 (42_bulk_normalization.md
R199). -/
def bitLength (n : Nat) : Nat := if n = 0 then 0 else n.log2 + 1

/-- `ceil(log2(n))`: the smallest `k` with `n ≤ 2 ^ k` (42_bulk_normalization.md R202). -/
def clog2 (n : Nat) : Nat := if n ≤ 1 then 0 else (n - 1).log2 + 1

end Sys2Proof.Machine
end

