-- ==== Sys2Proof/Machine/State.lean ====
section
/-! DEFINITION. The machine state as plain data, the reasons a step can stop, and the state after reset. -/

namespace Sys2Proof.Machine

/-- Memory: the bytes that have a value, as (address, byte) pairs in the order of their addresses (20_memory.md R61,
10_state.md R47). An address that is not listed has no value (10_state.md R50, log entry 8). -/
abbrev Memory := List Host.Cell

/-- The canonical form: addresses strictly rising, so that equal memories are equal lists. An unlisted address has no
value, so no entry can say what an unlisted address reads as. -/
abbrev Memory.wf (m : Memory) : Prop := m.Pairwise fun a b => a.1 < b.1

/-- The state of a context field of `mstatus` (10_state.md R44): Off, Initial, Clean, Dirty. -/
inductive ContextStatus where
  | off
  | initial
  | clean
  | dirty
  deriving DecidableEq, Repr

/-- The privilege modes of the model: machine mode only (60_exceptions.md R273). -/
inductive PrivMode where
  | machine
  deriving DecidableEq, Repr

/-- The fields of `mstatus` the spec names: `VS` and `FS` (10_state.md R44), and those of the base architecture's trap
entry (60_exceptions.md R269). -/
structure Mstatus where
  vs : ContextStatus
  fs : ContextStatus
  mie : Bool
  mpie : Bool
  mpp : PrivMode
  deriving DecidableEq, Repr

/-- The exceptions (60_exceptions.md R262, R264). -/
inductive Cause where
  | insnMisaligned
  | insnAccess
  | illegalInsn
  | loadMisaligned
  | loadAccess
  | storeMisaligned
  | storeAccess
  deriving DecidableEq, Repr

/-- The fault record (60_exceptions.md R269): cause code, pc of the instruction, value, `vstart`. -/
structure TrapRecord where
  cause : Cause
  pc : Word
  value : Word
  vstart : Word
  deriving DecidableEq, Repr

/-- The machine state. XLEN-bit registers stand in a `Word` (log entry 27). -/
structure State where
  /-- The parameters of the implementation and of the launch, which no step changes (00_scope.md R6). -/
  params : Params
  /-- `x0` to `x31`; `x0` is read as zero whatever stands here (10_state.md R21). -/
  x : Vector Word 32
  /-- The program counter (10_state.md R23). -/
  pc : Word
  /-- `v0` to `v31`, VLEN bits each (10_state.md R30). -/
  v : Vector VBits 32
  /-- `vtype` (10_state.md R37). -/
  vtype : Word
  /-- `vl` (10_state.md R39). -/
  vl : Word
  /-- `vstart` (10_state.md R40). -/
  vstart : Word
  /-- `frm` (10_state.md R41). -/
  frm : BitVec 3
  /-- `fflags`: bit 4 NV, 3 DZ, 2 OF, 1 UF, 0 NX (10_state.md R42). -/
  fflags : BitVec 5
  /-- `vxsat` (10_state.md R43). -/
  vxsat : BitVec 1
  /-- `vxrm` (10_state.md R43). -/
  vxrm : BitVec 2
  /-- The named fields of `mstatus`. -/
  mstatus : Mstatus
  /-- The privilege mode (60_exceptions.md R273). -/
  mode : PrivMode
  /-- `mepc` (60_exceptions.md R269). -/
  mepc : Word
  /-- `mcause` (60_exceptions.md R269). -/
  mcause : Word
  /-- `mtval` (60_exceptions.md R269). -/
  mtval : Word
  /-- `mtvec` (60_exceptions.md R269). -/
  mtvec : Word
  /-- The fault record with which the model stopped; `none` while it runs (60_exceptions.md R269, D21). -/
  stopped : Option TrapRecord
  /-- Memory (10_state.md R47). -/
  mem : Memory
  /-- The MODEL's own: the number of the next execution at which agnostic values are drawn (log entry 16). -/
  draws : Nat
  deriving DecidableEq, Repr

/-- Why the machine stops with a fault. -/
inductive Fault where
  /-- Raised by the eleven dot-product instructions, `vmv.v.i` and the vector loads and stores in a reserved
  configuration (00_scope.md R9, 60_exceptions.md R263, D1). Safe: hardware may go on in any way. -/
  | reservedInstruction
  /-- Raised by `step` on a machine that an exception has stopped: the fault record the spec's model yields
  (60_exceptions.md R269). Safe: no handler runs in the spec's model. -/
  | exception (record : TrapRecord)
  /-- Raised by a vector load, or by the fetch, that reads a byte of memory that nothing has written (10_state.md R50:
  "A model either faults on reading it"). Safe: hardware reads some value. -/
  | unwrittenMemory (addr : Nat)
  deriving DecidableEq, Repr

/-- Why the machine gives an instruction no meaning. -/
inductive Refusal where
  /-- An instruction that has no meaning yet, raised by `exec` only. Safe. -/
  | notModelled (mnemonic : String)
  /-- `vsetvli x0, x0, vtypei`: "the keep-vl form is outside this subset" (43_host_subset.md R238). Safe. -/
  | vsetvliKeepVl
  deriving DecidableEq, Repr

/-- The low XLEN bits of a launch value, the rest 0. -/
def launchWord (p : Params) (w : Word) : Word := BitVec.ofNat 64 (w.toNat % 2 ^ p.xlen.bits)

/-- The machine after reset (10_state.md R49; log entries 2 to 7, 16, 31): `vtype.vill` set and the rest of `vtype` zero,
`vl` zero, `mstatus.VS` and `FS` Off, machine mode, `pc` at `START_PC`, no byte of memory with a value, and the free
launch values where the spec says "unspecified". -/
def State.reset : State where
  params := .reset
  x := Vector.ofFn fun i => if i = 0 then 0 else launchWord .reset (Config.launchX i)
  pc := Params.reset.startPc
  v := Vector.ofFn fun i => Config.launchV i % 2 ^ Params.reset.vlen
  vtype := BitVec.ofNat 64 (2 ^ (Params.reset.xlen.bits - 1))
  vl := 0
  vstart := 0
  frm := 0
  fflags := 0
  vxsat := Config.launchVxsat
  vxrm := Config.launchVxrm
  mstatus := ⟨.off, .off, false, Config.launchMpie, .machine⟩
  mode := .machine
  mepc := launchWord .reset Config.launchMepc
  mcause := 0
  mtval := launchWord .reset Config.launchMtval
  mtvec := launchWord .reset Config.launchMtvec
  stopped := none
  mem := []
  draws := 0

/-- The launch state of this spec's programs, before their own start state is filled in: the reset state with
`mstatus.VS` and `FS` Initial (10_state.md R49, 70_reset_and_hazards.md R291 (1), log entry 5). -/
def State.launch : State :=
  { State.reset with mstatus := { State.reset.mstatus with vs := .initial, fs := .initial } }

end Sys2Proof.Machine
end

