-- ==== Sys2Proof/Machine/Ops.lean ====
section
/-! DEFINITION. The named operations over registers and memory (00_scope.md R9), and taking an exception and returning
from one (60_exceptions.md R262 to R271). -/

namespace Sys2Proof.Machine

/-! ## XLEN-bit values -/

/-- `trunc_XLEN` (00_scope.md R8). -/
def truncX (p : Params) (w : Word) : Word := BitVec.ofNat 64 (w.toNat % 2 ^ p.xlen.bits)

/-- `sext_XLEN` of a narrower bit vector (00_scope.md R8). -/
def sextX (p : Params) {n : Nat} (w : BitVec n) : Word := truncX p (w.signExtend 64)

/-! ## Integer registers and the program counter -/

/-- `x[i]`: `x[0]` reads 0 (00_scope.md R9). -/
def State.readX (s : State) (r : XReg) : Word := if r = 0 then 0 else truncX s.params (s.x.get r)

/-- `x[i] <- v`: writes to `x[0]` are ignored (00_scope.md R9). -/
def State.writeX (s : State) (r : XReg) (w : Word) : State :=
  if r = 0 then s else { s with x := s.x.set r (truncX s.params w) }

/-- `pc <- target`, modulo `2 ^ XLEN` (10_state.md R23). -/
def State.setPc (s : State) (target : Word) : State := { s with pc := truncX s.params target }

/-- `pc <- pc + 4` (00_scope.md R9). -/
def State.advance (s : State) : State := s.setPc (s.pc + 4)

/-! ## Vector registers -/

/-- `v[r]` (00_scope.md R9); there is no register past `v31`. -/
def State.vreg (s : State) (r : Nat) : VBits := if h : r < 32 then s.v[r] else 0

/-- `v[r] <- w`. -/
def State.setVreg (s : State) (r : Nat) (w : VBits) : State := { s with v := s.v.setIfInBounds r w }

/-- The register that holds element `i` of width `eew` of the group that starts at register `r` (10_state.md R33). -/
def State.elemReg (s : State) (r eew i : Nat) : Nat := r + i * eew / s.params.vlen

/-- The lowest bit of that element in its register (10_state.md R33). -/
def State.elemLsb (s : State) (eew i : Nat) : Nat := i * eew % s.params.vlen

/-- `velem(r, EEW, i)` (00_scope.md R9, 10_state.md R33). -/
def State.velem (s : State) (r eew i : Nat) : BitVec eew :=
  BitVec.ofNat eew (bitField (s.vreg (s.elemReg r eew i)) (s.elemLsb eew i) eew)

/-- `velem(r, EEW, i) <- w` (00_scope.md R9, 10_state.md R33). -/
def State.setVelem (s : State) (r eew i : Nat) (w : BitVec eew) : State :=
  s.setVreg (s.elemReg r eew i) (setBitField (s.vreg (s.elemReg r eew i)) (s.elemLsb eew i) eew w.toNat)

/-- `mask(i)`: bit `i` of `v0` (10_state.md R34). -/
def State.maskBit (s : State) (i : Nat) : Bool := (s.vreg 0).testBit i

/-- Element `i` takes part: the instruction is unmasked, or the mask bit is set. -/
def State.active (s : State) (masked : Bool) (i : Nat) : Bool := !masked || s.maskBit i

/-! ## Agnostic elements (92_eei_decisions.md D17, log entry 16) -/

/-- `draw({old value, all ones})` for element `i` where the policy bit is set, else the element unchanged
(41_zvbdot_batched.md R147, 40_zvldot_long.md R114). -/
def State.agnosticElem (s : State) (r eew : Nat) (agnostic : Bool) (i : Nat) : State :=
  if agnostic && Config.agnosticOnes s.draws i then s.setVelem r eew i (BitVec.allOnes eew) else s

/-- The same for every element of a list. -/
def State.agnosticElems (s : State) (r eew : Nat) (agnostic : Bool) : List Nat → State
  | [] => s
  | i :: rest => (s.agnosticElem r eew agnostic i).agnosticElems r eew agnostic rest

/-! ## `vtype` (10_state.md R36 to R38) -/

/-- `vtype.vill`, bit XLEN-1. -/
def State.vill (s : State) : Bool := s.vtype.getLsbD (s.params.xlen.bits - 1)

/-- `vtype.altfmt`, bit `ALTFMT_BIT`. -/
def State.altfmt (s : State) : Bool := s.vtype.getLsbD s.params.altfmtBit

/-- `vtype.vma`, bit 7. -/
def State.vma (s : State) : Bool := s.vtype.getLsbD 7

/-- `vtype.vta`, bit 6. -/
def State.vta (s : State) : Bool := s.vtype.getLsbD 6

/-- `vsew`, bits 5:3 of a `vtype` value. -/
def vsewOf (vtype : Word) : Nat := bitField vtype.toNat 3 3

/-- `vlmul`, bits 2:0 of a `vtype` value. -/
def vlmulOf (vtype : Word) : Nat := bitField vtype.toNat 0 3

/-- `SEW = 8 << vsew` (10_state.md R38). -/
def sewOf (vtype : Word) : Nat := 8 * 2 ^ vsewOf vtype

/-- LMUL counted in eighths, so that 1/8 is 1 and 8 is 64; 0 for the reserved code 100 (10_state.md R37). -/
def lmul8Of (vtype : Word) : Nat :=
  match vlmulOf vtype with
  | 0 => 8
  | 1 => 16
  | 2 => 32
  | 3 => 64
  | 5 => 1
  | 6 => 2
  | 7 => 4
  | _ => 0

/-- `VLMAX = LMUL * VLEN / SEW` of a `vtype` value (10_state.md R38). -/
def vlmaxOf (p : Params) (vtype : Word) : Nat := lmul8Of vtype * p.vlen / (8 * sewOf vtype)

/-- SEW. -/
def State.sew (s : State) : Nat := sewOf s.vtype

/-- LMUL in eighths. -/
def State.lmul8 (s : State) : Nat := lmul8Of s.vtype

/-- VLMAX. -/
def State.vlmax (s : State) : Nat := vlmaxOf s.params s.vtype

/-- `vsew` or `vlmul` holds a code that 10_state.md R37 calls reserved. No `vsetvli` sets one (log entry 25). -/
def State.vtypeReserved (s : State) : Bool := decide (3 < vsewOf s.vtype) || lmul8Of s.vtype == 0

/-- The number of registers a group of `emul8` eighths occupies, `max(1, EMUL)` (10_state.md R31). -/
def groupRegs (emul8 : Nat) : Nat := max 1 (emul8 / 8)

/-! ## Memory (20_memory.md) -/

/-- The byte at address `a`, if something has written it. -/
def Memory.read : Memory → (a : Nat) → Option Byte
  | [], _ => none
  | (b, byte) :: rest, a => if a = b then some byte else if a < b then none else Memory.read rest a

/-- Memory with `byte` at address `a`, in canonical form. -/
def Memory.write : Memory → (a : Nat) → (byte : Byte) → Memory
  | [], a, byte => [(a, byte)]
  | (b, old) :: rest, a, byte =>
    if a < b then (a, byte) :: (b, old) :: rest
    else if a = b then (a, byte) :: rest
    else (b, old) :: Memory.write rest a byte

/-- The bytes at `a` to `a + n - 1`, or the lowest address among them that has no value. -/
def Memory.readBytes (m : Memory) : (a n : Nat) → Except Nat (List Byte)
  | _, 0 => .ok []
  | a, n + 1 =>
    match m.read a with
    | none => .error a
    | some b =>
      match m.readBytes (a + 1) n with
      | .error e => .error e
      | .ok rest => .ok (b :: rest)

/-- Bytes stored at `a` and up. -/
def Memory.writeBytes (m : Memory) (a : Nat) : List Byte → Memory
  | [] => m
  | b :: rest => (m.write a b).writeBytes (a + 1) rest

/-- The address is in the range. -/
def regionHolds (r : Region) (a : Nat) : Bool := decide (r.base ≤ a) && decide (a < r.base + r.size)

/-- The address is in one of the ranges. -/
def inRegions (rs : List Region) (a : Nat) : Bool := rs.any (regionHolds · a)

/-- Every byte of `[a, a + n)` is program text (20_memory.md R69, 60_exceptions.md R264). -/
def inText (p : Params) (a n : Nat) : Bool := (List.range n).all fun k => inRegions p.text (a + k)

/-- Every byte of `[a, a + n)` is launch memory, program text or data (20_memory.md R64, D20). -/
def inLaunch (p : Params) (a n : Nat) : Bool :=
  (List.range n).all fun k => inRegions p.text (a + k) || inRegions p.data (a + k)

/-- Some byte of `[a, a + n)` is program text (20_memory.md R69). -/
def touchesText (p : Params) (a n : Nat) : Bool := (List.range n).any fun k => inRegions p.text (a + k)

/-! ## Exceptions (60_exceptions.md) -/

/-- The cause codes of 60_exceptions.md R264. -/
def Cause.code : Cause → Nat
  | .insnMisaligned => 0
  | .insnAccess => 1
  | .illegalInsn => 2
  | .loadMisaligned => 4
  | .loadAccess => 5
  | .storeMisaligned => 6
  | .storeAccess => 7

/-- The base of `mtvec`: its low two bits are the vectoring mode (60_exceptions.md R269; the place of the mode bits is
PRESUMED, log entry 11). -/
def State.trapBase (s : State) : Word := BitVec.ofNat 64 (s.mtvec.toNat / 4 * 4)

/-- Taking an exception at the instruction at `pc`. Under the policy `stop` (60_exceptions.md R269, D21) the model stops
with the fault record and all other state as the rules left it: the record stands in `stopped`, and the next step
answers it. Under the policy `enter` it is the trap entry to machine mode that R269 recalls from the base architecture:
`mepc`, `mcause` and `mtval` are written, `MPIE` takes `MIE`, `MIE` becomes 0, `MPP` the mode, and `pc` goes to the base of
`mtvec` (log entry 11). -/
def State.takeException (s : State) (cause : Cause) (value : Word) : State :=
  match s.params.trapPolicy with
  | .stop => { s with stopped := some ⟨cause, s.pc, value, s.vstart⟩ }
  | .enter =>
    { s with
      mepc := s.pc
      mcause := BitVec.ofNat 64 cause.code
      mtval := value
      mstatus := { s.mstatus with mpie := s.mstatus.mie, mie := false, mpp := s.mode }
      mode := .machine
      pc := truncX s.params s.trapBase }

/-- The return from a trap that 60_exceptions.md R271 recalls: `pc` from `mepc`, the mode from `MPP`, `MIE` from `MPIE`. No
instruction of the subset does it (R271); it is an operation of the environment's handler (log entry 11). -/
def State.returnFromTrap (s : State) : State :=
  { s with
    pc := truncX s.params s.mepc
    mode := s.mstatus.mpp
    mstatus := { s.mstatus with mie := s.mstatus.mpie } }

/-- The word at `pc`, where its four bytes have values. -/
def State.wordAtPc (s : State) : Option Insn :=
  match s.mem.readBytes s.pc.toNat 4 with
  | .ok bytes => some (BitVec.ofNat 32 (natOfBytes bytes))
  | .error _ => none

/-- The value recorded with an illegal-instruction exception: "the instruction word or 0" (60_exceptions.md R262), which
of the two is free (log entry 12). -/
def State.illegalValue (s : State) : Word :=
  match s.wordAtPc with
  | some w => if Config.tvalHoldsWord w then truncX s.params (w.setWidth 64) else 0
  | none => 0

/-- Taking the illegal-instruction exception (60_exceptions.md R262). -/
def State.raiseIllegal (s : State) : State := s.takeException .illegalInsn s.illegalValue

/-! ## What every vector instruction checks (10_state.md R44, 60_exceptions.md R262, R268) -/

/-- The conditions of 60_exceptions.md R262 under which a vector instruction is illegal, in the order of R268: its
extension is absent, `mstatus.VS` is Off, it is a floating-point form and `mstatus.FS` is Off, `vtype.vill` is set. -/
def State.vectorIllegal (s : State) (present fp : Bool) : Bool :=
  !present || s.mstatus.vs == .off || (fp && s.mstatus.fs == .off) || s.vill

/-- What every completed vector instruction does last: `vstart` becomes 0 and `pc` advances (10_state.md R40, D25); the
draws of the next execution are new ones (log entry 16). -/
def State.retireVector (s : State) : State :=
  { s with vstart := 0, draws := s.draws + 1 }.advance

end Sys2Proof.Machine
end

