-- ==== Sys2Proof/Machine/Flags.lean ====
section
/-! DEFINITION. Floating-point flags, rounding modes and the context status (10_state.md R41, R42, R44). -/

namespace Sys2Proof.Machine

/-- The flags an operation raises, as `fflags` bits: NV 4, DZ 3, OF 2, UF 1, NX 0 (10_state.md R42). -/
abbrev FpFlags := BitVec 5

/-- Invalid operation. -/
def flagNV : FpFlags := 0b10000

/-- Overflow. -/
def flagOF : FpFlags := 0b00100

/-- Underflow. -/
def flagUF : FpFlags := 0b00010

/-- Inexact. -/
def flagNX : FpFlags := 0b00001

/-- A flag if its condition holds. -/
def flagIf (cond : Bool) (f : FpFlags) : FpFlags := if cond then f else 0

/-- The `fflags` bits of the two flags of the bulk-normalized forms: NV and OF only (10_state.md R42). -/
def bulkFlags (nv overflow : Bool) : FpFlags := flagIf nv flagNV ||| flagIf overflow flagOF

/-- `accrue`: set sticky flags; none is ever cleared (10_state.md R42). -/
def State.accrue (s : State) (f : FpFlags) : State := { s with fflags := s.fflags ||| f }

/-- The rounding modes of `frm` (10_state.md R41). -/
inductive RoundingMode where
  | rne
  | rtz
  | rdn
  | rup
  | rmm
  deriving DecidableEq, Repr

/-- The rounding mode an `frm` value names; 101 to 111 are invalid (10_state.md R41). -/
def roundingModeOf (frm : BitVec 3) : Option RoundingMode :=
  match frm.toNat with
  | 0 => some .rne
  | 1 => some .rtz
  | 2 => some .rdn
  | 3 => some .rup
  | 4 => some .rmm
  | _ => none

/-- `frm` holds one of the values 5, 6, 7 (40_zvldot_long.md R112, 41_zvbdot_batched.md R150, D28). -/
def State.frmInvalid (s : State) : Bool := decide (5 ≤ s.frm.toNat)

/-- Executing any of the eleven sets `mstatus.VS` to Dirty, and a floating-point form sets `mstatus.FS` too
(10_state.md R44, D14). -/
def State.markDirty (s : State) (fp : Bool) : State :=
  { s with mstatus := { s.mstatus with vs := .dirty, fs := if fp then .dirty else s.mstatus.fs } }

end Sys2Proof.Machine
end

