-- ==== Sys2Proof/Machine/Rvbna.lean ====
section
/-! DEFINITION. Bulk normalization, the function `RVBNA2` of 42_bulk_normalization.md R202, with its two-format
generalisation (R211) and the factor formats of R182 and R210. Pure arithmetic on unbounded integers: encoded factors
and an encoded addend in, an encoded result and two flags out. -/

namespace Sys2Proof.Machine

/-- How the all-ones exponent of a factor format is read (42_bulk_normalization.md R192, R212). -/
inductive FactorKind where
  | ieee
  | e4m3
  deriving DecidableEq, Repr

/-- A factor format: `e` exponent bits, `p` significand bits, and its kind (42_bulk_normalization.md R181, R202). -/
structure FactorFmt where
  e : Nat
  p : Nat
  kind : FactorKind
  deriving DecidableEq, Repr

/-- BF16 (42_bulk_normalization.md R182). -/
def bf16 : FactorFmt := ⟨8, 8, .ieee⟩

/-- OCP E5M2 (R182, R210). -/
def e5m2 : FactorFmt := ⟨5, 3, .ieee⟩

/-- OCP E4M3 (R182, R210, R212). -/
def e4m3 : FactorFmt := ⟨4, 4, .e4m3⟩

/-- IEEE binary16, used by the appendix's example only (R182, R213). -/
def binary16 : FactorFmt := ⟨5, 11, .ieee⟩

/-- The exponent bias of a factor format (R181). -/
def FactorFmt.bias (f : FactorFmt) : Int := 2 ^ (f.e - 1) - 1

/-- The format of the addend and the result: `f` exponent bits and `q` significand bits (R181). -/
structure AccFmt where
  f : Nat
  q : Nat
  deriving DecidableEq, Repr

/-- FP32, the addend and result format of every instruction (R182). -/
def fp32Acc : AccFmt := ⟨8, 24⟩

/-- `addendBias` (R202). -/
def AccFmt.bias (c : AccFmt) : Int := 2 ^ (c.f - 1) - 1

/-- `overflowExp` (R202). -/
def AccFmt.overflowExp (c : AccFmt) : Nat := 2 ^ c.f - 1

/-- A word of the result format: sign, biased exponent, mantissa (R200). -/
def AccFmt.assemble (c : AccFmt) (sign : Bool) (exp mant : Nat) : Nat :=
  sign.toNat * 2 ^ (c.q + c.f - 1) + exp * 2 ^ (c.q - 1) + mant

/-- The canonical quiet NaN, `0x7FC00000` for FP32 (R193). -/
def AccFmt.canonicalNaN (c : AccFmt) : Nat := c.assemble false c.overflowExp (2 ^ (c.q - 2))

/-- An infinity (R189, R193). -/
def AccFmt.infinity (c : AccFmt) (sign : Bool) : Nat := c.assemble sign c.overflowExp 0

/-- `shift_rto`: a left shift for `s ≤ 0`, else a right shift whose last kept bit takes in every discarded one
(R196, R202). -/
def shiftRto (x : Nat) (s : Int) : Nat :=
  if s ≤ 0 then x * 2 ^ (-s).toNat
  else x / 2 ^ s.toNat ||| (if x % 2 ^ s.toNat = 0 then 0 else 1)

/-- A decoded operand (R191, R192): sign, class, significand and reference exponent before any bias. -/
structure Operand where
  sign : Bool
  isZero : Bool
  isInf : Bool
  isNaN : Bool
  isSNaN : Bool
  sig : Nat
  ref : Nat
  deriving DecidableEq, Repr

/-- Decoding a factor (R192, R202, R212). -/
def decodeFactor (fmt : FactorFmt) (X : Nat) : Operand :=
  let m := fmt.p - 1
  let maskExp := 2 ^ fmt.e - 1
  let exp := bitField X m fmt.e
  let mant := bitField X 0 m
  let isSub := exp == 0
  { sign := X.testBit (fmt.e + m)
    isZero := isSub && mant == 0
    isInf := match fmt.kind with
      | .ieee => exp == maskExp && mant == 0
      | .e4m3 => false
    isNaN := match fmt.kind with
      | .ieee => exp == maskExp && mant != 0
      | .e4m3 => exp == maskExp && mant == 2 ^ m - 1
    isSNaN := match fmt.kind with
      | .ieee => exp == maskExp && mant != 0 && !mant.testBit (m - 1)
      | .e4m3 => false
    sig := (if isSub then 0 else 2 ^ m) + mant
    ref := if isSub then 1 else exp }

/-- Decoding the addend (R191): an IEEE-style word of the result format. -/
def decodeAddend (c : AccFmt) (C : Nat) : Operand := decodeFactor ⟨c.f, c.q, .ieee⟩ C

/-- The special-value scan's variables (R193). -/
structure Scan where
  infinite : Bool
  infiniteSign : Bool
  nanResult : Bool
  invalid : Bool
  deriving DecidableEq, Repr

/-- The scan before the first product (R193). -/
def scanInit (c : Operand) : Scan := ⟨c.isInf, c.sign, c.isNaN, c.isSNaN⟩

/-- The sign of a product (R192). -/
def prodSign (a b : Operand) : Bool := a.sign ^^ b.sign

/-- One product of the special-value scan (R193). -/
def scanStep (st : Scan) (ab : Operand × Operand) : Scan :=
  let a := ab.1
  let b := ab.2
  let invalidProd := (a.isInf && b.isZero) || (b.isInf && a.isZero)
  let infiniteProd := (a.isInf && !b.isNaN && !b.isZero) || (b.isInf && !a.isNaN && !a.isZero)
  let invalidSum := st.infinite && infiniteProd && (st.infiniteSign != prodSign a b)
  { infinite := st.infinite || infiniteProd
    infiniteSign := if infiniteProd then prodSign a b else st.infiniteSign
    nanResult := st.nanResult || a.isNaN || b.isNaN || invalidProd || invalidSum
    invalid := st.invalid || invalidProd || invalidSum || a.isSNaN || b.isSNaN }

/-- The extremal reference exponent of a zero operand (R194). -/
def minExpOf (prodExpOffset : Int) : Int := min prodExpOffset 0

/-- The reference exponent of a product (R194). -/
def prodRef (offset : Int) (ab : Operand × Operand) : Int :=
  if ab.1.isZero || ab.2.isZero then minExpOf offset else (ab.1.ref : Int) + ab.2.ref + offset

/-- The reference exponent of the addend (R194). -/
def addendRef (offset : Int) (c : Operand) : Int := if c.isZero then minExpOf offset else c.ref

/-- `maxExp` (R195). -/
def maxExpOf (offset : Int) (c : Operand) (prods : List (Operand × Operand)) : Int :=
  prods.foldl (fun m ab => max m (prodRef offset ab)) (addendRef offset c)

/-- A magnitude with a sign. -/
def signedTerm (negative : Bool) (magnitude : Nat) : Int := if negative then -(magnitude : Int) else magnitude

/-- One aligned product (R196): `F` is the number of fractional bits of the accumulator grid and `p2` the width of a
product significand. -/
def alignedProduct (offset maxExp : Int) (F p2 : Nat) (ab : Operand × Operand) : Int :=
  signedTerm (prodSign ab.1 ab.2)
    (shiftRto (ab.1.sig * ab.2.sig) ((maxExp - prodRef offset ab) - ((F : Int) - ((p2 : Int) - 2))))

/-- The aligned addend (R197). -/
def alignedAddend (offset maxExp : Int) (g : Nat) (c : Operand) : Int :=
  signedTerm c.sign (shiftRto c.sig ((maxExp - addendRef offset c) - g))

/-- The accumulator (R198), an exact integer of unbounded width (R201). -/
def accumulate (offset maxExp : Int) (acc : AccFmt) (g p2 : Nat) (c : Operand) (prods : List (Operand × Operand)) : Int :=
  (prods.map (alignedProduct offset maxExp (acc.q - 1 + g) p2)).sum + alignedAddend offset maxExp g c

/-- Normalisation, final rounding to odd and assembly (R199): the result and whether it overflowed. -/
def normalise (acc : AccFmt) (g : Nat) (maxExp accumulator : Int) : Nat × Bool :=
  let mag := accumulator.natAbs
  let sign := decide (accumulator < 0)
  let L := bitLength mag
  let resExp : Int := maxExp + L - acc.q - g
  if accumulator = 0 then (0, false)
  else if acc.overflowExp ≤ resExp then (acc.infinity sign, true)
  else if 1 ≤ resExp then
    (acc.assemble sign resExp.toNat (shiftRto mag ((L : Int) - acc.q) % 2 ^ (acc.q - 1)), false)
  else (acc.assemble sign 0 (shiftRto mag (g + 1 - maxExp)), false)

/-- What a bulk-normalized dot product answers: the encoded result, invalid, overflow (R183). -/
structure BulkResult where
  bits : Nat
  nv : Bool
  overflow : Bool
  deriving DecidableEq, Repr

/-- `RVBNA2` (R202). `A` and `B` are the encoded factors, `C` the encoded addend, `n` the number of products. -/
def rvbna2 (fmtA fmtB : FactorFmt) (acc : AccFmt) (n : Nat) (A B : List Nat) (C : Nat) : BulkResult :=
  let g := clog2 n
  let offset : Int := -fmtA.bias - fmtB.bias + acc.bias
  let c := decodeAddend acc C
  let prods := (A.map (decodeFactor fmtA)).zip (B.map (decodeFactor fmtB))
  let scan := prods.foldl scanStep (scanInit c)
  if scan.nanResult then ⟨acc.canonicalNaN, scan.invalid, false⟩
  else if scan.infinite then ⟨acc.infinity scan.infiniteSign, false, false⟩
  else
    let maxExp := maxExpOf offset c prods
    let r := normalise acc g maxExp (accumulate offset maxExp acc g (fmtA.p + fmtB.p) c prods)
    ⟨r.1, false, r.2⟩

/-- `RVBNA`: the one-format case (R202). -/
def rvbna (fmt : FactorFmt) (acc : AccFmt) (n : Nat) (A B : List Nat) (C : Nat) : BulkResult :=
  rvbna2 fmt fmt acc n A B C

/-- `FP8_DOT`, the parameter of 00_scope.md R6: by default the function of R211, else the one that is substituted for it (D11,
log entry 14). -/
def fp8Dot (choice : Fp8Function) (fmtA fmtB : FactorFmt) (n : Nat) (A B : List Nat) (C : Nat) : BulkResult :=
  match choice with
  | .standard => rvbna2 fmtA fmtB fp32Acc n A B C
  | .substituted =>
    let r := Config.fp8Dot (decide (fmtA = e5m2)) (decide (fmtB = e5m2)) n A B C
    ⟨r.1.toNat, r.2.1, r.2.2⟩

end Sys2Proof.Machine
end

