-- ==== Sys2Proof/Machine/Fp32.lean ====
section
/-! DEFINITION. `FP32_DOT`, the arithmetic of `vfmmacc.vv` (41_zvbdot_batched.md R170 to R173). R171 leaves open which
products are rounded; R172 leaves open the tree of the sum and the format of each of its adders. These choices are an
argument here; the instruction passes the free ones of `Config` (log entry 18). -/

namespace Sys2Proof.Machine

/-! ## Values -/

/-- A floating-point datum: a NaN, an infinity, or the finite value `(-1) ^ sign * mant * 2 ^ exp`; a zero has
`mant = 0` and keeps its sign. -/
inductive FpVal where
  | nan
  | inf (sign : Bool)
  | fin (sign : Bool) (mant : Nat) (exp : Int)
  deriving DecidableEq, Repr

/-- A value and the flags raised in forming it. -/
structure FpOut where
  val : FpVal
  flags : FpFlags
  deriving DecidableEq, Repr

/-- The value of an FP32 pattern; a signaling NaN raises NV where it is used, in the first operation on it (R173 (c)). -/
def fp32Decode (w : BitVec 32) : FpOut :=
  let d := decodeFactor ⟨8, 24, .ieee⟩ w.toNat
  if d.isNaN then ⟨.nan, flagIf d.isSNaN flagNV⟩
  else if d.isInf then ⟨.inf d.sign, 0⟩
  else ⟨.fin d.sign d.sig ((d.ref : Int) - 127 - 23), 0⟩

/-- A binary format: `prec` bits of significand and `expBits` bits of exponent, IEEE style with subnormals. -/
structure BinFmt where
  prec : Nat
  expBits : Nat
  deriving DecidableEq, Repr

/-- FP32 (42_bulk_normalization.md R182). -/
def binFp32 : BinFmt := ⟨24, 8⟩

/-- The largest exponent of a finite number. -/
def BinFmt.emax (f : BinFmt) : Int := 2 ^ (f.expBits - 1) - 1

/-- The smallest exponent of a normal number. -/
def BinFmt.emin (f : BinFmt) : Int := 1 - f.emax

/-- Whether rounding away from zero is chosen, from the sign, the kept magnitude and the discarded part `rest` of the
`drop` low bits (10_state.md R41). -/
def roundsUp (rm : RoundingMode) (sign : Bool) (kept rest drop : Nat) : Bool :=
  match rm with
  | .rne => decide (2 ^ drop < 2 * rest) || (decide (2 * rest = 2 ^ drop) && kept.testBit 0)
  | .rtz => false
  | .rdn => sign && decide (rest ≠ 0)
  | .rup => !sign && decide (rest ≠ 0)
  | .rmm => decide (rest ≠ 0) && decide (2 ^ drop ≤ 2 * rest)

/-- The magnitude `mant` rounded to a multiple of `2 ^ drop`, in units of `2 ^ drop`. -/
def roundMag (rm : RoundingMode) (sign : Bool) (mant drop : Nat) : Nat :=
  mant / 2 ^ drop + (roundsUp rm sign (mant / 2 ^ drop) (mant % 2 ^ drop) drop).toNat

/-- On overflow the result is an infinity, unless the mode rounds towards the other side (IEEE 754, G8). -/
def overflowsToInf (rm : RoundingMode) (sign : Bool) : Bool :=
  match rm with
  | .rne => true
  | .rmm => true
  | .rtz => false
  | .rdn => sign
  | .rup => !sign

/-- A finite non-zero magnitude `mant * 2 ^ exp` is tiny in the format: below the smallest normal number, before
rounding, or after rounding as though the exponent range were unbounded (log entry 19). -/
def isTiny (fmt : BinFmt) (rm : RoundingMode) (afterRounding sign : Bool) (mant : Nat) (exp : Int) : Bool :=
  let e := exp + bitLength mant - 1
  if afterRounding then
    let quantum := e - (fmt.prec - 1)
    if quantum ≤ exp then decide (e < fmt.emin)
    else decide (quantum + bitLength (roundMag rm sign mant (quantum - exp).toNat) - 1 < fmt.emin)
  else decide (e < fmt.emin)

/-- Rounding to a format under a rounding mode, with the flags OF, UF and NX it raises (R172, R173). -/
def roundTo (fmt : BinFmt) (rm : RoundingMode) (afterRounding : Bool) : FpVal → FpOut
  | .nan => ⟨.nan, 0⟩
  | .inf sign => ⟨.inf sign, 0⟩
  | .fin sign mant exp =>
    if mant = 0 then ⟨.fin sign 0 0, 0⟩
    else
      let quantum := max (exp + bitLength mant - 1) fmt.emin - (fmt.prec - 1)
      let exact := decide (quantum ≤ exp) || mant % 2 ^ (quantum - exp).toNat == 0
      let kept := if quantum ≤ exp then mant * 2 ^ (exp - quantum).toNat else roundMag rm sign mant (quantum - exp).toNat
      if fmt.emax < quantum + bitLength kept - 1 then
        ⟨if overflowsToInf rm sign then .inf sign
          else .fin sign (2 ^ fmt.prec - 1) (fmt.emax - (fmt.prec - 1)), flagOF ||| flagNX⟩
      else
        ⟨.fin sign kept quantum,
          flagIf (!exact) flagNX ||| flagIf (!exact && isTiny fmt rm afterRounding sign mant exp) flagUF⟩

/-! ## Operations -/

/-- The exact product with IEEE 754's rules for infinities, NaNs and the sign of zero (R171). -/
def fpMul : FpVal → FpVal → FpOut
  | .nan, _ => ⟨.nan, 0⟩
  | _, .nan => ⟨.nan, 0⟩
  | .inf s1, .inf s2 => ⟨.inf (s1 ^^ s2), 0⟩
  | .inf s1, .fin s2 m _ => if m = 0 then ⟨.nan, flagNV⟩ else ⟨.inf (s1 ^^ s2), 0⟩
  | .fin s1 m _, .inf s2 => if m = 0 then ⟨.nan, flagNV⟩ else ⟨.inf (s1 ^^ s2), 0⟩
  | .fin s1 m1 e1, .fin s2 m2 e2 => ⟨.fin (s1 ^^ s2) (m1 * m2) (e1 + e2), 0⟩

/-- The exact sum with IEEE 754's rules: infinities of both signs are invalid, and an exact zero sum of terms that are
not both zeros of one sign is `+0`, or `-0` when rounding down (R172, R173). -/
def fpAdd (rm : RoundingMode) : FpVal → FpVal → FpOut
  | .nan, _ => ⟨.nan, 0⟩
  | _, .nan => ⟨.nan, 0⟩
  | .inf s1, .inf s2 => if s1 = s2 then ⟨.inf s1, 0⟩ else ⟨.nan, flagNV⟩
  | .inf s1, .fin _ _ _ => ⟨.inf s1, 0⟩
  | .fin _ _ _, .inf s2 => ⟨.inf s2, 0⟩
  | .fin s1 m1 e1, .fin s2 m2 e2 =>
    let e := min e1 e2
    let total := signedTerm s1 (m1 * 2 ^ (e1 - e).toNat) + signedTerm s2 (m2 * 2 ^ (e2 - e).toNat)
    if total = 0 then
      if m1 = 0 ∧ m2 = 0 ∧ s1 = s2 then ⟨.fin s1 0 0, 0⟩ else ⟨.fin (rm == .rdn) 0 0, 0⟩
    else ⟨.fin (decide (total < 0)) total.natAbs e, 0⟩

/-- The FP32 pattern of a value that FP32 holds; the NaN is the canonical one (R173 (c)). -/
def fp32Encode : FpVal → BitVec 32
  | .nan => 0x7FC00000
  | .inf sign => BitVec.ofNat 32 (fp32Acc.infinity sign)
  | .fin sign mant exp =>
    let e := exp + bitLength mant - 1
    if mant = 0 then BitVec.ofNat 32 (fp32Acc.assemble sign 0 0)
    else if e < -126 then BitVec.ofNat 32 (fp32Acc.assemble sign 0 (shiftRto mant (-149 - exp)))
    else BitVec.ofNat 32 (fp32Acc.assemble sign (e + 127).toNat (shiftRto mant (e - 23 - exp) % 2 ^ 23))

/-! ## The dot product -/

/-- What an implementation chooses in `FP32_DOT` (R171, R172). -/
structure Fp32Choices where
  keepExact : (a b : List (BitVec 32)) → (c : BitVec 32) → (frm : BitVec 3) → (vlmax vl k : Nat) → Bool
  pick : (vlmax vl step : Nat) → Nat × Nat
  extraPrecision : (vlmax vl step : Nat) → Nat
  extraExponent : (vlmax vl step : Nat) → Nat
  tininessAfterRounding : Bool

/-- The implementation's choices, which the spec leaves free (D13, log entries 18 and 19). -/
def freeFp32Choices : Fp32Choices where
  keepExact := Config.fp32KeepExact
  pick := Config.fp32Pick
  extraPrecision := Config.fp32ExtraPrecision
  extraExponent := Config.fp32ExtraExponent
  tininessAfterRounding := Config.tininessAfterRounding

/-- One product `P[k]` (R171): exact, or rounded to FP32 under the rounding mode. -/
def fp32Product (rm : RoundingMode) (afterRounding keepExact : Bool) (a b : BitVec 32) : FpOut :=
  let x := fp32Decode a
  let y := fp32Decode b
  let p := fpMul x.val y.val
  let r := if keepExact then ⟨p.val, 0⟩ else roundTo binFp32 rm afterRounding p.val
  ⟨r.val, x.flags ||| y.flags ||| p.flags ||| r.flags⟩

/-- The products of the eight-dot-product instruction's one dot product, from index `k` up (R171). -/
def fp32Products (rm : RoundingMode) (afterRounding : Bool) (keepExact : Nat → Bool) :
    (k : Nat) → List (BitVec 32) → List (BitVec 32) → List FpOut
  | k, a :: as, b :: bs =>
    fp32Product rm afterRounding (keepExact k) a b :: fp32Products rm afterRounding keepExact (k + 1) as bs
  | _, _, _ => []

/-- One two-input adder (R172): the exact sum, rounded to the adder's format. -/
def fp32Adder (fmt : BinFmt) (rm : RoundingMode) (afterRounding : Bool) (x y : FpVal) : FpOut :=
  let total := fpAdd rm x y
  let r := roundTo fmt rm afterRounding total.val
  ⟨r.val, total.flags ||| r.flags⟩

/-- The sum of the terms by some tree of two-input adders (R172): step after step two terms, at positions that `pick`
chooses, are replaced by their sum, until one term is left. `fuel` is the number of steps. -/
def fp32Tree (rm : RoundingMode) (afterRounding : Bool) (pick : Nat → Nat × Nat) (fmt : Nat → BinFmt) :
    (fuel step : Nat) → List FpVal → FpOut
  | _, _, [] => ⟨.fin false 0 0, 0⟩
  | _, _, [x] => ⟨x, 0⟩
  | 0, _, x :: _ => ⟨x, 0⟩
  | fuel + 1, step, x :: y :: rest =>
    let terms := x :: y :: rest
    let i := (pick step).1 % terms.length
    let left := terms.getD i .nan
    let others := terms.eraseIdx i
    let j := (pick step).2 % others.length
    let right := others.getD j .nan
    let node := fp32Adder (fmt step) rm afterRounding left right
    let out := fp32Tree rm afterRounding pick fmt fuel (step + 1) (node.val :: others.eraseIdx j)
    ⟨out.val, node.flags ||| out.flags⟩

/-- What a dot product answers: the new destination element and the flags it raises. -/
structure DotResult where
  bits : BitVec 32
  flags : FpFlags
  deriving DecidableEq, Repr

/-- `FP32_DOT` (R170 to R172) with given choices: the products and the accumulator summed by the tree, the root rounded
under the rounding mode to FP32. The accumulator is the last term. The optional extra additive identity of R172 changes
no value and is left out (log entry 20). -/
def fp32Dot (ch : Fp32Choices) (rm : RoundingMode) (frm : BitVec 3) (vlmax vl : Nat) (A B : List (BitVec 32))
    (C : BitVec 32) : DotResult :=
  let prods := fp32Products rm ch.tininessAfterRounding (ch.keepExact A B C frm vlmax vl) 0 A B
  let c := fp32Decode C
  let terms := prods.map (·.val) ++ [c.val]
  let root := fp32Tree rm ch.tininessAfterRounding (ch.pick vlmax vl)
    (fun step => ⟨24 + ch.extraPrecision vlmax vl step, 8 + ch.extraExponent vlmax vl step⟩) terms.length 0 terms
  let r := roundTo binFp32 rm ch.tininessAfterRounding root.val
  ⟨fp32Encode r.val, prods.foldl (fun f p => f ||| p.flags) 0 ||| c.flags ||| root.flags ||| r.flags⟩

end Sys2Proof.Machine
end

