-- ==== Sys2Proof/Machine/Operands.lean ====
section
/-! DEFINITION. The operand arrays of the dot products (40_zvldot_long.md R113, 41_zvbdot_batched.md R144), the dot
product of each data type, and the address of a vector memory element (43_host_subset.md R247). -/

namespace Sys2Proof.Machine

/-! ## Operand arrays -/

/-- One source array of a long instruction (R113): `VLMAX` elements of width `w` of the group at `r`, an element taken
if it is below `vl` and active, else the bit pattern of all zeros. -/
def State.longOperand (s : State) (w : Nat) (r : VReg) (masked : Bool) : List (BitVec w) :=
  (List.range s.vlmax).map fun i =>
    if i < s.vl.toNat ∧ s.active masked i = true then s.velem r w i else 0

/-- One source array of a batched dot product (R144): the `VLMAX` elements of width `w` of register `r`, the tail replaced
by zeros. -/
def State.batchOperand (s : State) (w : Nat) (r : Nat) : List (BitVec w) :=
  (List.range s.vlmax).map fun k => if k < s.vl.toNat then s.velem r w k else 0

/-! ## Integer dot products (R115, R116, R155, R156) -/

/-- The integer an 8-bit factor stands for. -/
def factorInt (signed : Bool) (b : BitVec 8) : Int := if signed then b.toInt else b.toNat

/-- The exact sum of products of two arrays. -/
def intDotSum (signedA signedB : Bool) (A B : List (BitVec 8)) : Int :=
  (List.zipWith (fun a b => factorInt signedA a * factorInt signedB b) A B).sum

/-- `trunc_32` of the accumulator plus the sum of products; no flag (R115, R155). -/
def intDot (signedA signedB : Bool) (A B : List (BitVec 8)) (C : BitVec 32) : DotResult :=
  ⟨BitVec.ofInt 32 (C.toNat + intDotSum signedA signedB A B), 0⟩

/-! ## Bulk-normalized dot products (R117 to R119, R160, R163, R164) -/

/-- A bulk-normalized result as a destination element and flags (42_bulk_normalization.md R200). -/
def bulkDot (r : BulkResult) : DotResult := ⟨BitVec.ofNat 32 r.bits, bulkFlags r.nv r.overflow⟩

/-- BF16 (R117, R160), with `n = VLMAX`. -/
def bf16Dot (n : Nat) (A B : List (BitVec 16)) (C : BitVec 32) : DotResult :=
  bulkDot (rvbna bf16 fp32Acc n (A.map (·.toNat)) (B.map (·.toNat)) C.toNat)

/-- The FP8 format `vtype.altfmt` selects for `vs1` (R118, R163). -/
def fp8Selected (altfmt : Bool) : FactorFmt := if altfmt then e5m2 else e4m3

/-- FP8 (R118, R119, R163, R164), with `n = VLMAX`. -/
def State.fp8DotOf (s : State) (fmtA fmtB : FactorFmt) (A B : List (BitVec 8)) (C : BitVec 32) : DotResult :=
  bulkDot (fp8Dot s.params.fp8Dot fmtA fmtB s.vlmax (A.map (·.toNat)) (B.map (·.toNat)) C.toNat)

/-! ## FP32 (R170) -/

/-- `FP32_DOT` under the state's rounding mode; an invalid one never reaches it (R150). -/
def State.fp32DotOf (s : State) (A B : List (BitVec 32)) (C : BitVec 32) : DotResult :=
  match roundingModeOf s.frm with
  | some rm => fp32Dot freeFp32Choices rm s.frm s.vlmax s.vl.toNat A B C
  | none => ⟨C, 0⟩

/-! ## Vector memory elements (43_host_subset.md R247) -/

/-- The address of element `i` of a unit-stride access, `trunc_XLEN(x[rs1] + i * EEW/8)`. -/
def State.elemAddr (s : State) (rs1 : XReg) (eew i : Nat) : Word :=
  truncX s.params (s.readX rs1 + BitVec.ofNat 64 (i * (eew / 8)))

/-- EMUL of a vector memory operand in eighths, `(EEW / SEW) * LMUL`; 0 where it is below 1/8. -/
def State.memEmul8 (s : State) (eew : Nat) : Nat := eew * s.lmul8 / s.sew

/-- One more than the highest element index of the destination of a load, `max(VLEN/EEW, EMUL*VLEN/EEW)`. -/
def State.memElems (s : State) (eew : Nat) : Nat :=
  max (s.params.vlen / eew) (s.memEmul8 eew * s.params.vlen / (8 * eew))

end Sys2Proof.Machine
end

