-- ==== Sys2Proof/Machine/Legality.lean ====
section
/-! DEFINITION. Whether an instruction may run: the legality functions `LongLegal` (40_zvldot_long.md R112) and
`BatchLegal` (41_zvbdot_batched.md R150), and those of the host subset's vector instructions (43_host_subset.md R241,
R247), in the order of 60_exceptions.md R268. -/

namespace Sys2Proof.Machine

/-- The verdict of a legality function. -/
inductive Verdict where
  /-- The instruction runs. -/
  | legal
  /-- The illegal-instruction exception (60_exceptions.md R262). -/
  | illegal
  /-- A reserved configuration (60_exceptions.md R263). -/
  | reserved
  deriving DecidableEq, Repr

/-- What one dot-product instruction requires (R112, R150): its extension is present, its SEW, the value of `altfmt` if
only one is defined, and whether it is a floating-point form. -/
structure DotKind where
  present : Bool
  sew : Nat
  altfmt : Option Bool
  fp : Bool
  deriving DecidableEq, Repr

/-- The verdict of the two tests in their order. -/
def verdictOf (illegal reserved : Bool) : Verdict :=
  if illegal then .illegal else if reserved then .reserved else .legal

/-- The reserved conditions of every dot product: `vstart`, a reserved code in `vtype`, SEW, `altfmt`, `frm` (R112, R150;
log entry 25 for the codes). -/
def State.dotReserved (s : State) (k : DotKind) : Bool :=
  decide (s.vstart ≠ 0) || s.vtypeReserved || decide (s.sew ≠ k.sew)
    || (match k.altfmt with
        | some a => s.altfmt != a
        | none => false)
    || (k.fp && s.frmInvalid)

/-- The register group of `n` registers at `base` contains register `r`. -/
def inGroup (base n r : Nat) : Bool := decide (base ≤ r) && decide (r < base + n)

/-- The group of `n` registers at `base` and the group of `m` registers at `r` share a register. -/
def groupsMeet (base n r m : Nat) : Bool := decide (base < r + m) && decide (r < base + n)

/-- The reserved conditions of the long family on its operands (R112): group alignment, overlap, the mask. -/
def State.longOperandsReserved (s : State) (vd vs2 vs1 : VReg) (masked : Bool) : Bool :=
  let n := groupRegs s.lmul8
  (decide (8 < s.lmul8) && (decide (vs2.val % n ≠ 0) || decide (vs1.val % n ≠ 0)))
    || inGroup vs2 n vd || inGroup vs1 n vd
    || (masked && vd == 0)

/-- `LongLegal` (R112). -/
def State.longLegal (s : State) (k : DotKind) (vd vs2 vs1 : VReg) (masked : Bool) : Verdict :=
  verdictOf (s.vectorIllegal k.present k.fp) (s.dotReserved k || s.longOperandsReserved vd vs2 vs1 masked)

/-- `EMULd = max(1, 256 / VLEN)`: the registers of a batched destination group (R143). -/
def emulD (p : Params) : Nat := max 1 (256 / p.vlen)

/-- `NEL = max(8, VLEN / 32)`: the elements of a batched destination group (R143). -/
def nel (p : Params) : Nat := max 8 (p.vlen / 32)

/-- The reserved conditions of the batched family on its operands (R150): LMUL, `ci`, group alignment, overlap, the mask.
That `vs2` is a multiple of 8 holds of every decoded term (R83); of any other term 10_state.md R32 says reserved. -/
def State.batchOperandsReserved (s : State) (vd vs2 vs1 : VReg) (ci : Nat) (masked : Bool) : Bool :=
  let n := emulD s.params
  decide (s.lmul8 ≠ 8) || decide (s.vlmax ≤ ci) || decide (nel s.params < ci + 8)
    || decide (vd.val % n ≠ 0) || decide (vs2.val % 8 ≠ 0)
    || inGroup vd n vs1 || groupsMeet vd n vs2 8
    || (masked && inGroup vd n 0)

/-- `BatchLegal` (R150). -/
def State.batchLegal (s : State) (k : DotKind) (vd vs2 vs1 : VReg) (ci : Nat) (masked : Bool) : Verdict :=
  verdictOf (s.vectorIllegal k.present k.fp) (s.dotReserved k || s.batchOperandsReserved vd vs2 vs1 ci masked)

/-- The legality of `vmv.v.i` (43_host_subset.md R241). -/
def State.moveLegal (s : State) (vd : VReg) : Verdict :=
  verdictOf (s.vectorIllegal true false)
    (s.vtypeReserved || (decide (8 < s.lmul8) && decide (vd.val % groupRegs s.lmul8 ≠ 0)))

/-- The legality of a unit-stride vector load or store (43_host_subset.md R247): EMUL from 1/8 to 8, group alignment, and
no masked load into `v0`. -/
def State.memLegal (s : State) (eew : Nat) (reg : VReg) (load masked : Bool) : Verdict :=
  let emul8 := s.memEmul8 eew
  verdictOf (s.vectorIllegal true false)
    (s.vtypeReserved || decide (emul8 < 1) || decide (64 < emul8)
      || (decide (8 < emul8) && decide (reg.val % groupRegs emul8 ≠ 0))
      || (load && masked && reg == 0))

end Sys2Proof.Machine
end

