-- ==== Sys2Proof/Machine/Dots.lean ====
section
/-! DEFINITION. The two shapes of a dot-product instruction: `long` (40_zvldot_long.md R113 to R119) and `batch`
(41_zvbdot_batched.md R144 to R152). Each takes the dot product of its data type as an argument. -/

namespace Sys2Proof.Machine

/-- What a legality verdict makes of an instruction: its effect, the illegal-instruction exception, or the stop on a
reserved configuration (60_exceptions.md R262, R263). -/
def underVerdict (v : Verdict) (illegal effect : State) : Host.Outcome State Fault Refusal :=
  match v with
  | .illegal => .next illegal
  | .reserved => .fault .reservedInstruction
  | .legal => .next effect

/-- Taking the illegal-instruction exception from one of the eleven: it is reported with a `vstart` of 0 and leaves `vstart`
0 (10_state.md R40, 41_zvbdot_batched.md R149, 60_exceptions.md R260; log entry 29). -/
def State.raiseDotIllegal (s : State) : State := { s with vstart := 0 }.raiseIllegal

/-- `vl = 0` under the policy `no_write`: no destination element and no flag is written (D9, log entry 15). -/
def State.skipsAtVl0 (s : State) : Bool := decide (s.vl = 0) && !Config.vl0Compute

/-! ## The long family -/

/-- The new element 0 of `vd` and its flags (R113, R115 to R119). -/
def State.longResult (s : State) (w : Nat) (vd vs2 vs1 : VReg) (masked : Bool)
    (dot : List (BitVec w) → List (BitVec w) → BitVec 32 → DotResult) : DotResult :=
  dot (s.longOperand w vs2 masked) (s.longOperand w vs1 masked) (s.velem vd 32 0)

/-- The indices of the tail elements of a long destination, 1 to `VLEN/32 - 1` (R114). -/
def State.longTail (s : State) : List Nat := List.range' 1 (s.params.vlen / 32 - 1)

/-- Writing a long result: element 0 of `vd`, the tail under `vta`, the flags (R114, R117). -/
def State.longWrite (s : State) (vd : VReg) (r : DotResult) : State :=
  ((s.setVelem vd 32 0 r.bits).agnosticElems vd 32 s.vta s.longTail).accrue r.flags

/-- A long dot-product instruction (R112 to R119). -/
def State.long (s : State) (k : DotKind) (w : Nat) (vd vs2 vs1 : VReg) (masked : Bool)
    (dot : List (BitVec w) → List (BitVec w) → BitVec 32 → DotResult) : Host.Outcome State Fault Refusal :=
  underVerdict (s.longLegal k vd vs2 vs1 masked) s.raiseDotIllegal
    ((if s.skipsAtVl0 then s else s.longWrite vd (s.longResult w vd vs2 vs1 masked dot)).markDirty k.fp).retireVector

/-! ## The batched family -/

/-- Dot product number `n` of a batched instruction: the new value of destination element `ci + n` and its flags, formed
from the state before the instruction (R147, R148). -/
def State.batchElem (s : State) (w : Nat) (vd vs2 vs1 : VReg) (ci : Nat) (masked : Bool)
    (dot : List (BitVec w) → List (BitVec w) → BitVec 32 → DotResult) (n : Nat) : DotResult :=
  let old := s.velem vd 32 (ci + n)
  if s.active masked (ci + n) then dot (s.batchOperand w (vs2.val + n)) (s.batchOperand w vs1) old
  else if s.vma && Config.agnosticOnes s.draws (ci + n) then ⟨BitVec.allOnes 32, 0⟩
  else ⟨old, 0⟩

/-- The write phase: destination elements `ci`, `ci + 1`, … take the results, and their flags accrue (R148). -/
def State.batchWrite (s : State) (vd : VReg) : (j : Nat) → List DotResult → State
  | _, [] => s
  | j, r :: rest => ((s.setVelem vd 32 j r.bits).accrue r.flags).batchWrite vd (j + 1) rest

/-- A batched dot-product instruction (R144 to R152). -/
def State.batch (s : State) (k : DotKind) (w : Nat) (vd vs2 vs1 : VReg) (ci : Nat) (masked : Bool)
    (dot : List (BitVec w) → List (BitVec w) → BitVec 32 → DotResult) : Host.Outcome State Fault Refusal :=
  underVerdict (s.batchLegal k vd vs2 vs1 ci masked) s.raiseDotIllegal
    ((if s.skipsAtVl0 then s
      else s.batchWrite vd ci ((List.range 8).map (s.batchElem w vd vs2 vs1 ci masked dot))).markDirty k.fp).retireVector

end Sys2Proof.Machine
end

