-- ==== Sys2Proof/Machine/BatchFamily.lean ====
section
/-! DEFINITION. The six batched dot-product instructions (41_zvbdot_batched.md R155 to R170). -/

namespace Sys2Proof.Machine

/-- `vqmmacc.u.vv` (R155): `vs2` unsigned, `vs1` by `altfmt`. -/
def execVqmmaccU (vd vs2 vs1 : VReg) (ci : Nat) (masked : Bool) (s : State) : Host.Outcome State Fault Refusal :=
  s.batch ⟨s.params.ext.zvreddot32a8i, 8, none, false⟩ 8 vd vs2 vs1 ci masked (intDot false s.altfmt)

/-- `vqmmacc.s.vv` (R156): `vs2` signed, `vs1` by `altfmt`. -/
def execVqmmaccS (vd vs2 vs1 : VReg) (ci : Nat) (masked : Bool) (s : State) : Host.Outcome State Fault Refusal :=
  s.batch ⟨s.params.ext.zvreddot32a8i, 8, none, false⟩ 8 vd vs2 vs1 ci masked (intDot true s.altfmt)

/-- `vfwmmacc.vv` (R160): BF16, `altfmt` 1. -/
def execVfwmmacc (vd vs2 vs1 : VReg) (ci : Nat) (masked : Bool) (s : State) : Host.Outcome State Fault Refusal :=
  s.batch ⟨s.params.ext.zvreddot32a16bf, 16, some true, true⟩ 16 vd vs2 vs1 ci masked (bf16Dot s.vlmax)

/-- `vfqmmacc.vv` (R163): `vs2` E4M3, `vs1` by `altfmt`. -/
def execVfqmmacc (vd vs2 vs1 : VReg) (ci : Nat) (masked : Bool) (s : State) : Host.Outcome State Fault Refusal :=
  s.batch ⟨s.params.ext.zvreddot32a8mxf, 8, none, true⟩ 8 vd vs2 vs1 ci masked
    (s.fp8DotOf e4m3 (fp8Selected s.altfmt))

/-- `vfqmmacc.alt.vv` (R164): `vs2` E5M2, `vs1` by `altfmt`. -/
def execVfqmmaccAlt (vd vs2 vs1 : VReg) (ci : Nat) (masked : Bool) (s : State) : Host.Outcome State Fault Refusal :=
  s.batch ⟨s.params.ext.zvreddot32a8mxf, 8, none, true⟩ 8 vd vs2 vs1 ci masked
    (s.fp8DotOf e5m2 (fp8Selected s.altfmt))

/-- `vfmmacc.vv` (R170): FP32, `altfmt` 0 (D15). -/
def execVfmmacc (vd vs2 vs1 : VReg) (ci : Nat) (masked : Bool) (s : State) : Host.Outcome State Fault Refusal :=
  s.batch ⟨s.params.ext.zvreddot32a32f, 32, some false, true⟩ 32 vd vs2 vs1 ci masked s.fp32DotOf

end Sys2Proof.Machine
end

