-- ==== Sys2Proof/Machine/HostInteger.lean ====
section
/-! DEFINITION. The integer instructions of the host subset (43_host_subset.md R233 to R236). -/

namespace Sys2Proof.Machine

/-- `add` (R233). -/
def execAdd (rd rs1 rs2 : XReg) (s : State) : Host.Outcome State Fault Refusal :=
  .next (s.writeX rd (s.readX rs1 + s.readX rs2)).advance

/-- `sub` (R234). -/
def execSub (rd rs1 rs2 : XReg) (s : State) : Host.Outcome State Fault Refusal :=
  .next (s.writeX rd (s.readX rs1 - s.readX rs2)).advance

/-- `addi` (R235). -/
def execAddi (rd rs1 : XReg) (imm : BitVec 12) (s : State) : Host.Outcome State Fault Refusal :=
  .next (s.writeX rd (s.readX rs1 + sextX s.params imm)).advance

/-- The target of a taken branch, `pc + offset` (R236). -/
def State.branchTarget (s : State) (offset : BitVec 13) : Word := truncX s.params (s.pc + sextX s.params offset)

/-- `bne` (R236): a taken branch to an address that is no multiple of 4 raises instruction-address-misaligned on the
branch, with the target as its value (60_exceptions.md R264). -/
def execBne (rs1 rs2 : XReg) (offset : BitVec 13) (s : State) : Host.Outcome State Fault Refusal :=
  if s.readX rs1 ≠ s.readX rs2 then
    if (s.branchTarget offset).toNat % 4 = 0 then .next (s.setPc (s.branchTarget offset))
    else .next (s.takeException .insnMisaligned (s.branchTarget offset))
  else .next s.advance

end Sys2Proof.Machine
end

