-- ==== Sys2Proof/Machine/LongFamily.lean ====
section
/-! DEFINITION. The five long dot-product instructions (40_zvldot_long.md R115 to R119). -/

namespace Sys2Proof.Machine

/-- `vqldotu.vv` (R115): `vs2` unsigned, `vs1` by `altfmt`. -/
def execVqldotu (vd vs2 vs1 : VReg) (masked : Bool) (s : State) : Host.Outcome State Fault Refusal :=
  s.long ⟨s.params.ext.zvqldot8i, 8, none, false⟩ 8 vd vs2 vs1 masked (intDot false s.altfmt)

/-- `vqldots.vv` (R116): `vs2` signed, `vs1` by `altfmt`. -/
def execVqldots (vd vs2 vs1 : VReg) (masked : Bool) (s : State) : Host.Outcome State Fault Refusal :=
  s.long ⟨s.params.ext.zvqldot8i, 8, none, false⟩ 8 vd vs2 vs1 masked (intDot true s.altfmt)

/-- `vfwldot.vv` (R117): BF16, `altfmt` 1. -/
def execVfwldot (vd vs2 vs1 : VReg) (masked : Bool) (s : State) : Host.Outcome State Fault Refusal :=
  s.long ⟨s.params.ext.zvfwldot16bf, 16, some true, true⟩ 16 vd vs2 vs1 masked (bf16Dot s.vlmax)

/-- `vfqldot.vv` (R118): `vs2` E4M3, `vs1` by `altfmt`. -/
def execVfqldot (vd vs2 vs1 : VReg) (masked : Bool) (s : State) : Host.Outcome State Fault Refusal :=
  s.long ⟨s.params.ext.zvfqldot8mxf, 8, none, true⟩ 8 vd vs2 vs1 masked (s.fp8DotOf e4m3 (fp8Selected s.altfmt))

/-- `vfqldot.alt.vv` (R119): `vs2` E5M2, `vs1` by `altfmt`. -/
def execVfqldotAlt (vd vs2 vs1 : VReg) (masked : Bool) (s : State) : Host.Outcome State Fault Refusal :=
  s.long ⟨s.params.ext.zvfqldot8mxf, 8, none, true⟩ 8 vd vs2 vs1 masked (s.fp8DotOf e5m2 (fp8Selected s.altfmt))

end Sys2Proof.Machine
end

