-- ==== Sys2Proof/Machine/VectorConfig.lean ====
section
/-! DEFINITION. Vector configuration and the vector move of the host subset (43_host_subset.md R238, R241). -/

namespace Sys2Proof.Machine

/-- `Supported(new)` (R238). For a fractional LMUL, SEW is at most LMUL * ELEN. -/
def supportedVtype (p : Params) (new : Word) : Bool :=
  let sew := sewOf new
  let lmul8 := lmul8Of new
  let altfmt := new.getLsbD p.altfmtBit
  decide (vsewOf new ≤ 3) && decide (sew ≤ p.elen) && decide (lmul8 ≠ 0)
    && (decide (8 ≤ lmul8) || decide (8 * sew ≤ lmul8 * p.elen))
    && decide (new.toNat < 2 ^ (p.altfmtBit + 1))
    && (!altfmt || decide (sew = 8 ∨ sew = 16))

/-- `VSETVL_POLICY(AVL, VLMAX)`: any value from `ceil(AVL/2)` to VLMAX, which one is free (R238, D24, log entry 17). -/
def vsetvlPolicy (avl vlmax : Nat) : Nat := max ((avl + 1) / 2) (min vlmax (Config.vsetvlChoice avl vlmax))

/-- The `vl` a supported setting gets (R238). -/
def newVl (avl vlmax : Nat) : Nat :=
  if avl ≤ vlmax then avl else if 2 * vlmax ≤ avl then vlmax else vsetvlPolicy avl vlmax

/-- AVL (R238): `x[rs1]`, or the largest number where `rs1` is `x0`. -/
def State.avl (s : State) (rs1 : XReg) : Nat :=
  if rs1 = 0 then 2 ^ s.params.xlen.bits - 1 else (s.readX rs1).toNat

/-- Writing a vector configuration: `vtype`, `vl` and `x[rd]`, and `vstart` becomes 0 (R238). -/
def State.setVectorConfig (s : State) (rd : XReg) (vtype : Word) (vl : Nat) : State :=
  let s' := { s with vtype := vtype, vl := BitVec.ofNat 64 vl, vstart := 0 }
  (s'.writeX rd (BitVec.ofNat 64 vl)).advance

/-- The `vtype` of an unsupported setting: `vill` set, the rest 0 (R238). -/
def villVtype (p : Params) : Word := BitVec.ofNat 64 (2 ^ (p.xlen.bits - 1))

/-- `vsetvli` (R238). With `rd` and `rs1` both `x0` the spec refuses it (log entry 24). It depends on no `vtype`, so of the
conditions of 60_exceptions.md R262 only `mstatus.VS` concerns it. -/
def execVsetvli (rd rs1 : XReg) (zimm : BitVec 11) (s : State) : Host.Outcome State Fault Refusal :=
  if s.mstatus.vs = .off then .next s.raiseIllegal
  else if rs1 = 0 ∧ rd = 0 then .refused .vsetvliKeepVl
  else if supportedVtype s.params (zimm.setWidth 64) then
    .next (s.setVectorConfig rd (zimm.setWidth 64) (newVl (s.avl rs1) (vlmaxOf s.params (zimm.setWidth 64))))
  else .next (s.setVectorConfig rd (villVtype s.params) 0)

/-- The body elements of a vector instruction, `vstart` to `vl - 1` (00_scope.md R11). -/
def State.bodyIndices (s : State) : List Nat := List.range' s.vstart.toNat (s.vl.toNat - s.vstart.toNat)

/-- The same value written to every element of a list. -/
def State.fillElems (s : State) (r eew : Nat) (value : BitVec eew) : List Nat → State
  | [] => s
  | i :: rest => (s.setVelem r eew i value).fillElems r eew value rest

/-- One more than the highest element index of the destination of `vmv.v.i` (R241): VLMAX, or the elements of one register
where LMUL is below 1. -/
def State.moveElems (s : State) : Nat := max s.vlmax (s.params.vlen / s.sew)

/-- The tail elements of `vmv.v.i` (R241). -/
def State.moveTail (s : State) : List Nat := List.range' s.vl.toNat (s.moveElems - s.vl.toNat)

/-- `vmv.v.i` (R241). -/
def execVmvVI (vd : VReg) (simm5 : BitVec 5) (s : State) : Host.Outcome State Fault Refusal :=
  underVerdict (s.moveLegal vd) s.raiseIllegal
    ((s.fillElems vd s.sew (simm5.signExtend s.sew) s.bodyIndices).agnosticElems vd s.sew s.vta s.moveTail).retireVector

end Sys2Proof.Machine
end

