-- ==== Sys2Proof/Machine/VectorMemory.lean ====
section
/-! DEFINITION. The unit-stride vector loads and stores of the host subset (43_host_subset.md R242 to R247). -/

namespace Sys2Proof.Machine

/-- What transferring one element comes to. -/
inductive ElemOutcome where
  /-- The element is transferred, or was not active. -/
  | done (s : State)
  /-- The element raises an exception, with its address as the value (60_exceptions.md R264). -/
  | trap (cause : Cause) (addr : Word)
  /-- The element reads a byte of memory that nothing has written (log entry 8); `drawn` is the state in which it takes a
  free value (log entry 21). -/
  | unwritten (addr : Nat) (drawn : State)

/-- Element `i` of a load (R247): address misaligned before access fault (60_exceptions.md R268 (4)). -/
def loadElem (eew : Nat) (vd : VReg) (rs1 : XReg) (masked : Bool) (s : State) (i : Nat) : ElemOutcome :=
  if s.active masked i then
    let addr := s.elemAddr rs1 eew i
    if addr.toNat % (eew / 8) ≠ 0 then .trap .loadMisaligned addr
    else if inLaunch s.params addr.toNat (eew / 8) then
      match s.mem.readBytes addr.toNat (eew / 8) with
      | .ok bytes => .done (s.setVelem vd eew i (BitVec.ofNat eew (natOfBytes bytes)))
      | .error a => .unwritten a (s.setVelem vd eew i (BitVec.ofNat eew (Config.unwrittenElem s.draws i)))
    else .trap .loadAccess addr
  else .done (s.agnosticElem vd eew s.vma i)

/-- Element `i` of a store (R247): the access faults outside the launch memory and inside the program text (20_memory.md
R69). A masked-off element stores nothing. -/
def storeElem (eew : Nat) (vs3 : VReg) (rs1 : XReg) (masked : Bool) (s : State) (i : Nat) : ElemOutcome :=
  if s.active masked i then
    let addr := s.elemAddr rs1 eew i
    if addr.toNat % (eew / 8) ≠ 0 then .trap .storeMisaligned addr
    else if inLaunch s.params addr.toNat (eew / 8) && !touchesText s.params addr.toNat (eew / 8) then
      .done { s with mem := s.mem.writeBytes addr.toNat (bytesOfNat (eew / 8) (s.velem vs3 eew i).toNat) }
    else .trap .storeAccess addr
  else .done s

/-- Elements above one that raised an exception: the accesses may be in any order (R247), so each that raises none itself
may have been transferred already; which ones is free, and one whose bytes nothing has written then holds a free value
(10_state.md R50, log entry 21). -/
def overrunElems (elem : State → Nat → ElemOutcome) (s : State) : List Nat → State
  | [] => s
  | i :: rest =>
    match Config.overrun s.draws i, elem s i with
    | true, .done s' => overrunElems elem s' rest
    | true, .unwritten _ drawn => overrunElems elem drawn rest
    | _, _ => overrunElems elem s rest

/-- The elements of a load or store one by one. An exception at element `i` leaves the elements below `i` transferred and
`vstart = i` (R247, 60_exceptions.md R270); otherwise the instruction ends as `finish` says. -/
def transferElems (elem : State → Nat → ElemOutcome) (finish : State → State) (s : State) :
    List Nat → Host.Outcome State Fault Refusal
  | [] => .next (finish s)
  | i :: rest =>
    match elem s i with
    | .done s' => transferElems elem finish s' rest
    | .trap cause addr =>
      let stoppedAt := overrunElems elem s rest
      .next ({ stoppedAt with vstart := BitVec.ofNat 64 i, draws := s.draws + 1 }.takeException cause addr)
    | .unwritten a _ => .fault (.unwrittenMemory a)

/-- A vector load or store under its legality verdict (R247). -/
def State.transferUnder (s : State) (v : Verdict) (elem : State → Nat → ElemOutcome) (finish : State → State) :
    Host.Outcome State Fault Refusal :=
  match v with
  | .illegal => .next s.raiseIllegal
  | .reserved => .fault .reservedInstruction
  | .legal => transferElems elem finish s s.bodyIndices

/-- The tail elements of a load, `vl` to the end of the destination (R247). -/
def State.memTail (s : State) (eew : Nat) : List Nat := List.range' s.vl.toNat (s.memElems eew - s.vl.toNat)

/-- How a load ends: the tail under `vta`, then as every vector instruction (R247). -/
def finishLoad (eew : Nat) (vd : VReg) (s : State) : State :=
  (s.agnosticElems vd eew s.vta (s.memTail eew)).retireVector

/-- A unit-stride load of elements of width `eew` (R247). -/
def State.vectorLoad (s : State) (eew : Nat) (vd : VReg) (rs1 : XReg) (masked : Bool) : Host.Outcome State Fault Refusal :=
  s.transferUnder (s.memLegal eew vd true masked) (loadElem eew vd rs1 masked) (finishLoad eew vd)

/-- A unit-stride store of elements of width `eew` (R247). -/
def State.vectorStore (s : State) (eew : Nat) (vs3 : VReg) (rs1 : XReg) (masked : Bool) : Host.Outcome State Fault Refusal :=
  s.transferUnder (s.memLegal eew vs3 false masked) (storeElem eew vs3 rs1 masked) State.retireVector

/-- `vle8.v` (R243). -/
def execVle8 (vd : VReg) (rs1 : XReg) (masked : Bool) (s : State) : Host.Outcome State Fault Refusal :=
  s.vectorLoad 8 vd rs1 masked

/-- `vle16.v` (R244). -/
def execVle16 (vd : VReg) (rs1 : XReg) (masked : Bool) (s : State) : Host.Outcome State Fault Refusal :=
  s.vectorLoad 16 vd rs1 masked

/-- `vle32.v` (R245). -/
def execVle32 (vd : VReg) (rs1 : XReg) (masked : Bool) (s : State) : Host.Outcome State Fault Refusal :=
  s.vectorLoad 32 vd rs1 masked

/-- `vse32.v` (R246). -/
def execVse32 (vs3 : VReg) (rs1 : XReg) (masked : Bool) (s : State) : Host.Outcome State Fault Refusal :=
  s.vectorStore 32 vs3 rs1 masked

end Sys2Proof.Machine
end

