-- ==== Sys2Proof/Machine/Dispatch.lean ====
section
/-! DEFINITION. The meaning of every instruction, one arm per constructor. -/

namespace Sys2Proof.Machine

def exec (i : Instr) (s : State) : Host.Outcome State Fault Refusal :=
  match i with
  -- 41_zvbdot_batched.md
  | .vqmmaccU vd vs2 vs1 ci masked => Sys2Proof.Machine.execVqmmaccU vd vs2 vs1 ci masked s
  | .vqmmaccS vd vs2 vs1 ci masked => Sys2Proof.Machine.execVqmmaccS vd vs2 vs1 ci masked s
  | .vfwmmacc vd vs2 vs1 ci masked => Sys2Proof.Machine.execVfwmmacc vd vs2 vs1 ci masked s
  | .vfqmmacc vd vs2 vs1 ci masked => Sys2Proof.Machine.execVfqmmacc vd vs2 vs1 ci masked s
  | .vfqmmaccAlt vd vs2 vs1 ci masked => Sys2Proof.Machine.execVfqmmaccAlt vd vs2 vs1 ci masked s
  | .vfmmacc vd vs2 vs1 ci masked => Sys2Proof.Machine.execVfmmacc vd vs2 vs1 ci masked s
  -- 40_zvldot_long.md
  | .vqldotu vd vs2 vs1 masked => Sys2Proof.Machine.execVqldotu vd vs2 vs1 masked s
  | .vqldots vd vs2 vs1 masked => Sys2Proof.Machine.execVqldots vd vs2 vs1 masked s
  | .vfwldot vd vs2 vs1 masked => Sys2Proof.Machine.execVfwldot vd vs2 vs1 masked s
  | .vfqldot vd vs2 vs1 masked => Sys2Proof.Machine.execVfqldot vd vs2 vs1 masked s
  | .vfqldotAlt vd vs2 vs1 masked => Sys2Proof.Machine.execVfqldotAlt vd vs2 vs1 masked s
  -- 43_host_subset.md
  | .add rd rs1 rs2 => Sys2Proof.Machine.execAdd rd rs1 rs2 s
  | .sub rd rs1 rs2 => Sys2Proof.Machine.execSub rd rs1 rs2 s
  | .addi rd rs1 imm => Sys2Proof.Machine.execAddi rd rs1 imm s
  | .bne rs1 rs2 offset => Sys2Proof.Machine.execBne rs1 rs2 offset s
  | .vsetvli rd rs1 zimm => Sys2Proof.Machine.execVsetvli rd rs1 zimm s
  | .vmvVI vd simm5 => Sys2Proof.Machine.execVmvVI vd simm5 s
  | .vle8 vd rs1 masked => Sys2Proof.Machine.execVle8 vd rs1 masked s
  | .vle16 vd rs1 masked => Sys2Proof.Machine.execVle16 vd rs1 masked s
  | .vle32 vd rs1 masked => Sys2Proof.Machine.execVle32 vd rs1 masked s
  | .vse32 vs3 rs1 masked => Sys2Proof.Machine.execVse32 vs3 rs1 masked s

end Sys2Proof.Machine
end

