-- ==== Sys2Proof/Machine/Fetch.lean ====
section
/-! DEFINITION. Fetching the instruction at `pc` (10_state.md R20, 20_memory.md R61, R62, 60_exceptions.md R264, R268). -/

namespace Sys2Proof.Machine

/-- What a fetch comes to. -/
inductive Fetched where
  /-- The instruction. -/
  | instr (i : Instr)
  /-- An exception, with its value. -/
  | trap (cause : Cause) (value : Word)
  /-- The word is no instruction of the hart (30_encoding.md R88, 60_exceptions.md R262 (a)). -/
  | invalid
  /-- A byte of the program text that nothing has written (log entry 8). -/
  | unwritten (addr : Nat)

/-- The fetch: `pc` a multiple of 4 (R62), within the program text (R264), four little-endian bytes (R61), decoded. The value
recorded where `pc` itself is misaligned is `pc`: R264 gives the value of code 0 for a taken `bne` only (DESIGN CHOICE, log
entry 33). -/
def State.fetch (s : State) : Fetched :=
  if s.pc.toNat % 4 ≠ 0 then .trap .insnMisaligned s.pc
  else if inText s.params s.pc.toNat 4 then
    match s.mem.readBytes s.pc.toNat 4 with
    | .error a => .unwritten a
    | .ok bytes =>
      match decodeBytes s.params bytes with
      | .ok (i, _) => .instr i
      | .error _ => .invalid
  else .trap .insnAccess s.pc

/-- `pc` has reached `END_PC` (92_eei_decisions.md D23). -/
def State.atEnd (s : State) : Bool := s.params.endPc == some s.pc

/-- The four bytes of a word at `pc`, and program text there: what loading one instruction takes. -/
def State.placeAtPc (s : State) (w : Insn) : State :=
  let text := if inText s.params s.pc.toNat 4 then s.params.text else ⟨s.pc.toNat, 4⟩ :: s.params.text
  let endPc := if s.atEnd then none else s.params.endPc
  { s with
    mem := s.mem.writeBytes s.pc.toNat (bytesOfInsn w)
    params := { s.params with text := text, endPc := endPc }
    stopped := none }

end Sys2Proof.Machine
end

