-- ==== Sys2Proof/Machine/Step.lean ====
section
/-! DEFINITION. One step of the hart (10_state.md R20). -/

namespace Sys2Proof.Machine

/-- One step. A machine that an exception has stopped answers its fault record (60_exceptions.md R269); a machine at
`END_PC` stays as it is (92_eei_decisions.md D23, log entry 10); otherwise the instruction at `pc` is fetched, decoded and
performed. -/
def step (s : State) : Host.Outcome State Fault Refusal :=
  match s.stopped with
  | some record => .fault (.exception record)
  | none =>
    if s.atEnd then .next s
    else
      match s.fetch with
      | .instr i => exec i s
      | .trap cause value => .next (s.takeException cause value)
      | .invalid => .next s.raiseIllegal
      | .unwritten a => .fault (.unwrittenMemory a)

/-- `s` with the instruction whose bits are `w` (bits from `nbits` up 0) stored where `step` fetches next (log entry 9). -/
def State.withFetchWord (s : State) (nbits w : Nat) : State := s.placeAtPc (BitVec.ofNat 32 (w % 2 ^ nbits))

end Sys2Proof.Machine
end

