-- ==== Sys2Proof/Machine/Csr.lean ====
section
/-! DEFINITION. CSR access by number (10_state.md R43, R45), for an environment: no instruction of the subset reads or
writes a CSR (60_exceptions.md R279, log entry 30). -/

namespace Sys2Proof.Machine

/-- `fcsr`: `frm` in bits 7:5 and `fflags` in bits 4:0 (R45). -/
def State.fcsr (s : State) : Word := BitVec.ofNat 64 (s.frm.toNat * 2 ^ 5 + s.fflags.toNat)

/-- `vcsr`: `vxrm` and `vxsat` combined (R43); `vxrm` in bits 2:1 and `vxsat` in bit 0 are PRESUMED (log entry 30). -/
def State.vcsr (s : State) : Word := BitVec.ofNat 64 (s.vxrm.toNat * 2 + s.vxsat.toNat)

/-- `vlenb`, `VLEN / 8` (R43). -/
def State.vlenb (s : State) : Word := BitVec.ofNat 64 (s.params.vlen / 8)

/-- Reading a CSR by its number (R45). -/
def State.csrRead (s : State) (number : BitVec 12) : Option Word :=
  match number.toNat with
  | 0x001 => some (s.fflags.setWidth 64)
  | 0x002 => some (s.frm.setWidth 64)
  | 0x003 => some s.fcsr
  | 0x008 => some s.vstart
  | 0x009 => some (s.vxsat.setWidth 64)
  | 0x00A => some (s.vxrm.setWidth 64)
  | 0x00F => some s.vcsr
  | 0xC20 => some s.vl
  | 0xC21 => some s.vtype
  | 0xC22 => some s.vlenb
  | _ => none

/-- Writing a CSR by its number; the last three of R45 are read-only. -/
def State.csrWrite (s : State) (number : BitVec 12) (w : Word) : Option State :=
  match number.toNat with
  | 0x001 => some { s with fflags := w.setWidth 5 }
  | 0x002 => some { s with frm := w.setWidth 3 }
  | 0x003 => some { s with frm := (w >>> 5).setWidth 3, fflags := w.setWidth 5 }
  | 0x008 => some { s with vstart := truncX s.params w }
  | 0x009 => some { s with vxsat := w.setWidth 1 }
  | 0x00A => some { s with vxrm := w.setWidth 2 }
  | 0x00F => some { s with vxrm := (w >>> 1).setWidth 2, vxsat := w.setWidth 1 }
  | _ => none

end Sys2Proof.Machine
end

