-- ==== Sys2Proof/Safety.lean ====
section
/-! DEFINITION. What counts as a well-formed state and as a safe run, in the terms the statements use. -/

namespace Sys2Proof.Machine

/-- A value fits in XLEN bits. -/
abbrev fitsX (p : Params) (w : Word) : Prop := w.toNat < 2 ^ p.xlen.bits

/-- `vtype` is one that `vsetvli` can leave: only `vill` set, with `vl = 0`, or a supported setting with `vl` at most VLMAX
(10_state.md R37, R39; 43_host_subset.md R238). -/
abbrev State.configWf (s : State) : Prop :=
  (s.vtype = villVtype s.params ∧ s.vl = 0)
    ∨ (supportedVtype s.params s.vtype = true ∧ s.vl.toNat ≤ s.vlmax)

/-- The invariant of the machine: the parameters are those of a hart, memory is in canonical form inside the address space,
`pc` is an aligned address, every XLEN-bit register fits in XLEN bits and every vector register in VLEN bits, and `vtype`
and `vl` are as `vsetvli` leaves them (10_state.md R21, R23, R30, R37, R39, R47; 92_eei_decisions.md D26). -/
structure State.Inv (s : State) : Prop where
  params : s.params.wf = true
  memCanonical : s.mem.wf
  memInSpace : ∀ c ∈ s.mem, c.1 < 2 ^ s.params.xlen.bits
  pcAligned : s.pc.toNat % 4 = 0
  pcFits : fitsX s.params s.pc
  xFits : ∀ r : XReg, fitsX s.params (s.x.get r)
  vFits : ∀ r : VReg, s.vreg r < 2 ^ s.params.vlen
  vstartFits : fitsX s.params s.vstart
  mepcFits : fitsX s.params s.mepc
  mcauseFits : fitsX s.params s.mcause
  mtvalFits : fitsX s.params s.mtval
  mtvecFits : fitsX s.params s.mtvec
  config : s.configWf

/-- A step that neither faults nor refuses nor leaves the machine stopped by an exception: what a claim about an
exception-free run asks of each step (60_exceptions.md R269). -/
def runsOn (s : State) : Prop := ∃ t, step s = .next t ∧ t.stopped = none

/-- `k` steps, all of which run on. -/
def runsOnFor : Nat → State → Prop
  | 0, _ => True
  | k + 1, s => ∃ t, step s = .next t ∧ t.stopped = none ∧ runsOnFor k t

end Sys2Proof.Machine
end

