-- ==== Sys2Proof/Terms.lean ====
section
/-! DEFINITION. The terms of the statements: when an instruction runs, what it leaves alone, and the values the rules give,
written out from the rules and apart from the functions the meanings call. -/

namespace Sys2Proof.Machine

/-! ## The instructions by family -/

/-- The five long instructions (40_zvldot_long.md). -/
inductive LongOp where
  | vqldotu
  | vqldots
  | vfwldot
  | vfqldot
  | vfqldotAlt
  deriving DecidableEq, Repr

/-- The instruction. -/
def LongOp.instr (op : LongOp) (vd vs2 vs1 : VReg) (masked : Bool) : Instr :=
  match op with
  | .vqldotu => .vqldotu vd vs2 vs1 masked
  | .vqldots => .vqldots vd vs2 vs1 masked
  | .vfwldot => .vfwldot vd vs2 vs1 masked
  | .vfqldot => .vfqldot vd vs2 vs1 masked
  | .vfqldotAlt => .vfqldotAlt vd vs2 vs1 masked

/-- Its extension is in `EXT` (00_scope.md R1). -/
def LongOp.present (op : LongOp) (e : Extensions) : Bool :=
  match op with
  | .vqldotu => e.zvqldot8i
  | .vqldots => e.zvqldot8i
  | .vfwldot => e.zvfwldot16bf
  | .vfqldot => e.zvfqldot8mxf
  | .vfqldotAlt => e.zvfqldot8mxf

/-- It is a floating-point form. -/
def LongOp.fp : LongOp → Bool
  | .vqldotu => false
  | .vqldots => false
  | .vfwldot => true
  | .vfqldot => true
  | .vfqldotAlt => true

/-- The SEW it requires (40_zvldot_long.md R112). -/
def LongOp.sew : LongOp → Nat
  | .vqldotu => 8
  | .vqldots => 8
  | .vfwldot => 16
  | .vfqldot => 8
  | .vfqldotAlt => 8

/-- The value of `altfmt` it requires, if any (40_zvldot_long.md R112). -/
def LongOp.altfmt : LongOp → Option Bool
  | .vqldotu => none
  | .vqldots => none
  | .vfwldot => some true
  | .vfqldot => none
  | .vfqldotAlt => none

/-- The six batched instructions (41_zvbdot_batched.md). -/
inductive BatchOp where
  | vqmmaccU
  | vqmmaccS
  | vfwmmacc
  | vfqmmacc
  | vfqmmaccAlt
  | vfmmacc
  deriving DecidableEq, Repr

/-- The instruction. -/
def BatchOp.instr (op : BatchOp) (vd vs2 vs1 : VReg) (ci : Nat) (masked : Bool) : Instr :=
  match op with
  | .vqmmaccU => .vqmmaccU vd vs2 vs1 ci masked
  | .vqmmaccS => .vqmmaccS vd vs2 vs1 ci masked
  | .vfwmmacc => .vfwmmacc vd vs2 vs1 ci masked
  | .vfqmmacc => .vfqmmacc vd vs2 vs1 ci masked
  | .vfqmmaccAlt => .vfqmmaccAlt vd vs2 vs1 ci masked
  | .vfmmacc => .vfmmacc vd vs2 vs1 ci masked

/-- Its extension is in `EXT` (00_scope.md R1). -/
def BatchOp.present (op : BatchOp) (e : Extensions) : Bool :=
  match op with
  | .vqmmaccU => e.zvreddot32a8i
  | .vqmmaccS => e.zvreddot32a8i
  | .vfwmmacc => e.zvreddot32a16bf
  | .vfqmmacc => e.zvreddot32a8mxf
  | .vfqmmaccAlt => e.zvreddot32a8mxf
  | .vfmmacc => e.zvreddot32a32f

/-- It is a floating-point form. -/
def BatchOp.fp : BatchOp → Bool
  | .vqmmaccU => false
  | .vqmmaccS => false
  | .vfwmmacc => true
  | .vfqmmacc => true
  | .vfqmmaccAlt => true
  | .vfmmacc => true

/-- The SEW it requires (41_zvbdot_batched.md R143). -/
def BatchOp.sew : BatchOp → Nat
  | .vqmmaccU => 8
  | .vqmmaccS => 8
  | .vfwmmacc => 16
  | .vfqmmacc => 8
  | .vfqmmaccAlt => 8
  | .vfmmacc => 32

/-- The value of `altfmt` it requires, if any (41_zvbdot_batched.md R150). -/
def BatchOp.altfmt : BatchOp → Option Bool
  | .vqmmaccU => none
  | .vqmmaccS => none
  | .vfwmmacc => some true
  | .vfqmmacc => none
  | .vfqmmaccAlt => none
  | .vfmmacc => some false

/-- An instruction is one of the eleven. -/
def isDot : Instr → Prop := fun i =>
  (∃ op vd vs2 vs1 masked, i = LongOp.instr op vd vs2 vs1 masked)
    ∨ (∃ op vd vs2 vs1 ci masked, i = BatchOp.instr op vd vs2 vs1 ci masked)

/-- An instruction is one of the six bulk-normalized ones (10_state.md R42). -/
def isBulk : Instr → Prop := fun i =>
  (∃ op vd vs2 vs1 masked, LongOp.fp op = true ∧ i = LongOp.instr op vd vs2 vs1 masked)
    ∨ (∃ op vd vs2 vs1 ci masked, BatchOp.fp op = true ∧ op ≠ .vfmmacc ∧ i = BatchOp.instr op vd vs2 vs1 ci masked)

/-- The instruction's extension is in `EXT`; the host subset belongs to none. -/
def extPresent (e : Extensions) : Instr → Bool
  | .vqmmaccU _ _ _ _ _ => e.zvreddot32a8i
  | .vqmmaccS _ _ _ _ _ => e.zvreddot32a8i
  | .vfwmmacc _ _ _ _ _ => e.zvreddot32a16bf
  | .vfqmmacc _ _ _ _ _ => e.zvreddot32a8mxf
  | .vfqmmaccAlt _ _ _ _ _ => e.zvreddot32a8mxf
  | .vfmmacc _ _ _ _ _ => e.zvreddot32a32f
  | .vqldotu _ _ _ _ => e.zvqldot8i
  | .vqldots _ _ _ _ => e.zvqldot8i
  | .vfwldot _ _ _ _ => e.zvfwldot16bf
  | .vfqldot _ _ _ _ => e.zvfqldot8mxf
  | .vfqldotAlt _ _ _ _ => e.zvfqldot8mxf
  | .add _ _ _ => true
  | .sub _ _ _ => true
  | .addi _ _ _ => true
  | .bne _ _ _ => true
  | .vsetvli _ _ _ => true
  | .vmvVI _ _ => true
  | .vle8 _ _ _ => true
  | .vle16 _ _ _ => true
  | .vle32 _ _ _ => true
  | .vse32 _ _ _ => true

/-- The instruction is one of the five whose encoding is a parameter (30_encoding.md R86). -/
def isLong : Instr → Bool
  | .vqldotu _ _ _ _ => true
  | .vqldots _ _ _ _ => true
  | .vfwldot _ _ _ _ => true
  | .vfqldot _ _ _ _ => true
  | .vfqldotAlt _ _ _ _ => true
  | _ => false

/-! ## When an instruction runs -/

/-- A vector instruction is enabled (60_exceptions.md R262 (a) to (c)): its extension is present, `mstatus.VS` is not Off,
`mstatus.FS` is not Off for a floating-point form, and `vill` is clear. -/
abbrev enabled (s : State) (present fp : Bool) : Prop :=
  present = true ∧ s.mstatus.vs ≠ .off ∧ (fp = true → s.mstatus.fs ≠ .off) ∧ s.vill = false

/-- The configuration a dot product requires (40_zvldot_long.md R112, 41_zvbdot_batched.md R150): `vstart` 0, a `vtype`
without a reserved code (10_state.md R37), its SEW, the value of `altfmt` it requires, and for a floating-point form a
valid `frm`. -/
abbrev dotConfigured (s : State) (sew : Nat) (altfmt : Option Bool) (fp : Bool) : Prop :=
  s.vstart = 0 ∧ vsewOf s.vtype ≤ 3 ∧ vlmulOf s.vtype ≠ 4 ∧ s.sew = sew ∧ (∀ a ∈ altfmt, s.altfmt = a)
    ∧ (fp = true → s.frm.toNat ≤ 4)

/-- The number of registers of a group at LMUL, from LMUL in eighths. -/
abbrev lmulRegs (s : State) : Nat := max 1 (s.lmul8 / 8)

/-- The operand conditions of the long family (40_zvldot_long.md R112). -/
abbrev longOperandsLegal (s : State) (vd vs2 vs1 : VReg) (masked : Bool) : Prop :=
  (8 < s.lmul8 → vs2.val % lmulRegs s = 0 ∧ vs1.val % lmulRegs s = 0)
    ∧ ¬(vs2.val ≤ vd.val ∧ vd.val < vs2.val + lmulRegs s)
    ∧ ¬(vs1.val ≤ vd.val ∧ vd.val < vs1.val + lmulRegs s)
    ∧ ¬(masked = true ∧ vd = 0)

/-- A long instruction runs (R112, 60_exceptions.md R262). -/
abbrev longRuns (op : LongOp) (s : State) (vd vs2 vs1 : VReg) (masked : Bool) : Prop :=
  enabled s (op.present s.params.ext) op.fp ∧ dotConfigured s op.sew op.altfmt op.fp
    ∧ longOperandsLegal s vd vs2 vs1 masked

/-- The operand conditions of the batched family (41_zvbdot_batched.md R150), with `EMULd = max(1, 256/VLEN)` and
`NEL = max(8, VLEN/32)`; `vs2` a multiple of 8 is what its field can hold (30_encoding.md R83). -/
abbrev batchOperandsLegal (s : State) (vd vs2 vs1 : VReg) (ci : Nat) (masked : Bool) : Prop :=
  s.lmul8 = 8 ∧ ci < s.vlmax ∧ ci + 8 ≤ max 8 (s.params.vlen / 32)
    ∧ vd.val % max 1 (256 / s.params.vlen) = 0 ∧ vs2.val % 8 = 0
    ∧ ¬(vd.val ≤ vs1.val ∧ vs1.val < vd.val + max 1 (256 / s.params.vlen))
    ∧ ¬(vd.val < vs2.val + 8 ∧ vs2.val < vd.val + max 1 (256 / s.params.vlen))
    ∧ ¬(masked = true ∧ vd = 0)

/-- A batched instruction runs (R150, 60_exceptions.md R262). -/
abbrev batchRuns (op : BatchOp) (s : State) (vd vs2 vs1 : VReg) (ci : Nat) (masked : Bool) : Prop :=
  enabled s (op.present s.params.ext) op.fp ∧ dotConfigured s op.sew op.altfmt op.fp
    ∧ batchOperandsLegal s vd vs2 vs1 ci masked

/-- `vmv.v.i` runs (43_host_subset.md R241). -/
abbrev moveRuns (s : State) (vd : VReg) : Prop :=
  enabled s true false ∧ vsewOf s.vtype ≤ 3 ∧ vlmulOf s.vtype ≠ 4 ∧ (8 < s.lmul8 → vd.val % lmulRegs s = 0)

/-- EMUL of a vector memory operand in eighths, `(EEW / SEW) * LMUL` (43_host_subset.md R247). -/
abbrev emul8Of (s : State) (eew : Nat) : Nat := eew * s.lmul8 / s.sew

/-- A vector load or store runs (43_host_subset.md R247). -/
abbrev memRuns (s : State) (eew : Nat) (reg : VReg) (load masked : Bool) : Prop :=
  enabled s true false ∧ vsewOf s.vtype ≤ 3 ∧ vlmulOf s.vtype ≠ 4
    ∧ 1 ≤ emul8Of s eew ∧ emul8Of s eew ≤ 64
    ∧ (8 < emul8Of s eew → reg.val % (emul8Of s eew / 8) = 0)
    ∧ ¬(load = true ∧ masked = true ∧ reg = 0)

/-! ## What an instruction leaves -/

/-- `pc + 4` modulo `2 ^ XLEN` (10_state.md R23, R24). -/
abbrev nextPc (s : State) : Word := BitVec.ofNat 64 ((s.pc.toNat + 4) % 2 ^ 64 % 2 ^ s.params.xlen.bits)

/-- `mstatus` after one of the eleven (10_state.md R44). -/
abbrev dirtyStatus (s : State) (fp : Bool) : Mstatus :=
  { s.mstatus with vs := .dirty, fs := if fp then .dirty else s.mstatus.fs }

/-- The frame of a dot product that runs: all but the vector registers, `fflags`, `vstart`, `pc`, `mstatus.VS` and `FS` and
the model's own counter is unchanged; `vstart` is 0, `pc` the next instruction (10_state.md R24, R35, R40, R44). -/
abbrev dotFrame (s t : State) (fp : Bool) : Prop :=
  t = { s with v := t.v, fflags := t.fflags, vstart := 0, pc := nextPc s, mstatus := dirtyStatus s fp, draws := t.draws }

/-- The frame of `vmv.v.i` and the vector loads: only vector registers, `vstart`, `pc` and the model's own counter change. -/
abbrev vectorFrame (s t : State) : Prop :=
  t = { s with v := t.v, vstart := 0, pc := nextPc s, draws := t.draws }

/-- An element keeps its value, or, where its policy is agnostic, is all ones (92_eei_decisions.md D17). -/
abbrev keptOrOnes (s t : State) (agnostic : Bool) (r eew i : Nat) : Prop :=
  t.velem r eew i = s.velem r eew i ∨ (agnostic = true ∧ t.velem r eew i = BitVec.allOnes eew)

/-- The effect of a long instruction on `vd` besides element 0: every other register is unchanged, and the elements 1 and up
of `vd` follow the tail policy (40_zvldot_long.md R114). -/
abbrev longRest (s t : State) (vd : VReg) : Prop :=
  (∀ r : VReg, r ≠ vd → t.vreg r = s.vreg r)
    ∧ ∀ i, 1 ≤ i → i < s.params.vlen / 32 → keptOrOnes s t s.vta vd 32 i

/-- The effect of a batched instruction outside its eight elements: registers outside the destination group, and the elements
of the group outside `ci` to `ci + 7`, are unchanged (41_zvbdot_batched.md R151). -/
abbrev batchRest (s t : State) (vd : VReg) (ci : Nat) : Prop :=
  (∀ r : VReg, ¬(vd.val ≤ r.val ∧ r.val < vd.val + max 1 (256 / s.params.vlen)) → t.vreg r = s.vreg r)
    ∧ ∀ j, j < max 8 (s.params.vlen / 32) → ¬(ci ≤ j ∧ j < ci + 8) → t.velem vd 32 j = s.velem vd 32 j

/-! ## Values -/

/-- An 8-bit factor as an integer (40_zvldot_long.md R115, R116). -/
def factorValue (signed : Bool) (b : BitVec 8) : Int := if signed then b.toInt else (b.toNat : Int)

/-- The integer sum of a long dot product: over `i < VLMAX`, the product of the elements at the positions below `vl` that are
unmasked or whose mask bit is set, 0 at every other position (40_zvldot_long.md R113, R115, R116). -/
def longIntSum (s : State) (vs2 vs1 : VReg) (masked signed2 : Bool) : Int :=
  ((List.range s.vlmax).map fun i =>
    if i < s.vl.toNat ∧ (masked = true → (s.vreg 0).testBit i = true) then
      factorValue signed2 (s.velem vs2 8 i) * factorValue s.altfmt (s.velem vs1 8 i)
    else 0).sum

/-- The integer sum of dot product `n` of a batched instruction: over `k < VLMAX`, the product of element `k` of register
`vs2 + n` and of register `vs1` below `vl`, 0 from `vl` up (41_zvbdot_batched.md R144, R155, R156). -/
def batchIntSum (s : State) (vs2 vs1 : VReg) (signed2 : Bool) (n : Nat) : Int :=
  ((List.range s.vlmax).map fun k =>
    if k < s.vl.toNat then
      factorValue signed2 (s.velem (vs2.val + n) 8 k) * factorValue s.altfmt (s.velem vs1 8 k)
    else 0).sum

/-- The encoded factors of a long floating-point dot product (40_zvldot_long.md R113). -/
def longFactors (s : State) (w : Nat) (r : VReg) (masked : Bool) : List Nat :=
  (List.range s.vlmax).map fun i =>
    if i < s.vl.toNat ∧ (masked = true → (s.vreg 0).testBit i = true) then (s.velem r w i).toNat else 0

/-- The encoded factors of a batched floating-point dot product (41_zvbdot_batched.md R144). -/
def batchFactors (s : State) (w r : Nat) : List Nat :=
  (List.range s.vlmax).map fun k => if k < s.vl.toNat then (s.velem r w k).toNat else 0

/-- The two factor formats of a bulk-normalized form, `vs2` first (40_zvldot_long.md R120, 41_zvbdot_batched.md R175). -/
def formatsOf (s : State) (bf alt : Bool) : FactorFmt × FactorFmt :=
  if bf then (bf16, bf16) else (if alt then e5m2 else e4m3, if s.altfmt then e5m2 else e4m3)

/-- The flags of a bulk-normalized result: NV is bit 4 and OF bit 2 of `fflags` (10_state.md R42). -/
def bulkFlagBits (r : BulkResult) : BitVec 5 := (if r.nv then 0x10 else 0) ||| (if r.overflow then 0x04 else 0)

/-- The address of element `i` of a unit-stride access, `trunc_XLEN(x[rs1] + i * EEW/8)` (43_host_subset.md R247). -/
abbrev elemAddress (s : State) (rs1 : XReg) (eew i : Nat) : Nat :=
  ((s.readX rs1).toNat + i * (eew / 8)) % 2 ^ 64 % 2 ^ s.params.xlen.bits

/-- Element `i` is one the instruction accesses (43_host_subset.md R247). -/
abbrev accessed (s : State) (masked : Bool) (i : Nat) : Prop :=
  s.vstart.toNat ≤ i ∧ i < s.vl.toNat ∧ (masked = true → (s.vreg 0).testBit i = true)

/-- The bytes of an element access are launch memory (20_memory.md R64). -/
abbrev inMemory (p : Params) (a n : Nat) : Prop :=
  ∀ k < n, (∃ r ∈ p.text ++ p.data, r.base ≤ a + k ∧ a + k < r.base + r.size)

/-- Some byte of the access is program text (20_memory.md R69). -/
abbrev meetsText (p : Params) (a n : Nat) : Prop :=
  ∃ k < n, ∃ r ∈ p.text, r.base ≤ a + k ∧ a + k < r.base + r.size

/-- The bytes of a word that `vs3` or memory holds little-endian: byte `k` (20_memory.md R61). -/
abbrev byteOf {w : Nat} (e : BitVec w) (k : Nat) : Byte := e.extractLsb' (8 * k) 8

/-- An outcome whose next state is changed by `f`. -/
def mapNext (f : State → State) : Host.Outcome State Fault Refusal → Host.Outcome State Fault Refusal
  | .next t => .next (f t)
  | .fault r => .fault r
  | .refused r => .refused r

/-! ## Words -/

/-- The `match` and `mask` of the instruction's row, from 30_encoding.md R85 and 43_host_subset.md R233 to R246; a long
instruction has none (30_encoding.md R86). -/
def patternOf : Instr → Option (Insn × Insn)
  | .vqmmaccU _ _ _ _ _ => some (0xB8000077, 0xFC00707F)
  | .vqmmaccS _ _ _ _ _ => some (0xBC000077, 0xFC00707F)
  | .vfwmmacc _ _ _ _ _ => some (0xB0001077, 0xFC00707F)
  | .vfqmmacc _ _ _ _ _ => some (0xB8001077, 0xFC00707F)
  | .vfqmmaccAlt _ _ _ _ _ => some (0xBC001077, 0xFC00707F)
  | .vfmmacc _ _ _ _ _ => some (0xAC001077, 0xFC00707F)
  | .vqldotu _ _ _ _ => none
  | .vqldots _ _ _ _ => none
  | .vfwldot _ _ _ _ => none
  | .vfqldot _ _ _ _ => none
  | .vfqldotAlt _ _ _ _ => none
  | .add _ _ _ => some (0x00000033, 0xFE00707F)
  | .sub _ _ _ => some (0x40000033, 0xFE00707F)
  | .addi _ _ _ => some (0x00000013, 0x0000707F)
  | .bne _ _ _ => some (0x00001063, 0x0000707F)
  | .vsetvli _ _ _ => some (0x00007057, 0x8000707F)
  | .vmvVI _ _ => some (0x5E003057, 0xFFF0707F)
  | .vle8 _ _ _ => some (0x00000007, 0xFDF0707F)
  | .vle16 _ _ _ => some (0x00005007, 0xFDF0707F)
  | .vle32 _ _ _ => some (0x00006007, 0xFDF0707F)
  | .vse32 _ _ _ => some (0x00006027, 0xFDF0707F)

/-- Its parameter `ENC_*` (00_scope.md R6). -/
def LongOp.encoding (op : LongOp) (enc : LongEncodings) : Option LongEncoding :=
  match op with
  | .vqldotu => enc.vqldotu
  | .vqldots => enc.vqldots
  | .vfwldot => enc.vfwldot
  | .vfqldot => enc.vfqldot
  | .vfqldotAlt => enc.vfqldotAlt

/-- A word is an instruction of the hart (60_exceptions.md R262 (a)): it matches the row of an instruction whose extension is
present, or a configured long encoding whose extension is present. -/
abbrev isInstruction (p : Params) (w : Insn) : Prop :=
  (∃ i m k, patternOf i = some (m, k) ∧ extPresent p.ext i = true ∧ w &&& k = m)
    ∨ ∃ op e, LongOp.encoding op p.enc = some e ∧ op.present p.ext = true ∧ w &&& e.mask = e.fixedBits

/-- The four bytes at `pc` are those of `w` (20_memory.md R61). -/
abbrev holdsWord (s : State) (w : Insn) : Prop := ∀ k < 4, s.mem.read (s.pc.toNat + k) = some (byteOf w k)

/-- The machine runs, has not reached its end, and fetches the word `w` from its program text (10_state.md R20, 20_memory.md
R61, R62, 60_exceptions.md R264). -/
abbrev fetches (s : State) (w : Insn) : Prop :=
  s.stopped = none ∧ s.params.endPc ≠ some s.pc ∧ s.pc.toNat % 4 = 0
    ∧ (∀ k < 4, ∃ r ∈ s.params.text, r.base ≤ s.pc.toNat + k ∧ s.pc.toNat + k < r.base + r.size)
    ∧ holdsWord s w

/-- The instruction is a vector instruction. -/
def usesVector : Instr → Bool
  | .add _ _ _ => false
  | .sub _ _ _ => false
  | .addi _ _ _ => false
  | .bne _ _ _ => false
  | _ => true

/-- The instruction is one that writes an `x` register. -/
def writesX : Instr → Bool
  | .add _ _ _ => true
  | .sub _ _ _ => true
  | .addi _ _ _ => true
  | .vsetvli _ _ _ => true
  | _ => false

/-- The instruction is one of the eight floating-point forms. -/
def isFpForm : Instr → Bool
  | .vfwmmacc _ _ _ _ _ => true
  | .vfqmmacc _ _ _ _ _ => true
  | .vfqmmaccAlt _ _ _ _ _ => true
  | .vfmmacc _ _ _ _ _ => true
  | .vfwldot _ _ _ _ => true
  | .vfqldot _ _ _ _ => true
  | .vfqldotAlt _ _ _ _ => true
  | _ => false

/-- The instruction depends on `vtype` (60_exceptions.md R262 (b)). -/
def dependsOnVtype : Instr → Bool
  | .vsetvli _ _ _ => false
  | i => usesVector i

/-- A cause of the illegal-instruction exception at execution (60_exceptions.md R262). -/
abbrev illegalFor (s : State) (i : Instr) : Prop :=
  extPresent s.params.ext i = false ∨ (usesVector i = true ∧ s.mstatus.vs = .off)
    ∨ (isFpForm i = true ∧ s.mstatus.fs = .off) ∨ (dependsOnVtype i = true ∧ s.vill = true)

/-- The outcome is the illegal-instruction exception, its value the instruction word or 0 (60_exceptions.md R262). -/
abbrev takesIllegal (s : State) (o : Host.Outcome State Fault Refusal) : Prop :=
  ∃ value, (value = 0 ∨ ∃ w, holdsWord s w ∧ value.toNat = w.toNat)
    ∧ o = .next (s.takeException .illegalInsn value)

/-- The outcome is the illegal-instruction exception of one of the eleven, reported with a `vstart` of 0 (10_state.md R40,
60_exceptions.md R260; log entry 29). -/
abbrev takesDotIllegal (s : State) (o : Host.Outcome State Fault Refusal) : Prop := takesIllegal { s with vstart := 0 } o

/-! ## Results of the batched family -/

/-- Dot product `ci + n = j` is performed (41_zvbdot_batched.md R147). -/
def performed (s : State) (masked : Bool) (j : Nat) : Bool := !masked || (s.vreg 0).testBit j

/-- Each of the eight destination elements has the result and each performed dot product accrues the flags that `result` gives
for it; an element whose dot product is not performed follows the mask policy (41_zvbdot_batched.md R147, R148). -/
abbrev batchResult (s t : State) (vd : VReg) (ci : Nat) (masked : Bool) (result : Nat → BitVec 32 × BitVec 5) : Prop :=
  (∀ n < 8, performed s masked (ci + n) = true → t.velem vd 32 (ci + n) = (result n).1)
    ∧ (∀ n < 8, performed s masked (ci + n) = false → keptOrOnes s t s.vma vd 32 (ci + n))
    ∧ t.fflags = ((List.range 8).filter fun n => performed s masked (ci + n)).foldl (fun f n => f ||| (result n).2) s.fflags

/-- Nothing is written, as `no_write` asks where `vl` is 0 (92_eei_decisions.md D9). -/
abbrev skipped (s t : State) : Prop := s.vl = 0 ∧ t.v = s.v ∧ t.fflags = s.fflags

/-- A bulk-normalized result as destination bits and flags. -/
def bulkPair (r : BulkResult) : BitVec 32 × BitVec 5 := (BitVec.ofNat 32 r.bits, bulkFlagBits r)

/-- `RVBNA` of all-zero products and the addend `c` (41_zvbdot_batched.md R152). -/
def zeroProductResult (c : BitVec 32) : BitVec 32 × BitVec 5 :=
  if bitField c.toNat 23 8 = 255 ∧ bitField c.toNat 0 23 ≠ 0 then (0x7FC00000, if c.getLsbD 22 then 0 else 0x10)
  else if c = 0x80000000 then (0, 0)
  else (c, 0)

/-- `FP8_DOT` with an FP32 addend (42_bulk_normalization.md R211): `RVBNA2` under the default, and under another function what
that function gives (00_scope.md R6, D11, log entry 14). -/
def fp8Result (s : State) (alt : Bool) (A B : List Nat) (c : BitVec 32) : BulkResult :=
  let formats := formatsOf s false alt
  match s.params.fp8Dot with
  | .standard => rvbna2 formats.1 formats.2 fp32Acc s.vlmax A B c.toNat
  | .substituted =>
    let r := Config.fp8Dot alt s.altfmt s.vlmax A B c.toNat
    ⟨r.1.toNat, r.2.1, r.2.2⟩

/-! ## Bulk normalization over lists of pairs -/

/-- `RVBNA2` of a list of pairs of factors. -/
def rvbnaPairs (fA fB : FactorFmt) (n : Nat) (L : List (Nat × Nat)) (C : BitVec 32) : BulkResult :=
  rvbna2 fA fB fp32Acc n (L.map Prod.fst) (L.map Prod.snd) C.toNat

/-- The formats of 42_bulk_normalization.md R182. -/
def factorFormats : List FactorFmt := [bf16, e5m2, e4m3, binary16]

/-- A pair as decoded operands. -/
def decodePair (fA fB : FactorFmt) (ab : Nat × Nat) : Operand × Operand := (decodeFactor fA ab.1, decodeFactor fB ab.2)

/-- A product of a zero and an infinity (42_bulk_normalization.md R188). -/
def zeroTimesInf (ab : Operand × Operand) : Bool := (ab.1.isInf && ab.2.isZero) || (ab.2.isInf && ab.1.isZero)

/-- An infinite product (42_bulk_normalization.md R188, and 90_conflicts.md C14 for infinity times infinity). -/
def infProduct (ab : Operand × Operand) : Bool :=
  (ab.1.isInf && !ab.2.isNaN && !ab.2.isZero) || (ab.2.isInf && !ab.1.isNaN && !ab.1.isZero)

/-- Some term of the sum, a product or the addend, is an infinity of the given sign. -/
def infTerm (c : Operand) (P : List (Operand × Operand)) (sign : Bool) : Prop :=
  (c.isInf = true ∧ c.sign = sign) ∨ ∃ ab ∈ P, infProduct ab = true ∧ (ab.1.sign ^^ ab.2.sign) = sign

/-- Some operand is a NaN. -/
def anyNaN (c : Operand) (P : List (Operand × Operand)) : Prop :=
  c.isNaN = true ∨ ∃ ab ∈ P, ab.1.isNaN = true ∨ ab.2.isNaN = true

/-- Some operand is a signaling NaN. -/
def anySNaN (c : Operand) (P : List (Operand × Operand)) : Prop :=
  c.isSNaN = true ∨ ∃ ab ∈ P, ab.1.isSNaN = true ∨ ab.2.isSNaN = true

/-- An invalid operation other than on a signaling NaN: zero times infinity, or infinities of both signs
(42_bulk_normalization.md R188, and 90_conflicts.md C9 for the addend). -/
def invalidSum (c : Operand) (P : List (Operand × Operand)) : Prop :=
  (∃ ab ∈ P, zeroTimesInf ab = true) ∨ (infTerm c P true ∧ infTerm c P false)

/-- A pair of finite factors. -/
def finitePair (ab : Operand × Operand) : Bool := !ab.1.isInf && !ab.1.isNaN && !ab.2.isInf && !ab.2.isNaN

/-- A pair of finite factors one of which is zero. -/
def zeroPair (ab : Operand × Operand) : Bool := finitePair ab && (ab.1.isZero || ab.2.isZero)

/-- The rational a finite factor stands for (42_bulk_normalization.md R181, R192). -/
def factorRat (f : FactorFmt) (X : Nat) : ℚ :=
  (if (decodeFactor f X).sign then -1 else 1) * (decodeFactor f X).sig
    * 2 ^ ((decodeFactor f X).ref - f.bias - ((f.p : Int) - 1) : Int)

/-- The rational a finite FP32 pattern stands for. -/
def fp32Rat (C : BitVec 32) : ℚ := factorRat ⟨8, 24, .ieee⟩ C.toNat

/-- The rational an accumulator stands for: its last bit weighs `2 ^ (maxExp - addendBias - (q - 1 + g))`
(42_bulk_normalization.md R196). -/
def accRat (g : Nat) (maxExp acc : Int) : ℚ := acc * 2 ^ (maxExp - 150 - g : Int)

/-- `prodExpOffset` for an FP32 addend (42_bulk_normalization.md R211). -/
def offsetOf (fA fB : FactorFmt) : Int := -fA.bias - fB.bias + 127

/-- The pattern is no infinity and no NaN. -/
def fp32Finite (C : BitVec 32) : Prop := bitField C.toNat 23 8 ≠ 255

/-- The pattern is a NaN. -/
def fp32IsNaN (C : BitVec 32) : Prop := bitField C.toNat 23 8 = 255 ∧ bitField C.toNat 0 23 ≠ 0

/-- The pattern is a signaling NaN. -/
def fp32IsSNaN (C : BitVec 32) : Prop := fp32IsNaN C ∧ C.getLsbD 22 = false

/-- The pattern is an infinity. -/
def fp32IsInf (C : BitVec 32) : Prop := bitField C.toNat 23 8 = 255 ∧ bitField C.toNat 0 23 = 0

/-- The pattern is a zero. -/
def fp32IsZero (C : BitVec 32) : Prop := bitField C.toNat 0 31 = 0

/-- FP32 holds the rational exactly. -/
def inFp32 (q : ℚ) : Prop := ∃ C, fp32Finite C ∧ fp32Rat C = q

/-- The terms of `FP32_DOT`: the accumulator and the products (41_zvbdot_batched.md R172). -/
def fp32Terms (L : List (BitVec 32 × BitVec 32)) (C : BitVec 32) : List ℚ :=
  fp32Rat C :: L.map fun ab => fp32Rat ab.1 * fp32Rat ab.2

/-- An invalid product of an infinity and a zero. -/
def fp32ZeroTimesInf (ab : BitVec 32 × BitVec 32) : Prop :=
  (fp32IsInf ab.1 ∧ fp32IsZero ab.2) ∨ (fp32IsZero ab.1 ∧ fp32IsInf ab.2)

/-- A term of the sum is an infinity of the given sign that comes from an infinite operand. -/
def fp32InfTerm (L : List (BitVec 32 × BitVec 32)) (C : BitVec 32) (sign : Bool) : Prop :=
  (fp32IsInf C ∧ C.msb = sign)
    ∨ ∃ ab ∈ L, (fp32IsInf ab.1 ∨ fp32IsInf ab.2) ∧ ¬fp32IsNaN ab.1 ∧ ¬fp32IsNaN ab.2 ∧ ¬fp32ZeroTimesInf ab
        ∧ (ab.1.msb ^^ ab.2.msb) = sign

/-- The FP32 operands of a batched dot product (41_zvbdot_batched.md R144). -/
def fp32Factors (s : State) (r : Nat) : List (BitVec 32) :=
  (List.range s.vlmax).map fun k => if k < s.vl.toNat then s.velem r 32 k else 0

/-! ## Rounding (10_state.md R41, 41_zvbdot_batched.md R171, R172; the modes as IEEE 754 defines them, log entry 18) -/

/-- The rational is a number of `prec` bits of significand, with no bit below the weight `2 ^ low` where a lowest weight is
given, and with an even significand where `even` asks it. -/
def onGrid (prec : Nat) (low : Option Int) (even : Bool) (x : ℚ) : Prop :=
  ∃ m e : Int, |m| < 2 ^ prec ∧ (∀ l ∈ low, l ≤ e) ∧ (even = true → m % 2 = 0) ∧ x = m * 2 ^ e

/-- `r` is `v` rounded to that grid under the rounding mode, with no bound above. -/
def roundedAs (rm : RoundingMode) (prec : Nat) (low : Option Int) (v r : ℚ) : Prop :=
  onGrid prec low false r
    ∧ match rm with
      | .rne => ∀ y, onGrid prec low false y →
          |r - v| ≤ |y - v| ∧ (|y - v| = |r - v| → y = r ∨ onGrid prec low true r)
      | .rtz => |r| ≤ |v| ∧ 0 ≤ r * v ∧ ∀ y, onGrid prec low false y → |y| ≤ |v| → |y| ≤ |r|
      | .rdn => r ≤ v ∧ ∀ y, onGrid prec low false y → y ≤ v → y ≤ r
      | .rup => v ≤ r ∧ ∀ y, onGrid prec low false y → v ≤ y → r ≤ y
      | .rmm => ∀ y, onGrid prec low false y → |r - v| ≤ |y - v| ∧ (|y - v| = |r - v| → |y| ≤ |r|)

/-- The rational a finite value stands for. -/
def finRat (sign : Bool) (mant : Nat) (exp : Int) : ℚ := (if sign then -1 else 1) * mant * 2 ^ exp

/-- The value an overflow gives under the rounding mode: an infinity, or the largest finite number of the format where the mode
rounds towards the other side or towards zero. -/
def overflowValue (f : BinFmt) (rm : RoundingMode) (sign : Bool) : FpVal :=
  if rm = .rne ∨ rm = .rmm ∨ (rm = .rdn ∧ sign = true) ∨ (rm = .rup ∧ sign = false) then .inf sign
  else .fin sign (2 ^ f.prec - 1) (2 ^ (f.expBits - 1) - f.prec)

/-! ## Host subset -/

/-- The vector loads. -/
inductive LoadOp where
  | vle8
  | vle16
  | vle32
  deriving DecidableEq, Repr

/-- The instruction. -/
def LoadOp.instr (op : LoadOp) (vd : VReg) (rs1 : XReg) (masked : Bool) : Instr :=
  match op with
  | .vle8 => .vle8 vd rs1 masked
  | .vle16 => .vle16 vd rs1 masked
  | .vle32 => .vle32 vd rs1 masked

/-- Its element width (43_host_subset.md R243 to R245). -/
def LoadOp.eew : LoadOp → Nat
  | .vle8 => 8
  | .vle16 => 16
  | .vle32 => 32

/-- Element `i` is at an address that is a multiple of its size (43_host_subset.md R247, D19). -/
abbrev elemAligned (s : State) (rs1 : XReg) (eew i : Nat) : Prop := elemAddress s rs1 eew i % (eew / 8) = 0

/-- Every byte of element `i` has a value. -/
abbrev elemWritten (s : State) (rs1 : XReg) (eew i : Nat) : Prop :=
  ∀ k < eew / 8, ∃ b, s.mem.read (elemAddress s rs1 eew i + k) = some b

/-- Element `i` can be loaded. -/
abbrev loadable (s : State) (rs1 : XReg) (eew i : Nat) : Prop :=
  elemAligned s rs1 eew i ∧ inMemory s.params (elemAddress s rs1 eew i) (eew / 8) ∧ elemWritten s rs1 eew i

/-- Element `i` can be stored: inside launch memory and outside the program text (20_memory.md R64, R69). -/
abbrev storable (s : State) (rs1 : XReg) (eew i : Nat) : Prop :=
  elemAligned s rs1 eew i ∧ inMemory s.params (elemAddress s rs1 eew i) (eew / 8)
    ∧ ¬meetsText s.params (elemAddress s rs1 eew i) (eew / 8)

/-- The address is one of the bytes of element `i`. -/
abbrev inElement (s : State) (rs1 : XReg) (eew i a : Nat) : Prop :=
  elemAddress s rs1 eew i ≤ a ∧ a < elemAddress s rs1 eew i + eew / 8

/-- Element `i` of `vd` after a load: unchanged below `vstart`, the bytes of memory where it is accessed, and by the policies
where it is masked off or in the tail (43_host_subset.md R247). -/
abbrev loadedElem (s t : State) (vd : VReg) (rs1 : XReg) (eew : Nat) (masked : Bool) (i : Nat) : Prop :=
  if s.vl.toNat ≤ i then keptOrOnes s t s.vta vd eew i
  else if i < s.vstart.toNat then t.velem vd eew i = s.velem vd eew i
  else if masked = true ∧ (s.vreg 0).testBit i = false then keptOrOnes s t s.vma vd eew i
  else ∀ k < eew / 8, s.mem.read (elemAddress s rs1 eew i + k) = some (byteOf (t.velem vd eew i) k)

/-- The registers outside a group of `n` registers at `vd` are unchanged. -/
abbrev outsideGroup (s t : State) (vd : VReg) (n : Nat) : Prop :=
  ∀ r : VReg, ¬(vd.val ≤ r.val ∧ r.val < vd.val + n) → t.vreg r = s.vreg r

/-- `Supported(new)` of 43_host_subset.md R238, on the fields of the immediate: SEW is `8 * 2 ^ vsew`. -/
abbrev supportedSetting (p : Params) (zimm : BitVec 11) : Prop :=
  let vlmul := bitField zimm.toNat 0 3
  let vsew := bitField zimm.toNat 3 3
  vsew ≤ 3 ∧ 8 * 2 ^ vsew ≤ p.elen ∧ vlmul ≠ 4
    ∧ (vlmul = 5 → 8 * (8 * 2 ^ vsew) ≤ p.elen) ∧ (vlmul = 6 → 4 * (8 * 2 ^ vsew) ≤ p.elen)
    ∧ (vlmul = 7 → 2 * (8 * 2 ^ vsew) ≤ p.elen)
    ∧ zimm.toNat < 2 ^ (p.altfmtBit + 1) ∧ (zimm.getLsbD p.altfmtBit = true → vsew ≤ 1)

/-- VLMAX of the setting, `LMUL * VLEN / SEW` (10_state.md R38): LMUL is 1, 2, 4, 8 for `vlmul` 0 to 3 and 1/8, 1/4, 1/2 for
5 to 7. -/
def settingVlmax (p : Params) (zimm : BitVec 11) : Nat :=
  let vlmul := bitField zimm.toNat 0 3
  let sew := 8 * 2 ^ bitField zimm.toNat 3 3
  if vlmul < 4 then 2 ^ vlmul * p.vlen / sew else p.vlen / (2 ^ (8 - vlmul) * sew)

/-- The application vector length (43_host_subset.md R238). -/
def avlOf (s : State) (rs1 : XReg) : Nat := if rs1 = 0 then 2 ^ s.params.xlen.bits - 1 else (s.readX rs1).toNat

end Sys2Proof.Machine
end

