-- ==== Sys2Proof/Certificates/Slice0/Obligations.lean ====
section
/-! DEFINITION. The statements for the provers. -/

section ObligationStatements

open Sys2Proof Sys2Proof.Machine

/-! ## Encoding -/

/-- Sample words of the spec decode to the instructions they stand for: 95_test_vectors.md T2 and 41_zvbdot_batched.md R156 for
`vqmmacc.s.vv`, then the examples of 43_host_subset.md R233 to R246. -/
def Obligations.SampleWordsDecode : Prop :=
  decode .reset 0xBE0F8877 = .ok (.vqmmaccS 16 0 31 0 false)
    ∧ decode .reset 0x00668833 = .ok (.add 16 13 6)
    ∧ decode .reset 0x41C50533 = .ok (.sub 10 10 28)
    ∧ decode .reset 0x01058593 = .ok (.addi 11 11 16)
    ∧ decode .reset 0xFA051EE3 = .ok (.bne 10 0 (-68))
    ∧ decode .reset 0x1C057E57 = .ok (.vsetvli 28 10 0x1C0)
    ∧ decode .reset 0x5E003257 = .ok (.vmvVI 4 0)
    ∧ decode .reset 0x02080F87 = .ok (.vle8 31 16 false)
    ∧ decode .reset 0x0206D407 = .ok (.vle16 8 13 false)
    ∧ decode .reset 0x02066207 = .ok (.vle32 4 12 false)
    ∧ decode .reset 0x02066227 = .ok (.vse32 4 12 false)

/-- Decoding an encoded well-formed instruction of a present extension gives it back (30_encoding.md R83 to R87,
43_host_subset.md R232 to R246). The long family is included at every choice of its parameters `ENC_*` that
92_eei_decisions.md D2 allows, wherever they place the operand bits. -/
def Obligations.DecodeInvertsEncode : Prop :=
  ∀ (p : Params) (i : Instr) (w : Insn), p.enc.wf = true → i.wf = true → extPresent p.ext i = true →
    encode p i = some w → decode p w = .ok i

/-- Encoding a decoded instruction gives back its word: no bit of a word is ignored by the decoder. Of the configured long
encodings it asks that they themselves ignore none, which D2 does not promise (log entry 13). -/
def Obligations.EncodeInvertsDecode : Prop :=
  ∀ (p : Params) (i : Instr) (w : Insn), p.enc.wf = true → p.enc.covers = true → decode p w = .ok i →
    i.wf = true ∧ extPresent p.ext i = true ∧ encode p i = some w

/-- A word is an instruction of an encoded row iff `(w & mask) == match` for that row (30_encoding.md R85, R87,
43_host_subset.md R233 to R246). -/
def Obligations.RowsMatchByMask : Prop :=
  ∀ (p : Params) (w : Insn) (i : Instr) (m k : Insn), patternOf i = some (m, k) → extPresent p.ext i = true →
    ((∃ j, decode p w = .ok j ∧ patternOf j = some (m, k)) ↔ w &&& k = m)

/-- The operands of a batched instruction come from the fields of its word as 30_encoding.md R83 gives them, and `vm = 0` means
masked (R84). -/
def Obligations.BatchedOperandFields : Prop :=
  ∀ (p : Params) (w : Insn) (op : BatchOp) (vd vs2 vs1 : VReg) (ci : Nat) (masked : Bool),
    decode p w = .ok (op.instr vd vs2 vs1 ci masked) →
      vd.val = bitField w.toNat 7 5 ∧ vs1.val = bitField w.toNat 15 5 ∧ vs2.val = 8 * bitField w.toNat 23 2
        ∧ ci = 8 * bitField w.toNat 20 3 ∧ (masked = true ↔ bitField w.toNat 25 1 = 0)

/-! ## The step, the fetch and exceptions -/

/-- A step at a fetched word that decodes to `i` is exactly `i` (10_state.md R20). -/
def Obligations.StepRunsDecoded : Prop :=
  ∀ (s : State) (w : Insn) (i : Instr), fetches s w → decode s.params w = .ok i → step s = exec i s

/-- A fetched word that is no instruction of the hart raises the illegal-instruction exception, its value the word or 0
(60_exceptions.md R262 (a), 30_encoding.md R88). -/
def Obligations.NoInstructionIsIllegal : Prop :=
  ∀ (s : State) (w : Insn), fetches s w → ¬isInstruction s.params w → takesIllegal s (step s)

/-- A fetched word that is an instruction of the hart is run: `step` is `exec` of it. -/
def Obligations.InstructionIsRun : Prop :=
  ∀ (s : State) (w : Insn), s.params.enc.wf = true → fetches s w → isInstruction s.params w →
    ∃ i, decode s.params w = .ok i ∧ step s = exec i s

/-- The instruction placed by `withFetchWord` is the one the next step runs, and nothing but memory at `pc`, the program text
and the end of the run is changed by placing it. The conventions of placing are the model's (log entry 9). -/
def Obligations.PlacedWordRunsNext : Prop :=
  ∀ (s : State) (nbits w : Nat) (i : Instr), s.pc.toNat % 4 = 0 →
    decode s.params (BitVec.ofNat 32 (w % 2 ^ nbits)) = .ok i →
      ∃ u, s.withFetchWord nbits w = u ∧ step u = exec i u
        ∧ u = { s with mem := u.mem, params := { s.params with text := u.params.text, endPc := u.params.endPc },
                       stopped := none }
        ∧ ∀ a, (a < s.pc.toNat ∨ s.pc.toNat + 4 ≤ a) → u.mem.read a = s.mem.read a

/-- A step that runs no instruction. A machine stopped by an exception answers its fault record (60_exceptions.md R269); a
running machine at `END_PC` stays as it is, which is the model's reading of "a run ends" (log entry 10); otherwise a fetch
from a misaligned `pc` or from outside the program text raises its exception, in this order (20_memory.md R62,
60_exceptions.md R264, R268 (1)). The value recorded for a misaligned `pc` is the model's choice (log entry 33). -/
def Obligations.StepWithoutInstruction : Prop :=
  ∀ s : State, (∀ record, s.stopped = some record → step s = .fault (.exception record))
    ∧ (s.stopped = none → s.params.endPc = some s.pc → step s = .next s)
    ∧ (s.stopped = none → s.params.endPc ≠ some s.pc →
        (s.pc.toNat % 4 ≠ 0 → step s = .next (s.takeException .insnMisaligned s.pc))
          ∧ (s.pc.toNat % 4 = 0 →
              ¬(∀ k < 4, ∃ r ∈ s.params.text, r.base ≤ s.pc.toNat + k ∧ s.pc.toNat + k < r.base + r.size) →
                step s = .next (s.takeException .insnAccess s.pc)))

/-- Taking an exception. Under the policy `stop` the model stops with the record `(cause code, pc, value, vstart)` and all
other state as it was (60_exceptions.md R269), with the cause codes of R264. Under the policy `enter`, which the spec recalls
of the base architecture and the model offers (log entry 11), it writes what R269 lists; the return recalled by R271 then
restores `pc`, the mode and `MIE`. -/
def Obligations.TakingAnException : Prop :=
  [Cause.insnMisaligned, .insnAccess, .illegalInsn, .loadMisaligned, .loadAccess, .storeMisaligned, .storeAccess].map
      Cause.code = [0, 1, 2, 4, 5, 6, 7]
  ∧ ∀ (s : State) (cause : Cause) (value : Word),
    (s.params.trapPolicy = .stop →
      s.takeException cause value = { s with stopped := some ⟨cause, s.pc, value, s.vstart⟩ })
    ∧ (s.params.trapPolicy = .enter →
        (let t := s.takeException cause value
         t = { s with mepc := s.pc, mcause := BitVec.ofNat 64 cause.code, mtval := value, pc := t.pc,
                      mstatus := { s.mstatus with mpie := s.mstatus.mie, mie := false, mpp := s.mode }, mode := .machine }
          ∧ (fitsX s.params s.mtvec → t.pc.toNat = s.mtvec.toNat - s.mtvec.toNat % 4)
          ∧ (fitsX s.params s.pc → t.returnFromTrap.pc = s.pc)
          ∧ t.returnFromTrap.mode = s.mode ∧ t.returnFromTrap.mstatus.mie = s.mstatus.mie))

/-- An instruction under one of the causes of 60_exceptions.md R262 raises the illegal-instruction exception and writes no
other state, but that one of the eleven reports it with a `vstart` of 0 and leaves `vstart` 0 (10_state.md R40; log entry
29). -/
def Obligations.DisabledIsIllegal : Prop :=
  ∀ (i : Instr) (s : State), illegalFor s i →
    (isDot i → takesDotIllegal s (exec i s)) ∧ (¬isDot i → takesIllegal s (exec i s))

/-- None of the eleven raises an exception but illegal-instruction, and that only for the causes of 60_exceptions.md R262, as R261
says: where none holds, the instruction completes with every exception register and every interrupt field of `mstatus`
unchanged, or stops on a reserved configuration. That the exception is recorded with `vstart` 0 and leaves `vstart` 0 from
every state is how the model joins 10_state.md R40 with R262 (log entry 29). -/
def Obligations.DotExceptionsOnlyIllegal : Prop :=
  ∀ (i : Instr) (s : State), isDot i →
    (illegalFor s i → takesDotIllegal s (exec i s))
      ∧ (¬illegalFor s i → exec i s = .fault .reservedInstruction
          ∨ ∃ t, exec i s = .next t ∧ t.stopped = s.stopped ∧ t.mepc = s.mepc ∧ t.mcause = s.mcause
              ∧ t.mtval = s.mtval ∧ t.mtvec = s.mtvec ∧ t.mode = s.mode ∧ t.mstatus.mie = s.mstatus.mie
              ∧ t.mstatus.mpie = s.mstatus.mpie ∧ t.mstatus.mpp = s.mstatus.mpp)

/-- Executing one of the eleven with a nonzero `vstart` is reserved, for every state in which it raises no exception
(10_state.md R40, 41_zvbdot_batched.md R149), and from every state, whatever its `vstart`, an exception that it reports
records 0 and whatever it completes as leaves `vstart` 0. That the exception comes before the reserved outcome is the order
of 60_exceptions.md R268 (log entry 29); the model's answer to "reserved" is the fault of 92_eei_decisions.md D1. -/
def Obligations.NonzeroVstartIsReserved : Prop :=
  ∀ (i : Instr) (s : State), isDot i →
    (¬illegalFor s i → s.vstart ≠ 0 → exec i s = .fault .reservedInstruction)
      ∧ ∀ t, exec i s = .next t →
          t.vstart = 0 ∧ ∀ record, t.stopped = some record → s.stopped = none → record.vstart = 0

/-- When a long instruction runs: every condition of `LongLegal` (40_zvldot_long.md R112) and of 60_exceptions.md R262, and no
other; that a reserved code in `vtype` is reserved, and that the exception leaves `vstart` 0, is the model's reading (log
entries 25 and 29). -/
def Obligations.LongLegality : Prop :=
  ∀ (op : LongOp) (s : State) (vd vs2 vs1 : VReg) (masked : Bool),
    (longRuns op s vd vs2 vs1 masked → ∃ t, exec (op.instr vd vs2 vs1 masked) s = .next t)
      ∧ (¬enabled s (op.present s.params.ext) op.fp → takesDotIllegal s (exec (op.instr vd vs2 vs1 masked) s))
      ∧ (enabled s (op.present s.params.ext) op.fp → ¬longRuns op s vd vs2 vs1 masked →
          exec (op.instr vd vs2 vs1 masked) s = .fault .reservedInstruction)

/-- When a batched instruction runs: every condition of `BatchLegal` (41_zvbdot_batched.md R150) and of 60_exceptions.md R262,
that `vs2` is a multiple of 8, and no other. The condition on `vs2` is 10_state.md R32's, for EMUL = 8; only a term that no word
decodes to fails it, and that `exec` answers such a term at all is the model's choice (log entry 28). That a reserved code in
`vtype` is reserved, and that the exception leaves `vstart` 0, is the model's reading (log entries 25 and 29). -/
def Obligations.BatchLegality : Prop :=
  ∀ (op : BatchOp) (s : State) (vd vs2 vs1 : VReg) (ci : Nat) (masked : Bool),
    (batchRuns op s vd vs2 vs1 ci masked → ∃ t, exec (op.instr vd vs2 vs1 ci masked) s = .next t)
      ∧ (¬enabled s (op.present s.params.ext) op.fp → takesDotIllegal s (exec (op.instr vd vs2 vs1 ci masked) s))
      ∧ (enabled s (op.present s.params.ext) op.fp → ¬batchRuns op s vd vs2 vs1 ci masked →
          exec (op.instr vd vs2 vs1 ci masked) s = .fault .reservedInstruction)

/-- The reserved configurations of `vmv.v.i` and of the vector loads and stores (43_host_subset.md R241, R247), and a load of a
byte that nothing has written; the two faults are the model's (92_eei_decisions.md D1, log entries 8 and 25). -/
def Obligations.HostVectorStops : Prop :=
  ∀ (s : State), enabled s true false →
    (∀ vd simm5, ¬moveRuns s vd → exec (.vmvVI vd simm5) s = .fault .reservedInstruction)
      ∧ (∀ op vd rs1 masked, ¬memRuns s (LoadOp.eew op) vd true masked →
          exec (op.instr vd rs1 masked) s = .fault .reservedInstruction)
      ∧ (∀ vs3 rs1 masked, ¬memRuns s 32 vs3 false masked →
          exec (.vse32 vs3 rs1 masked) s = .fault .reservedInstruction)
      ∧ (∀ op vd rs1 masked i, s.Inv → memRuns s (LoadOp.eew op) vd true masked → accessed s masked i →
          (∀ j < i, accessed s masked j → loadable s rs1 op.eew j) → elemAligned s rs1 op.eew i →
          inMemory s.params (elemAddress s rs1 op.eew i) (op.eew / 8) → ¬elemWritten s rs1 op.eew i →
            ∃ a, inElement s rs1 op.eew i a ∧ s.mem.read a = none
              ∧ exec (op.instr vd rs1 masked) s = .fault (.unwrittenMemory a))

/-! ## The long family -/

/-- `vqldotu.vv` (40_zvldot_long.md R115) and `vqldots.vv` (R116) complete wherever they are legal: element 0 of `vd` becomes the
accumulator plus the integer dot product modulo 2^32, no flag is raised, and the rest is the frame of R113, R114. -/
def Obligations.LongIntegerDot : Prop :=
  ∀ (signed2 : Bool) (s : State) (vd vs2 vs1 : VReg) (masked : Bool), 5 ≤ s.params.vlenLog2 →
    longRuns (if signed2 then .vqldots else .vqldotu) s vd vs2 vs1 masked →
      ∃ t, exec (LongOp.instr (if signed2 then .vqldots else .vqldotu) vd vs2 vs1 masked) s = .next t
        ∧ t.velem vd 32 0 = BitVec.ofInt 32 ((s.velem vd 32 0).toNat + longIntSum s vs2 vs1 masked signed2)
        ∧ t.fflags = s.fflags ∧ longRest s t vd ∧ dotFrame s t false

/-- `vfwldot.vv` (40_zvldot_long.md R117) completes wherever it is legal: element 0 of `vd` becomes `RVBNA` of the BF16 factors
and the accumulator with `n = VLMAX`, `NV` and `OF` accrue, and the rest is the frame of R114; where `vl` is 0 it may
instead write nothing (D9, log entry 15). -/
def Obligations.LongBf16Dot : Prop :=
  ∀ (s : State) (vd vs2 vs1 : VReg) (masked : Bool), 5 ≤ s.params.vlenLog2 → longRuns .vfwldot s vd vs2 vs1 masked →
    ∃ t, exec (.vfwldot vd vs2 vs1 masked) s = .next t ∧ longRest s t vd ∧ dotFrame s t true
      ∧ ((let r := rvbna bf16 fp32Acc s.vlmax (longFactors s 16 vs2 masked) (longFactors s 16 vs1 masked)
            (s.velem vd 32 0).toNat
          t.velem vd 32 0 = BitVec.ofNat 32 r.bits ∧ t.fflags = s.fflags ||| bulkFlagBits r)
        ∨ skipped s t)

/-- `vfqldot.vv` (40_zvldot_long.md R118) and `vfqldot.alt.vv` (R119) complete wherever they are legal: element 0 of `vd` becomes
`FP8_DOT` of the factors, in the formats of R120, and the accumulator with `n = VLMAX`, `NV` and `OF` accrue, and the rest is
the frame of R114; where `vl` is 0 it may instead write nothing (D9, log entry 15). `FP8_DOT` is the function of
42_bulk_normalization.md R211 under its default, else the one substituted for it, of which nothing is assumed (00_scope.md
R6, log entry 14). -/
def Obligations.LongFp8Dot : Prop :=
  ∀ (alt : Bool) (s : State) (vd vs2 vs1 : VReg) (masked : Bool), 5 ≤ s.params.vlenLog2 →
    longRuns (if alt then .vfqldotAlt else .vfqldot) s vd vs2 vs1 masked →
      ∃ t, exec (LongOp.instr (if alt then .vfqldotAlt else .vfqldot) vd vs2 vs1 masked) s = .next t
        ∧ longRest s t vd ∧ dotFrame s t true
        ∧ ((let r := fp8Result s alt (longFactors s 8 vs2 masked) (longFactors s 8 vs1 masked) (s.velem vd 32 0)
            t.velem vd 32 0 = BitVec.ofNat 32 r.bits ∧ t.fflags = s.fflags ||| bulkFlagBits r)
          ∨ skipped s t)

/-- Only the source elements that are below `vl` and active can influence the result of a long instruction (40_zvldot_long.md
R113): two states that agree on those elements, on the accumulator and on the mask get the same result and flags. -/
def Obligations.LongIgnoresInactiveSources : Prop :=
  ∀ (op : LongOp) (s s' t t' : State) (vd vs2 vs1 : VReg) (masked : Bool),
    s' = { s with v := s'.v } → longRuns op s vd vs2 vs1 masked →
    (masked = true → s'.vreg 0 = s.vreg 0) → s'.velem vd 32 0 = s.velem vd 32 0 →
    (∀ i < s.vl.toNat, performed s masked i = true →
      s'.velem vs2 op.sew i = s.velem vs2 op.sew i ∧ s'.velem vs1 op.sew i = s.velem vs1 op.sew i) →
    exec (op.instr vd vs2 vs1 masked) s = .next t → exec (op.instr vd vs2 vs1 masked) s' = .next t' →
      5 ≤ s.params.vlenLog2 → t'.velem vd 32 0 = t.velem vd 32 0 ∧ t'.fflags = t.fflags

/-! ## The batched family -/

/-- `vqmmacc.u.vv` (41_zvbdot_batched.md R155) and `vqmmacc.s.vv` (R156) complete wherever they are legal: each performed dot
product adds its integer sum modulo 2^32 to its destination element, no flag is raised, and the rest is the frame of R147,
R148, R151. -/
def Obligations.BatchIntegerDot : Prop :=
  ∀ (signed2 : Bool) (s : State) (vd vs2 vs1 : VReg) (ci : Nat) (masked : Bool), 5 ≤ s.params.vlenLog2 →
    batchRuns (if signed2 then .vqmmaccS else .vqmmaccU) s vd vs2 vs1 ci masked →
      ∃ t, exec (BatchOp.instr (if signed2 then .vqmmaccS else .vqmmaccU) vd vs2 vs1 ci masked) s = .next t
        ∧ batchResult s t vd ci masked (fun n =>
            (BitVec.ofInt 32 ((s.velem vd 32 (ci + n)).toNat + batchIntSum s vs2 vs1 signed2 n), 0))
        ∧ t.fflags = s.fflags ∧ batchRest s t vd ci ∧ dotFrame s t false

/-- `vfwmmacc.vv` (41_zvbdot_batched.md R160) completes wherever it is legal: each performed dot product is `RVBNA` of the BF16
factors and the destination element with `n = VLMAX`; where `vl` is 0 it may instead write nothing (D9, log
entry 15). -/
def Obligations.BatchBf16Dot : Prop :=
  ∀ (s : State) (vd vs2 vs1 : VReg) (ci : Nat) (masked : Bool), 5 ≤ s.params.vlenLog2 →
    batchRuns .vfwmmacc s vd vs2 vs1 ci masked →
      ∃ t, exec (.vfwmmacc vd vs2 vs1 ci masked) s = .next t ∧ batchRest s t vd ci ∧ dotFrame s t true
        ∧ (batchResult s t vd ci masked (fun n =>
              bulkPair (rvbna bf16 fp32Acc s.vlmax (batchFactors s 16 (vs2.val + n)) (batchFactors s 16 vs1)
                (s.velem vd 32 (ci + n)).toNat))
          ∨ skipped s t)

/-- `vfqmmacc.vv` (41_zvbdot_batched.md R163) and `vfqmmacc.alt.vv` (R164) complete wherever they are legal: each performed dot
product is `FP8_DOT` of the factors, in the formats of R175, and the destination element with `n = VLMAX`, and the rest is
the frame of R147, R148, R151; where `vl` is 0 it may instead write nothing (D9, log entry 15). `FP8_DOT` is the function of
42_bulk_normalization.md R211 under its default, else the one substituted for it, of which nothing is assumed (00_scope.md
R6, log entry 14). -/
def Obligations.BatchFp8Dot : Prop :=
  ∀ (alt : Bool) (s : State) (vd vs2 vs1 : VReg) (ci : Nat) (masked : Bool), 5 ≤ s.params.vlenLog2 →
    batchRuns (if alt then .vfqmmaccAlt else .vfqmmacc) s vd vs2 vs1 ci masked →
      ∃ t, exec (BatchOp.instr (if alt then .vfqmmaccAlt else .vfqmmacc) vd vs2 vs1 ci masked) s = .next t
        ∧ batchRest s t vd ci ∧ dotFrame s t true
        ∧ (batchResult s t vd ci masked (fun n =>
              bulkPair (fp8Result s alt (batchFactors s 8 (vs2.val + n)) (batchFactors s 8 vs1) (s.velem vd 32 (ci + n))))
          ∨ skipped s t)

/-- `vfmmacc.vv` (41_zvbdot_batched.md R170) completes wherever it is legal: each performed dot product is `FP32_DOT` of the
factors and the destination element under the rounding mode of `frm`, for some choice an implementation may make (R171,
R172, R173 (d)), and the rest is the frame of R147, R148, R151; where `vl` is 0 it may instead write nothing (D9, log entry
15). The form of the choices (which products are rounded, which two terms each adder takes, its format, how tininess is
detected, no added identity) is the model's (log entries 18 to 20); what rounding is, the statement `RoundedArithmetic` says. -/
def Obligations.BatchFp32Dot : Prop :=
  ∀ (s : State) (vd vs2 vs1 : VReg) (ci : Nat) (masked : Bool), 5 ≤ s.params.vlenLog2 →
    batchRuns .vfmmacc s vd vs2 vs1 ci masked →
      ∃ t, exec (.vfmmacc vd vs2 vs1 ci masked) s = .next t ∧ batchRest s t vd ci ∧ dotFrame s t true
        ∧ ((∃ ch rm, roundingModeOf s.frm = some rm ∧ batchResult s t vd ci masked (fun n =>
              let d := fp32Dot ch rm s.frm s.vlmax s.vl.toNat (fp32Factors s (vs2.val + n)) (fp32Factors s vs1)
                (s.velem vd 32 (ci + n))
              (d.bits, d.flags)))
          ∨ skipped s t)

/-- What a batched instruction does not touch (41_zvbdot_batched.md R151): registers outside the destination group, the elements
of the group outside `ci` to `ci + 7`, its sources, and, where it is masked, `v0`; and `vtype.vta` has no effect on it. -/
def Obligations.BatchLeavesTheRest : Prop :=
  ∀ (op : BatchOp) (s t : State) (vd vs2 vs1 : VReg) (ci : Nat) (masked : Bool), 5 ≤ s.params.vlenLog2 →
    batchRuns op s vd vs2 vs1 ci masked → exec (op.instr vd vs2 vs1 ci masked) s = .next t →
      batchRest s t vd ci ∧ t.vreg vs1 = s.vreg vs1 ∧ (∀ n < 8, t.vreg (vs2.val + n) = s.vreg (vs2.val + n))
        ∧ (masked = true → t.vreg 0 = s.vreg 0) ∧ t.vl = s.vl ∧ t.vtype = s.vtype
        ∧ (s.params.altfmtBit ≠ 6 →
            exec (op.instr vd vs2 vs1 ci masked) { s with vtype := s.vtype ^^^ 0x40 }
              = .next { t with vtype := s.vtype ^^^ 0x40 })

/-- A batched instruction with `vl = 0` (41_zvbdot_batched.md R152): an integer form leaves every performed destination element's
value unchanged; a bulk-normalized form keeps a finite non-zero value or an infinity, turns `-0` into `+0` and a NaN into
the canonical NaN, with `NV` if it was signaling, or writes nothing (D9, log entry 15). Where a function is substituted for
`FP8_DOT`, an FP8 form takes that function of all-zero factors and `C` instead (log entry 14). -/
def Obligations.ZeroLengthBatch : Prop :=
  ∀ (op : BatchOp) (s : State) (vd vs2 vs1 : VReg) (ci : Nat) (masked : Bool), 5 ≤ s.params.vlenLog2 → op ≠ .vfmmacc →
    batchRuns op s vd vs2 vs1 ci masked → s.vl = 0 →
      ∃ t, exec (op.instr vd vs2 vs1 ci masked) s = .next t
        ∧ ((op.fp = false ∧ batchResult s t vd ci masked (fun n => (s.velem vd 32 (ci + n), 0)))
          ∨ (op.fp = true ∧ (op = .vfwmmacc ∨ s.params.fp8Dot = .standard)
              ∧ batchResult s t vd ci masked (fun n => zeroProductResult (s.velem vd 32 (ci + n))))
          ∨ ((op = .vfqmmacc ∨ op = .vfqmmaccAlt) ∧ s.params.fp8Dot = .substituted
              ∧ batchResult s t vd ci masked (fun n =>
                  bulkPair (fp8Result s (op == .vfqmmaccAlt) (List.replicate s.vlmax 0) (List.replicate s.vlmax 0)
                    (s.velem vd 32 (ci + n)))))
          ∨ skipped s t)

/-- The source elements at and above `vl`, and the registers of the dot products that are not performed, cannot influence the
results of a batched instruction (41_zvbdot_batched.md R144, R147). -/
def Obligations.BatchIgnoresTailSources : Prop :=
  ∀ (op : BatchOp) (s s' t t' : State) (vd vs2 vs1 : VReg) (ci : Nat) (masked : Bool),
    s' = { s with v := s'.v } → 5 ≤ s.params.vlenLog2 → batchRuns op s vd vs2 vs1 ci masked →
    (masked = true → s'.vreg 0 = s.vreg 0) → (∀ n < 8, s'.velem vd 32 (ci + n) = s.velem vd 32 (ci + n)) →
    (∀ k < s.vl.toNat, s'.velem vs1 op.sew k = s.velem vs1 op.sew k) →
    (∀ n < 8, performed s masked (ci + n) = true →
      ∀ k < s.vl.toNat, s'.velem (vs2.val + n) op.sew k = s.velem (vs2.val + n) op.sew k) →
    exec (op.instr vd vs2 vs1 ci masked) s = .next t → exec (op.instr vd vs2 vs1 ci masked) s' = .next t' →
      (∀ n < 8, t'.velem vd 32 (ci + n) = t.velem vd 32 (ci + n)) ∧ t'.fflags = t.fflags

/-! ## All eleven -/

/-- None of the eleven reads or writes an `x` register (10_state.md R22) or memory (20_memory.md R60): the outcome is the same
whatever they hold, and they are left as they are. The word at `pc` is kept, for the value an illegal-instruction
exception records. -/
def Obligations.DotsIgnoreIntegerState : Prop :=
  ∀ (i : Instr) (s : State) (x : Vector Word 32) (m : Memory), isDot i →
    (∀ k < 4, m.read (s.pc.toNat + k) = s.mem.read (s.pc.toNat + k)) →
      exec i { s with x := x, mem := m } = mapNext (fun t => { t with x := x, mem := m }) (exec i s)

/-- Each of the eleven that completes ends with `pc + 4`; on a reserved configuration the model stops (10_state.md R24). -/
def Obligations.DotsEndAtNextPc : Prop :=
  ∀ (i : Instr) (s : State), isDot i → ¬illegalFor s i →
    exec i s = .fault .reservedInstruction ∨ ∃ t, exec i s = .next t ∧ t.pc = nextPc s

/-- The bulk-normalized and the integer forms do not depend on a valid `frm` (10_state.md R41, 42_bulk_normalization.md R183,
R184). -/
def Obligations.BulkIgnoresFrm : Prop :=
  ∀ (i : Instr) (s : State) (f : BitVec 3), isDot i → (∀ vd vs2 vs1 ci masked, i ≠ .vfmmacc vd vs2 vs1 ci masked) →
    s.frm.toNat ≤ 4 → f.toNat ≤ 4 →
      exec i { s with frm := f } = mapNext (fun t => { t with frm := f }) (exec i s)

/-- Flags are sticky; the six bulk-normalized forms set no flag but `NV` (bit 4) and `OF` (bit 2), `vfmmacc.vv` never sets `DZ`
(bit 3), and no other instruction sets any (10_state.md R42, 42_bulk_normalization.md R187). -/
def Obligations.FlagsAccrue : Prop :=
  ∀ (i : Instr) (s t : State), exec i s = .next t →
    s.fflags &&& t.fflags = s.fflags ∧ (isFpForm i = false → t.fflags = s.fflags)
      ∧ (isBulk i → t.fflags &&& 0x0B = s.fflags &&& 0x0B) ∧ t.fflags &&& 0x08 = s.fflags &&& 0x08

/-- Which instruction writes which register: `vtype` and `vl` only `vsetvli` (10_state.md R39), memory only `vse32.v`, the `x`
registers only `add`, `sub`, `addi` and `vsetvli` (so not `bne`), the vector registers neither these nor `bne` nor
`vse32.v`, and none writes `frm`, `vxsat` or `vxrm` (R43). -/
def Obligations.OnlyTheirWritersWrite : Prop :=
  ∀ (i : Instr) (s t : State), exec i s = .next t →
    ((∀ rd rs1 zimm, i ≠ .vsetvli rd rs1 zimm) → t.vtype = s.vtype ∧ t.vl = s.vl)
      ∧ ((∀ vs3 rs1 masked, i ≠ .vse32 vs3 rs1 masked) → t.mem = s.mem)
      ∧ (writesX i = false → t.x = s.x)
      ∧ ((usesVector i = false ∨ (∃ rd rs1 zimm, i = .vsetvli rd rs1 zimm) ∨ ∃ vs3 rs1 masked, i = .vse32 vs3 rs1 masked) →
          t.v = s.v)
      ∧ t.frm = s.frm ∧ t.vxsat = s.vxsat ∧ t.vxrm = s.vxrm

/-! ## The host subset -/

/-- `add` (43_host_subset.md R233), `sub` (R234) and `addi` (R235) complete in every state: the sum or difference modulo
`2 ^ XLEN` in `x[rd]`, nothing where `rd` is `x0` (10_state.md R21), every other register and the flags unchanged. -/
def Obligations.IntegerArithmetic : Prop :=
  ∀ (s : State) (rd rs1 rs2 : XReg) (imm : BitVec 12),
    (∃ t, exec (.add rd rs1 rs2) s = .next t ∧ t = { s with x := t.x, pc := nextPc s }
      ∧ ∀ r, (t.readX r).toNat
          = if r = rd ∧ rd ≠ 0 then ((s.readX rs1).toNat + (s.readX rs2).toNat) % 2 ^ s.params.xlen.bits
            else (s.readX r).toNat)
    ∧ (∃ t, exec (.sub rd rs1 rs2) s = .next t ∧ t = { s with x := t.x, pc := nextPc s }
      ∧ ∀ r, ((t.readX r).toNat : Int)
          = if r = rd ∧ rd ≠ 0 then ((s.readX rs1).toNat - (s.readX rs2).toNat : Int) % 2 ^ s.params.xlen.bits
            else (s.readX r).toNat)
    ∧ (∃ t, exec (.addi rd rs1 imm) s = .next t ∧ t = { s with x := t.x, pc := nextPc s }
      ∧ ∀ r, ((t.readX r).toNat : Int)
          = if r = rd ∧ rd ≠ 0 then ((s.readX rs1).toNat + imm.toInt : Int) % 2 ^ s.params.xlen.bits
            else (s.readX r).toNat)

/-- `bne` (43_host_subset.md R236) completes in every state: where the registers differ it goes to `pc + offset` modulo
`2 ^ XLEN`, or raises instruction-address-misaligned there with the target as value (60_exceptions.md R264); where they
are equal it goes to `pc + 4`. -/
def Obligations.BranchNotEqual : Prop :=
  ∀ (s : State) (rs1 rs2 : XReg) (offset : BitVec 13),
    ∃ target : Word, (target.toNat : Int) = (s.pc.toNat + offset.toInt) % 2 ^ s.params.xlen.bits
      ∧ (s.readX rs1 ≠ s.readX rs2 → target.toNat % 4 = 0 → exec (.bne rs1 rs2 offset) s = .next { s with pc := target })
      ∧ (s.readX rs1 ≠ s.readX rs2 → target.toNat % 4 ≠ 0 →
          exec (.bne rs1 rs2 offset) s = .next (s.takeException .insnMisaligned target))
      ∧ (s.readX rs1 = s.readX rs2 → exec (.bne rs1 rs2 offset) s = .next { s with pc := nextPc s })

/-- `vsetvli` (43_host_subset.md R238) with the vector unit on: it completes for every operand but the keep-vl form, which the
spec refuses (log entry 24). A supported setting gives `vtype` the immediate and `vl` a value by AVL and VLMAX, an
unsupported one only `vill` and `vl = 0`; `x[rd]` gets `vl`, `vstart` becomes 0, and nothing else changes. -/
def Obligations.VectorConfiguration : Prop :=
  ∀ (s : State) (rd rs1 : XReg) (zimm : BitVec 11), s.params.wf = true → s.mstatus.vs ≠ .off →
    (rs1 = 0 ∧ rd = 0 → exec (.vsetvli rd rs1 zimm) s = .refused .vsetvliKeepVl)
    ∧ (¬(rs1 = 0 ∧ rd = 0) →
        ∃ t, exec (.vsetvli rd rs1 zimm) s = .next t
          ∧ t = { s with vtype := t.vtype, vl := t.vl, vstart := 0, x := t.x, pc := nextPc s }
          ∧ (∀ r, t.readX r = if r = rd ∧ rd ≠ 0 then t.vl else s.readX r)
          ∧ (¬supportedSetting s.params zimm → t.vl = 0 ∧ t.vtype.toNat = 2 ^ (s.params.xlen.bits - 1))
          ∧ (supportedSetting s.params zimm → t.vtype.toNat = zimm.toNat
              ∧ (let vlmax := settingVlmax s.params zimm
                 (avlOf s rs1 ≤ vlmax → t.vl.toNat = avlOf s rs1)
                  ∧ (2 * vlmax ≤ avlOf s rs1 → t.vl.toNat = vlmax)
                  ∧ (avlOf s rs1 < 2 * vlmax → (avlOf s rs1 + 1) / 2 ≤ t.vl.toNat)
                  ∧ t.vl.toNat ≤ vlmax)))

/-- `vmv.v.i` (43_host_subset.md R241) completes wherever it is legal: the body elements of the group become the sign-extended
immediate, the elements below `vstart` are unchanged, the tail follows `vta`, and nothing else changes. That `mstatus.VS` too is
unchanged is the model's reading, for R241 does not speak of it (log entry 22). -/
def Obligations.VectorMove : Prop :=
  ∀ (s : State) (vd : VReg) (simm5 : BitVec 5), s.Inv → moveRuns s vd →
    ∃ t, exec (.vmvVI vd simm5) s = .next t ∧ vectorFrame s t ∧ outsideGroup s t vd (lmulRegs s)
      ∧ ∀ i < max s.vlmax (s.params.vlen / s.sew),
          if s.vl.toNat ≤ i then keptOrOnes s t s.vta vd s.sew i
          else if i < s.vstart.toNat then t.velem vd s.sew i = s.velem vd s.sew i
          else (t.velem vd s.sew i).toInt = simm5.toInt

/-- `vle8.v`, `vle16.v` and `vle32.v` (43_host_subset.md R243 to R245, R247) complete wherever they are legal and every accessed
element is aligned, in launch memory and written: the elements take the little-endian bytes of memory, masked-off and tail
elements follow `vma` and `vta`, and nothing else changes. That `mstatus.VS` too is unchanged is the model's reading, for
R247 does not speak of it (log entry 22). -/
def Obligations.VectorLoad : Prop :=
  ∀ (op : LoadOp) (s : State) (vd : VReg) (rs1 : XReg) (masked : Bool), s.Inv → memRuns s op.eew vd true masked →
    (∀ i, accessed s masked i → loadable s rs1 op.eew i) →
      ∃ t, exec (op.instr vd rs1 masked) s = .next t ∧ vectorFrame s t
        ∧ outsideGroup s t vd (max 1 (emul8Of s op.eew / 8))
        ∧ ∀ i < max (s.params.vlen / op.eew) (emul8Of s op.eew * s.params.vlen / (8 * op.eew)),
            loadedElem s t vd rs1 op.eew masked i

/-- `vse32.v` (43_host_subset.md R246, R247) completes wherever it is legal and every accessed element can be stored: the bytes
at the address of each accessed element become the element's, little-endian, every other byte of memory is unchanged, and
nothing else changes. That `mstatus.VS` too is unchanged is the model's reading, for R247 does not speak of it (log entry
22). -/
def Obligations.VectorStore : Prop :=
  ∀ (s : State) (vs3 : VReg) (rs1 : XReg) (masked : Bool), s.Inv → memRuns s 32 vs3 false masked →
    (∀ i, accessed s masked i → storable s rs1 32 i) →
      ∃ t, exec (.vse32 vs3 rs1 masked) s = .next t
        ∧ t = { s with mem := t.mem, vstart := 0, pc := nextPc s, draws := t.draws }
        ∧ (∀ i, accessed s masked i → ∀ k < 4,
            t.mem.read (elemAddress s rs1 32 i + k) = some (byteOf (s.velem vs3 32 i) k))
        ∧ ∀ a, (∀ i, accessed s masked i → ¬inElement s rs1 32 i a) → t.mem.read a = s.mem.read a

/-- A vector load meets an exception at element `i`, the first accessed element that is misaligned or outside launch memory
(43_host_subset.md R247, 60_exceptions.md R264, R268 (4), R270): misaligned before access fault, the element address as
value, `vstart = i`, the elements below `i` transferred, and nothing outside the destination group changed. Which elements
above `i` were transferred is left free (log entry 21); that `mstatus.VS` is unchanged before the exception is taken is the
model's reading (log entry 22). -/
def Obligations.LoadExceptionAtElement : Prop :=
  ∀ (op : LoadOp) (s : State) (vd : VReg) (rs1 : XReg) (masked : Bool) (i : Nat), s.Inv →
    memRuns s op.eew vd true masked → accessed s masked i →
    (∀ j < i, accessed s masked j → loadable s rs1 op.eew j) →
    ¬(elemAligned s rs1 op.eew i ∧ inMemory s.params (elemAddress s rs1 op.eew i) (op.eew / 8)) →
      ∃ u : State, exec (op.instr vd rs1 masked) s
          = .next (u.takeException (if elemAligned s rs1 op.eew i then .loadAccess else .loadMisaligned)
              (BitVec.ofNat 64 (elemAddress s rs1 op.eew i)))
        ∧ u = { s with v := u.v, vstart := BitVec.ofNat 64 i, draws := u.draws }
        ∧ outsideGroup s u vd (max 1 (emul8Of s op.eew / 8))
        ∧ (∀ j < i, loadedElem s u vd rs1 op.eew masked j) ∧ u.velem vd op.eew i = s.velem vd op.eew i

/-- A vector store meets an exception at element `i`, the first accessed element that is misaligned, outside launch memory or in
the program text (43_host_subset.md R247, 20_memory.md R69, 60_exceptions.md R264, R268 (4), R270): misaligned before access
fault, the element address as value, `vstart = i`, the elements below `i` stored, and no byte changed but those of accessed
elements that can be stored. Which elements above `i` were stored is left free (log entry 21); that `mstatus.VS` is unchanged
before the exception is taken is the model's reading (log entry 22). -/
def Obligations.StoreExceptionAtElement : Prop :=
  ∀ (s : State) (vs3 : VReg) (rs1 : XReg) (masked : Bool) (i : Nat), s.Inv →
    memRuns s 32 vs3 false masked → accessed s masked i → (∀ j < i, accessed s masked j → storable s rs1 32 j) →
    ¬storable s rs1 32 i →
      ∃ u : State, exec (.vse32 vs3 rs1 masked) s
          = .next (u.takeException (if elemAligned s rs1 32 i then .storeAccess else .storeMisaligned)
              (BitVec.ofNat 64 (elemAddress s rs1 32 i)))
        ∧ u = { s with mem := u.mem, vstart := BitVec.ofNat 64 i, draws := u.draws }
        ∧ (∀ j < i, accessed s masked j → ∀ k < 4,
            u.mem.read (elemAddress s rs1 32 j + k) = some (byteOf (s.velem vs3 32 j) k))
        ∧ ∀ a, (∀ j, accessed s masked j → storable s rs1 32 j → ¬inElement s rs1 32 j a) →
            u.mem.read a = s.mem.read a

/-- The same bytes loaded as words by `vle32.v` and as bytes by `vle8.v` give the same register contents (20_memory.md R61). -/
def Obligations.ByteAndWordLoadsAgree : Prop :=
  ∀ (s s' : State) (vd : VReg) (rs1 : XReg), s.Inv → s'.Inv → s' = { s with vtype := s'.vtype, vl := s'.vl } →
    s.vstart = 0 → s'.vl.toNat = 4 * s.vl.toNat → s.vta = false → s'.vta = false →
    memRuns s 32 vd true false → memRuns s' 8 vd true false →
    (∀ i < s.vl.toNat, loadable s rs1 32 i) →
      ∃ t t', exec (.vle32 vd rs1 false) s = .next t ∧ exec (.vle8 vd rs1 false) s' = .next t' ∧ t'.v = t.v

/-! ## Bulk normalization -/

/-- The worked values of 42_bulk_normalization.md R214 (BF16, `n = 8`, rows 1 to 26, and the row with `n = 4`), of R215 (FP8,
`n = 16`) and of the appendix example of R213 (binary16, `n = 2`): result, invalid, overflow. -/
def Obligations.WorkedBulkValues : Prop :=
  (∀ row ∈ ([([(0x3F80, 0x4000), (0x3F80, 0x4000), (0x3F80, 0x4000), (0x3F80, 0x4000), (0x3F80, 0x4000), (0x3F80, 0x4000),
            (0x3F80, 0x4000), (0x3F80, 0x4000)], 0x3F800000, ⟨0x41880000, false, false⟩),
      ([(0x3F80, 0x3F80)], 0x30800000, ⟨0x3F800001, false, false⟩),
      ([(0x3F80, 0x3F80)], 0xB0800000, ⟨0x3F7FFFFF, false, false⟩),
      (List.replicate 8 (0x8000, 0x3F80), 0x80000000, ⟨0, false, false⟩),
      ([(0x7F80, 0x3F80), (0xFF80, 0x3F80)], 0, ⟨0x7FC00000, true, false⟩),
      ([(0x7F80, 0x0000)], 0, ⟨0x7FC00000, true, false⟩),
      ([(0x7FC0, 0x3F80)], 0, ⟨0x7FC00000, false, false⟩),
      ([(0x7F81, 0x3F80)], 0, ⟨0x7FC00000, true, false⟩),
      ([], 0x7F800001, ⟨0x7FC00000, true, false⟩),
      ([], 0x7FC12345, ⟨0x7FC00000, false, false⟩),
      ([(0x7F80, 0x3F80)], 0xFF800000, ⟨0x7FC00000, true, false⟩),
      (List.replicate 8 (0x3F80, 0x3F80), 0x7F800000, ⟨0x7F800000, false, false⟩),
      (List.replicate 8 (0x7F7F, 0x7F7F), 0, ⟨0x7F800000, false, true⟩),
      (List.replicate 8 (0xFF7F, 0x7F7F), 0, ⟨0xFF800000, false, true⟩),
      ([(0x3F80, 0x3F80)], 0x7F7FFFFF, ⟨0x7F7FFFFF, false, false⟩),
      ([(0x0080, 0x0080)], 0, ⟨0x00000001, false, false⟩),
      ([], 0x807920B2, ⟨0x807920B2, false, false⟩),
      ([(0x3F80, 0x3F80), (0xBF80, 0x3F80)], 0, ⟨0, false, false⟩),
      ([(0xBF80, 0x3F80)], 0, ⟨0xBF800000, false, false⟩),
      ([(0x0001, 0x3F80)], 0, ⟨0x00010000, false, false⟩),
      ([(0x4000, 0x4000)], 0x00000001, ⟨0x40800001, false, false⟩),
      ([(0x3F80, 0x3F80), (0x3F80, 0x2B80)], 0, ⟨0x3F800001, false, false⟩),
      ([(0x7F00, 0x3F80)], 0x7F7FFFFF, ⟨0x7F800000, false, true⟩),
      ([(0x7F80, 0x7FC0)], 0, ⟨0x7FC00000, false, false⟩),
      ([(0x7F80, 0x0000)], 0x7FC00000, ⟨0x7FC00000, true, false⟩),
      ([(0x0001, 0x0001)], 0x00000001, ⟨0x00000001, false, false⟩)] : List (List (Nat × Nat) × BitVec 32 × BulkResult)),
    rvbnaPairs bf16 bf16 8 (row.1 ++ List.replicate (8 - row.1.length) (0, 0)) row.2.1 = row.2.2)
  ∧ rvbnaPairs bf16 bf16 4 (List.replicate 4 (0x3FFF, 0x3FFF)) 0x3FFFFFFF = ⟨0x418F007F, false, false⟩
  ∧ (∀ row ∈ ([(e4m3, e4m3, List.replicate 16 (0x38, 0x38), ⟨0x41800000, false, false⟩),
      (e4m3, e4m3, List.replicate 16 (0x7E, 0x7E), ⟨0x4A440000, false, false⟩),
      (e4m3, e4m3, [(0x7F, 0x38)], ⟨0x7FC00000, false, false⟩),
      (e4m3, e4m3, [(0x78, 0x38)], ⟨0x43800000, false, false⟩),
      (e5m2, e5m2, List.replicate 16 (0x3C, 0x3C), ⟨0x41800000, false, false⟩),
      (e5m2, e5m2, [(0x7C, 0x3C)], ⟨0x7F800000, false, false⟩),
      (e5m2, e5m2, [(0x7D, 0x3C)], ⟨0x7FC00000, true, false⟩),
      (e5m2, e5m2, [(0x7E, 0x3C)], ⟨0x7FC00000, false, false⟩),
      (e4m3, e5m2, List.replicate 16 (0x3C, 0x3E), ⟨0x42100000, false, false⟩),
      (e4m3, e5m2, [(0x01, 0x01)], ⟨0x33000000, false, false⟩)]
        : List (FactorFmt × FactorFmt × List (Nat × Nat) × BulkResult)),
    rvbnaPairs row.1 row.2.1 16 (row.2.2.1 ++ List.replicate (16 - row.2.2.1.length) (0, 0)) 0 = row.2.2.2)
  ∧ rvbnaPairs binary16 binary16 2 [(0x0001, 0x3C00), (0x0C01, 0x1401)] 0 = ⟨0x34A04080, false, false⟩

/-- The FP8 formats (42_bulk_normalization.md R210, R212): the special values of all 256 patterns of each, and the values R210
names. -/
def Obligations.Fp8Formats : Prop :=
  (∀ X < 256, ((decodeFactor e4m3 X).isNaN = true ↔ X = 0x7F ∨ X = 0xFF) ∧ (decodeFactor e4m3 X).isInf = false
      ∧ (decodeFactor e4m3 X).isSNaN = false
      ∧ ((decodeFactor e5m2 X).isInf = true ↔ X = 0x7C ∨ X = 0xFC)
      ∧ ((decodeFactor e5m2 X).isNaN = true ↔ X ∈ [0x7D, 0x7E, 0x7F, 0xFD, 0xFE, 0xFF])
      ∧ ((decodeFactor e5m2 X).isSNaN = true ↔ X = 0x7D ∨ X = 0xFD))
    ∧ factorRat e4m3 0x38 = 1 ∧ factorRat e4m3 0x78 = 256 ∧ factorRat e4m3 0x7E = 448
    ∧ factorRat e5m2 0x3C = 1 ∧ factorRat e5m2 0x7B = 57344

/-- Special values of a bulk-normalized dot product, apart from the order of a scan (42_bulk_normalization.md R188, R193): the
invalid flag is raised exactly for a signaling NaN, a zero times an infinity, or infinities of both signs; a NaN operand or
such an invalid operation gives the canonical NaN; otherwise an infinite term gives that infinity and no flag. -/
def Obligations.SpecialValues : Prop :=
  ∀ (fA fB : FactorFmt) (n : Nat) (L : List (Nat × Nat)) (C : BitVec 32),
    fA ∈ factorFormats → fB ∈ factorFormats →
      let P := L.map (decodePair fA fB)
      let c := decodeAddend fp32Acc C.toNat
      let r := rvbnaPairs fA fB n L C
      (r.nv = true ↔ anySNaN c P ∨ invalidSum c P)
        ∧ (anyNaN c P ∨ invalidSum c P → r.bits = 0x7FC00000 ∧ r.overflow = false)
        ∧ (∀ sign, ¬(anyNaN c P ∨ invalidSum c P) → infTerm c P sign →
            r.bits = (if sign then 0xFF800000 else 0x7F800000) ∧ r.overflow = false)

/-- With all products zero the result is the addend, but `+0` for `-0` and the canonical NaN for a NaN
(42_bulk_normalization.md R204 (e), 41_zvbdot_batched.md R152). -/
def Obligations.ZeroProductsKeepTheAddend : Prop :=
  ∀ (fA fB : FactorFmt) (n : Nat) (L : List (Nat × Nat)) (C : BitVec 32),
    fA ∈ factorFormats → fB ∈ factorFormats → (∀ ab ∈ L, zeroPair (decodePair fA fB ab) = true) →
      bulkPair (rvbnaPairs fA fB n L C) = zeroProductResult C

/-- Permuting the pairs of factors changes neither the result nor the flags (42_bulk_normalization.md R204 (b), R193). -/
def Obligations.PairOrderIrrelevant : Prop :=
  ∀ (fA fB : FactorFmt) (n : Nat) (L L' : List (Nat × Nat)) (C : BitVec 32),
    fA ∈ factorFormats → fB ∈ factorFormats → L.Perm L' → rvbnaPairs fA fB n L C = rvbnaPairs fA fB n L' C

/-- Exchanging the two arrays with their formats changes nothing; with one format it is the commutativity of
42_bulk_normalization.md R204 (i). -/
def Obligations.FactorsCommute : Prop :=
  ∀ (fA fB : FactorFmt) (n : Nat) (L : List (Nat × Nat)) (C : BitVec 32),
    rvbnaPairs fA fB n L C = rvbnaPairs fB fA n (L.map Prod.swap) C

/-- Appending pairs one of whose factors is zero, without changing `n`, changes nothing (42_bulk_normalization.md R204 (c)). -/
def Obligations.ZeroPairsChangeNothing : Prop :=
  ∀ (fA fB : FactorFmt) (n : Nat) (L Z : List (Nat × Nat)) (C : BitVec 32),
    (∀ ab ∈ Z, zeroPair (decodePair fA fB ab) = true) → rvbnaPairs fA fB n (L ++ Z) C = rvbnaPairs fA fB n L C

/-- Negating every factor of `A` and the addend negates a result that is neither zero nor NaN, and keeps the flags
(42_bulk_normalization.md R204 (f)). -/
def Obligations.SignSymmetry : Prop :=
  ∀ (fA fB : FactorFmt) (n : Nat) (L : List (Nat × Nat)) (C : BitVec 32), fA ∈ factorFormats → fB ∈ factorFormats →
    let r := rvbnaPairs fA fB n L C
    let r' := rvbnaPairs fA fB n (L.map fun ab => (ab.1 ^^^ 2 ^ (fA.e + fA.p - 1), ab.2)) (C ^^^ 0x80000000)
    r'.nv = r.nv ∧ r'.overflow = r.overflow
      ∧ r'.bits = if r.bits = 0 ∨ r.bits = 0x7FC00000 then r.bits else r.bits ^^^ 0x80000000

/-- A zero result is always `+0` (42_bulk_normalization.md R186): `-0` is never returned, and the result is zero exactly where
the sum of the aligned terms is. -/
def Obligations.ZeroResultIsPositive : Prop :=
  ∀ (fA fB : FactorFmt) (n : Nat) (L : List (Nat × Nat)) (C : BitVec 32), fA ∈ factorFormats → fB ∈ factorFormats →
    (rvbnaPairs fA fB n L C).bits ≠ 0x80000000
      ∧ ((∀ ab ∈ L, finitePair (decodePair fA fB ab) = true) → fp32Finite C →
          let P := L.map (decodePair fA fB)
          let c := decodeAddend fp32Acc C.toNat
          let maxExp := maxExpOf (offsetOf fA fB) c P
          ((rvbnaPairs fA fB n L C).bits = 0
            ↔ accumulate (offsetOf fA fB) maxExp fp32Acc (clog2 n) (fA.p + fB.p) c P = 0))

/-- The final rounding is round to odd with overflow to infinity (42_bulk_normalization.md R184, R185, R189, R199): with `v` the
exact value of the accumulator, overflow is raised iff `|v|` reaches `2 ^ 128`; otherwise the result is a finite FP32 value,
normalised or subnormal, that equals `v`, or lies within one unit in its last place of `v` and has an odd significand. -/
def Obligations.FinalRoundingIsToOdd : Prop :=
  ∀ (g : Nat) (maxExp acc : Int), acc ≠ 0 →
    let r := normalise fp32Acc g maxExp acc
    let v := accRat g maxExp acc
    let d := decodeAddend fp32Acc r.1
    r.1 < 2 ^ 32 ∧ (r.2 = true ↔ 2 ^ 128 ≤ |v|)
      ∧ (r.2 = true → r.1 = if acc < 0 then 0xFF800000 else 0x7F800000)
      ∧ (r.2 = false → d.isInf = false ∧ d.isNaN = false ∧ d.sign = decide (acc < 0) ∧ (2 ^ 23 ≤ d.sig ∨ d.ref = 1)
          ∧ (fp32Rat (BitVec.ofNat 32 r.1) = v
              ∨ (d.sig % 2 = 1 ∧ |fp32Rat (BitVec.ofNat 32 r.1) - v| < 2 ^ ((d.ref : Int) - 150))))

/-- The error bound of bulk normalization (42_bulk_normalization.md R204 (g)): for finite operands the result is the final rounding
of an accumulator whose exact value differs from the exact dot product plus addend by less than one accumulator unit for each
term, and so, with at most `n` products, by less than `2 ^ (maxExp - addendBias - q + 2)`. -/
def Obligations.AlignmentErrorBound : Prop :=
  ∀ (fA fB : FactorFmt) (n : Nat) (L : List (Nat × Nat)) (C : BitVec 32), fA ∈ factorFormats → fB ∈ factorFormats →
    (∀ ab ∈ L, finitePair (decodePair fA fB ab) = true) → fp32Finite C →
      let P := L.map (decodePair fA fB)
      let c := decodeAddend fp32Acc C.toNat
      let g := clog2 n
      let maxExp := maxExpOf (offsetOf fA fB) c P
      let acc := accumulate (offsetOf fA fB) maxExp fp32Acc g (fA.p + fB.p) c P
      let exact := (L.map fun ab => factorRat fA ab.1 * factorRat fB ab.2).sum + fp32Rat C
      rvbnaPairs fA fB n L C
          = ⟨(normalise fp32Acc g maxExp acc).1, false, (normalise fp32Acc g maxExp acc).2⟩
        ∧ |accRat g maxExp acc - exact| < (L.length + 1) * 2 ^ (maxExp - 150 - g : Int)
        ∧ (L.length ≤ n → |accRat g maxExp acc - exact| < 2 ^ (maxExp - 149 : Int))

/-! ## `FP32_DOT` -/

/-- What may be relied on whatever an implementation chooses (41_zvbdot_batched.md R173 (b)): where every product and the sum of
every non-empty sub-collection of the terms is exactly representable in FP32, the result is the exact total, or a zero of
either sign, and no flag is raised. -/
def Obligations.Fp32ExactWhereRepresentable : Prop :=
  ∀ (ch : Fp32Choices) (rm : RoundingMode) (frm : BitVec 3) (vlmax vl : Nat) (L : List (BitVec 32 × BitVec 32))
      (C : BitVec 32),
    fp32Finite C → (∀ ab ∈ L, fp32Finite ab.1 ∧ fp32Finite ab.2) →
    (∀ T : List ℚ, T.Sublist (fp32Terms L C) → T ≠ [] → inFp32 T.sum) →
      let r := fp32Dot ch rm frm vlmax vl (L.map Prod.fst) (L.map Prod.snd) C
      fp32Finite r.bits ∧ fp32Rat r.bits = (fp32Terms L C).sum ∧ r.flags = 0

/-- Whatever an implementation chooses (41_zvbdot_batched.md R173 (c)): a NaN operand, a zero times an infinity, or infinities of
both signs give the canonical NaN; `NV` is set for a signaling operand, for a zero times an infinity, and for infinities of
both signs without a NaN operand. -/
def Obligations.Fp32NaNResults : Prop :=
  ∀ (ch : Fp32Choices) (rm : RoundingMode) (frm : BitVec 3) (vlmax vl : Nat) (L : List (BitVec 32 × BitVec 32))
      (C : BitVec 32),
    let r := fp32Dot ch rm frm vlmax vl (L.map Prod.fst) (L.map Prod.snd) C
    let nanIn := fp32IsNaN C ∨ ∃ ab ∈ L, fp32IsNaN ab.1 ∨ fp32IsNaN ab.2
    let zeroInf := ∃ ab ∈ L, fp32ZeroTimesInf ab
    let opposite := fp32InfTerm L C true ∧ fp32InfTerm L C false
    (nanIn ∨ zeroInf ∨ opposite → r.bits = 0x7FC00000)
      ∧ (fp32IsSNaN C ∨ (∃ ab ∈ L, fp32IsSNaN ab.1 ∨ fp32IsSNaN ab.2) ∨ zeroInf ∨ (opposite ∧ ¬nanIn) →
          r.flags.getLsbD 4 = true)

/-- The arithmetic of `vfmmacc.vv` (10_state.md R41, 41_zvbdot_batched.md R171, R172): products and sums of finite values are
exact before they are rounded, and rounding to a format is what each rounding mode says. With `r` the value rounded to the
format's precision and smallest weight, the result is `r` with no flag but `NX` where it is inexact and `UF`
where it is tiny as well, or where `r` exceeds the largest finite number the overflow value of the mode with `OF` and `NX`.
A zero, an infinity and a NaN stay as they are. That the modes, the flags and the overflow value are IEEE 754's is the
model's reading (log entry 18), and whether tininess is detected after rounding is free (log entry 19). -/
def Obligations.RoundedArithmetic : Prop :=
  (∀ (rm : RoundingMode) (s₁ s₂ : Bool) (m₁ m₂ : Nat) (e₁ e₂ : Int),
      (∃ s m e, fpMul (.fin s₁ m₁ e₁) (.fin s₂ m₂ e₂) = ⟨.fin s m e, 0⟩
          ∧ finRat s m e = finRat s₁ m₁ e₁ * finRat s₂ m₂ e₂ ∧ s = (s₁ ^^ s₂))
        ∧ ∃ s m e, fpAdd rm (.fin s₁ m₁ e₁) (.fin s₂ m₂ e₂) = ⟨.fin s m e, 0⟩
          ∧ finRat s m e = finRat s₁ m₁ e₁ + finRat s₂ m₂ e₂)
  ∧
  ∀ (f : BinFmt) (rm : RoundingMode) (after sign : Bool) (mant : Nat) (exp : Int), 2 ≤ f.prec → 2 ≤ f.expBits →
    let emax : Int := 2 ^ (f.expBits - 1) - 1
    let low : Int := 2 - 2 ^ (f.expBits - 1) - (f.prec - 1)
    let v := finRat sign mant exp
    let out := roundTo f rm after (.fin sign mant exp)
    (mant = 0 → out = ⟨.fin sign 0 0, 0⟩)
      ∧ roundTo f rm after (.inf sign) = ⟨.inf sign, 0⟩ ∧ roundTo f rm after .nan = ⟨.nan, 0⟩
      ∧ (mant ≠ 0 → ∃ r, roundedAs rm f.prec (some low) v r
          ∧ (2 ^ (emax + 1) ≤ |r| → out = ⟨overflowValue f rm sign, 0x05⟩)
          ∧ (|r| < 2 ^ (emax + 1) →
              (∃ m e, out.val = .fin sign m e ∧ finRat sign m e = r)
                ∧ (out.flags = 0 ↔ r = v) ∧ out.flags &&& 0x1C = 0 ∧ (r ≠ v → out.flags.getLsbD 0 = true)
                ∧ (out.flags.getLsbD 1 = true
                  ↔ r ≠ v ∧ if after then ∃ u, roundedAs rm f.prec none v u ∧ |u| < 2 ^ (1 - emax)
                      else |v| < 2 ^ (1 - emax))))

/-! ## Reset and the invariant -/

/-- What 10_state.md R49 gives for reset: `vtype` holds only `vill`, `vl` is 0, `mstatus.VS` and `FS` are Off, the mode is
machine mode, and `pc` is `START_PC`; and for the launch state: `vstart`, `frm` and `fflags` are 0, and `VS` and `FS` are
Initial, where R49 says "Initial (01) or higher" and Initial is the model's choice (log entry 5). That no byte of memory has a
value, so that reading one faults, is the model's choice of the two ways R50 offers (log entry 8). -/
def Obligations.ResetValues : Prop :=
  State.reset.vtype.toNat = 2 ^ (State.reset.params.xlen.bits - 1) ∧ State.reset.vl = 0
    ∧ State.reset.mstatus.vs = .off ∧ State.reset.mstatus.fs = .off ∧ State.reset.mode = .machine
    ∧ State.reset.pc = State.reset.params.startPc ∧ (∀ a, State.reset.mem.read a = none) ∧ State.reset.stopped = none
    ∧ State.launch.vstart = 0 ∧ State.launch.frm = 0 ∧ State.launch.fflags = 0
    ∧ State.launch.mstatus.vs = .initial ∧ State.launch.mstatus.fs = .initial

/-- The CSRs of 10_state.md R45 by number, each read and written: `fflags` 0x001, `frm` 0x002, `fcsr` 0x003 with `frm` in bits
7:5 and `fflags` in bits 4:0, `vstart` 0x008, `vxsat` 0x009, `vxrm` 0x00A, `vcsr` 0x00F, and the read-only `vl` 0xC20,
`vtype` 0xC21 and `vlenb` 0xC22, which reads `VLEN/8`. A write keeps the low bits of the register's width and changes nothing
else. The places of `vxrm` and `vxsat` in `vcsr`, and that a write keeps the low bits, are the model's (log entry 30). -/
def Obligations.CsrViews : Prop :=
  ∀ (s : State) (w : Word),
    (∃ t, s.csrWrite 0x003 w = some t ∧ t.frm = w.extractLsb' 5 3 ∧ t.fflags = w.extractLsb' 0 5
        ∧ t = { s with frm := t.frm, fflags := t.fflags }
        ∧ t.csrRead 0x001 = some (t.fflags.setWidth 64) ∧ t.csrRead 0x002 = some (t.frm.setWidth 64)
        ∧ (t.csrRead 0x003).map (fun v => v.extractLsb' 0 8) = some (w.extractLsb' 0 8))
      ∧ s.csrRead 0x001 = some (s.fflags.setWidth 64) ∧ s.csrRead 0x002 = some (s.frm.setWidth 64)
      ∧ s.csrRead 0x009 = some (s.vxsat.setWidth 64) ∧ s.csrRead 0x00A = some (s.vxrm.setWidth 64)
      ∧ (∃ v, s.csrRead 0x00F = some v ∧ v.extractLsb' 1 2 = s.vxrm ∧ v.extractLsb' 0 1 = s.vxsat ∧ v.toNat < 8)
      ∧ s.csrWrite 0x001 w = some { s with fflags := w.extractLsb' 0 5 }
      ∧ s.csrWrite 0x002 w = some { s with frm := w.extractLsb' 0 3 }
      ∧ s.csrWrite 0x008 w = some { s with vstart := BitVec.ofNat 64 (w.toNat % 2 ^ s.params.xlen.bits) }
      ∧ s.csrWrite 0x009 w = some { s with vxsat := w.extractLsb' 0 1 }
      ∧ s.csrWrite 0x00A w = some { s with vxrm := w.extractLsb' 0 2 }
      ∧ s.csrWrite 0x00F w = some { s with vxrm := w.extractLsb' 1 2, vxsat := w.extractLsb' 0 1 }
      ∧ s.csrRead 0x008 = some s.vstart ∧ s.csrRead 0xC20 = some s.vl ∧ s.csrRead 0xC21 = some s.vtype
      ∧ s.csrRead 0xC22 = some (BitVec.ofNat 64 (s.params.vlen / 8))
      ∧ s.csrWrite 0xC20 w = none ∧ s.csrWrite 0xC21 w = none ∧ s.csrWrite 0xC22 w = none

/-- The reset state meets the invariant. -/
def Obligations.ResetMeetsInvariant : Prop := State.reset.Inv

/-- Every step from a state that meets the invariant leads to one that meets it, and no step changes a parameter: memory stays in
canonical form inside the address space, `pc` aligned (10_state.md R23, D26), every register within its width, the exception
registers included (R21, R30; log entry 27), and `vtype` and `vl` as `vsetvli` leaves them, with `vl` at most VLMAX (R37, R39). -/
def Obligations.StepKeepsInvariant : Prop :=
  ∀ s t : State, s.Inv → step s = .next t → t.Inv ∧ t.params = s.params

end ObligationStatements
end

