-- ==== Sys2Proof/Laws/Bits.lean ====
section
/-! SUPPORT. The bit-field and byte-order helpers. -/

namespace Sys2Proof.Machine

theorem bitField_testBit (n lsb w j : Nat) : (bitField n lsb w).testBit j = (decide (j < w) && n.testBit (lsb + j)) := by
  unfold bitField
  rw [Nat.testBit_mod_two_pow, Nat.testBit_div_two_pow, Nat.add_comm]

theorem bitField_lt (n lsb w : Nat) : bitField n lsb w < 2 ^ w := Nat.mod_lt _ (Nat.two_pow_pos w)

/-- The bits of a number one of whose fields is replaced. -/
theorem setBitField_testBit (n lsb w value j : Nat) :
    (setBitField n lsb w value).testBit j =
      if j < lsb then n.testBit j else if j < lsb + w then value.testBit (j - lsb) else n.testBit j := by
  have h : setBitField n lsb w value
      = 2 ^ lsb * (2 ^ w * (n / 2 ^ (lsb + w)) + value % 2 ^ w) + n % 2 ^ lsb := by
    unfold setBitField; rw [pow_add]; ring
  rw [h, Nat.testBit_two_pow_mul_add _ (Nat.mod_lt _ (Nat.two_pow_pos lsb)),
    Nat.testBit_two_pow_mul_add _ (Nat.mod_lt _ (Nat.two_pow_pos w))]
  by_cases h1 : j < lsb
  · simp [h1]
  · by_cases h2 : j < lsb + w
    · have : j - lsb < w := by omega
      simp [h1, h2, this]
    · have h3 : ¬ j - lsb < w := by omega
      have h4 : lsb + w + (j - lsb - w) = j := by omega
      have h5 : j - lsb - w + (lsb + w) = j := by omega
      simp [h1, h2, h3, h5, Nat.testBit_div_two_pow]

/-- Reading the field that was set. -/
theorem bitField_setBitField_same (n lsb w value : Nat) :
    bitField (setBitField n lsb w value) lsb w = value % 2 ^ w := by
  apply Nat.eq_of_testBit_eq
  intro j
  rw [bitField_testBit, setBitField_testBit, Nat.testBit_mod_two_pow]
  by_cases h : j < w <;> simp [h]

/-- Reading a field that does not overlap the one that was set. -/
theorem bitField_setBitField_other {n lsb w value lsb' w' : Nat} (h : lsb' + w' ≤ lsb ∨ lsb + w ≤ lsb') :
    bitField (setBitField n lsb w value) lsb' w' = bitField n lsb' w' := by
  apply Nat.eq_of_testBit_eq
  intro j
  rw [bitField_testBit, bitField_testBit, setBitField_testBit]
  by_cases hj : j < w'
  · rcases h with h | h
    · have : lsb' + j < lsb := by omega
      simp [hj, this]
    · have h1 : ¬ lsb' + j < lsb := by omega
      have h2 : ¬ lsb' + j < lsb + w := by omega
      simp [hj, h1, h2]
  · simp [hj]

/-- Setting a field inside the low `k` bits keeps a number below `2 ^ k`. -/
theorem setBitField_lt {n lsb w value k : Nat} (hn : n < 2 ^ k) (h : lsb + w ≤ k) : setBitField n lsb w value < 2 ^ k := by
  apply Nat.lt_pow_two_of_testBit
  intro j hj
  have h1 : ¬ j < lsb := by omega
  have h2 : ¬ j < lsb + w := by omega
  rw [setBitField_testBit, if_neg h1, if_neg h2]
  exact Nat.testBit_lt_two_pow (lt_of_lt_of_le hn (Nat.pow_le_pow_right (by norm_num) hj))

@[simp] theorem bytesOfNat_length (n value : Nat) : (bytesOfNat n value).length = n := by
  induction n generalizing value with
  | zero => rfl
  | succ n ih => simp [bytesOfNat, ih]

/-- Splitting a number into little-endian bytes and joining them again. -/
theorem natOfBytes_bytesOfNat (n value : Nat) : natOfBytes (bytesOfNat n value) = value % 2 ^ (8 * n) := by
  induction n generalizing value with
  | zero => simp [bytesOfNat, natOfBytes, Nat.mod_one]
  | succ n ih =>
    simp only [bytesOfNat, natOfBytes, ih, BitVec.toNat_ofNat]
    rw [show 8 * (n + 1) = 8 + 8 * n by ring, pow_add, Nat.mod_mul]

/-- Byte `k` of the little-endian bytes of a number. -/
theorem bytesOfNat_getElem? (n value k : Nat) (h : k < n) :
    (bytesOfNat n value)[k]? = some (BitVec.ofNat 8 (value / 2 ^ (8 * k))) := by
  induction n generalizing value k with
  | zero => omega
  | succ n ih =>
    cases k with
    | zero => simp [bytesOfNat]
    | succ k =>
      simp only [bytesOfNat, List.getElem?_cons_succ]
      rw [ih _ _ (by omega), Nat.div_div_eq_div_mul, ← pow_add]
      congr 4
      ring

/-- A number is below two to its bit length. -/
theorem lt_two_pow_bitLength (n : Nat) : n < 2 ^ bitLength n := by
  unfold bitLength
  split
  · simp_all
  · exact Nat.lt_log2_self

/-- A non-zero number is at least two to its bit length less one. -/
theorem two_pow_bitLength_le {n : Nat} (h : n ≠ 0) : 2 ^ (bitLength n - 1) ≤ n := by
  unfold bitLength
  rw [if_neg h]
  exact Nat.log2_self_le h

end Sys2Proof.Machine
end

