-- ==== Sys2Proof/Laws/State.lean ====
section
/-! SUPPORT. What each update of the state leaves alone, field by field, and what it sets. -/

namespace Sys2Proof.Machine

/-! ## `setPc` and `advance` -/

@[simp] theorem State.setPc_params (s : State) (w : Word) : (s.setPc w).params = s.params := rfl
@[simp] theorem State.setPc_x (s : State) (w : Word) : (s.setPc w).x = s.x := rfl
@[simp] theorem State.setPc_v (s : State) (w : Word) : (s.setPc w).v = s.v := rfl
@[simp] theorem State.setPc_vtype (s : State) (w : Word) : (s.setPc w).vtype = s.vtype := rfl
@[simp] theorem State.setPc_vl (s : State) (w : Word) : (s.setPc w).vl = s.vl := rfl
@[simp] theorem State.setPc_vstart (s : State) (w : Word) : (s.setPc w).vstart = s.vstart := rfl
@[simp] theorem State.setPc_frm (s : State) (w : Word) : (s.setPc w).frm = s.frm := rfl
@[simp] theorem State.setPc_fflags (s : State) (w : Word) : (s.setPc w).fflags = s.fflags := rfl
@[simp] theorem State.setPc_vxsat (s : State) (w : Word) : (s.setPc w).vxsat = s.vxsat := rfl
@[simp] theorem State.setPc_vxrm (s : State) (w : Word) : (s.setPc w).vxrm = s.vxrm := rfl
@[simp] theorem State.setPc_mstatus (s : State) (w : Word) : (s.setPc w).mstatus = s.mstatus := rfl
@[simp] theorem State.setPc_mode (s : State) (w : Word) : (s.setPc w).mode = s.mode := rfl
@[simp] theorem State.setPc_mepc (s : State) (w : Word) : (s.setPc w).mepc = s.mepc := rfl
@[simp] theorem State.setPc_mcause (s : State) (w : Word) : (s.setPc w).mcause = s.mcause := rfl
@[simp] theorem State.setPc_mtval (s : State) (w : Word) : (s.setPc w).mtval = s.mtval := rfl
@[simp] theorem State.setPc_mtvec (s : State) (w : Word) : (s.setPc w).mtvec = s.mtvec := rfl
@[simp] theorem State.setPc_stopped (s : State) (w : Word) : (s.setPc w).stopped = s.stopped := rfl
@[simp] theorem State.setPc_mem (s : State) (w : Word) : (s.setPc w).mem = s.mem := rfl
@[simp] theorem State.setPc_draws (s : State) (w : Word) : (s.setPc w).draws = s.draws := rfl

@[simp] theorem State.setPc_pc (s : State) (w : Word) : (s.setPc w).pc = truncX s.params w := rfl

@[simp] theorem State.advance_params (s : State)  : (s.advance).params = s.params := rfl
@[simp] theorem State.advance_x (s : State)  : (s.advance).x = s.x := rfl
@[simp] theorem State.advance_v (s : State)  : (s.advance).v = s.v := rfl
@[simp] theorem State.advance_vtype (s : State)  : (s.advance).vtype = s.vtype := rfl
@[simp] theorem State.advance_vl (s : State)  : (s.advance).vl = s.vl := rfl
@[simp] theorem State.advance_vstart (s : State)  : (s.advance).vstart = s.vstart := rfl
@[simp] theorem State.advance_frm (s : State)  : (s.advance).frm = s.frm := rfl
@[simp] theorem State.advance_fflags (s : State)  : (s.advance).fflags = s.fflags := rfl
@[simp] theorem State.advance_vxsat (s : State)  : (s.advance).vxsat = s.vxsat := rfl
@[simp] theorem State.advance_vxrm (s : State)  : (s.advance).vxrm = s.vxrm := rfl
@[simp] theorem State.advance_mstatus (s : State)  : (s.advance).mstatus = s.mstatus := rfl
@[simp] theorem State.advance_mode (s : State)  : (s.advance).mode = s.mode := rfl
@[simp] theorem State.advance_mepc (s : State)  : (s.advance).mepc = s.mepc := rfl
@[simp] theorem State.advance_mcause (s : State)  : (s.advance).mcause = s.mcause := rfl
@[simp] theorem State.advance_mtval (s : State)  : (s.advance).mtval = s.mtval := rfl
@[simp] theorem State.advance_mtvec (s : State)  : (s.advance).mtvec = s.mtvec := rfl
@[simp] theorem State.advance_stopped (s : State)  : (s.advance).stopped = s.stopped := rfl
@[simp] theorem State.advance_mem (s : State)  : (s.advance).mem = s.mem := rfl
@[simp] theorem State.advance_draws (s : State)  : (s.advance).draws = s.draws := rfl

@[simp] theorem State.advance_pc (s : State) : s.advance.pc = nextPc s := by
  simp [State.advance, State.setPc, truncX, nextPc, BitVec.toNat_add]

/-! ## `writeX` -/

@[simp] theorem State.writeX_params (s : State) (r : XReg) (w : Word) : (s.writeX r w).params = s.params := by
  unfold State.writeX; split <;> rfl
@[simp] theorem State.writeX_pc (s : State) (r : XReg) (w : Word) : (s.writeX r w).pc = s.pc := by
  unfold State.writeX; split <;> rfl
@[simp] theorem State.writeX_v (s : State) (r : XReg) (w : Word) : (s.writeX r w).v = s.v := by
  unfold State.writeX; split <;> rfl
@[simp] theorem State.writeX_vtype (s : State) (r : XReg) (w : Word) : (s.writeX r w).vtype = s.vtype := by
  unfold State.writeX; split <;> rfl
@[simp] theorem State.writeX_vl (s : State) (r : XReg) (w : Word) : (s.writeX r w).vl = s.vl := by
  unfold State.writeX; split <;> rfl
@[simp] theorem State.writeX_vstart (s : State) (r : XReg) (w : Word) : (s.writeX r w).vstart = s.vstart := by
  unfold State.writeX; split <;> rfl
@[simp] theorem State.writeX_frm (s : State) (r : XReg) (w : Word) : (s.writeX r w).frm = s.frm := by
  unfold State.writeX; split <;> rfl
@[simp] theorem State.writeX_fflags (s : State) (r : XReg) (w : Word) : (s.writeX r w).fflags = s.fflags := by
  unfold State.writeX; split <;> rfl
@[simp] theorem State.writeX_vxsat (s : State) (r : XReg) (w : Word) : (s.writeX r w).vxsat = s.vxsat := by
  unfold State.writeX; split <;> rfl
@[simp] theorem State.writeX_vxrm (s : State) (r : XReg) (w : Word) : (s.writeX r w).vxrm = s.vxrm := by
  unfold State.writeX; split <;> rfl
@[simp] theorem State.writeX_mstatus (s : State) (r : XReg) (w : Word) : (s.writeX r w).mstatus = s.mstatus := by
  unfold State.writeX; split <;> rfl
@[simp] theorem State.writeX_mode (s : State) (r : XReg) (w : Word) : (s.writeX r w).mode = s.mode := by
  unfold State.writeX; split <;> rfl
@[simp] theorem State.writeX_mepc (s : State) (r : XReg) (w : Word) : (s.writeX r w).mepc = s.mepc := by
  unfold State.writeX; split <;> rfl
@[simp] theorem State.writeX_mcause (s : State) (r : XReg) (w : Word) : (s.writeX r w).mcause = s.mcause := by
  unfold State.writeX; split <;> rfl
@[simp] theorem State.writeX_mtval (s : State) (r : XReg) (w : Word) : (s.writeX r w).mtval = s.mtval := by
  unfold State.writeX; split <;> rfl
@[simp] theorem State.writeX_mtvec (s : State) (r : XReg) (w : Word) : (s.writeX r w).mtvec = s.mtvec := by
  unfold State.writeX; split <;> rfl
@[simp] theorem State.writeX_stopped (s : State) (r : XReg) (w : Word) : (s.writeX r w).stopped = s.stopped := by
  unfold State.writeX; split <;> rfl
@[simp] theorem State.writeX_mem (s : State) (r : XReg) (w : Word) : (s.writeX r w).mem = s.mem := by
  unfold State.writeX; split <;> rfl
@[simp] theorem State.writeX_draws (s : State) (r : XReg) (w : Word) : (s.writeX r w).draws = s.draws := by
  unfold State.writeX; split <;> rfl

/-! ## `setVreg` and `setVelem` -/

@[simp] theorem State.setVreg_params (s : State) (r : Nat) (w : VBits) : (s.setVreg r w).params = s.params := rfl
@[simp] theorem State.setVreg_x (s : State) (r : Nat) (w : VBits) : (s.setVreg r w).x = s.x := rfl
@[simp] theorem State.setVreg_pc (s : State) (r : Nat) (w : VBits) : (s.setVreg r w).pc = s.pc := rfl
@[simp] theorem State.setVreg_vtype (s : State) (r : Nat) (w : VBits) : (s.setVreg r w).vtype = s.vtype := rfl
@[simp] theorem State.setVreg_vl (s : State) (r : Nat) (w : VBits) : (s.setVreg r w).vl = s.vl := rfl
@[simp] theorem State.setVreg_vstart (s : State) (r : Nat) (w : VBits) : (s.setVreg r w).vstart = s.vstart := rfl
@[simp] theorem State.setVreg_frm (s : State) (r : Nat) (w : VBits) : (s.setVreg r w).frm = s.frm := rfl
@[simp] theorem State.setVreg_fflags (s : State) (r : Nat) (w : VBits) : (s.setVreg r w).fflags = s.fflags := rfl
@[simp] theorem State.setVreg_vxsat (s : State) (r : Nat) (w : VBits) : (s.setVreg r w).vxsat = s.vxsat := rfl
@[simp] theorem State.setVreg_vxrm (s : State) (r : Nat) (w : VBits) : (s.setVreg r w).vxrm = s.vxrm := rfl
@[simp] theorem State.setVreg_mstatus (s : State) (r : Nat) (w : VBits) : (s.setVreg r w).mstatus = s.mstatus := rfl
@[simp] theorem State.setVreg_mode (s : State) (r : Nat) (w : VBits) : (s.setVreg r w).mode = s.mode := rfl
@[simp] theorem State.setVreg_mepc (s : State) (r : Nat) (w : VBits) : (s.setVreg r w).mepc = s.mepc := rfl
@[simp] theorem State.setVreg_mcause (s : State) (r : Nat) (w : VBits) : (s.setVreg r w).mcause = s.mcause := rfl
@[simp] theorem State.setVreg_mtval (s : State) (r : Nat) (w : VBits) : (s.setVreg r w).mtval = s.mtval := rfl
@[simp] theorem State.setVreg_mtvec (s : State) (r : Nat) (w : VBits) : (s.setVreg r w).mtvec = s.mtvec := rfl
@[simp] theorem State.setVreg_stopped (s : State) (r : Nat) (w : VBits) : (s.setVreg r w).stopped = s.stopped := rfl
@[simp] theorem State.setVreg_mem (s : State) (r : Nat) (w : VBits) : (s.setVreg r w).mem = s.mem := rfl
@[simp] theorem State.setVreg_draws (s : State) (r : Nat) (w : VBits) : (s.setVreg r w).draws = s.draws := rfl

@[simp] theorem State.setVelem_params (s : State) (r eew i : Nat) (w : BitVec eew) : (s.setVelem r eew i w).params = s.params := rfl
@[simp] theorem State.setVelem_x (s : State) (r eew i : Nat) (w : BitVec eew) : (s.setVelem r eew i w).x = s.x := rfl
@[simp] theorem State.setVelem_pc (s : State) (r eew i : Nat) (w : BitVec eew) : (s.setVelem r eew i w).pc = s.pc := rfl
@[simp] theorem State.setVelem_vtype (s : State) (r eew i : Nat) (w : BitVec eew) : (s.setVelem r eew i w).vtype = s.vtype := rfl
@[simp] theorem State.setVelem_vl (s : State) (r eew i : Nat) (w : BitVec eew) : (s.setVelem r eew i w).vl = s.vl := rfl
@[simp] theorem State.setVelem_vstart (s : State) (r eew i : Nat) (w : BitVec eew) : (s.setVelem r eew i w).vstart = s.vstart := rfl
@[simp] theorem State.setVelem_frm (s : State) (r eew i : Nat) (w : BitVec eew) : (s.setVelem r eew i w).frm = s.frm := rfl
@[simp] theorem State.setVelem_fflags (s : State) (r eew i : Nat) (w : BitVec eew) : (s.setVelem r eew i w).fflags = s.fflags := rfl
@[simp] theorem State.setVelem_vxsat (s : State) (r eew i : Nat) (w : BitVec eew) : (s.setVelem r eew i w).vxsat = s.vxsat := rfl
@[simp] theorem State.setVelem_vxrm (s : State) (r eew i : Nat) (w : BitVec eew) : (s.setVelem r eew i w).vxrm = s.vxrm := rfl
@[simp] theorem State.setVelem_mstatus (s : State) (r eew i : Nat) (w : BitVec eew) : (s.setVelem r eew i w).mstatus = s.mstatus := rfl
@[simp] theorem State.setVelem_mode (s : State) (r eew i : Nat) (w : BitVec eew) : (s.setVelem r eew i w).mode = s.mode := rfl
@[simp] theorem State.setVelem_mepc (s : State) (r eew i : Nat) (w : BitVec eew) : (s.setVelem r eew i w).mepc = s.mepc := rfl
@[simp] theorem State.setVelem_mcause (s : State) (r eew i : Nat) (w : BitVec eew) : (s.setVelem r eew i w).mcause = s.mcause := rfl
@[simp] theorem State.setVelem_mtval (s : State) (r eew i : Nat) (w : BitVec eew) : (s.setVelem r eew i w).mtval = s.mtval := rfl
@[simp] theorem State.setVelem_mtvec (s : State) (r eew i : Nat) (w : BitVec eew) : (s.setVelem r eew i w).mtvec = s.mtvec := rfl
@[simp] theorem State.setVelem_stopped (s : State) (r eew i : Nat) (w : BitVec eew) : (s.setVelem r eew i w).stopped = s.stopped := rfl
@[simp] theorem State.setVelem_mem (s : State) (r eew i : Nat) (w : BitVec eew) : (s.setVelem r eew i w).mem = s.mem := rfl
@[simp] theorem State.setVelem_draws (s : State) (r eew i : Nat) (w : BitVec eew) : (s.setVelem r eew i w).draws = s.draws := rfl

/-! ## `accrue` and `markDirty` -/

@[simp] theorem State.accrue_params (s : State) (f : FpFlags) : (s.accrue f).params = s.params := rfl
@[simp] theorem State.accrue_x (s : State) (f : FpFlags) : (s.accrue f).x = s.x := rfl
@[simp] theorem State.accrue_pc (s : State) (f : FpFlags) : (s.accrue f).pc = s.pc := rfl
@[simp] theorem State.accrue_v (s : State) (f : FpFlags) : (s.accrue f).v = s.v := rfl
@[simp] theorem State.accrue_vtype (s : State) (f : FpFlags) : (s.accrue f).vtype = s.vtype := rfl
@[simp] theorem State.accrue_vl (s : State) (f : FpFlags) : (s.accrue f).vl = s.vl := rfl
@[simp] theorem State.accrue_vstart (s : State) (f : FpFlags) : (s.accrue f).vstart = s.vstart := rfl
@[simp] theorem State.accrue_frm (s : State) (f : FpFlags) : (s.accrue f).frm = s.frm := rfl
@[simp] theorem State.accrue_vxsat (s : State) (f : FpFlags) : (s.accrue f).vxsat = s.vxsat := rfl
@[simp] theorem State.accrue_vxrm (s : State) (f : FpFlags) : (s.accrue f).vxrm = s.vxrm := rfl
@[simp] theorem State.accrue_mstatus (s : State) (f : FpFlags) : (s.accrue f).mstatus = s.mstatus := rfl
@[simp] theorem State.accrue_mode (s : State) (f : FpFlags) : (s.accrue f).mode = s.mode := rfl
@[simp] theorem State.accrue_mepc (s : State) (f : FpFlags) : (s.accrue f).mepc = s.mepc := rfl
@[simp] theorem State.accrue_mcause (s : State) (f : FpFlags) : (s.accrue f).mcause = s.mcause := rfl
@[simp] theorem State.accrue_mtval (s : State) (f : FpFlags) : (s.accrue f).mtval = s.mtval := rfl
@[simp] theorem State.accrue_mtvec (s : State) (f : FpFlags) : (s.accrue f).mtvec = s.mtvec := rfl
@[simp] theorem State.accrue_stopped (s : State) (f : FpFlags) : (s.accrue f).stopped = s.stopped := rfl
@[simp] theorem State.accrue_mem (s : State) (f : FpFlags) : (s.accrue f).mem = s.mem := rfl
@[simp] theorem State.accrue_draws (s : State) (f : FpFlags) : (s.accrue f).draws = s.draws := rfl

@[simp] theorem State.accrue_fflags (s : State) (f : FpFlags) : (s.accrue f).fflags = s.fflags ||| f := rfl

@[simp] theorem State.markDirty_params (s : State) (fp : Bool) : (s.markDirty fp).params = s.params := rfl
@[simp] theorem State.markDirty_x (s : State) (fp : Bool) : (s.markDirty fp).x = s.x := rfl
@[simp] theorem State.markDirty_pc (s : State) (fp : Bool) : (s.markDirty fp).pc = s.pc := rfl
@[simp] theorem State.markDirty_v (s : State) (fp : Bool) : (s.markDirty fp).v = s.v := rfl
@[simp] theorem State.markDirty_vtype (s : State) (fp : Bool) : (s.markDirty fp).vtype = s.vtype := rfl
@[simp] theorem State.markDirty_vl (s : State) (fp : Bool) : (s.markDirty fp).vl = s.vl := rfl
@[simp] theorem State.markDirty_vstart (s : State) (fp : Bool) : (s.markDirty fp).vstart = s.vstart := rfl
@[simp] theorem State.markDirty_frm (s : State) (fp : Bool) : (s.markDirty fp).frm = s.frm := rfl
@[simp] theorem State.markDirty_fflags (s : State) (fp : Bool) : (s.markDirty fp).fflags = s.fflags := rfl
@[simp] theorem State.markDirty_vxsat (s : State) (fp : Bool) : (s.markDirty fp).vxsat = s.vxsat := rfl
@[simp] theorem State.markDirty_vxrm (s : State) (fp : Bool) : (s.markDirty fp).vxrm = s.vxrm := rfl
@[simp] theorem State.markDirty_mode (s : State) (fp : Bool) : (s.markDirty fp).mode = s.mode := rfl
@[simp] theorem State.markDirty_mepc (s : State) (fp : Bool) : (s.markDirty fp).mepc = s.mepc := rfl
@[simp] theorem State.markDirty_mcause (s : State) (fp : Bool) : (s.markDirty fp).mcause = s.mcause := rfl
@[simp] theorem State.markDirty_mtval (s : State) (fp : Bool) : (s.markDirty fp).mtval = s.mtval := rfl
@[simp] theorem State.markDirty_mtvec (s : State) (fp : Bool) : (s.markDirty fp).mtvec = s.mtvec := rfl
@[simp] theorem State.markDirty_stopped (s : State) (fp : Bool) : (s.markDirty fp).stopped = s.stopped := rfl
@[simp] theorem State.markDirty_mem (s : State) (fp : Bool) : (s.markDirty fp).mem = s.mem := rfl
@[simp] theorem State.markDirty_draws (s : State) (fp : Bool) : (s.markDirty fp).draws = s.draws := rfl

@[simp] theorem State.markDirty_mstatus (s : State) (fp : Bool) : (s.markDirty fp).mstatus = dirtyStatus s fp := rfl

/-! ## `retireVector` -/

@[simp] theorem State.retireVector_params (s : State)  : (s.retireVector).params = s.params := rfl
@[simp] theorem State.retireVector_x (s : State)  : (s.retireVector).x = s.x := rfl
@[simp] theorem State.retireVector_v (s : State)  : (s.retireVector).v = s.v := rfl
@[simp] theorem State.retireVector_vtype (s : State)  : (s.retireVector).vtype = s.vtype := rfl
@[simp] theorem State.retireVector_vl (s : State)  : (s.retireVector).vl = s.vl := rfl
@[simp] theorem State.retireVector_frm (s : State)  : (s.retireVector).frm = s.frm := rfl
@[simp] theorem State.retireVector_fflags (s : State)  : (s.retireVector).fflags = s.fflags := rfl
@[simp] theorem State.retireVector_vxsat (s : State)  : (s.retireVector).vxsat = s.vxsat := rfl
@[simp] theorem State.retireVector_vxrm (s : State)  : (s.retireVector).vxrm = s.vxrm := rfl
@[simp] theorem State.retireVector_mstatus (s : State)  : (s.retireVector).mstatus = s.mstatus := rfl
@[simp] theorem State.retireVector_mode (s : State)  : (s.retireVector).mode = s.mode := rfl
@[simp] theorem State.retireVector_mepc (s : State)  : (s.retireVector).mepc = s.mepc := rfl
@[simp] theorem State.retireVector_mcause (s : State)  : (s.retireVector).mcause = s.mcause := rfl
@[simp] theorem State.retireVector_mtval (s : State)  : (s.retireVector).mtval = s.mtval := rfl
@[simp] theorem State.retireVector_mtvec (s : State)  : (s.retireVector).mtvec = s.mtvec := rfl
@[simp] theorem State.retireVector_stopped (s : State)  : (s.retireVector).stopped = s.stopped := rfl
@[simp] theorem State.retireVector_mem (s : State)  : (s.retireVector).mem = s.mem := rfl

@[simp] theorem State.retireVector_pc (s : State) : s.retireVector.pc = nextPc s := by
  simp [State.retireVector]
@[simp] theorem State.retireVector_vstart (s : State) : s.retireVector.vstart = 0 := rfl
@[simp] theorem State.retireVector_draws (s : State) : s.retireVector.draws = s.draws + 1 := rfl

/-! ## Agnostic elements, fills and batched writes -/

@[simp] theorem State.agnosticElem_params (s : State) (r eew : Nat) (a : Bool) (i : Nat) : (s.agnosticElem r eew a i).params = s.params := by
  unfold State.agnosticElem; split <;> rfl
@[simp] theorem State.agnosticElem_x (s : State) (r eew : Nat) (a : Bool) (i : Nat) : (s.agnosticElem r eew a i).x = s.x := by
  unfold State.agnosticElem; split <;> rfl
@[simp] theorem State.agnosticElem_pc (s : State) (r eew : Nat) (a : Bool) (i : Nat) : (s.agnosticElem r eew a i).pc = s.pc := by
  unfold State.agnosticElem; split <;> rfl
@[simp] theorem State.agnosticElem_vtype (s : State) (r eew : Nat) (a : Bool) (i : Nat) : (s.agnosticElem r eew a i).vtype = s.vtype := by
  unfold State.agnosticElem; split <;> rfl
@[simp] theorem State.agnosticElem_vl (s : State) (r eew : Nat) (a : Bool) (i : Nat) : (s.agnosticElem r eew a i).vl = s.vl := by
  unfold State.agnosticElem; split <;> rfl
@[simp] theorem State.agnosticElem_vstart (s : State) (r eew : Nat) (a : Bool) (i : Nat) : (s.agnosticElem r eew a i).vstart = s.vstart := by
  unfold State.agnosticElem; split <;> rfl
@[simp] theorem State.agnosticElem_frm (s : State) (r eew : Nat) (a : Bool) (i : Nat) : (s.agnosticElem r eew a i).frm = s.frm := by
  unfold State.agnosticElem; split <;> rfl
@[simp] theorem State.agnosticElem_fflags (s : State) (r eew : Nat) (a : Bool) (i : Nat) : (s.agnosticElem r eew a i).fflags = s.fflags := by
  unfold State.agnosticElem; split <;> rfl
@[simp] theorem State.agnosticElem_vxsat (s : State) (r eew : Nat) (a : Bool) (i : Nat) : (s.agnosticElem r eew a i).vxsat = s.vxsat := by
  unfold State.agnosticElem; split <;> rfl
@[simp] theorem State.agnosticElem_vxrm (s : State) (r eew : Nat) (a : Bool) (i : Nat) : (s.agnosticElem r eew a i).vxrm = s.vxrm := by
  unfold State.agnosticElem; split <;> rfl
@[simp] theorem State.agnosticElem_mstatus (s : State) (r eew : Nat) (a : Bool) (i : Nat) : (s.agnosticElem r eew a i).mstatus = s.mstatus := by
  unfold State.agnosticElem; split <;> rfl
@[simp] theorem State.agnosticElem_mode (s : State) (r eew : Nat) (a : Bool) (i : Nat) : (s.agnosticElem r eew a i).mode = s.mode := by
  unfold State.agnosticElem; split <;> rfl
@[simp] theorem State.agnosticElem_mepc (s : State) (r eew : Nat) (a : Bool) (i : Nat) : (s.agnosticElem r eew a i).mepc = s.mepc := by
  unfold State.agnosticElem; split <;> rfl
@[simp] theorem State.agnosticElem_mcause (s : State) (r eew : Nat) (a : Bool) (i : Nat) : (s.agnosticElem r eew a i).mcause = s.mcause := by
  unfold State.agnosticElem; split <;> rfl
@[simp] theorem State.agnosticElem_mtval (s : State) (r eew : Nat) (a : Bool) (i : Nat) : (s.agnosticElem r eew a i).mtval = s.mtval := by
  unfold State.agnosticElem; split <;> rfl
@[simp] theorem State.agnosticElem_mtvec (s : State) (r eew : Nat) (a : Bool) (i : Nat) : (s.agnosticElem r eew a i).mtvec = s.mtvec := by
  unfold State.agnosticElem; split <;> rfl
@[simp] theorem State.agnosticElem_stopped (s : State) (r eew : Nat) (a : Bool) (i : Nat) : (s.agnosticElem r eew a i).stopped = s.stopped := by
  unfold State.agnosticElem; split <;> rfl
@[simp] theorem State.agnosticElem_mem (s : State) (r eew : Nat) (a : Bool) (i : Nat) : (s.agnosticElem r eew a i).mem = s.mem := by
  unfold State.agnosticElem; split <;> rfl
@[simp] theorem State.agnosticElem_draws (s : State) (r eew : Nat) (a : Bool) (i : Nat) : (s.agnosticElem r eew a i).draws = s.draws := by
  unfold State.agnosticElem; split <;> rfl

/-- Filling agnostic elements changes vector registers only. -/
theorem State.agnosticElems_eq (r eew : Nat) (a : Bool) (l : List Nat) (s : State) :
    s.agnosticElems r eew a l = { s with v := (s.agnosticElems r eew a l).v } := by
  induction l generalizing s with
  | nil => rfl
  | cons i rest ih =>
    have h : s.agnosticElem r eew a i = { s with v := (s.agnosticElem r eew a i).v } := by
      unfold State.agnosticElem; split <;> rfl
    simp only [State.agnosticElems]
    rw [ih, h]

@[simp] theorem State.agnosticElems_params (s : State) (r eew : Nat) (a : Bool) (l : List Nat) : (s.agnosticElems r eew a l).params = s.params := by
  rw [State.agnosticElems_eq]
@[simp] theorem State.agnosticElems_x (s : State) (r eew : Nat) (a : Bool) (l : List Nat) : (s.agnosticElems r eew a l).x = s.x := by
  rw [State.agnosticElems_eq]
@[simp] theorem State.agnosticElems_pc (s : State) (r eew : Nat) (a : Bool) (l : List Nat) : (s.agnosticElems r eew a l).pc = s.pc := by
  rw [State.agnosticElems_eq]
@[simp] theorem State.agnosticElems_vtype (s : State) (r eew : Nat) (a : Bool) (l : List Nat) : (s.agnosticElems r eew a l).vtype = s.vtype := by
  rw [State.agnosticElems_eq]
@[simp] theorem State.agnosticElems_vl (s : State) (r eew : Nat) (a : Bool) (l : List Nat) : (s.agnosticElems r eew a l).vl = s.vl := by
  rw [State.agnosticElems_eq]
@[simp] theorem State.agnosticElems_vstart (s : State) (r eew : Nat) (a : Bool) (l : List Nat) : (s.agnosticElems r eew a l).vstart = s.vstart := by
  rw [State.agnosticElems_eq]
@[simp] theorem State.agnosticElems_frm (s : State) (r eew : Nat) (a : Bool) (l : List Nat) : (s.agnosticElems r eew a l).frm = s.frm := by
  rw [State.agnosticElems_eq]
@[simp] theorem State.agnosticElems_fflags (s : State) (r eew : Nat) (a : Bool) (l : List Nat) : (s.agnosticElems r eew a l).fflags = s.fflags := by
  rw [State.agnosticElems_eq]
@[simp] theorem State.agnosticElems_vxsat (s : State) (r eew : Nat) (a : Bool) (l : List Nat) : (s.agnosticElems r eew a l).vxsat = s.vxsat := by
  rw [State.agnosticElems_eq]
@[simp] theorem State.agnosticElems_vxrm (s : State) (r eew : Nat) (a : Bool) (l : List Nat) : (s.agnosticElems r eew a l).vxrm = s.vxrm := by
  rw [State.agnosticElems_eq]
@[simp] theorem State.agnosticElems_mstatus (s : State) (r eew : Nat) (a : Bool) (l : List Nat) : (s.agnosticElems r eew a l).mstatus = s.mstatus := by
  rw [State.agnosticElems_eq]
@[simp] theorem State.agnosticElems_mode (s : State) (r eew : Nat) (a : Bool) (l : List Nat) : (s.agnosticElems r eew a l).mode = s.mode := by
  rw [State.agnosticElems_eq]
@[simp] theorem State.agnosticElems_mepc (s : State) (r eew : Nat) (a : Bool) (l : List Nat) : (s.agnosticElems r eew a l).mepc = s.mepc := by
  rw [State.agnosticElems_eq]
@[simp] theorem State.agnosticElems_mcause (s : State) (r eew : Nat) (a : Bool) (l : List Nat) : (s.agnosticElems r eew a l).mcause = s.mcause := by
  rw [State.agnosticElems_eq]
@[simp] theorem State.agnosticElems_mtval (s : State) (r eew : Nat) (a : Bool) (l : List Nat) : (s.agnosticElems r eew a l).mtval = s.mtval := by
  rw [State.agnosticElems_eq]
@[simp] theorem State.agnosticElems_mtvec (s : State) (r eew : Nat) (a : Bool) (l : List Nat) : (s.agnosticElems r eew a l).mtvec = s.mtvec := by
  rw [State.agnosticElems_eq]
@[simp] theorem State.agnosticElems_stopped (s : State) (r eew : Nat) (a : Bool) (l : List Nat) : (s.agnosticElems r eew a l).stopped = s.stopped := by
  rw [State.agnosticElems_eq]
@[simp] theorem State.agnosticElems_mem (s : State) (r eew : Nat) (a : Bool) (l : List Nat) : (s.agnosticElems r eew a l).mem = s.mem := by
  rw [State.agnosticElems_eq]
@[simp] theorem State.agnosticElems_draws (s : State) (r eew : Nat) (a : Bool) (l : List Nat) : (s.agnosticElems r eew a l).draws = s.draws := by
  rw [State.agnosticElems_eq]

/-- Filling elements changes vector registers only. -/
theorem State.fillElems_eq (r eew : Nat) (w : BitVec eew) (l : List Nat) (s : State) :
    s.fillElems r eew w l = { s with v := (s.fillElems r eew w l).v } := by
  induction l generalizing s with
  | nil => rfl
  | cons i rest ih => simp only [State.fillElems]; rw [ih]; rfl

@[simp] theorem State.fillElems_params (s : State) (r eew : Nat) (w : BitVec eew) (l : List Nat) : (s.fillElems r eew w l).params = s.params := by
  rw [State.fillElems_eq]
@[simp] theorem State.fillElems_x (s : State) (r eew : Nat) (w : BitVec eew) (l : List Nat) : (s.fillElems r eew w l).x = s.x := by
  rw [State.fillElems_eq]
@[simp] theorem State.fillElems_pc (s : State) (r eew : Nat) (w : BitVec eew) (l : List Nat) : (s.fillElems r eew w l).pc = s.pc := by
  rw [State.fillElems_eq]
@[simp] theorem State.fillElems_vtype (s : State) (r eew : Nat) (w : BitVec eew) (l : List Nat) : (s.fillElems r eew w l).vtype = s.vtype := by
  rw [State.fillElems_eq]
@[simp] theorem State.fillElems_vl (s : State) (r eew : Nat) (w : BitVec eew) (l : List Nat) : (s.fillElems r eew w l).vl = s.vl := by
  rw [State.fillElems_eq]
@[simp] theorem State.fillElems_vstart (s : State) (r eew : Nat) (w : BitVec eew) (l : List Nat) : (s.fillElems r eew w l).vstart = s.vstart := by
  rw [State.fillElems_eq]
@[simp] theorem State.fillElems_frm (s : State) (r eew : Nat) (w : BitVec eew) (l : List Nat) : (s.fillElems r eew w l).frm = s.frm := by
  rw [State.fillElems_eq]
@[simp] theorem State.fillElems_fflags (s : State) (r eew : Nat) (w : BitVec eew) (l : List Nat) : (s.fillElems r eew w l).fflags = s.fflags := by
  rw [State.fillElems_eq]
@[simp] theorem State.fillElems_vxsat (s : State) (r eew : Nat) (w : BitVec eew) (l : List Nat) : (s.fillElems r eew w l).vxsat = s.vxsat := by
  rw [State.fillElems_eq]
@[simp] theorem State.fillElems_vxrm (s : State) (r eew : Nat) (w : BitVec eew) (l : List Nat) : (s.fillElems r eew w l).vxrm = s.vxrm := by
  rw [State.fillElems_eq]
@[simp] theorem State.fillElems_mstatus (s : State) (r eew : Nat) (w : BitVec eew) (l : List Nat) : (s.fillElems r eew w l).mstatus = s.mstatus := by
  rw [State.fillElems_eq]
@[simp] theorem State.fillElems_mode (s : State) (r eew : Nat) (w : BitVec eew) (l : List Nat) : (s.fillElems r eew w l).mode = s.mode := by
  rw [State.fillElems_eq]
@[simp] theorem State.fillElems_mepc (s : State) (r eew : Nat) (w : BitVec eew) (l : List Nat) : (s.fillElems r eew w l).mepc = s.mepc := by
  rw [State.fillElems_eq]
@[simp] theorem State.fillElems_mcause (s : State) (r eew : Nat) (w : BitVec eew) (l : List Nat) : (s.fillElems r eew w l).mcause = s.mcause := by
  rw [State.fillElems_eq]
@[simp] theorem State.fillElems_mtval (s : State) (r eew : Nat) (w : BitVec eew) (l : List Nat) : (s.fillElems r eew w l).mtval = s.mtval := by
  rw [State.fillElems_eq]
@[simp] theorem State.fillElems_mtvec (s : State) (r eew : Nat) (w : BitVec eew) (l : List Nat) : (s.fillElems r eew w l).mtvec = s.mtvec := by
  rw [State.fillElems_eq]
@[simp] theorem State.fillElems_stopped (s : State) (r eew : Nat) (w : BitVec eew) (l : List Nat) : (s.fillElems r eew w l).stopped = s.stopped := by
  rw [State.fillElems_eq]
@[simp] theorem State.fillElems_mem (s : State) (r eew : Nat) (w : BitVec eew) (l : List Nat) : (s.fillElems r eew w l).mem = s.mem := by
  rw [State.fillElems_eq]
@[simp] theorem State.fillElems_draws (s : State) (r eew : Nat) (w : BitVec eew) (l : List Nat) : (s.fillElems r eew w l).draws = s.draws := by
  rw [State.fillElems_eq]

/-- The write phase of a batched instruction changes vector registers and `fflags` only. -/
theorem State.batchWrite_eq (vd : VReg) (l : List DotResult) (j : Nat) (s : State) :
    s.batchWrite vd j l = { s with v := (s.batchWrite vd j l).v, fflags := (s.batchWrite vd j l).fflags } := by
  induction l generalizing s j with
  | nil => rfl
  | cons r rest ih => simp only [State.batchWrite]; rw [ih]; rfl

@[simp] theorem State.batchWrite_params (s : State) (vd : VReg) (j : Nat) (l : List DotResult) : (s.batchWrite vd j l).params = s.params := by
  rw [State.batchWrite_eq]
@[simp] theorem State.batchWrite_x (s : State) (vd : VReg) (j : Nat) (l : List DotResult) : (s.batchWrite vd j l).x = s.x := by
  rw [State.batchWrite_eq]
@[simp] theorem State.batchWrite_pc (s : State) (vd : VReg) (j : Nat) (l : List DotResult) : (s.batchWrite vd j l).pc = s.pc := by
  rw [State.batchWrite_eq]
@[simp] theorem State.batchWrite_vtype (s : State) (vd : VReg) (j : Nat) (l : List DotResult) : (s.batchWrite vd j l).vtype = s.vtype := by
  rw [State.batchWrite_eq]
@[simp] theorem State.batchWrite_vl (s : State) (vd : VReg) (j : Nat) (l : List DotResult) : (s.batchWrite vd j l).vl = s.vl := by
  rw [State.batchWrite_eq]
@[simp] theorem State.batchWrite_vstart (s : State) (vd : VReg) (j : Nat) (l : List DotResult) : (s.batchWrite vd j l).vstart = s.vstart := by
  rw [State.batchWrite_eq]
@[simp] theorem State.batchWrite_frm (s : State) (vd : VReg) (j : Nat) (l : List DotResult) : (s.batchWrite vd j l).frm = s.frm := by
  rw [State.batchWrite_eq]
@[simp] theorem State.batchWrite_vxsat (s : State) (vd : VReg) (j : Nat) (l : List DotResult) : (s.batchWrite vd j l).vxsat = s.vxsat := by
  rw [State.batchWrite_eq]
@[simp] theorem State.batchWrite_vxrm (s : State) (vd : VReg) (j : Nat) (l : List DotResult) : (s.batchWrite vd j l).vxrm = s.vxrm := by
  rw [State.batchWrite_eq]
@[simp] theorem State.batchWrite_mstatus (s : State) (vd : VReg) (j : Nat) (l : List DotResult) : (s.batchWrite vd j l).mstatus = s.mstatus := by
  rw [State.batchWrite_eq]
@[simp] theorem State.batchWrite_mode (s : State) (vd : VReg) (j : Nat) (l : List DotResult) : (s.batchWrite vd j l).mode = s.mode := by
  rw [State.batchWrite_eq]
@[simp] theorem State.batchWrite_mepc (s : State) (vd : VReg) (j : Nat) (l : List DotResult) : (s.batchWrite vd j l).mepc = s.mepc := by
  rw [State.batchWrite_eq]
@[simp] theorem State.batchWrite_mcause (s : State) (vd : VReg) (j : Nat) (l : List DotResult) : (s.batchWrite vd j l).mcause = s.mcause := by
  rw [State.batchWrite_eq]
@[simp] theorem State.batchWrite_mtval (s : State) (vd : VReg) (j : Nat) (l : List DotResult) : (s.batchWrite vd j l).mtval = s.mtval := by
  rw [State.batchWrite_eq]
@[simp] theorem State.batchWrite_mtvec (s : State) (vd : VReg) (j : Nat) (l : List DotResult) : (s.batchWrite vd j l).mtvec = s.mtvec := by
  rw [State.batchWrite_eq]
@[simp] theorem State.batchWrite_stopped (s : State) (vd : VReg) (j : Nat) (l : List DotResult) : (s.batchWrite vd j l).stopped = s.stopped := by
  rw [State.batchWrite_eq]
@[simp] theorem State.batchWrite_mem (s : State) (vd : VReg) (j : Nat) (l : List DotResult) : (s.batchWrite vd j l).mem = s.mem := by
  rw [State.batchWrite_eq]
@[simp] theorem State.batchWrite_draws (s : State) (vd : VReg) (j : Nat) (l : List DotResult) : (s.batchWrite vd j l).draws = s.draws := by
  rw [State.batchWrite_eq]

@[simp] theorem State.longWrite_params (s : State) (vd : VReg) (r : DotResult) : (s.longWrite vd r).params = s.params := by
  simp [State.longWrite]
@[simp] theorem State.longWrite_x (s : State) (vd : VReg) (r : DotResult) : (s.longWrite vd r).x = s.x := by
  simp [State.longWrite]
@[simp] theorem State.longWrite_pc (s : State) (vd : VReg) (r : DotResult) : (s.longWrite vd r).pc = s.pc := by
  simp [State.longWrite]
@[simp] theorem State.longWrite_vtype (s : State) (vd : VReg) (r : DotResult) : (s.longWrite vd r).vtype = s.vtype := by
  simp [State.longWrite]
@[simp] theorem State.longWrite_vl (s : State) (vd : VReg) (r : DotResult) : (s.longWrite vd r).vl = s.vl := by
  simp [State.longWrite]
@[simp] theorem State.longWrite_vstart (s : State) (vd : VReg) (r : DotResult) : (s.longWrite vd r).vstart = s.vstart := by
  simp [State.longWrite]
@[simp] theorem State.longWrite_frm (s : State) (vd : VReg) (r : DotResult) : (s.longWrite vd r).frm = s.frm := by
  simp [State.longWrite]
@[simp] theorem State.longWrite_vxsat (s : State) (vd : VReg) (r : DotResult) : (s.longWrite vd r).vxsat = s.vxsat := by
  simp [State.longWrite]
@[simp] theorem State.longWrite_vxrm (s : State) (vd : VReg) (r : DotResult) : (s.longWrite vd r).vxrm = s.vxrm := by
  simp [State.longWrite]
@[simp] theorem State.longWrite_mstatus (s : State) (vd : VReg) (r : DotResult) : (s.longWrite vd r).mstatus = s.mstatus := by
  simp [State.longWrite]
@[simp] theorem State.longWrite_mode (s : State) (vd : VReg) (r : DotResult) : (s.longWrite vd r).mode = s.mode := by
  simp [State.longWrite]
@[simp] theorem State.longWrite_mepc (s : State) (vd : VReg) (r : DotResult) : (s.longWrite vd r).mepc = s.mepc := by
  simp [State.longWrite]
@[simp] theorem State.longWrite_mcause (s : State) (vd : VReg) (r : DotResult) : (s.longWrite vd r).mcause = s.mcause := by
  simp [State.longWrite]
@[simp] theorem State.longWrite_mtval (s : State) (vd : VReg) (r : DotResult) : (s.longWrite vd r).mtval = s.mtval := by
  simp [State.longWrite]
@[simp] theorem State.longWrite_mtvec (s : State) (vd : VReg) (r : DotResult) : (s.longWrite vd r).mtvec = s.mtvec := by
  simp [State.longWrite]
@[simp] theorem State.longWrite_stopped (s : State) (vd : VReg) (r : DotResult) : (s.longWrite vd r).stopped = s.stopped := by
  simp [State.longWrite]
@[simp] theorem State.longWrite_mem (s : State) (vd : VReg) (r : DotResult) : (s.longWrite vd r).mem = s.mem := by
  simp [State.longWrite]
@[simp] theorem State.longWrite_draws (s : State) (vd : VReg) (r : DotResult) : (s.longWrite vd r).draws = s.draws := by
  simp [State.longWrite]

end Sys2Proof.Machine
end

