-- ==== Sys2Proof/Laws/Vector.lean ====
section
/-! SUPPORT. Vector registers: what a write of one element changes, and what the loops over elements change. -/

namespace Sys2Proof.Machine

/-! ## One register -/

/-- Reading a register after a write of one. -/
theorem State.vreg_setVreg (s : State) (r q : Nat) (w : VBits) :
    (s.setVreg r w).vreg q = if q = r ∧ q < 32 then w else s.vreg q := by
  unfold State.vreg State.setVreg
  by_cases h : q < 32
  · by_cases h2 : q = r
    · subst h2; simp [h]
    · simp [h, h2, Ne.symm h2]
  · simp [h]

/-- Two states with the same vector registers read the same. -/
theorem State.vreg_congr {s t : State} (h : t.v = s.v) (r : Nat) : t.vreg r = s.vreg r := by
  simp [State.vreg, h]

theorem State.velem_congr {s t : State} (h : t.v = s.v) (hp : t.params = s.params) (r eew i : Nat) :
    t.velem r eew i = s.velem r eew i := by
  simp [State.velem, State.elemReg, State.elemLsb, State.vreg_congr h, hp]

/-- Equal registers in the same places give equal register files. -/
theorem State.v_ext {s t : State} (h : ∀ r < 32, t.vreg r = s.vreg r) : t.v = s.v := by
  ext i hi
  have := h i hi
  simpa [State.vreg, hi] using this

/-! ## Where an element stands (10_state.md R33) -/

/-- The bits of an element lie inside its register. -/
theorem State.elemLsb_add_le {s : State} {eew : Nat} (h : eew ∣ s.params.vlen) (i : Nat) :
    s.elemLsb eew i + eew ≤ s.params.vlen := by
  obtain ⟨q, hq⟩ := h
  have hpos : 0 < s.params.vlen := Nat.two_pow_pos _
  unfold State.elemLsb
  rw [hq, Nat.mul_comm i eew, Nat.mul_mod_mul_left]
  have hq0 : 0 < q := by rcases Nat.eq_zero_or_pos q with h0 | h0 <;> simp_all
  have := Nat.mod_lt i hq0
  calc eew * (i % q) + eew = eew * (i % q + 1) := by ring
    _ ≤ eew * q := Nat.mul_le_mul_left _ this

/-- Different elements of one group share no bit. -/
theorem State.elem_disjoint {s : State} {eew : Nat} (h : eew ∣ s.params.vlen) {i j : Nat} (hij : i ≠ j) (r : Nat) :
    s.elemReg r eew i ≠ s.elemReg r eew j
      ∨ s.elemLsb eew i + eew ≤ s.elemLsb eew j ∨ s.elemLsb eew j + eew ≤ s.elemLsb eew i := by
  obtain ⟨q, hq⟩ := h
  have hpos : 0 < s.params.vlen := Nat.two_pow_pos _
  have he : 0 < eew := by rcases Nat.eq_zero_or_pos eew with h0 | h0 <;> simp_all
  unfold State.elemReg State.elemLsb
  rw [hq, Nat.mul_comm i eew, Nat.mul_comm j eew, Nat.mul_mod_mul_left, Nat.mul_mod_mul_left,
    Nat.mul_div_mul_left _ _ he, Nat.mul_div_mul_left _ _ he]
  by_cases hd : i / q = j / q
  · right
    have hm : i % q ≠ j % q := fun hm => hij (by rw [← Nat.div_add_mod i q, ← Nat.div_add_mod j q, hd, hm])
    rcases Nat.lt_or_gt_of_ne hm with hlt | hlt
    · exact .inl (by calc eew * (i % q) + eew = eew * (i % q + 1) := by ring
        _ ≤ eew * (j % q) := Nat.mul_le_mul_left _ hlt)
    · exact .inr (by calc eew * (j % q) + eew = eew * (j % q + 1) := by ring
        _ ≤ eew * (i % q) := Nat.mul_le_mul_left _ hlt)
  · left; omega

/-! ## Writing one element -/

/-- A register other than the element's keeps its value. -/
theorem State.vreg_setVelem_other {s : State} {r eew i q : Nat} (w : BitVec eew) (h : q ≠ s.elemReg r eew i) :
    (s.setVelem r eew i w).vreg q = s.vreg q := by
  simp [State.setVelem, State.vreg_setVreg, h]

/-- The register of the element, with the element's bits replaced. -/
theorem State.vreg_setVelem_same {s : State} {r eew i : Nat} (w : BitVec eew) (h : s.elemReg r eew i < 32) :
    (s.setVelem r eew i w).vreg (s.elemReg r eew i)
      = setBitField (s.vreg (s.elemReg r eew i)) (s.elemLsb eew i) eew w.toNat := by
  simp [State.setVelem, State.vreg_setVreg, h]

/-- Reading the element that was written. -/
theorem State.velem_setVelem_same {s : State} {r eew i : Nat} (w : BitVec eew) (h : s.elemReg r eew i < 32) :
    (s.setVelem r eew i w).velem r eew i = w := by
  have hreg : (s.setVelem r eew i w).elemReg r eew i = s.elemReg r eew i := rfl
  have hlsb : (s.setVelem r eew i w).elemLsb eew i = s.elemLsb eew i := rfl
  unfold State.velem
  rw [hreg, hlsb, State.vreg_setVelem_same w h, bitField_setBitField_same]
  apply BitVec.eq_of_toNat_eq
  simp

/-- Reading an element of any width whose bits are not those written. -/
theorem State.velem_setVelem_disjoint {s : State} {r eew i r' eew' j : Nat} (w : BitVec eew)
    (h : s.elemReg r' eew' j ≠ s.elemReg r eew i
      ∨ s.elemLsb eew' j + eew' ≤ s.elemLsb eew i ∨ s.elemLsb eew i + eew ≤ s.elemLsb eew' j) :
    (s.setVelem r eew i w).velem r' eew' j = s.velem r' eew' j := by
  have hreg : (s.setVelem r eew i w).elemReg r' eew' j = s.elemReg r' eew' j := rfl
  have hlsb : (s.setVelem r eew i w).elemLsb eew' j = s.elemLsb eew' j := rfl
  unfold State.velem
  rw [hreg, hlsb]
  by_cases hr : s.elemReg r' eew' j = s.elemReg r eew i
  · rw [hr]
    by_cases hlt : s.elemReg r eew i < 32
    · rw [State.vreg_setVelem_same w hlt, bitField_setBitField_other]
      rcases h with h | h | h
      · exact absurd hr h
      · exact .inl h
      · exact .inr h
    · simp [State.setVelem, State.vreg_setVreg, hlt]
  · rw [State.vreg_setVelem_other w hr]

/-- Reading another element of the group. -/
theorem State.velem_setVelem_other {s : State} {r eew i j : Nat} (w : BitVec eew) (h : eew ∣ s.params.vlen)
    (hij : j ≠ i) : (s.setVelem r eew i w).velem r eew j = s.velem r eew j :=
  State.velem_setVelem_disjoint w (State.elem_disjoint h hij r)

/-- Every register keeps within VLEN bits. -/
theorem State.vreg_setVelem_lt {s : State} {r eew i q : Nat} (w : BitVec eew) (h : eew ∣ s.params.vlen)
    (hq : s.vreg q < 2 ^ s.params.vlen) : (s.setVelem r eew i w).vreg q < 2 ^ s.params.vlen := by
  simp only [State.setVelem, State.vreg_setVreg]
  split
  · rename_i hc
    rw [← hc.1]
    exact setBitField_lt hq (State.elemLsb_add_le h i)
  · exact hq

/-! ## Loops over elements

Each writes only elements of one group: `q` stands for a register, `j` for an element. -/

/-- An agnostic element is kept or all ones. -/
theorem State.velem_agnosticElem_same (s : State) (r eew : Nat) (agnostic : Bool) (i : Nat) :
    (s.agnosticElem r eew agnostic i).velem r eew i = s.velem r eew i
      ∨ (agnostic = true ∧ (s.agnosticElem r eew agnostic i).velem r eew i = BitVec.allOnes eew) := by
  unfold State.agnosticElem
  split
  · rename_i h
    by_cases hr : s.elemReg r eew i < 32
    · exact .inr ⟨by simp_all, State.velem_setVelem_same _ hr⟩
    · left
      have hv : (s.setVelem r eew i (BitVec.allOnes eew)).v = s.v :=
        State.v_ext fun q hq => State.vreg_setVelem_other _ (by omega)
      exact State.velem_congr hv rfl r eew i
  · exact .inl rfl

theorem State.velem_agnosticElem_other {s : State} {r eew i j : Nat} {agnostic : Bool} (h : eew ∣ s.params.vlen)
    (hij : j ≠ i) : (s.agnosticElem r eew agnostic i).velem r eew j = s.velem r eew j := by
  unfold State.agnosticElem
  split
  · exact State.velem_setVelem_other _ h hij
  · rfl

theorem State.vreg_agnosticElem_other {s : State} {r eew i q : Nat} {agnostic : Bool} (h : q ≠ s.elemReg r eew i) :
    (s.agnosticElem r eew agnostic i).vreg q = s.vreg q := by
  unfold State.agnosticElem
  split
  · exact State.vreg_setVelem_other _ h
  · rfl

theorem State.vreg_agnosticElem_lt {s : State} {r eew i q : Nat} {agnostic : Bool} (h : eew ∣ s.params.vlen)
    (hq : s.vreg q < 2 ^ s.params.vlen) : (s.agnosticElem r eew agnostic i).vreg q < 2 ^ s.params.vlen := by
  unfold State.agnosticElem
  split
  · exact State.vreg_setVelem_lt _ h hq
  · exact hq

/-- An element outside the list is untouched by the agnostic loop. -/
theorem State.velem_agnosticElems_other {s : State} {r eew j : Nat} {agnostic : Bool} {l : List Nat}
    (h : eew ∣ s.params.vlen) (hj : j ∉ l) : (s.agnosticElems r eew agnostic l).velem r eew j = s.velem r eew j := by
  induction l generalizing s with
  | nil => rfl
  | cons i rest ih =>
    simp only [List.mem_cons, not_or] at hj
    rw [State.agnosticElems, ih (by simpa using h) hj.2, State.velem_agnosticElem_other h hj.1]

/-- An element of the list is kept or all ones after the agnostic loop. -/
theorem State.velem_agnosticElems {s : State} {r eew : Nat} {agnostic : Bool} {l : List Nat} (h : eew ∣ s.params.vlen)
    (j : Nat) : (s.agnosticElems r eew agnostic l).velem r eew j = s.velem r eew j
      ∨ (agnostic = true ∧ (s.agnosticElems r eew agnostic l).velem r eew j = BitVec.allOnes eew) := by
  induction l generalizing s with
  | nil => exact .inl rfl
  | cons i rest ih =>
    have hstep : (s.agnosticElem r eew agnostic i).velem r eew j = s.velem r eew j
        ∨ (agnostic = true ∧ (s.agnosticElem r eew agnostic i).velem r eew j = BitVec.allOnes eew) := by
      by_cases hij : j = i
      · subst hij; exact State.velem_agnosticElem_same s r eew agnostic j
      · exact .inl (State.velem_agnosticElem_other h hij)
    rw [State.agnosticElems]
    rcases ih (s := s.agnosticElem r eew agnostic i) (by simpa using h) with h1 | h1
    · rw [h1]; exact hstep
    · exact .inr h1

theorem State.vreg_agnosticElems_other {s : State} {r eew q : Nat} {agnostic : Bool} {l : List Nat}
    (h : ∀ i ∈ l, q ≠ s.elemReg r eew i) : (s.agnosticElems r eew agnostic l).vreg q = s.vreg q := by
  induction l generalizing s with
  | nil => rfl
  | cons i rest ih =>
    rw [State.agnosticElems, ih, State.vreg_agnosticElem_other (h i (by simp))]
    intro j hj
    simpa [State.elemReg] using h j (by simp [hj])

theorem State.vreg_agnosticElems_lt {s : State} {r eew q : Nat} {agnostic : Bool} {l : List Nat}
    (h : eew ∣ s.params.vlen) (hq : s.vreg q < 2 ^ s.params.vlen) :
    (s.agnosticElems r eew agnostic l).vreg q < 2 ^ s.params.vlen := by
  induction l generalizing s with
  | nil => exact hq
  | cons i rest ih =>
    have := ih (s := s.agnosticElem r eew agnostic i) (by simpa using h) (by simpa using State.vreg_agnosticElem_lt h hq)
    simpa [State.agnosticElems] using this

/-- An element outside the list is untouched by the filling loop. -/
theorem State.velem_fillElems_other {s : State} {r eew j : Nat} {w : BitVec eew} {l : List Nat}
    (h : eew ∣ s.params.vlen) (hj : j ∉ l) : (s.fillElems r eew w l).velem r eew j = s.velem r eew j := by
  induction l generalizing s with
  | nil => rfl
  | cons i rest ih =>
    simp only [List.mem_cons, not_or] at hj
    rw [State.fillElems, ih (by simpa using h) hj.2, State.velem_setVelem_other _ h hj.1]

/-- An element of the list has the value filled in. -/
theorem State.velem_fillElems_mem {s : State} {r eew j : Nat} {w : BitVec eew} {l : List Nat}
    (h : eew ∣ s.params.vlen) (hj : j ∈ l) (hr : s.elemReg r eew j < 32) :
    (s.fillElems r eew w l).velem r eew j = w := by
  induction l generalizing s with
  | nil => simp at hj
  | cons i rest ih =>
    rw [State.fillElems]
    by_cases hrest : j ∈ rest
    · exact ih (by simpa using h) hrest (by simpa [State.elemReg] using hr)
    · have hji : j = i := by simpa [hrest] using hj
      subst hji
      rw [State.velem_fillElems_other (by simpa using h) hrest, State.velem_setVelem_same _ hr]

theorem State.vreg_fillElems_other {s : State} {r eew q : Nat} {w : BitVec eew} {l : List Nat}
    (h : ∀ i ∈ l, q ≠ s.elemReg r eew i) : (s.fillElems r eew w l).vreg q = s.vreg q := by
  induction l generalizing s with
  | nil => rfl
  | cons i rest ih =>
    rw [State.fillElems, ih, State.vreg_setVelem_other _ (h i (by simp))]
    intro j hj
    simpa [State.elemReg] using h j (by simp [hj])

theorem State.vreg_fillElems_lt {s : State} {r eew q : Nat} {w : BitVec eew} {l : List Nat}
    (h : eew ∣ s.params.vlen) (hq : s.vreg q < 2 ^ s.params.vlen) :
    (s.fillElems r eew w l).vreg q < 2 ^ s.params.vlen := by
  induction l generalizing s with
  | nil => exact hq
  | cons i rest ih =>
    have := ih (s := s.setVelem r eew i w) (by simpa using h) (by simpa using State.vreg_setVelem_lt w h hq)
    simpa [State.fillElems] using this

/-! ## The write phase of the batched family -/

theorem State.velem_batchWrite_other {s : State} {vd : VReg} {j k : Nat} {l : List DotResult} (h : 32 ∣ s.params.vlen)
    (hk : k < j ∨ j + l.length ≤ k) : (s.batchWrite vd j l).velem vd 32 k = s.velem vd 32 k := by
  induction l generalizing s j with
  | nil => rfl
  | cons r rest ih =>
    simp only [List.length_cons] at hk
    have hs : ((s.setVelem vd 32 j r.bits).accrue r.flags).velem vd 32 k = (s.setVelem vd 32 j r.bits).velem vd 32 k :=
      State.velem_congr rfl rfl _ _ _
    rw [State.batchWrite, ih (by simpa using h) (by omega), hs, State.velem_setVelem_other _ h (by omega)]

theorem State.velem_batchWrite_same {s : State} {vd : VReg} {j n : Nat} {l : List DotResult} (h : 32 ∣ s.params.vlen)
    (hn : n < l.length) (hr : s.elemReg vd 32 (j + n) < 32) :
    (s.batchWrite vd j l).velem vd 32 (j + n) = (l[n]).bits := by
  induction l generalizing s j n with
  | nil => simp at hn
  | cons r rest ih =>
    have hs : ∀ k, ((s.setVelem vd 32 j r.bits).accrue r.flags).velem vd 32 k = (s.setVelem vd 32 j r.bits).velem vd 32 k :=
      fun k => State.velem_congr rfl rfl _ _ _
    cases n with
    | zero =>
      rw [State.batchWrite, State.velem_batchWrite_other (by simpa using h) (by omega), hs]
      exact State.velem_setVelem_same _ hr
    | succ n =>
      rw [State.batchWrite, show j + (n + 1) = j + 1 + n by ring,
        ih (by simpa using h) (by simpa using hn) (by simpa [State.elemReg, Nat.add_assoc, Nat.add_comm 1 n] using hr)]
      simp

theorem State.vreg_batchWrite_other {s : State} {vd : VReg} {j q : Nat} {l : List DotResult}
    (h : ∀ n < l.length, q ≠ s.elemReg vd 32 (j + n)) : (s.batchWrite vd j l).vreg q = s.vreg q := by
  induction l generalizing s j with
  | nil => rfl
  | cons r rest ih =>
    have hs : ((s.setVelem vd 32 j r.bits).accrue r.flags).vreg q = (s.setVelem vd 32 j r.bits).vreg q :=
      State.vreg_congr rfl q
    rw [State.batchWrite, ih, hs, State.vreg_setVelem_other _ (by simpa using h 0 (by simp))]
    intro n hn
    have := h (n + 1) (by simpa using hn)
    simpa [State.elemReg, Nat.add_assoc, Nat.add_comm 1 n] using this

theorem State.vreg_batchWrite_lt {s : State} {vd : VReg} {j q : Nat} {l : List DotResult}
    (h : 32 ∣ s.params.vlen) (hq : s.vreg q < 2 ^ s.params.vlen) : (s.batchWrite vd j l).vreg q < 2 ^ s.params.vlen := by
  induction l generalizing s j with
  | nil => exact hq
  | cons r rest ih =>
    have hs : ((s.setVelem vd 32 j r.bits).accrue r.flags).vreg q = (s.setVelem vd 32 j r.bits).vreg q :=
      State.vreg_congr rfl q
    have := ih (s := (s.setVelem vd 32 j r.bits).accrue r.flags) (j := j + 1) (by simpa using h)
      (by simpa [hs] using State.vreg_setVelem_lt r.bits h hq)
    simpa [State.batchWrite] using this

/-- The flags of the write phase accrue. -/
theorem State.fflags_batchWrite (s : State) (vd : VReg) (j : Nat) (l : List DotResult) :
    (s.batchWrite vd j l).fflags = l.foldl (fun f r => f ||| r.flags) s.fflags := by
  induction l generalizing s j with
  | nil => rfl
  | cons r rest ih => rw [State.batchWrite, ih]; rfl

end Sys2Proof.Machine
end

