-- ==== Sys2Proof/Laws/Verdicts.lean ====
section
/-! SUPPORT. What the legality functions say, as conditions on the state and the operands, and what each of the shared
operations does under each verdict. -/

namespace Sys2Proof.Machine

theorem vlmulOf_lt (vtype : Word) : vlmulOf vtype < 8 := Nat.mod_lt _ (by norm_num)

theorem vsewOf_lt (vtype : Word) : vsewOf vtype < 8 := Nat.mod_lt _ (by norm_num)

/-- LMUL in eighths is a power of two from 1 to 64, unless the code is the reserved one (10_state.md R37). -/
theorem lmul8Of_cases (vtype : Word) :
    (vlmulOf vtype = 4 ∧ lmul8Of vtype = 0) ∨ (vlmulOf vtype ≠ 4 ∧ ∃ k ≤ 6, lmul8Of vtype = 2 ^ k) := by
  have h := vlmulOf_lt vtype
  unfold lmul8Of
  generalize vlmulOf vtype = n at h
  interval_cases n
  · exact .inr ⟨by norm_num, 3, by norm_num, rfl⟩
  · exact .inr ⟨by norm_num, 4, by norm_num, rfl⟩
  · exact .inr ⟨by norm_num, 5, by norm_num, rfl⟩
  · exact .inr ⟨by norm_num, 6, by norm_num, rfl⟩
  · exact .inl ⟨rfl, rfl⟩
  · exact .inr ⟨by norm_num, 0, by norm_num, rfl⟩
  · exact .inr ⟨by norm_num, 1, by norm_num, rfl⟩
  · exact .inr ⟨by norm_num, 2, by norm_num, rfl⟩

theorem lmul8Of_eq_zero_iff (vtype : Word) : lmul8Of vtype = 0 ↔ vlmulOf vtype = 4 := by
  rcases lmul8Of_cases vtype with ⟨h1, h2⟩ | ⟨h1, k, _, h2⟩
  · simp [h1, h2]
  · simp [h1, h2]

/-- A vector instruction is not illegal exactly where it is enabled (60_exceptions.md R262). -/
theorem State.vectorIllegal_eq_false_iff (s : State) (present fp : Bool) :
    s.vectorIllegal present fp = false ↔ enabled s present fp := by
  simp only [State.vectorIllegal, enabled, Bool.or_eq_false_iff, Bool.not_eq_false', Bool.and_eq_false_iff,
    beq_eq_false_iff_ne, ne_eq]
  cases present <;> cases fp <;> simp [and_assoc]

theorem State.vectorIllegal_eq_true_iff (s : State) (present fp : Bool) :
    s.vectorIllegal present fp = true ↔ ¬ enabled s present fp := by
  rw [← State.vectorIllegal_eq_false_iff]; simp

theorem State.vtypeReserved_eq_false_iff (s : State) :
    s.vtypeReserved = false ↔ vsewOf s.vtype ≤ 3 ∧ vlmulOf s.vtype ≠ 4 := by
  simp [State.vtypeReserved, lmul8Of_eq_zero_iff]

/-- The configuration a dot product requires (40_zvldot_long.md R112, 41_zvbdot_batched.md R150). -/
theorem State.dotReserved_eq_false_iff (s : State) (k : DotKind) :
    s.dotReserved k = false ↔ dotConfigured s k.sew k.altfmt k.fp := by
  have hf : (k.fp && s.frmInvalid) = false ↔ (k.fp = true → s.frm.toNat ≤ 4) := by
    unfold State.frmInvalid
    cases k.fp
    · simp
    · simp; omega
  simp only [State.dotReserved, Bool.or_eq_false_iff, hf, State.vtypeReserved_eq_false_iff, decide_eq_false_iff_not,
    not_not, dotConfigured, and_assoc]
  cases k.altfmt <;> simp

theorem inGroup_eq_false_iff (base n r : Nat) : inGroup base n r = false ↔ ¬(base ≤ r ∧ r < base + n) := by
  simp [inGroup]

/-- The operand conditions of the long family (40_zvldot_long.md R112). -/
theorem State.longOperandsReserved_eq_false_iff (s : State) (vd vs2 vs1 : VReg) (masked : Bool) :
    s.longOperandsReserved vd vs2 vs1 masked = false ↔ longOperandsLegal s vd vs2 vs1 masked := by
  rw [← Bool.not_eq_true]
  simp only [State.longOperandsReserved, inGroup, Bool.or_eq_true, Bool.and_eq_true, decide_eq_true_eq, beq_iff_eq]
  simp only [groupRegs, longOperandsLegal, lmulRegs]
  tauto

/-- The operand conditions of the batched family (41_zvbdot_batched.md R150). -/
theorem State.batchOperandsReserved_eq_false_iff (s : State) (vd vs2 vs1 : VReg) (ci : Nat) (masked : Bool) :
    s.batchOperandsReserved vd vs2 vs1 ci masked = false ↔ batchOperandsLegal s vd vs2 vs1 ci masked := by
  have h0 : inGroup vd (emulD s.params) 0 = true ↔ vd = 0 := by
    have : 0 < emulD s.params := by unfold emulD; omega
    simp only [inGroup, Nat.le_zero, Bool.and_eq_true, decide_eq_true_eq]
    constructor
    · intro h; exact Fin.ext (by simpa using h.1)
    · intro h; subst h; simpa using this
  rw [← Bool.not_eq_true]
  simp only [State.batchOperandsReserved, Bool.or_eq_true, Bool.and_eq_true, decide_eq_true_eq, h0, groupsMeet]
  simp only [inGroup, Bool.and_eq_true, decide_eq_true_eq]
  simp only [batchOperandsLegal, emulD, nel, ← Nat.not_lt (b := s.vlmax),
    ← Nat.not_lt (a := max 8 (s.params.vlen / 32))]
  tauto

/-- The three outcomes of a verdict. -/
theorem verdictOf_legal_iff (illegal reserved : Bool) :
    verdictOf illegal reserved = .legal ↔ illegal = false ∧ reserved = false := by
  cases illegal <;> cases reserved <;> simp [verdictOf]

theorem verdictOf_illegal_iff (illegal reserved : Bool) : verdictOf illegal reserved = .illegal ↔ illegal = true := by
  cases illegal <;> cases reserved <;> simp [verdictOf]

theorem verdictOf_reserved_iff (illegal reserved : Bool) :
    verdictOf illegal reserved = .reserved ↔ illegal = false ∧ reserved = true := by
  cases illegal <;> cases reserved <;> simp [verdictOf]

/-- All a long dot product can do (40_zvldot_long.md R112). -/
theorem State.long_cases (s : State) (k : DotKind) (w : Nat) (vd vs2 vs1 : VReg) (masked : Bool)
    (dot : List (BitVec w) → List (BitVec w) → BitVec 32 → DotResult) :
    (¬ enabled s k.present k.fp ∧ s.long k w vd vs2 vs1 masked dot = .next s.raiseDotIllegal)
      ∨ (enabled s k.present k.fp
          ∧ ¬(dotConfigured s k.sew k.altfmt k.fp ∧ longOperandsLegal s vd vs2 vs1 masked)
          ∧ s.long k w vd vs2 vs1 masked dot = .fault .reservedInstruction)
      ∨ (enabled s k.present k.fp ∧ dotConfigured s k.sew k.altfmt k.fp ∧ longOperandsLegal s vd vs2 vs1 masked
          ∧ s.long k w vd vs2 vs1 masked dot
            = .next ((if s.skipsAtVl0 then s
                else s.longWrite vd (s.longResult w vd vs2 vs1 masked dot)).markDirty k.fp).retireVector) := by
  unfold State.long underVerdict
  rcases hv : s.longLegal k vd vs2 vs1 masked with _ | _ | _
  · rw [State.longLegal, verdictOf_legal_iff, State.vectorIllegal_eq_false_iff, Bool.or_eq_false_iff,
      State.dotReserved_eq_false_iff, State.longOperandsReserved_eq_false_iff] at hv
    exact .inr (.inr ⟨hv.1, hv.2.1, hv.2.2, rfl⟩)
  · rw [State.longLegal, verdictOf_illegal_iff, State.vectorIllegal_eq_true_iff] at hv
    exact .inl ⟨hv, rfl⟩
  · rw [State.longLegal, verdictOf_reserved_iff, State.vectorIllegal_eq_false_iff] at hv
    refine .inr (.inl ⟨hv.1, fun hc => ?_, rfl⟩)
    rw [← State.dotReserved_eq_false_iff, ← State.longOperandsReserved_eq_false_iff] at hc
    simp [hc.1, hc.2] at hv

/-- All a batched dot product can do (41_zvbdot_batched.md R150). -/
theorem State.batch_cases (s : State) (k : DotKind) (w : Nat) (vd vs2 vs1 : VReg) (ci : Nat) (masked : Bool)
    (dot : List (BitVec w) → List (BitVec w) → BitVec 32 → DotResult) :
    (¬ enabled s k.present k.fp ∧ s.batch k w vd vs2 vs1 ci masked dot = .next s.raiseDotIllegal)
      ∨ (enabled s k.present k.fp
          ∧ ¬(dotConfigured s k.sew k.altfmt k.fp ∧ batchOperandsLegal s vd vs2 vs1 ci masked)
          ∧ s.batch k w vd vs2 vs1 ci masked dot = .fault .reservedInstruction)
      ∨ (enabled s k.present k.fp ∧ dotConfigured s k.sew k.altfmt k.fp ∧ batchOperandsLegal s vd vs2 vs1 ci masked
          ∧ s.batch k w vd vs2 vs1 ci masked dot
            = .next ((if s.skipsAtVl0 then s
                else s.batchWrite vd ci
                  ((List.range 8).map (s.batchElem w vd vs2 vs1 ci masked dot))).markDirty k.fp).retireVector) := by
  unfold State.batch underVerdict
  rcases hv : s.batchLegal k vd vs2 vs1 ci masked with _ | _ | _
  · rw [State.batchLegal, verdictOf_legal_iff, State.vectorIllegal_eq_false_iff, Bool.or_eq_false_iff,
      State.dotReserved_eq_false_iff, State.batchOperandsReserved_eq_false_iff] at hv
    exact .inr (.inr ⟨hv.1, hv.2.1, hv.2.2, rfl⟩)
  · rw [State.batchLegal, verdictOf_illegal_iff, State.vectorIllegal_eq_true_iff] at hv
    exact .inl ⟨hv, rfl⟩
  · rw [State.batchLegal, verdictOf_reserved_iff, State.vectorIllegal_eq_false_iff] at hv
    refine .inr (.inl ⟨hv.1, fun hc => ?_, rfl⟩)
    rw [← State.dotReserved_eq_false_iff, ← State.batchOperandsReserved_eq_false_iff] at hc
    simp [hc.1, hc.2] at hv

/-- When `vmv.v.i` is legal (43_host_subset.md R241). -/
theorem State.moveLegal_legal_iff (s : State) (vd : VReg) : s.moveLegal vd = .legal ↔ moveRuns s vd := by
  rw [State.moveLegal, verdictOf_legal_iff, State.vectorIllegal_eq_false_iff, Bool.or_eq_false_iff,
    State.vtypeReserved_eq_false_iff, ← Bool.not_eq_true]
  simp only [Bool.and_eq_true, decide_eq_true_eq]
  simp only [moveRuns, groupRegs, lmulRegs]
  tauto

theorem State.moveLegal_illegal_iff (s : State) (vd : VReg) : s.moveLegal vd = .illegal ↔ ¬ enabled s true false := by
  rw [State.moveLegal, verdictOf_illegal_iff, State.vectorIllegal_eq_true_iff]

/-- When a vector load or store is legal (43_host_subset.md R247). -/
theorem State.memLegal_legal_iff (s : State) (eew : Nat) (reg : VReg) (load masked : Bool) :
    s.memLegal eew reg load masked = .legal ↔ memRuns s eew reg load masked := by
  have hg : 8 < emul8Of s eew → groupRegs (s.memEmul8 eew) = emul8Of s eew / 8 := fun h => by
    unfold groupRegs; show max 1 (emul8Of s eew / 8) = _; omega
  rw [State.memLegal, verdictOf_legal_iff, State.vectorIllegal_eq_false_iff]
  simp only [Bool.or_eq_false_iff, State.vtypeReserved_eq_false_iff]
  simp only [← Bool.not_eq_true, Bool.and_eq_true, decide_eq_true_eq, beq_iff_eq]
  show _ ∧ ((((_ ∧ ¬emul8Of s eew < 1) ∧ ¬64 < emul8Of s eew)
    ∧ ¬(8 < emul8Of s eew ∧ reg.val % groupRegs (s.memEmul8 eew) ≠ 0)) ∧ ¬_) ↔ _
  constructor
  · rintro ⟨h1, ⟨⟨⟨⟨h2, h3⟩, h4⟩, h5⟩, h6⟩⟩
    exact ⟨h1, h2.1, h2.2, by omega, by omega, fun h => by rw [← hg h]; by_contra hc; exact h5 ⟨h, hc⟩, by tauto⟩
  · rintro ⟨h1, h2, h2', h3, h4, h5, h6⟩
    exact ⟨h1, ⟨⟨⟨⟨h2, h2'⟩, by omega⟩, by omega⟩, fun ⟨h, hc⟩ => hc (by rw [hg h]; exact h5 h)⟩, by tauto⟩

theorem State.memLegal_illegal_iff (s : State) (eew : Nat) (reg : VReg) (load masked : Bool) :
    s.memLegal eew reg load masked = .illegal ↔ ¬ enabled s true false := by
  rw [State.memLegal, verdictOf_illegal_iff, State.vectorIllegal_eq_true_iff]

end Sys2Proof.Machine
end

