-- ==== Sys2Proof/Laws/Effects.lean ====
section
/-! SUPPORT. What the write phases of the two dot-product families leave in the state: the new elements, the flags, and
everything else unchanged. -/

namespace Sys2Proof

/-! ## Sizes -/

/-- A power of two up to VLEN divides VLEN. -/
theorem Params.pow_dvd_vlen {p : Params} {j : Nat} (h : j ≤ p.vlenLog2) : 2 ^ j ∣ p.vlen := Nat.pow_dvd_pow 2 h

theorem Params.dvd_vlen_32 {p : Params} (h : 5 ≤ p.vlenLog2) : 32 ∣ p.vlen := Params.pow_dvd_vlen (j := 5) h

theorem Params.dvd_vlen_16 {p : Params} (h : 5 ≤ p.vlenLog2) : 16 ∣ p.vlen :=
  Params.pow_dvd_vlen (j := 4) (Nat.le_of_succ_le h)

theorem Params.dvd_vlen_8 {p : Params} (h : 5 ≤ p.vlenLog2) : 8 ∣ p.vlen :=
  Params.pow_dvd_vlen (j := 3) (by omega)

theorem Params.vlen_pos (p : Params) : 0 < p.vlen := Nat.two_pow_pos _

end Sys2Proof

namespace Sys2Proof.Machine

/-- A batched destination group holds `max 8 (VLEN/32)` elements, all of them in registers below 32 (41_zvbdot_batched.md
R143). -/
theorem State.elemReg_lt_of_group {s : State} {vd : VReg} {j : Nat} (h5 : 5 ≤ s.params.vlenLog2)
    (hal : vd.val % max 1 (256 / s.params.vlen) = 0) (hj : j < max 8 (s.params.vlen / 32)) :
    vd.val ≤ s.elemReg vd 32 j ∧ s.elemReg vd 32 j < vd.val + max 1 (256 / s.params.vlen)
      ∧ vd.val + max 1 (256 / s.params.vlen) ≤ 32 := by
  have hv := vd.isLt
  unfold State.elemReg
  by_cases h8 : 8 ≤ s.params.vlenLog2
  · have hge : 256 ≤ s.params.vlen := Nat.pow_le_pow_right (n := 2) (by norm_num) h8
    have h1 : max 1 (256 / s.params.vlen) = 1 := by
      have : 256 / s.params.vlen ≤ 1 := by
        rw [Nat.div_le_iff_le_mul_add_pred s.params.vlen_pos]; omega
      omega
    have hle : 8 ≤ s.params.vlen / 32 := by omega
    have hj' : j * 32 < s.params.vlen := by
      have : j < s.params.vlen / 32 := by omega
      omega
    rw [h1, Nat.div_eq_of_lt hj']
    omega
  · have hcases : s.params.vlenLog2 = 5 ∨ s.params.vlenLog2 = 6 ∨ s.params.vlenLog2 = 7 := by omega
    have hvl : s.params.vlen = 2 ^ s.params.vlenLog2 := rfl
    rcases hcases with h | h | h <;> rw [h] at hvl <;> norm_num at hvl <;> rw [hvl] at hal hj ⊢ <;> norm_num at hal hj ⊢ <;>
      omega

/-! ## The long family -/

/-- What writing a long result leaves (40_zvldot_long.md R114). -/
theorem State.longWrite_spec {s : State} (h : 32 ∣ s.params.vlen) (vd : VReg) (r : DotResult) :
    (s.longWrite vd r).velem vd 32 0 = r.bits
      ∧ (∀ q : VReg, q ≠ vd → (s.longWrite vd r).vreg q = s.vreg q)
      ∧ (∀ i, 1 ≤ i → i < s.params.vlen / 32 → keptOrOnes s (s.longWrite vd r) s.vta vd 32 i)
      ∧ (s.longWrite vd r).fflags = s.fflags ||| r.flags := by
  have hv : (s.longWrite vd r).v = ((s.setVelem vd 32 0 r.bits).agnosticElems vd 32 s.vta s.longTail).v := rfl
  have hp : ((s.setVelem vd 32 0 r.bits).agnosticElems vd 32 s.vta s.longTail).params = s.params := by simp
  have hp' : (s.longWrite vd r).params = ((s.setVelem vd 32 0 r.bits).agnosticElems vd 32 s.vta s.longTail).params := rfl
  have h0 : s.elemReg vd 32 0 = vd.val := by simp [State.elemReg]
  have hreg : ∀ i, i < s.params.vlen / 32 → s.elemReg vd 32 i = vd.val := fun i hi => by
    unfold State.elemReg
    rw [Nat.div_eq_of_lt (by omega)]; rfl
  refine ⟨?_, fun q hq => ?_, fun i h1 hi => ?_, ?_⟩
  · rw [State.velem_congr hv hp', State.velem_agnosticElems_other (by simpa using h) (by simp [State.longTail]),
      State.velem_setVelem_same _ (by rw [h0]; exact vd.isLt)]
  · have hne : (q : Nat) ≠ vd.val := fun hc => hq (Fin.ext hc)
    rw [State.vreg_congr hv, State.vreg_agnosticElems_other, State.vreg_setVelem_other _ (by rw [h0]; exact hne)]
    intro i hi
    have hlt : i < s.params.vlen / 32 := by
      simp only [State.longTail, List.mem_range'_1] at hi; omega
    have : (s.setVelem vd 32 0 r.bits).elemReg vd 32 i = vd.val := hreg i hlt
    rw [this]; exact hne
  · have := State.velem_agnosticElems (s := s.setVelem vd 32 0 r.bits) (r := vd) (agnostic := s.vta) (l := s.longTail)
      (by simpa using h) i
    rw [keptOrOnes, State.velem_congr hv hp']
    rwa [State.velem_setVelem_other _ h (by omega)] at this
  · simp [State.longWrite, State.accrue]

/-! ## The batched family -/

/-- What the write phase leaves (41_zvbdot_batched.md R148, R151). -/
theorem State.batchWrite_spec {s : State} {vd : VReg} {ci : Nat} {l : List DotResult} (h5 : 5 ≤ s.params.vlenLog2)
    (hl : l.length = 8) (hci : ci + 8 ≤ max 8 (s.params.vlen / 32)) (hal : vd.val % max 1 (256 / s.params.vlen) = 0) :
    (∀ n (hn : n < l.length), (s.batchWrite vd ci l).velem vd 32 (ci + n) = l[n].bits)
      ∧ batchRest s (s.batchWrite vd ci l) vd ci := by
  have h := Params.dvd_vlen_32 h5
  refine ⟨fun n hn => ?_, fun q hq => ?_, fun j hj hout => ?_⟩
  · have := State.elemReg_lt_of_group (j := ci + n) h5 hal (by omega)
    exact State.velem_batchWrite_same h hn (by omega)
  · refine State.vreg_batchWrite_other fun n hn hc => hq ?_
    have := State.elemReg_lt_of_group (j := ci + n) h5 hal (by omega)
    exact ⟨by omega, by omega⟩
  · exact State.velem_batchWrite_other h (by omega)

/-! ## Completion (10_state.md R24, R40, R44) -/

/-- What ends every one of the eleven. -/
theorem State.dirtyRetire_frame (s u : State) (fp : Bool) (h : u = { s with v := u.v, fflags := u.fflags }) :
    dotFrame s (u.markDirty fp).retireVector fp := by
  rw [h]; rfl

@[simp] theorem State.dirtyRetire_vreg (u : State) (fp : Bool) (r : Nat) :
    (u.markDirty fp).retireVector.vreg r = u.vreg r := rfl

@[simp] theorem State.dirtyRetire_velem (u : State) (fp : Bool) (r eew i : Nat) :
    (u.markDirty fp).retireVector.velem r eew i = u.velem r eew i := rfl

@[simp] theorem State.dirtyRetire_fflags (u : State) (fp : Bool) : (u.markDirty fp).retireVector.fflags = u.fflags := rfl

@[simp] theorem State.dirtyRetire_v (u : State) (fp : Bool) : (u.markDirty fp).retireVector.v = u.v := rfl

theorem State.longWrite_eq (s : State) (vd : VReg) (r : DotResult) :
    s.longWrite vd r = { s with v := (s.longWrite vd r).v, fflags := (s.longWrite vd r).fflags } := by
  unfold State.longWrite
  rw [State.agnosticElems_eq]; rfl

/-- The two flags of a bulk-normalized result as `fflags` bits (10_state.md R42). -/
theorem bulkFlags_eq (r : BulkResult) : bulkFlags r.nv r.overflow = bulkFlagBits r := by
  rcases r with ⟨b, nv, o⟩
  cases nv <;> cases o <;> rfl

/-- An FP8 dot product as destination bits and flags (42_bulk_normalization.md R211). -/
theorem State.fp8DotOf_eq (s : State) (alt : Bool) (A B : List (BitVec 8)) (C : BitVec 32) :
    s.fp8DotOf (if alt then e5m2 else e4m3) (fp8Selected s.altfmt) A B C
      = ⟨(bulkPair (fp8Result s alt (A.map (·.toNat)) (B.map (·.toNat)) C)).1,
          (bulkPair (fp8Result s alt (A.map (·.toNat)) (B.map (·.toNat)) C)).2⟩ := by
  unfold State.fp8DotOf bulkDot bulkPair fp8Result fp8Dot formatsOf fp8Selected
  rw [bulkFlags_eq]
  cases s.params.fp8Dot <;> cases alt <;> cases s.altfmt <;> rfl

/-! ## Operands -/

/-- The FP32 operands of a batched dot product (41_zvbdot_batched.md R144). -/
theorem State.batchOperand_fp32 (s : State) (r : Nat) : s.batchOperand 32 r = fp32Factors s r := rfl

/-- The sum of a zip of two mapped lists over one range. -/
theorem zipWith_map_map {α β γ : Type} (f : α → β → γ) (g : Nat → α) (h : Nat → β) (l : List Nat) :
    List.zipWith f (l.map g) (l.map h) = l.map fun i => f (g i) (h i) := by
  induction l with
  | nil => rfl
  | cons i rest ih => simp [ih]

/-- The integer dot product of a long instruction (40_zvldot_long.md R115, R116). -/
theorem State.long_intDotSum (s : State) (signed2 : Bool) (vs2 vs1 : VReg) (masked : Bool) :
    intDotSum signed2 s.altfmt (s.longOperand 8 vs2 masked) (s.longOperand 8 vs1 masked)
      = longIntSum s vs2 vs1 masked signed2 := by
  unfold intDotSum State.longOperand longIntSum
  rw [zipWith_map_map]
  congr 1
  apply List.map_congr_left
  intro i _
  have hact : s.active masked i = true ↔ (masked = true → (s.vreg 0).testBit i = true) := by
    cases masked <;> simp [State.active, State.maskBit]
  simp only [hact]
  split
  · rfl
  · simp [factorInt]

/-- The integer dot product of a batched instruction (41_zvbdot_batched.md R155, R156). -/
theorem State.batch_intDotSum (s : State) (signed2 : Bool) (vs2 vs1 : VReg) (n : Nat) :
    intDotSum signed2 s.altfmt (s.batchOperand 8 (vs2.val + n)) (s.batchOperand 8 vs1)
      = batchIntSum s vs2 vs1 signed2 n := by
  unfold intDotSum State.batchOperand batchIntSum
  rw [zipWith_map_map]
  congr 1
  apply List.map_congr_left
  intro i _
  split
  · rfl
  · simp [factorInt]

/-- The factors of a long floating-point dot product (40_zvldot_long.md R113). -/
theorem State.longOperand_toNat (s : State) (w : Nat) (r : VReg) (masked : Bool) :
    (s.longOperand w r masked).map (·.toNat) = longFactors s w r masked := by
  unfold State.longOperand longFactors
  rw [List.map_map]
  apply List.map_congr_left
  intro i _
  have hact : s.active masked i = true ↔ (masked = true → (s.vreg 0).testBit i = true) := by
    cases masked <;> simp [State.active, State.maskBit]
  simp only [Function.comp, hact]
  split <;> simp

/-- The factors of a batched floating-point dot product (41_zvbdot_batched.md R144). -/
theorem State.batchOperand_toNat (s : State) (w r : Nat) :
    (s.batchOperand w r).map (·.toNat) = batchFactors s w r := by
  unfold State.batchOperand batchFactors
  rw [List.map_map]
  apply List.map_congr_left
  intro i _
  simp only [Function.comp]
  split <;> simp

end Sys2Proof.Machine
end

