-- ==== Sys2Proof/Laws/Encoding.lean ====
section
/-! SUPPORT. Fixed fields of a word against its mask and match. -/

namespace Sys2Proof

/-- The bits of a fixed field. -/
def FixedField.bits (f : FixedField) : Nat := (2 ^ f.width - 1) * 2 ^ f.lsb

/-- Masking with one field keeps that field in place. -/
theorem and_fixedField (n lsb width : Nat) :
    n &&& (2 ^ width - 1) * 2 ^ lsb = n / 2 ^ lsb % 2 ^ width * 2 ^ lsb := by
  apply Nat.eq_of_testBit_eq
  intro j
  rw [Nat.testBit_and, Nat.testBit_mul_two_pow, Nat.testBit_mul_two_pow, Nat.testBit_two_pow_sub_one,
    Nat.testBit_mod_two_pow, Nat.testBit_div_two_pow]
  by_cases h : lsb ≤ j
  · have hj : j - lsb + lsb = j := Nat.sub_add_cancel h
    simp only [h, decide_true, Bool.true_and, hj]
    exact Bool.and_comm _ _
  · simp [h]

/-- Masking with the bits of a list of fields keeps each of them in place. -/
theorem and_fixedFields (n : Nat) (fs : List FixedField) :
    n &&& fs.foldr (fun f k => f.bits ||| k) 0
      = fs.foldr (fun f k => n / 2 ^ f.lsb % 2 ^ f.width * 2 ^ f.lsb ||| k) 0 := by
  induction fs with
  | nil => simp
  | cons f fs ih =>
    simp only [List.foldr_cons, FixedField.bits] at *
    rw [Nat.and_or_distrib_left, and_fixedField, ih]

/-- A word whose fixed fields hold their values shows, under the mask of the fields, the values in place. -/
theorem and_mask_of_fields {w : Insn} {fs : List FixedField} (h : ∀ f ∈ fs, field w f.lsb f.width = f.value) :
    w.toNat &&& fs.foldr (fun f k => f.bits ||| k) 0 = fs.foldr (fun f k => f.value * 2 ^ f.lsb ||| k) 0 := by
  rw [and_fixedFields]
  induction fs with
  | nil => rfl
  | cons f fs ih =>
    simp only [List.foldr_cons]
    rw [ih fun g hg => h g (List.mem_cons_of_mem _ hg)]
    have := h f (List.mem_cons_self ..)
    unfold field at this
    rw [this]

/-- A word that shows a pattern under a mask has, in a field inside the mask, the pattern's field. -/
theorem field_of_and_mask {n k m : Nat} (h : n &&& k = m) {lsb width : Nat}
    (hk : k &&& (2 ^ width - 1) * 2 ^ lsb = (2 ^ width - 1) * 2 ^ lsb) :
    n / 2 ^ lsb % 2 ^ width = m / 2 ^ lsb % 2 ^ width := by
  subst h
  have h1 := and_fixedField n lsb width
  have h2 := and_fixedField (n &&& k) lsb width
  rw [Nat.and_assoc, hk, h1] at h2
  exact Nat.eq_of_mul_eq_mul_right (Nat.two_pow_pos lsb) h2

/-- A row accepts exactly the words that show its match under its mask, for a row whose fixed fields do not overlap. -/
theorem OpcodeRow.accepts_iff {row : OpcodeRow} {m k : Insn}
    (hk : row.fixed.foldr (fun f k => f.bits ||| k) 0 = k.toNat)
    (hm : row.fixed.foldr (fun f k => f.value * 2 ^ f.lsb ||| k) 0 = m.toNat)
    (hf : ∀ f ∈ row.fixed, k.toNat &&& f.bits = f.bits ∧ m.toNat / 2 ^ f.lsb % 2 ^ f.width = f.value) (w : Insn) :
    row.accepts w = true ↔ w &&& k = m := by
  have hw : w &&& k = m ↔ w.toNat &&& k.toNat = m.toNat := by
    rw [← BitVec.toNat_and]; exact ⟨fun h => by rw [h], BitVec.eq_of_toNat_eq⟩
  rw [hw, OpcodeRow.accepts, List.all_eq_true]
  constructor
  · intro h
    rw [← hk, ← hm]
    exact and_mask_of_fields fun f hf => by simpa using h f hf
  · intro h f hmem
    obtain ⟨h1, h2⟩ := hf f hmem
    have := field_of_and_mask h h1
    simp only [beq_iff_eq, field]
    rw [this, h2]

/-- The pairs of `match` and `mask` of the rows, in the order of the table (30_encoding.md R85, 43_host_subset.md R233 to
R246). -/
def rowPatterns : List (Insn × Insn) :=
  [(0xB8000077, 0xFC00707F), (0xBC000077, 0xFC00707F), (0xB0001077, 0xFC00707F), (0xB8001077, 0xFC00707F),
    (0xBC001077, 0xFC00707F), (0xAC001077, 0xFC00707F), (0x00000033, 0xFE00707F), (0x40000033, 0xFE00707F),
    (0x00000013, 0x0000707F), (0x00001063, 0x0000707F), (0x00007057, 0x8000707F), (0x5E003057, 0xFFF0707F),
    (0x00000007, 0xFDF0707F), (0x00005007, 0xFDF0707F), (0x00006007, 0xFDF0707F), (0x00006027, 0xFDF0707F)]

/-- Each row accepts exactly the words of its pattern. -/
theorem opcodeTable_accepts : List.Forall₂ (fun row (mk : Insn × Insn) => ∀ w, OpcodeRow.accepts row w = true ↔ w &&& mk.2 = mk.1)
    opcodeTable rowPatterns := by
  unfold opcodeTable rowPatterns
  repeat' first
    | exact List.Forall₂.nil
    | refine List.Forall₂.cons (OpcodeRow.accepts_iff (by decide) (by decide) (by decide)) ?_

/-- Disjoint patterns share no word. -/
theorem disjointPatterns_sound {m1 k1 m2 k2 w : Insn} (h : disjointPatterns m1 k1 m2 k2 = true) (h1 : w &&& k1 = m1)
    (h2 : w &&& k2 = m2) : False := by
  subst h1 h2
  unfold disjointPatterns at h
  have : ((w &&& k1) ^^^ (w &&& k2)) &&& k1 &&& k2 = 0 := by
    ext i hi
    rw [show (0 : Insn) = 0#32 from rfl, BitVec.getElem_zero]
    simp only [BitVec.getElem_and, BitVec.getElem_xor]
    cases w[i] <;> cases k1[i] <;> cases k2[i] <;> rfl
  simp [this] at h

/-- No word has the patterns of two rows: the rows are disjoint (30_encoding.md R87). -/
theorem rowPatterns_disjoint : rowPatterns.Pairwise fun a b => disjointPatterns a.1 a.2 b.1 b.2 = true := by decide

/-- The pattern of a row of a list that has one for each. -/
theorem exists_pattern {rows : List OpcodeRow} {ps : List (Insn × Insn)}
    (h : List.Forall₂ (fun row (mk : Insn × Insn) => ∀ w, OpcodeRow.accepts row w = true ↔ w &&& mk.2 = mk.1) rows ps)
    {row : OpcodeRow} (hr : row ∈ rows) : ∃ mk ∈ ps, ∀ w, row.accepts w = true ↔ w &&& mk.2 = mk.1 := by
  induction h with
  | nil => simp at hr
  | cons hrow _ ih =>
    rcases List.mem_cons.1 hr with rfl | hr
    · exact ⟨_, List.mem_cons_self .., hrow⟩
    · obtain ⟨mk, hm, h⟩ := ih hr
      exact ⟨mk, List.mem_cons_of_mem _ hm, h⟩

/-- Two rows that accept one word are the same row of the table. -/
theorem opcodeTable_pairwise : opcodeTable.Pairwise fun a b => ∀ w, a.accepts w = true → b.accepts w = true → False := by
  have key : ∀ {rows : List OpcodeRow} {ps : List (Insn × Insn)},
      List.Forall₂ (fun row (mk : Insn × Insn) => ∀ w, OpcodeRow.accepts row w = true ↔ w &&& mk.2 = mk.1) rows ps →
      (ps.Pairwise fun a b => disjointPatterns a.1 a.2 b.1 b.2 = true) →
      rows.Pairwise fun a b => ∀ w, a.accepts w = true → b.accepts w = true → False := by
    intro rows ps h
    induction h with
    | nil => intro _; exact List.Pairwise.nil
    | @cons row mk rows ps hrow hrest ih =>
      intro hp
      rw [List.pairwise_cons] at hp
      refine List.Pairwise.cons (fun b hb w hw hbw => ?_) (ih hp.2)
      obtain ⟨mk', hmem, hmk'⟩ := exists_pattern hrest hb
      exact disjointPatterns_sound (hp.1 mk' hmem) ((hrow w).1 hw) ((hmk' w).1 hbw)
  exact key opcodeTable_accepts rowPatterns_disjoint

/-- The row that accepts a word is the one `find?` answers. -/
theorem find_row_of_accepts {row : OpcodeRow} {w : Insn} (hmem : row ∈ opcodeTable) (h : row.accepts w = true) :
    opcodeTable.find? (·.accepts w) = some row := by
  have key : ∀ {rows : List OpcodeRow},
      (rows.Pairwise fun a b => ∀ w, a.accepts w = true → b.accepts w = true → False) → row ∈ rows →
      rows.find? (·.accepts w) = some row := by
    intro rows
    induction rows with
    | nil => intro _ hm; simp at hm
    | cons a rest ih =>
      intro hp hm
      rw [List.pairwise_cons] at hp
      rw [List.find?_cons]
      rcases List.mem_cons.1 hm with rfl | hm
      · simp [h]
      · have ha : a.accepts w = false := by
          cases ha : a.accepts w with
          | false => rfl
          | true => exact absurd h (fun h => hp.1 row hm w ha h)
        simp [ha, ih hp.2 hm]
  exact key opcodeTable_pairwise hmem

/-- Decoding a word that a row accepts. -/
theorem decode_of_row {p : Params} {row : OpcodeRow} {w : Insn} (hmem : row ∈ opcodeTable) (h : row.accepts w = true) :
    decode p w = if row.present p.ext then .ok (row.build w) else .error (.absentExtension row.mnemonic) := by
  simp only [decode, find_row_of_accepts hmem h]

/-- Decoding a word that no row accepts. -/
theorem decode_of_no_row {p : Params} {w : Insn} (h : ∀ row ∈ opcodeTable, row.accepts w = false) :
    decode p w = decodeLong w (longTable p) := by
  have : opcodeTable.find? (·.accepts w) = none := List.find?_eq_none.2 fun row hr => by simp [h row hr]
  simp only [decode, this]

/-- A word is decoded by a row that accepts it, or no row accepts it and it is looked up among the long encodings. -/
theorem decode_cases (p : Params) (w : Insn) :
    (∃ row ∈ opcodeTable, row.accepts w = true
        ∧ decode p w = if row.present p.ext then .ok (row.build w) else .error (.absentExtension row.mnemonic))
      ∨ ((∀ row ∈ opcodeTable, row.accepts w = false) ∧ decode p w = decodeLong w (longTable p)) := by
  by_cases h : ∃ row ∈ opcodeTable, row.accepts w = true
  · obtain ⟨row, hmem, ha⟩ := h
    exact .inl ⟨row, hmem, ha, decode_of_row hmem ha⟩
  · have h' : ∀ row ∈ opcodeTable, row.accepts w = false := fun row hr => by
      simpa using fun ha => h ⟨row, hr, ha⟩
    exact .inr ⟨h', decode_of_no_row h'⟩

end Sys2Proof
end

