-- ==== Sys2Proof/Laws/Families.lean ====
section
/-! SUPPORT. The two dot-product families as a whole: every instruction is one of the two shared operations with its own dot
product, and what it does is what that operation does. -/

namespace Sys2Proof.Machine

/-! ## The long family -/

/-- The dot product of a long instruction. -/
def LongOp.dot (op : LongOp) (s : State) : List (BitVec op.sew) → List (BitVec op.sew) → BitVec 32 → DotResult :=
  match op with
  | .vqldotu => intDot false s.altfmt
  | .vqldots => intDot true s.altfmt
  | .vfwldot => bf16Dot s.vlmax
  | .vfqldot => s.fp8DotOf e4m3 (fp8Selected s.altfmt)
  | .vfqldotAlt => s.fp8DotOf e5m2 (fp8Selected s.altfmt)

theorem LongOp.exec_eq (op : LongOp) (s : State) (vd vs2 vs1 : VReg) (masked : Bool) :
    exec (op.instr vd vs2 vs1 masked) s
      = s.long ⟨op.present s.params.ext, op.sew, op.altfmt, op.fp⟩ op.sew vd vs2 vs1 masked (op.dot s) := by
  cases op <;> rfl

/-- A long instruction that is not enabled takes the illegal-instruction exception. -/
theorem LongOp.exec_illegal {op : LongOp} {s : State} {vd vs2 vs1 : VReg} {masked : Bool}
    (h : ¬ enabled s (op.present s.params.ext) op.fp) : exec (op.instr vd vs2 vs1 masked) s = .next s.raiseDotIllegal := by
  rw [LongOp.exec_eq]
  rcases State.long_cases s ⟨op.present s.params.ext, op.sew, op.altfmt, op.fp⟩ op.sew vd vs2 vs1 masked (op.dot s) with
    h1 | h1 | h1
  · exact h1.2
  · exact absurd h1.1 h
  · exact absurd h1.1 h

/-- A long instruction that is enabled but does not run stops on the reserved configuration. -/
theorem LongOp.exec_reserved {op : LongOp} {s : State} {vd vs2 vs1 : VReg} {masked : Bool}
    (h : enabled s (op.present s.params.ext) op.fp) (hr : ¬ longRuns op s vd vs2 vs1 masked) :
    exec (op.instr vd vs2 vs1 masked) s = .fault .reservedInstruction := by
  rw [LongOp.exec_eq]
  rcases State.long_cases s ⟨op.present s.params.ext, op.sew, op.altfmt, op.fp⟩ op.sew vd vs2 vs1 masked (op.dot s) with
    h1 | h1 | h1
  · exact absurd h h1.1
  · exact h1.2.2
  · exact absurd ⟨h1.1, h1.2.1, h1.2.2.1⟩ hr

/-- The state after a long instruction that runs. -/
def LongOp.after (op : LongOp) (s : State) (vd vs2 vs1 : VReg) (masked : Bool) : State :=
  ((if s.skipsAtVl0 then s
    else s.longWrite vd (s.longResult op.sew vd vs2 vs1 masked (op.dot s))).markDirty op.fp).retireVector

theorem LongOp.exec_runs {op : LongOp} {s : State} {vd vs2 vs1 : VReg} {masked : Bool}
    (h : longRuns op s vd vs2 vs1 masked) :
    exec (op.instr vd vs2 vs1 masked) s = .next (op.after s vd vs2 vs1 masked) := by
  rw [LongOp.exec_eq]
  rcases State.long_cases s ⟨op.present s.params.ext, op.sew, op.altfmt, op.fp⟩ op.sew vd vs2 vs1 masked (op.dot s) with
    h1 | h1 | h1
  · exact absurd h.1 h1.1
  · exact absurd ⟨h.2.1, h.2.2⟩ h1.2.1
  · exact h1.2.2.2

/-- Everything a long instruction that runs leaves alone, at every VLEN (10_state.md R35). -/
theorem LongOp.after_frame (op : LongOp) (s : State) (vd vs2 vs1 : VReg) (masked : Bool) :
    dotFrame s (op.after s vd vs2 vs1 masked) op.fp := by
  unfold LongOp.after
  apply State.dirtyRetire_frame
  split
  · rfl
  · exact State.longWrite_eq _ _ _

/-- The vector registers and flags after a long instruction that runs. -/
theorem LongOp.after_spec (op : LongOp) {s : State} (vd vs2 vs1 : VReg) (masked : Bool) (h5 : 5 ≤ s.params.vlenLog2) :
    longRest s (op.after s vd vs2 vs1 masked) vd
      ∧ (((op.after s vd vs2 vs1 masked).velem vd 32 0 = (s.longResult op.sew vd vs2 vs1 masked (op.dot s)).bits
            ∧ (op.after s vd vs2 vs1 masked).fflags
                = s.fflags ||| (s.longResult op.sew vd vs2 vs1 masked (op.dot s)).flags)
          ∨ skipped s (op.after s vd vs2 vs1 masked)) := by
  unfold LongOp.after
  by_cases hs : s.skipsAtVl0 = true
  · rw [if_pos hs]
    have hvl : s.vl = 0 := by
      simp only [State.skipsAtVl0, Bool.and_eq_true, decide_eq_true_eq] at hs; exact hs.1
    exact ⟨⟨fun r _ => rfl, fun i _ _ => .inl rfl⟩, .inr ⟨hvl, rfl, rfl⟩⟩
  · rw [if_neg hs]
    obtain ⟨h0, hr, ht, hf⟩ := State.longWrite_spec (Params.dvd_vlen_32 h5) vd
      (s.longResult op.sew vd vs2 vs1 masked (op.dot s))
    exact ⟨⟨hr, ht⟩, .inl ⟨h0, hf⟩⟩

/-! ## The batched family -/

/-- The dot product of a batched instruction. -/
def BatchOp.dot (op : BatchOp) (s : State) : List (BitVec op.sew) → List (BitVec op.sew) → BitVec 32 → DotResult :=
  match op with
  | .vqmmaccU => intDot false s.altfmt
  | .vqmmaccS => intDot true s.altfmt
  | .vfwmmacc => bf16Dot s.vlmax
  | .vfqmmacc => s.fp8DotOf e4m3 (fp8Selected s.altfmt)
  | .vfqmmaccAlt => s.fp8DotOf e5m2 (fp8Selected s.altfmt)
  | .vfmmacc => s.fp32DotOf

theorem BatchOp.exec_eq (op : BatchOp) (s : State) (vd vs2 vs1 : VReg) (ci : Nat) (masked : Bool) :
    exec (op.instr vd vs2 vs1 ci masked) s
      = s.batch ⟨op.present s.params.ext, op.sew, op.altfmt, op.fp⟩ op.sew vd vs2 vs1 ci masked (op.dot s) := by
  cases op <;> rfl

/-- A batched instruction that is not enabled takes the illegal-instruction exception. -/
theorem BatchOp.exec_illegal {op : BatchOp} {s : State} {vd vs2 vs1 : VReg} {ci : Nat} {masked : Bool}
    (h : ¬ enabled s (op.present s.params.ext) op.fp) :
    exec (op.instr vd vs2 vs1 ci masked) s = .next s.raiseDotIllegal := by
  rw [BatchOp.exec_eq]
  rcases State.batch_cases s ⟨op.present s.params.ext, op.sew, op.altfmt, op.fp⟩ op.sew vd vs2 vs1 ci masked (op.dot s) with
    h1 | h1 | h1
  · exact h1.2
  · exact absurd h1.1 h
  · exact absurd h1.1 h

/-- A batched instruction that is enabled but does not run stops on the reserved configuration. -/
theorem BatchOp.exec_reserved {op : BatchOp} {s : State} {vd vs2 vs1 : VReg} {ci : Nat} {masked : Bool}
    (h : enabled s (op.present s.params.ext) op.fp) (hr : ¬ batchRuns op s vd vs2 vs1 ci masked) :
    exec (op.instr vd vs2 vs1 ci masked) s = .fault .reservedInstruction := by
  rw [BatchOp.exec_eq]
  rcases State.batch_cases s ⟨op.present s.params.ext, op.sew, op.altfmt, op.fp⟩ op.sew vd vs2 vs1 ci masked (op.dot s) with
    h1 | h1 | h1
  · exact absurd h h1.1
  · exact h1.2.2
  · exact absurd ⟨h1.1, h1.2.1, h1.2.2.1⟩ hr

/-- The state after a batched instruction that runs. -/
def BatchOp.after (op : BatchOp) (s : State) (vd vs2 vs1 : VReg) (ci : Nat) (masked : Bool) : State :=
  ((if s.skipsAtVl0 then s
    else s.batchWrite vd ci
      ((List.range 8).map (s.batchElem op.sew vd vs2 vs1 ci masked (op.dot s)))).markDirty op.fp).retireVector

theorem BatchOp.exec_runs {op : BatchOp} {s : State} {vd vs2 vs1 : VReg} {ci : Nat} {masked : Bool}
    (h : batchRuns op s vd vs2 vs1 ci masked) :
    exec (op.instr vd vs2 vs1 ci masked) s = .next (op.after s vd vs2 vs1 ci masked) := by
  rw [BatchOp.exec_eq]
  rcases State.batch_cases s ⟨op.present s.params.ext, op.sew, op.altfmt, op.fp⟩ op.sew vd vs2 vs1 ci masked (op.dot s) with
    h1 | h1 | h1
  · exact absurd h.1 h1.1
  · exact absurd ⟨h.2.1, h.2.2⟩ h1.2.1
  · exact h1.2.2.2

/-- Everything a batched instruction that runs leaves alone, at every VLEN (10_state.md R35). -/
theorem BatchOp.after_frame (op : BatchOp) (s : State) (vd vs2 vs1 : VReg) (ci : Nat) (masked : Bool) :
    dotFrame s (op.after s vd vs2 vs1 ci masked) op.fp := by
  unfold BatchOp.after
  apply State.dirtyRetire_frame
  split
  · rfl
  · exact State.batchWrite_eq _ _ _ _

/-- The result of dot product `n`, as the pair the statements use. -/
def BatchOp.pair (op : BatchOp) (s : State) (vd vs2 vs1 : VReg) (ci n : Nat) : BitVec 32 × BitVec 5 :=
  let d := op.dot s (s.batchOperand op.sew (vs2.val + n)) (s.batchOperand op.sew vs1) (s.velem vd 32 (ci + n))
  (d.bits, d.flags)

theorem foldl_or_filter {α : Type} (keep : α → Bool) (f g : α → BitVec 5) (l : List α) (init : BitVec 5)
    (h : ∀ a ∈ l, g a = if keep a then f a else 0) :
    l.foldl (fun acc a => acc ||| g a) init = (l.filter keep).foldl (fun acc a => acc ||| f a) init := by
  induction l generalizing init with
  | nil => rfl
  | cons a rest ih =>
    have ha := h a (by simp)
    have ih' := fun i => ih i (fun b hb => h b (by simp [hb]))
    by_cases hk : keep a = true
    · simp only [List.foldl_cons, ha, hk, if_true, List.filter_cons_of_pos]
      exact ih' _
    · have hz : init ||| (0 : BitVec 5) = init := BitVec.or_zero
      rw [List.foldl_cons, ha, if_neg hk, List.filter_cons_of_neg (by simpa using hk), hz]
      exact ih' _

/-- The vector registers and flags after a batched instruction that runs. -/
theorem BatchOp.after_spec (op : BatchOp) {s : State} {vd vs2 vs1 : VReg} {ci : Nat} {masked : Bool}
    (h5 : 5 ≤ s.params.vlenLog2) (h : batchOperandsLegal s vd vs2 vs1 ci masked) :
    batchRest s (op.after s vd vs2 vs1 ci masked) vd ci
      ∧ (batchResult s (op.after s vd vs2 vs1 ci masked) vd ci masked (op.pair s vd vs2 vs1 ci)
          ∨ skipped s (op.after s vd vs2 vs1 ci masked)) := by
  unfold BatchOp.after
  by_cases hs : s.skipsAtVl0 = true
  · rw [if_pos hs]
    have hvl : s.vl = 0 := by
      simp only [State.skipsAtVl0, Bool.and_eq_true, decide_eq_true_eq] at hs; exact hs.1
    exact ⟨⟨fun r _ => rfl, fun i _ _ => rfl⟩, .inr ⟨hvl, rfl, rfl⟩⟩
  · rw [if_neg hs]
    obtain ⟨-, -, hci, hal, -⟩ := h
    have hl : ((List.range 8).map (s.batchElem op.sew vd vs2 vs1 ci masked (op.dot s))).length = 8 := by simp
    obtain ⟨hel, hrest⟩ := State.batchWrite_spec h5 hl hci hal
    refine ⟨hrest, .inl ⟨fun n hn hp => ?_, fun n hn hp => ?_, ?_⟩⟩
    · have := hel n (by simpa using hn)
      rw [State.dirtyRetire_velem, this, List.getElem_map, List.getElem_range]
      have hp' : s.active masked (ci + n) = true := hp
      simp [State.batchElem, hp', BatchOp.pair]
    · have := hel n (by simpa using hn)
      rw [keptOrOnes, State.dirtyRetire_velem, this, List.getElem_map, List.getElem_range]
      have hp' : ¬ s.active masked (ci + n) = true := by rw [show s.active masked (ci + n) = false from hp]; simp
      simp only [State.batchElem, if_neg hp']
      split
      · rename_i hc
        exact .inr ⟨by simp_all, rfl⟩
      · exact .inl rfl
    · rw [State.dirtyRetire_fflags, State.fflags_batchWrite, List.foldl_map]
      apply foldl_or_filter
      intro n _
      show (s.batchElem op.sew vd vs2 vs1 ci masked (op.dot s) n).flags
        = if s.active masked (ci + n) = true then (op.pair s vd vs2 vs1 ci n).2 else 0
      unfold State.batchElem
      split
      · rfl
      · split <;> rfl

end Sys2Proof.Machine
end

