-- ==== Sys2Proof/Laws/Memory.lean ====
section
/-! SUPPORT. Memory: every operation keeps the canonical form; a read after a write. -/

namespace Sys2Proof.Machine

/-- Where the addresses of a canonical memory start above `a`, nothing stands at `a`. -/
theorem Memory.read_none_of_lt {m : Memory} {a : Nat} (h : ∀ c ∈ m, a < c.1) : m.read a = none := by
  cases m with
  | nil => rfl
  | cons c rest =>
    have := h c (by simp)
    simp [Memory.read, this, Nat.ne_of_lt this]

/-- The addresses of a memory after a write are those before it and the one written. -/
theorem Memory.mem_write {m : Memory} {a : Nat} {b : Byte} {c : Host.Cell} (h : c ∈ m.write a b) : c.1 = a ∨ c ∈ m := by
  induction m with
  | nil => simp [Memory.write] at h; simp [h]
  | cons d rest ih =>
    simp only [Memory.write] at h
    split at h
    · rcases List.mem_cons.1 h with h | h
      · simp [h]
      · exact .inr h
    · split at h
      · rcases List.mem_cons.1 h with h | h
        · simp [h]
        · exact .inr (List.mem_cons_of_mem _ h)
      · rcases List.mem_cons.1 h with h | h
        · exact .inr (by simp [h])
        · rcases ih h with h | h
          · exact .inl h
          · exact .inr (List.mem_cons_of_mem _ h)

/-- A write keeps the canonical form. -/
theorem Memory.write_wf {m : Memory} (h : m.wf) (a : Nat) (b : Byte) : (m.write a b).wf := by
  induction m with
  | nil => simp [Memory.write, Memory.wf]
  | cons c rest ih =>
    have hc := List.pairwise_cons.1 h
    simp only [Memory.write]
    split
    · rename_i hlt
      refine List.pairwise_cons.2 ⟨fun d hd => ?_, h⟩
      rcases List.mem_cons.1 hd with hd | hd
      · simpa [hd] using hlt
      · exact lt_trans hlt (hc.1 d hd)
    · split
      · rename_i hnlt heq
        exact List.pairwise_cons.2 ⟨fun d hd => by simpa [heq] using hc.1 d hd, hc.2⟩
      · rename_i hnlt hne
        refine List.pairwise_cons.2 ⟨fun d hd => ?_, ih hc.2⟩
        rcases Memory.mem_write hd with hd | hd
        · show c.1 < d.1; omega
        · exact hc.1 d hd

/-- Storing bytes keeps the canonical form. -/
theorem Memory.writeBytes_wf {m : Memory} (h : m.wf) (a : Nat) (l : List Byte) : (m.writeBytes a l).wf := by
  induction l generalizing m a with
  | nil => exact h
  | cons b rest ih => exact ih (Memory.write_wf h a b) (a + 1)

/-- The addresses of a memory after storing bytes are those before it and those stored to. -/
theorem Memory.mem_writeBytes {m : Memory} {a : Nat} {l : List Byte} {c : Host.Cell} (h : c ∈ m.writeBytes a l) :
    (a ≤ c.1 ∧ c.1 < a + l.length) ∨ c ∈ m := by
  induction l generalizing m a with
  | nil => exact .inr h
  | cons b rest ih =>
    rcases ih h with h | h
    · left; simp only [List.length_cons]; omega
    · rcases Memory.mem_write h with h | h
      · left; simp only [List.length_cons]; omega
      · exact .inr h

/-- The reset memory is canonical. -/
theorem reset_memory_wf : State.reset.mem.wf := List.Pairwise.nil

/-- Reading the address just written. -/
@[simp] theorem Memory.read_write_same (m : Memory) (a : Nat) (b : Byte) : (m.write a b).read a = some b := by
  induction m with
  | nil => simp [Memory.write, Memory.read]
  | cons c rest ih =>
    simp only [Memory.write]
    split
    · simp [Memory.read]
    · split
      · simp [Memory.read]
      · rename_i h1 h2
        simp [Memory.read, h1, h2, ih]

/-- Reading any other address. -/
theorem Memory.read_write_other {m : Memory} {a a' : Nat} {b : Byte} (h : a' ≠ a) : (m.write a b).read a' = m.read a' := by
  induction m with
  | nil => simp [Memory.write, Memory.read, h]
  | cons c rest ih =>
    simp only [Memory.write]
    split
    · rename_i h1
      by_cases h2 : a' < a
      · have h3 : a' ≠ c.1 := by omega
        have h4 : a' < c.1 := by omega
        simp [Memory.read, h, h2, h3, h4]
      · simp [Memory.read, h, h2]
    · split
      · rename_i h1 h2
        simp [Memory.read, h, ← h2]
      · simp only [Memory.read, ih]

/-- Storing bytes leaves every other address alone. -/
theorem Memory.read_writeBytes_other {m : Memory} {a a' : Nat} {l : List Byte} (h : a' < a ∨ a + l.length ≤ a') :
    (m.writeBytes a l).read a' = m.read a' := by
  induction l generalizing m a with
  | nil => rfl
  | cons b rest ih =>
    simp only [List.length_cons] at h
    rw [Memory.writeBytes, ih (by omega), Memory.read_write_other (by omega)]

/-- Reading a stored byte. -/
theorem Memory.read_writeBytes_same {m : Memory} {a k : Nat} {l : List Byte} (h : k < l.length) :
    (m.writeBytes a l).read (a + k) = l[k]? := by
  induction l generalizing m a k with
  | nil => simp at h
  | cons b rest ih =>
    cases k with
    | zero => rw [Memory.writeBytes, Memory.read_writeBytes_other (by omega)]; simp
    | succ k =>
      rw [Memory.writeBytes, show a + (k + 1) = a + 1 + k by ring, ih (by simpa using h)]
      simp

/-- Reading bytes answers them exactly where each has a value. -/
theorem Memory.readBytes_ok_iff {m : Memory} {a n : Nat} {l : List Byte} :
    m.readBytes a n = .ok l ↔ l.length = n ∧ ∀ k < n, m.read (a + k) = l[k]? := by
  induction n generalizing a l with
  | zero =>
    simp only [Memory.readBytes, Except.ok.injEq, Nat.not_lt_zero, false_imp_iff, implies_true, and_true,
      List.length_eq_zero_iff]
    exact eq_comm
  | succ n ih =>
    constructor
    · intro h
      simp only [Memory.readBytes] at h
      split at h
      · cases h
      · rename_i b hb
        split at h
        · cases h
        · rename_i rest hrest
          cases h
          obtain ⟨hlen, hread⟩ := ih.1 hrest
          refine ⟨by simp [hlen], fun k hk => ?_⟩
          cases k with
          | zero => simpa using hb
          | succ k =>
            rw [show a + (k + 1) = a + 1 + k by ring, hread k (by omega)]
            simp
    · rintro ⟨hlen, hread⟩
      cases l with
      | nil => simp at hlen
      | cons b rest =>
        have h0 := hread 0 (by omega)
        have hrest : m.readBytes (a + 1) n = .ok rest := by
          refine ih.2 ⟨by simpa using hlen, fun k hk => ?_⟩
          have := hread (k + 1) (by omega)
          rw [show a + (k + 1) = a + 1 + k by ring] at this
          simpa using this
        simp only [Nat.add_zero, List.getElem?_cons_zero] at h0
        simp [Memory.readBytes, h0, hrest]

/-- Reading back the bytes just stored. -/
theorem Memory.readBytes_writeBytes (m : Memory) (a : Nat) (l : List Byte) :
    (m.writeBytes a l).readBytes a l.length = .ok l :=
  Memory.readBytes_ok_iff.2 ⟨rfl, fun _ hk => Memory.read_writeBytes_same hk⟩

end Sys2Proof.Machine
end

