-- ==== Sys2Proof/Laws/Exceptions.lean ====
section
/-! SUPPORT. Taking an exception (60_exceptions.md R262, R269): what it leaves alone, and the illegal-instruction exception. -/

namespace Sys2Proof.Machine

/-! ## What taking an exception leaves alone, under either policy -/

@[simp] theorem State.takeException_params (s : State) (c : Cause) (v : Word) : (s.takeException c v).params = s.params := by
  unfold State.takeException; split <;> rfl
@[simp] theorem State.takeException_x (s : State) (c : Cause) (v : Word) : (s.takeException c v).x = s.x := by
  unfold State.takeException; split <;> rfl
@[simp] theorem State.takeException_v (s : State) (c : Cause) (v : Word) : (s.takeException c v).v = s.v := by
  unfold State.takeException; split <;> rfl
@[simp] theorem State.takeException_vtype (s : State) (c : Cause) (v : Word) : (s.takeException c v).vtype = s.vtype := by
  unfold State.takeException; split <;> rfl
@[simp] theorem State.takeException_vl (s : State) (c : Cause) (v : Word) : (s.takeException c v).vl = s.vl := by
  unfold State.takeException; split <;> rfl
@[simp] theorem State.takeException_vstart (s : State) (c : Cause) (v : Word) : (s.takeException c v).vstart = s.vstart := by
  unfold State.takeException; split <;> rfl
@[simp] theorem State.takeException_frm (s : State) (c : Cause) (v : Word) : (s.takeException c v).frm = s.frm := by
  unfold State.takeException; split <;> rfl
@[simp] theorem State.takeException_fflags (s : State) (c : Cause) (v : Word) : (s.takeException c v).fflags = s.fflags := by
  unfold State.takeException; split <;> rfl
@[simp] theorem State.takeException_vxsat (s : State) (c : Cause) (v : Word) : (s.takeException c v).vxsat = s.vxsat := by
  unfold State.takeException; split <;> rfl
@[simp] theorem State.takeException_vxrm (s : State) (c : Cause) (v : Word) : (s.takeException c v).vxrm = s.vxrm := by
  unfold State.takeException; split <;> rfl
@[simp] theorem State.takeException_mem (s : State) (c : Cause) (v : Word) : (s.takeException c v).mem = s.mem := by
  unfold State.takeException; split <;> rfl
@[simp] theorem State.takeException_draws (s : State) (c : Cause) (v : Word) : (s.takeException c v).draws = s.draws := by
  unfold State.takeException; split <;> rfl

/-- Where the machine goes: it stays at the instruction, or enters at the base of `mtvec`. -/
theorem State.takeException_pc (s : State) (c : Cause) (v : Word) :
    (s.takeException c v).pc = s.pc ∨ (s.takeException c v).pc = truncX s.params s.trapBase := by
  unfold State.takeException; split
  · exact .inl rfl
  · exact .inr rfl

/-! ## The word at `pc` -/

/-- The word the machine would fetch is the one whose bytes memory holds. -/
theorem State.wordAtPc_eq_some {s : State} {w : Insn} (h : s.wordAtPc = some w) : holdsWord s w := by
  unfold State.wordAtPc at h
  rcases hb : s.mem.readBytes s.pc.toNat 4 with e | bytes
  · simp [hb] at h
  · rw [hb] at h
    obtain ⟨hl, hr⟩ := Memory.readBytes_ok_iff.1 hb
    obtain rfl := Option.some.inj h
    match bytes, hl with
    | [b0, b1, b2, b3], _ =>
      intro k hk
      rw [hr k hk]
      have hk' : k = 0 ∨ k = 1 ∨ k = 2 ∨ k = 3 := by omega
      rcases hk' with rfl | rfl | rfl | rfl <;> simp only [byteOf, natOfBytes] <;> simp <;>
        (apply BitVec.eq_of_toNat_eq; simp [BitVec.extractLsb'_toNat, Nat.shiftRight_eq_div_pow]; omega)

/-- The value an illegal-instruction exception records: 0, or the instruction word (60_exceptions.md R262). -/
theorem State.illegalValue_spec (s : State) :
    s.illegalValue = 0 ∨ ∃ w, holdsWord s w ∧ s.illegalValue.toNat = w.toNat := by
  unfold State.illegalValue
  rcases h : s.wordAtPc with _ | w
  · exact .inl rfl
  · simp only
    split
    · refine .inr ⟨w, State.wordAtPc_eq_some h, ?_⟩
      have hw := w.isLt
      simp only [truncX, BitVec.toNat_ofNat, BitVec.toNat_setWidth]
      cases s.params.xlen <;> simp [XLen.bits] <;> omega
    · exact .inl rfl

theorem State.raiseIllegal_takesIllegal (s : State) : takesIllegal s (.next s.raiseIllegal) :=
  ⟨s.illegalValue, s.illegalValue_spec, rfl⟩

/-- The illegal-instruction exception of one of the eleven, as the statements say it. -/
theorem State.raiseDotIllegal_takesDotIllegal (s : State) : takesDotIllegal s (.next s.raiseDotIllegal) :=
  State.raiseIllegal_takesIllegal { s with vstart := 0 }

/-! ## Illegal instructions -/

theorem not_enabled_iff (s : State) (present fp : Bool) :
    ¬ enabled s present fp
      ↔ present = false ∨ s.mstatus.vs = .off ∨ (fp = true ∧ s.mstatus.fs = .off) ∨ s.vill = true := by
  by_cases h1 : s.mstatus.vs = .off <;> by_cases h2 : s.mstatus.fs = .off <;> cases present <;> cases fp <;>
    simp [enabled, h1, h2]

theorem LongOp.illegalFor_iff (op : LongOp) (s : State) (vd vs2 vs1 : VReg) (masked : Bool) :
    illegalFor s (op.instr vd vs2 vs1 masked) ↔ ¬ enabled s (op.present s.params.ext) op.fp := by
  rw [not_enabled_iff]
  cases op <;> simp [illegalFor, extPresent, LongOp.instr, LongOp.present, LongOp.fp, usesVector, isFpForm, dependsOnVtype]

theorem BatchOp.illegalFor_iff (op : BatchOp) (s : State) (vd vs2 vs1 : VReg) (ci : Nat) (masked : Bool) :
    illegalFor s (op.instr vd vs2 vs1 ci masked) ↔ ¬ enabled s (op.present s.params.ext) op.fp := by
  rw [not_enabled_iff]
  cases op <;> simp [illegalFor, extPresent, BatchOp.instr, BatchOp.present, BatchOp.fp, usesVector, isFpForm,
    dependsOnVtype]

end Sys2Proof.Machine
end

