-- ==== Sys2Proof/Laws/Fetch.lean ====
section
/-! SUPPORT. Ranges of memory, the fetch, and what one step does. -/

namespace Sys2Proof.Machine

/-! ## Ranges -/

theorem inRegions_iff (rs : List Region) (a : Nat) :
    inRegions rs a = true ↔ ∃ r ∈ rs, r.base ≤ a ∧ a < r.base + r.size := by
  simp [inRegions, regionHolds]

theorem inText_iff (p : Params) (a n : Nat) :
    inText p a n = true ↔ ∀ k < n, ∃ r ∈ p.text, r.base ≤ a + k ∧ a + k < r.base + r.size := by
  simp [inText, inRegions_iff]

theorem inLaunch_iff (p : Params) (a n : Nat) : inLaunch p a n = true ↔ inMemory p a n := by
  simp only [inLaunch, List.all_eq_true, List.mem_range, Bool.or_eq_true, inRegions_iff, inMemory, List.mem_append]
  refine forall₂_congr fun k _ => ⟨?_, ?_⟩
  · rintro (⟨r, hr, h⟩ | ⟨r, hr, h⟩)
    · exact ⟨r, .inl hr, h⟩
    · exact ⟨r, .inr hr, h⟩
  · rintro ⟨r, hr | hr, h⟩
    · exact .inl ⟨r, hr, h⟩
    · exact .inr ⟨r, hr, h⟩

theorem touchesText_iff (p : Params) (a n : Nat) : touchesText p a n = true ↔ meetsText p a n := by
  simp [touchesText, meetsText, inRegions_iff]

/-! ## Words in memory -/

/-- Joining the bytes of a word. -/
theorem insnOfBytes_of_byteOf (w : Insn) : insnOfBytes (byteOf w 0) (byteOf w 1) (byteOf w 2) (byteOf w 3) = w := by
  apply BitVec.eq_of_toNat_eq
  have := w.isLt
  simp only [insnOfBytes, byteOf, BitVec.extractLsb'_toNat, BitVec.toNat_ofNat, Nat.shiftRight_eq_div_pow]
  omega

/-- Reading the four bytes of a word. -/
theorem readBytes_of_holdsWord {s : State} {w : Insn} (h : holdsWord s w) :
    s.mem.readBytes s.pc.toNat 4 = .ok [byteOf w 0, byteOf w 1, byteOf w 2, byteOf w 3] := by
  refine Memory.readBytes_ok_iff.2 ⟨rfl, fun k hk => ?_⟩
  rw [h k hk]
  interval_cases k <;> rfl

/-- Decoding four bytes and more. -/
theorem decodeBytes_cons (p : Params) (b0 b1 b2 b3 : Byte) (rest : List Byte) :
    decodeBytes p (b0 :: b1 :: b2 :: b3 :: rest) = (decode p (insnOfBytes b0 b1 b2 b3)).map fun i => (i, rest) := rfl

/-- Decoding the four bytes of a word. The words are compared as variables, since the kernel cannot run the decoder on an open
term. -/
theorem decodeBytes_word (p : Params) (w : Insn) :
    decodeBytes p [byteOf w 0, byteOf w 1, byteOf w 2, byteOf w 3] = (decode p w).map fun i => (i, []) := by
  have eq {v v' : Insn} (h : v = v') :
      (decode p v).map (fun i => (i, ([] : List Byte))) = (decode p v').map fun i => (i, []) := by rw [h]
  exact (decodeBytes_cons ..).trans (eq (insnOfBytes_of_byteOf w))

/-- What decoding a word makes of a fetch. -/
def fetchedOf : Except DecodeError Instr → Fetched
  | .ok i => .instr i
  | .error _ => .invalid

/-- The fetch, from the outcome of decoding the bytes at `pc`. -/
theorem State.fetch_of_bytes {s : State} {bytes : List Byte} {d : Except DecodeError Instr} (hal : s.pc.toNat % 4 = 0)
    (ht : inText s.params s.pc.toNat 4 = true) (hb : s.mem.readBytes s.pc.toNat 4 = .ok bytes)
    (hd : decodeBytes s.params bytes = d.map fun i => (i, [])) : s.fetch = fetchedOf d := by
  simp only [State.fetch, hal, ne_eq, not_true_eq_false, if_false, ht, if_true, hb, hd]
  cases d <;> rfl

/-- The fetch of a word that stands in the program text. -/
theorem State.fetch_of_fetches {s : State} {w : Insn} (h : fetches s w) : s.fetch = fetchedOf (decode s.params w) :=
  State.fetch_of_bytes h.2.2.1 ((inText_iff _ _ _).2 h.2.2.2.1) (readBytes_of_holdsWord h.2.2.2.2) (decodeBytes_word _ _)

/-- A step at a fetched word. -/
theorem step_of_fetches {s : State} {w : Insn} (h : fetches s w) :
    step s = match decode s.params w with
      | .ok i => exec i s
      | .error _ => .next s.raiseIllegal := by
  have hend : s.atEnd = false := by simpa [State.atEnd] using h.2.1
  unfold step
  rw [h.1, State.fetch_of_fetches h, hend]
  cases decode s.params w <;> rfl

/-- What one step can do: stop with the record, stay at the end, run an instruction, or raise an exception of the fetch. -/
theorem step_cases (s : State) :
    (∃ record, s.stopped = some record ∧ step s = .fault (.exception record))
      ∨ (s.stopped = none ∧ s.params.endPc = some s.pc ∧ step s = .next s)
      ∨ (s.stopped = none ∧ (∃ i, step s = exec i s))
      ∨ (s.stopped = none ∧ (∃ cause value, step s = .next (s.takeException cause value)))
      ∨ (s.stopped = none ∧ ∃ a, step s = .fault (.unwrittenMemory a)) := by
  unfold step
  cases hs : s.stopped with
  | some record => exact .inl ⟨record, rfl, rfl⟩
  | none =>
    by_cases he : s.atEnd = true
    · refine .inr (.inl ⟨rfl, ?_, by simp [he]⟩)
      simpa [State.atEnd] using he
    · simp only [he]
      cases s.fetch with
      | instr i => exact .inr (.inr (.inl ⟨trivial, i, rfl⟩))
      | trap cause value => exact .inr (.inr (.inr (.inl ⟨trivial, cause, value, rfl⟩)))
      | invalid => exact .inr (.inr (.inr (.inl ⟨trivial, .illegalInsn, s.illegalValue, rfl⟩)))
      | unwritten a => exact .inr (.inr (.inr (.inr ⟨trivial, a, rfl⟩)))

end Sys2Proof.Machine
end

