-- ==== Sys2Proof/Laws/Transfer.lean ====
section
/-! SUPPORT. Vector loads and stores element by element (43_host_subset.md R247). -/

namespace Sys2Proof.Machine

/-! ## One element -/

/-- The address of an element, as the statements write it. -/
theorem State.elemAddr_toNat (s : State) (rs1 : XReg) (eew i : Nat) :
    (s.elemAddr rs1 eew i).toNat = elemAddress s rs1 eew i := by
  unfold State.elemAddr truncX elemAddress
  rw [BitVec.toNat_ofNat, BitVec.toNat_add, BitVec.toNat_ofNat, Nat.add_mod_mod]
  apply Nat.mod_eq_of_lt
  have h : 2 ^ s.params.xlen.bits ≤ 2 ^ 64 := Nat.pow_le_pow_right (by norm_num) (by cases s.params.xlen <;> decide)
  exact lt_of_lt_of_le (Nat.mod_lt _ (Nat.two_pow_pos _)) h

theorem State.elemAddr_eq (s : State) (rs1 : XReg) (eew i : Nat) :
    s.elemAddr rs1 eew i = BitVec.ofNat 64 (elemAddress s rs1 eew i) := by
  rw [← State.elemAddr_toNat, BitVec.ofNat_toNat, BitVec.setWidth_eq]

/-- Whether an element takes part. -/
theorem State.active_iff (s : State) (masked : Bool) (i : Nat) :
    s.active masked i = true ↔ (masked = true → (s.vreg 0).testBit i = true) := by
  cases masked <;> simp [State.active, State.maskBit]

/-- Reading bytes fails at the lowest address without a value. -/
theorem Memory.readBytes_error_iff {m : Memory} {a n b : Nat} :
    m.readBytes a n = .error b ↔ a ≤ b ∧ b < a + n ∧ m.read b = none ∧ ∀ c, a ≤ c → c < b → m.read c ≠ none := by
  induction n generalizing a with
  | zero => simp only [Memory.readBytes]; constructor
            · intro h; cases h
            · rintro ⟨h1, h2, -⟩; omega
  | succ n ih =>
    simp only [Memory.readBytes]
    cases ha : m.read a with
    | none =>
      simp only [Except.error.injEq]
      constructor
      · rintro rfl; exact ⟨le_rfl, by omega, ha, fun c h1 h2 => by omega⟩
      · rintro ⟨h1, h2, h3, h4⟩
        by_contra hne
        exact h4 a le_rfl (by omega) ha
    | some x =>
      have key : m.readBytes (a + 1) n = .error b ↔ a ≤ b ∧ b < a + (n + 1) ∧ m.read b = none
          ∧ ∀ c, a ≤ c → c < b → m.read c ≠ none := by
        rw [ih]
        constructor
        · rintro ⟨h1, h2, h3, h4⟩
          refine ⟨by omega, by omega, h3, fun c hc hcb => ?_⟩
          by_cases hca : c = a
          · subst hca; simp [ha]
          · exact h4 c (by omega) hcb
        · rintro ⟨h1, h2, h3, h4⟩
          have hne : b ≠ a := fun h => by subst h; simp [ha] at h3
          exact ⟨by omega, by omega, h3, fun c hc hcb => h4 c (by omega) hcb⟩
      simp only []
      cases hr : m.readBytes (a + 1) n with
      | error e => rw [hr] at key; simpa using key
      | ok l => rw [hr] at key; simpa using key

/-- Bytes that all have values are read as some list. -/
theorem Memory.readBytes_of_written {m : Memory} {a n : Nat} (h : ∀ k < n, ∃ b, m.read (a + k) = some b) :
    ∃ l, m.readBytes a n = .ok l := by
  cases hr : m.readBytes a n with
  | ok l => exact ⟨l, rfl⟩
  | error b =>
    obtain ⟨h1, h2, h3, -⟩ := Memory.readBytes_error_iff.1 hr
    obtain ⟨x, hx⟩ := h (b - a) (by omega)
    rw [show a + (b - a) = b by omega, h3] at hx
    cases hx

/-- A byte of a little-endian number. -/
theorem natOfBytes_byte {l : List Byte} {k : Nat} (h : k < l.length) :
    natOfBytes l / 2 ^ (8 * k) % 2 ^ 8 = l[k].toNat := by
  induction l generalizing k with
  | nil => simp at h
  | cons b rest ih =>
    cases k with
    | zero =>
      have := b.isLt
      simp only [natOfBytes, Nat.mul_zero, pow_zero, Nat.div_one, List.getElem_cons_zero]
      omega
    | succ k =>
      have hb := b.isLt
      rw [natOfBytes, show 8 * (k + 1) = 8 + 8 * k by ring, pow_add, ← Nat.div_div_eq_div_mul,
        show (b.toNat + 2 ^ 8 * natOfBytes rest) / 2 ^ 8 = natOfBytes rest by omega, ih (by simpa using h)]
      simp

/-- The bytes of an element that was formed from bytes of memory. -/
theorem byteOf_natOfBytes {l : List Byte} {eew k : Nat} (hl : 8 * l.length = eew) (h : k < l.length) :
    byteOf (BitVec.ofNat eew (natOfBytes l)) k = l[k] := by
  apply BitVec.eq_of_toNat_eq
  rw [BitVec.extractLsb'_toNat, BitVec.toNat_ofNat, Nat.shiftRight_eq_div_pow, ← natOfBytes_byte h]
  apply Nat.eq_of_testBit_eq
  intro j
  rw [Nat.testBit_mod_two_pow, Nat.testBit_mod_two_pow, Nat.testBit_div_two_pow, Nat.testBit_div_two_pow,
    Nat.testBit_mod_two_pow]
  by_cases hj : j < 8
  · have : 8 * k + j < eew := by omega
    have h' : j + 8 * k < eew := by omega
    simp [hj, h']
  · simp [hj]

section Element

variable {s : State} {vd : VReg} {rs1 : XReg} {eew i : Nat} {masked : Bool}

/-- A masked-off element of a load follows the mask policy. -/
theorem loadElem_inactive (h : s.active masked i = false) :
    loadElem eew vd rs1 masked s i = .done (s.agnosticElem vd eew s.vma i) := by
  simp [loadElem, h]

/-- A loadable element is transferred, little-endian. -/
theorem loadElem_active (h8 : 8 ∣ eew) (h : s.active masked i = true) (hl : loadable s rs1 eew i) :
    ∃ w, loadElem eew vd rs1 masked s i = .done (s.setVelem vd eew i w)
      ∧ ∀ k < eew / 8, s.mem.read (elemAddress s rs1 eew i + k) = some (byteOf w k) := by
  obtain ⟨hal, hin, hw⟩ := hl
  obtain ⟨l, hr⟩ := Memory.readBytes_of_written hw
  refine ⟨BitVec.ofNat eew (natOfBytes l), ?_, fun k hk => ?_⟩
  · simp only [loadElem, h, if_true, State.elemAddr_toNat, hr]
    rw [if_neg (by simpa using hal), if_pos ((inLaunch_iff _ _ _).2 hin)]
  · obtain ⟨hlen, hread⟩ := Memory.readBytes_ok_iff.1 hr
    have hkl : k < l.length := by omega
    rw [hread k hk, byteOf_natOfBytes (by omega) hkl, List.getElem?_eq_getElem hkl]

/-- An element that is misaligned or outside launch memory raises its exception. -/
theorem loadElem_trap (h : s.active masked i = true)
    (hl : ¬(elemAligned s rs1 eew i ∧ inMemory s.params (elemAddress s rs1 eew i) (eew / 8))) :
    loadElem eew vd rs1 masked s i
      = .trap (if elemAligned s rs1 eew i then .loadAccess else .loadMisaligned)
          (BitVec.ofNat 64 (elemAddress s rs1 eew i)) := by
  rw [← State.elemAddr_eq]
  simp only [loadElem, h, if_true, State.elemAddr_toNat]
  by_cases hal : elemAddress s rs1 eew i % (eew / 8) = 0
  · have hin : inLaunch s.params (elemAddress s rs1 eew i) (eew / 8) = false := by
      rw [← Bool.not_eq_true, inLaunch_iff]; exact fun hin => hl ⟨hal, hin⟩
    simp [hal, hin]
  · simp [hal]

/-- An element with a byte that nothing has written stops. -/
theorem loadElem_unwritten (h : s.active masked i = true) (hal : elemAligned s rs1 eew i)
    (hin : inMemory s.params (elemAddress s rs1 eew i) (eew / 8)) (hw : ¬elemWritten s rs1 eew i) :
    ∃ a, inElement s rs1 eew i a ∧ s.mem.read a = none ∧ loadElem eew vd rs1 masked s i
      = .unwritten a (s.setVelem vd eew i (BitVec.ofNat eew (Config.unwrittenElem s.draws i))) := by
  cases hr : s.mem.readBytes (elemAddress s rs1 eew i) (eew / 8) with
  | ok l =>
    obtain ⟨hlen, hread⟩ := Memory.readBytes_ok_iff.1 hr
    refine absurd (fun k hk => ?_) hw
    have hkl : k < l.length := by omega
    exact ⟨l[k], by rw [hread k hk, List.getElem?_eq_getElem hkl]⟩
  | error a =>
    obtain ⟨h1, h2, h3, -⟩ := Memory.readBytes_error_iff.1 hr
    refine ⟨a, ⟨h1, h2⟩, h3, ?_⟩
    simp only [loadElem, h, if_true, State.elemAddr_toNat, hr]
    rw [if_neg (by simpa using hal), if_pos ((inLaunch_iff _ _ _).2 hin)]

/-- A masked-off element of a store stores nothing. -/
theorem storeElem_inactive (h : s.active masked i = false) : storeElem eew vd rs1 masked s i = .done s := by
  simp [storeElem, h]

/-- A storable element is stored. -/
theorem storeElem_active (h : s.active masked i = true) (hs : storable s rs1 eew i) :
    storeElem eew vd rs1 masked s i
      = .done { s with mem := s.mem.writeBytes (elemAddress s rs1 eew i) (bytesOfNat (eew / 8) (s.velem vd eew i).toNat) } := by
  obtain ⟨hal, hin, ht⟩ := hs
  have ht' : touchesText s.params (elemAddress s rs1 eew i) (eew / 8) = false := by
    rw [← Bool.not_eq_true, touchesText_iff]; exact ht
  simp only [storeElem, h, if_true, State.elemAddr_toNat]
  rw [if_neg (by simpa using hal), if_pos (by simp [(inLaunch_iff _ _ _).2 hin, ht'])]

/-- An element that cannot be stored raises its exception. -/
theorem storeElem_trap (h : s.active masked i = true) (hs : ¬storable s rs1 eew i) :
    storeElem eew vd rs1 masked s i
      = .trap (if elemAligned s rs1 eew i then .storeAccess else .storeMisaligned)
          (BitVec.ofNat 64 (elemAddress s rs1 eew i)) := by
  rw [← State.elemAddr_eq]
  simp only [storeElem, h, if_true, State.elemAddr_toNat]
  by_cases hal : elemAddress s rs1 eew i % (eew / 8) = 0
  · have hin : (inLaunch s.params (elemAddress s rs1 eew i) (eew / 8)
        && !touchesText s.params (elemAddress s rs1 eew i) (eew / 8)) = false := by
      rw [← Bool.not_eq_true]
      intro hin
      rw [Bool.and_eq_true, inLaunch_iff, Bool.not_eq_true', ← Bool.not_eq_true, touchesText_iff] at hin
      exact hs ⟨hal, hin.1, hin.2⟩
    simp [hal, hin]
  · simp [hal]

end Element

/-! ## A run of elements -/

/-- As long as each element is transferred, the transfer goes on with what it leaves. -/
theorem transferElems_range' {elem : State → Nat → ElemOutcome} {finish : State → State} {Q : Nat → State → Prop}
    {i m : Nat} (k : Nat) {s : State}
    (hstep : ∀ j s, i ≤ j → j < i + m → Q j s → ∃ s', elem s j = .done s' ∧ Q (j + 1) s') (h : Q i s) (hm : m ≤ k) :
    ∃ s', transferElems elem finish s (List.range' i k) = transferElems elem finish s' (List.range' (i + m) (k - m))
      ∧ Q (i + m) s' := by
  induction m generalizing i k s with
  | zero => exact ⟨s, by simp, h⟩
  | succ m ih =>
    obtain ⟨k, rfl⟩ : ∃ k', k = k' + 1 := ⟨k - 1, by omega⟩
    obtain ⟨s1, h1, hq1⟩ := hstep i s le_rfl (by omega) h
    obtain ⟨s2, h2, hq2⟩ := ih (i := i + 1) k (fun j s hj hj' => hstep j s (by omega) (by omega)) hq1 (by omega)
    refine ⟨s2, ?_, by rwa [show i + (m + 1) = i + 1 + m by ring]⟩
    rw [List.range'_succ, transferElems, h1, show i + (m + 1) = i + 1 + m by ring, show k + 1 - (m + 1) = k - m by omega]
    exact h2

/-- Where every element is transferred, the instruction ends. -/
theorem transferElems_all {elem : State → Nat → ElemOutcome} {finish : State → State} {Q : Nat → State → Prop}
    {i k : Nat} {s : State}
    (hstep : ∀ j s, i ≤ j → j < i + k → Q j s → ∃ s', elem s j = .done s' ∧ Q (j + 1) s') (h : Q i s) :
    ∃ s', transferElems elem finish s (List.range' i k) = .next (finish s') ∧ Q (i + k) s' := by
  obtain ⟨s', h1, h2⟩ := transferElems_range' (finish := finish) k hstep h le_rfl
  exact ⟨s', by rw [h1]; simp [transferElems], h2⟩

/-- The elements above one that raised an exception keep what each transfer of one of them keeps. -/
theorem overrunElems_keeps {elem : State → Nat → ElemOutcome} {P : State → Prop} {l : List Nat} {s : State}
    (hstep : ∀ s s' i, i ∈ l → P s → (elem s i = .done s' ∨ ∃ a, elem s i = .unwritten a s') → P s') (h : P s) :
    P (overrunElems elem s l) := by
  induction l generalizing s with
  | nil => exact h
  | cons i rest ih =>
    have hrest := fun s s' j hj => hstep s s' j (List.mem_cons_of_mem _ hj)
    unfold overrunElems
    split
    · rename_i s' _ he
      exact ih hrest (hstep s s' i (List.mem_cons_self ..) h (.inl he))
    · rename_i a drawn _ he
      exact ih hrest (hstep s drawn i (List.mem_cons_self ..) h (.inr ⟨a, he⟩))
    · exact ih hrest h

/-- What an exception at the next element leaves. -/
theorem transferElems_trap {elem : State → Nat → ElemOutcome} {finish : State → State} {s : State} {i k : Nat}
    {cause : Cause} {addr : Word} (hk : 0 < k) (h : elem s i = .trap cause addr) :
    transferElems elem finish s (List.range' i k)
      = .next (({ overrunElems elem s (List.range' (i + 1) (k - 1)) with
          vstart := BitVec.ofNat 64 i, draws := s.draws + 1 } : State).takeException cause addr) := by
  obtain ⟨k, rfl⟩ : ∃ k', k = k' + 1 := ⟨k - 1, by omega⟩
  rw [List.range'_succ, transferElems, h]
  rfl

/-- A byte that nothing has written stops the transfer. -/
theorem transferElems_unwritten {elem : State → Nat → ElemOutcome} {finish : State → State} {s drawn : State}
    {i k a : Nat} (hk : 0 < k) (h : elem s i = .unwritten a drawn) :
    transferElems elem finish s (List.range' i k) = .fault (.unwrittenMemory a) := by
  obtain ⟨k, rfl⟩ : ∃ k', k = k' + 1 := ⟨k - 1, by omega⟩
  rw [List.range'_succ, transferElems, h]

/-- What a transfer can come to. -/
theorem transferElems_cases {elem : State → Nat → ElemOutcome} {finish : State → State} {P : State → Prop} {l : List Nat}
    {s : State} (hstep : ∀ s s' i, P s → (elem s i = .done s' ∨ ∃ a, elem s i = .unwritten a s') → P s') (h : P s) :
    (∃ s', P s' ∧ transferElems elem finish s l = .next (finish s'))
      ∨ (∃ s' i n cause addr, P s' ∧ i ∈ l ∧ transferElems elem finish s l
          = .next (({ s' with vstart := BitVec.ofNat 64 i, draws := n } : State).takeException cause addr))
      ∨ ∃ a, transferElems elem finish s l = .fault (.unwrittenMemory a) := by
  induction l generalizing s with
  | nil => exact .inl ⟨s, h, rfl⟩
  | cons i rest ih =>
    unfold transferElems
    cases he : elem s i with
    | done s' =>
      rcases ih (hstep s s' i h (.inl he)) with h1 | ⟨s1, j, n, cause, addr, h1, h2, h3⟩ | h1
      · exact .inl h1
      · exact .inr (.inl ⟨s1, j, n, cause, addr, h1, List.mem_cons_of_mem _ h2, h3⟩)
      · exact .inr (.inr h1)
    | trap cause addr =>
      exact .inr (.inl ⟨_, i, _, cause, addr, overrunElems_keeps (fun s s' j _ => hstep s s' j) h, List.mem_cons_self .., rfl⟩)
    | unwritten a drawn => exact .inr (.inr ⟨a, rfl⟩)

end Sys2Proof.Machine
end

