-- ==== Sys2Proof/Laws/Integer.lean ====
section
/-! SUPPORT. XLEN-bit values and the integer registers (00_scope.md R8, R9). -/

namespace Sys2Proof.Machine

theorem XLen.two_pow_bits_le (p : Params) : 2 ^ p.xlen.bits ≤ 2 ^ 64 :=
  Nat.pow_le_pow_right (by norm_num) (by cases p.xlen <;> decide)

theorem XLen.two_pow_bits_dvd (p : Params) : 2 ^ p.xlen.bits ∣ 2 ^ 64 := Nat.pow_dvd_pow 2 (by cases p.xlen <;> decide)

theorem XLen.two_pow_bits_dvd_int (p : Params) : ((2 ^ p.xlen.bits : Nat) : Int) ∣ ((2 ^ 64 : Nat) : Int) := by
  exact_mod_cast XLen.two_pow_bits_dvd p

theorem truncX_toNat (p : Params) (w : Word) : (truncX p w).toNat = w.toNat % 2 ^ p.xlen.bits := by
  rw [truncX, BitVec.toNat_ofNat, Nat.mod_eq_of_lt]
  exact lt_of_lt_of_le (Nat.mod_lt _ (Nat.two_pow_pos _)) (XLen.two_pow_bits_le p)

theorem truncX_truncX (p : Params) (w : Word) : truncX p (truncX p w) = truncX p w := by
  apply BitVec.eq_of_toNat_eq; simp [truncX_toNat]

/-- A value that fits is its own truncation. -/
theorem truncX_of_fits {p : Params} {w : Word} (h : fitsX p w) : truncX p w = w := by
  apply BitVec.eq_of_toNat_eq; rw [truncX_toNat, Nat.mod_eq_of_lt h]

/-- Sign extension to XLEN bits is the signed value modulo `2 ^ XLEN` (00_scope.md R8). -/
theorem sextX_toNat (p : Params) {n : Nat} (hn : n ≤ 64) (w : BitVec n) :
    ((sextX p w).toNat : Int) = w.toInt % ((2 ^ p.xlen.bits : Nat) : Int) := by
  rw [sextX, truncX_toNat]
  push_cast
  have h := BitVec.toInt_signExtend_of_le (x := w) hn
  have h2 : (w.signExtend 64).toInt % ((2^64 : Nat) : Int) = ((w.signExtend 64).toNat : Int) % ((2^64:Nat):Int) := by
    rw [BitVec.toInt_eq_toNat_bmod, Int.bmod_emod]
  rw [← h]
  have := congrArg (fun z : Int => z % ((2 ^ p.xlen.bits : Nat) : Int)) h2
  simp only [Int.emod_emod_of_dvd _ (XLen.two_pow_bits_dvd_int p)] at this
  push_cast at this ⊢
  exact this.symm

theorem State.writeX_eq (s : State) (rd : XReg) (w : Word) : s.writeX rd w = { s with x := (s.writeX rd w).x } := by
  unfold State.writeX; split <;> rfl

/-- Reading a register after writing one (00_scope.md R9, 10_state.md R21). -/
theorem State.readX_writeX (s : State) (rd r : XReg) (w : Word) :
    (s.writeX rd w).readX r = if r = rd ∧ rd ≠ 0 then truncX s.params w else s.readX r := by
  unfold State.writeX State.readX
  by_cases h0 : rd = 0
  · simp [h0]
  · by_cases hr : r = rd
    · subst hr; simp [h0, truncX_truncX, Vector.get]
    · by_cases hr0 : r = 0
      · subst hr0; simp [h0, Ne.symm h0]
      · have : (r : Nat) ≠ rd := fun h => hr (Fin.ext h)
        simp [h0, hr, hr0, Vector.get]
        rw [Array.getElem_set_ne _ _ (Ne.symm this)]; rfl

/-- Going to the next instruction (10_state.md R24). -/
theorem State.advance_eq (s : State) : s.advance = { s with pc := nextPc s } := by
  simp [State.advance, State.setPc, truncX, nextPc]

end Sys2Proof.Machine
end

