-- ==== Sys2Proof/Laws/HostVector.lean ====
section
/-! SUPPORT. Vector configuration, register groups and the vector instructions of the host subset (43_host_subset.md R238 to
R247). -/

namespace Sys2Proof.Machine

/-! ## `vsetvli` -/

/-- What well-formed parameters bound. -/
theorem Params.wf_bounds {p : Params} (h : p.wf = true) :
    5 ≤ p.vlenLog2 ∧ p.vlenLog2 < p.xlen.bits ∧ 32 ≤ p.elen ∧ p.elen ≤ p.vlen
      ∧ 8 ≤ p.altfmtBit ∧ p.altfmtBit ≤ 10 := by
  simp [Params.wf] at h; tauto

/-- VLMAX is at most VLEN. -/
theorem vlmaxOf_le (p : Params) (w : Word) : vlmaxOf p w ≤ p.vlen := by
  unfold vlmaxOf
  have h1 : lmul8Of w ≤ 64 := by
    rcases lmul8Of_cases w with h | ⟨-, k, hk, h⟩
    · omega
    · rw [h]; exact (Nat.pow_le_pow_right (by norm_num) hk).trans (by norm_num : 2 ^ 6 ≤ 64)
  have h2 : 8 ≤ sewOf w := by unfold sewOf; have := Nat.two_pow_pos (vsewOf w); omega
  calc lmul8Of w * p.vlen / (8 * sewOf w) ≤ 64 * p.vlen / (8 * 8) :=
        le_trans (Nat.div_le_div_right (Nat.mul_le_mul_right _ h1)) (Nat.div_le_div_left (by omega) (by norm_num))
    _ = p.vlen := by omega

theorem Params.vlen_lt {p : Params} (h : p.wf = true) : p.vlen < 2 ^ p.xlen.bits :=
  Nat.pow_lt_pow_right (by norm_num) (Params.wf_bounds h).2.1

/-- The new `vl` is at most VLMAX (43_host_subset.md R238). -/
theorem newVl_le (avl vlmax : Nat) : newVl avl vlmax ≤ vlmax := by
  unfold newVl vsetvlPolicy; split_ifs <;> omega

/-- The new `vl` is at least half of AVL, below twice VLMAX (43_host_subset.md R238). -/
theorem newVl_ge {avl vlmax : Nat} (h : avl < 2 * vlmax) : (avl + 1) / 2 ≤ newVl avl vlmax := by
  unfold newVl vsetvlPolicy; split_ifs <;> omega

theorem ofNat_vl_toNat {p : Params} (h : p.wf = true) {n : Nat} (hn : n ≤ p.vlen) : (BitVec.ofNat 64 n).toNat = n := by
  rw [BitVec.toNat_ofNat]; apply Nat.mod_eq_of_lt
  have := Params.vlen_lt h; have := XLen.two_pow_bits_le p; omega

theorem setWidth_zimm_toNat (zimm : BitVec 11) : (zimm.setWidth 64 : Word).toNat = zimm.toNat := by
  have := zimm.isLt
  rw [BitVec.toNat_setWidth]; apply Nat.mod_eq_of_lt; omega

/-- `Supported` on the fields of the immediate. -/
theorem supportedVtype_iff (p : Params) (zimm : BitVec 11) : 
    supportedVtype p (zimm.setWidth 64) = true ↔ supportedSetting p zimm := by
  have hb : (zimm.setWidth 64 : Word).getLsbD p.altfmtBit = zimm.getLsbD p.altfmtBit := by
    rw [BitVec.getLsbD_setWidth]
    by_cases h : p.altfmtBit < 64
    · simp [h]
    · simp [h]; rw [BitVec.getLsbD_of_ge]; omega
  unfold supportedVtype supportedSetting lmul8Of sewOf
  simp only [hb, vsewOf, vlmulOf, setWidth_zimm_toNat]
  have h16 : (8 * 2 ^ bitField zimm.toNat 3 3 = 8 ∨ 8 * 2 ^ bitField zimm.toNat 3 3 = 16)
      ↔ bitField zimm.toNat 3 3 ≤ 1 := by
    have h8 : bitField zimm.toNat 3 3 < 8 := Nat.mod_lt _ (by norm_num)
    generalize bitField zimm.toNat 3 3 = e at *
    interval_cases e <;> simp
  have h8 : bitField zimm.toNat 0 3 < 8 := Nat.mod_lt _ (by norm_num)
  generalize bitField zimm.toNat 0 3 = m at *
  generalize 8 * 2 ^ bitField zimm.toNat 3 3 = sew at *
  generalize bitField zimm.toNat 3 3 = e at *
  simp only [Bool.and_eq_true, Bool.or_eq_true, decide_eq_true_eq, Bool.not_eq_true', h16]
  interval_cases m <;> cases zimm.getLsbD p.altfmtBit <;> simp <;> omega

/-- VLMAX of the setting of an immediate. -/
theorem vlmaxOf_eq_settingVlmax (p : Params) (zimm : BitVec 11) (h : bitField zimm.toNat 0 3 ≠ 4) :
    vlmaxOf p (zimm.setWidth 64) = settingVlmax p zimm := by
  unfold vlmaxOf settingVlmax lmul8Of sewOf
  simp only [vsewOf, vlmulOf, setWidth_zimm_toNat]
  have h8 : bitField zimm.toNat 0 3 < 8 := Nat.mod_lt _ (by norm_num)
  have h8' : bitField zimm.toNat 3 3 < 8 := Nat.mod_lt _ (by norm_num)
  generalize bitField zimm.toNat 0 3 = m at *
  generalize bitField zimm.toNat 3 3 = e at *
  interval_cases m <;> interval_cases e <;> simp at h ⊢ <;> omega

/-- What writing a vector configuration changes. -/
theorem State.setVectorConfig_eq (s : State) (rd : XReg) (w : Word) (n : Nat) : s.setVectorConfig rd w n
    = { s with vtype := w, vl := BitVec.ofNat 64 n, vstart := 0, x := (s.setVectorConfig rd w n).x, pc := nextPc s } := by
  unfold State.setVectorConfig
  simp only [State.advance_eq]
  rw [State.writeX_eq]

theorem State.setVectorConfig_vtype (s : State) (rd : XReg) (w : Word) (n : Nat) :
    (s.setVectorConfig rd w n).vtype = w := by
  rw [State.setVectorConfig_eq]

theorem State.setVectorConfig_vl (s : State) (rd : XReg) (w : Word) (n : Nat) :
    (s.setVectorConfig rd w n).vl = BitVec.ofNat 64 n := by
  rw [State.setVectorConfig_eq]

/-- The integer registers after a vector configuration. -/
theorem State.setVectorConfig_readX {s : State} {n : Nat} (rd : XReg) (w : Word) (hw : s.params.wf = true)
    (hn : n ≤ s.params.vlen) (r : XReg) :
    (s.setVectorConfig rd w n).readX r = if r = rd ∧ rd ≠ 0 then BitVec.ofNat 64 n else s.readX r := by
  show (State.writeX { s with vtype := w, vl := BitVec.ofNat 64 n, vstart := 0 } rd (BitVec.ofNat 64 n)).readX r = _
  rw [State.readX_writeX]; split
  · apply truncX_of_fits
    unfold fitsX
    rw [ofNat_vl_toNat hw hn]
    exact lt_of_le_of_lt hn (Params.vlen_lt hw)
  · rfl

/-! ## Register groups -/

/-- The `vtype` of an unsupported setting has `vill` set. -/
theorem State.vill_of_villVtype {s : State} (h : s.vtype = villVtype s.params) : s.vill = true := by
  unfold State.vill villVtype at *; rw [h]; cases s.params.xlen <;> decide

/-- Under the invariant, where `vill` is clear, SEW divides VLEN. -/
theorem State.sew_dvd_vlen {s : State} (hinv : s.Inv) (hv : s.vill = false) : s.sew ∣ s.params.vlen := by
  unfold State.sew sewOf
  have : 8 * 2 ^ vsewOf s.vtype = 2 ^ (3 + vsewOf s.vtype) := by rw [pow_add]; norm_num
  rcases hinv.config with hc | hc
  · rw [State.vill_of_villVtype hc.1] at hv; cases hv
  · have h := hc.1
    have hp := hinv.params
    simp [Params.wf] at hp
    simp only [supportedVtype, Bool.and_eq_true, decide_eq_true_eq, sewOf] at h
    rw [this]
    apply Params.pow_dvd_vlen
    have h2 : 2 ^ (3 + vsewOf s.vtype) ≤ 2 ^ s.params.vlenLog2 := by
      rw [← this]; exact le_trans (of_decide_eq_true h.1.1.1.1.2) hp.1.1.1.1.1.1.2
    exact (Nat.pow_le_pow_iff_right (by norm_num)).1 h2

/-- The elements of a group of `e8` eighths of a register stand in that group, and all of it below register 32
(10_state.md R31 to R33). -/
theorem State.elemReg_in_group {s : State} {vd : VReg} {eew i e8 : Nat} (hd : eew ∣ s.params.vlen) (hp : 0 < eew)
    (hk : ∃ k ≤ 6, e8 = 2 ^ k) (hal : 8 < e8 → vd.val % (e8 / 8) = 0)
    (hi : i < max (s.params.vlen / eew) (e8 * s.params.vlen / (8 * eew))) :
    vd.val ≤ s.elemReg vd eew i ∧ s.elemReg vd eew i < vd.val + max 1 (e8 / 8) ∧ vd.val + max 1 (e8 / 8) ≤ 32 := by
  have hv := vd.isLt
  obtain ⟨q, hq⟩ := hd
  have hvl := s.params.vlen_pos
  have hq0 : 0 < q := Nat.pos_of_ne_zero fun h => by simp [h] at hq; omega
  have h1 : s.params.vlen / eew = q := by rw [hq]; exact Nat.mul_div_cancel_left _ hp
  have h2 : e8 * s.params.vlen / (8 * eew) = e8 * q / 8 := by
    rw [hq, show e8 * (eew * q) = eew * (e8 * q) by ring, show 8 * eew = eew * 8 by ring, Nat.mul_div_mul_left _ _ hp]
  have h3 : i * eew / s.params.vlen = i / q := by
    rw [hq, show i * eew = eew * i by ring, Nat.mul_div_mul_left _ _ hp]
  rw [h1, h2] at hi
  unfold State.elemReg
  rw [h3]
  have hdiv : i / q < max 1 (e8 / 8) := by
    rw [Nat.div_lt_iff_lt_mul hq0]
    obtain ⟨k, hk, rfl⟩ := hk
    interval_cases k <;> norm_num at hi ⊢ <;> omega
  obtain ⟨k, hk, rfl⟩ := hk
  refine ⟨Nat.le_add_right _ _, Nat.add_lt_add_left hdiv _, ?_⟩
  interval_cases k <;> norm_num at hal ⊢ <;> omega

/-- EMUL of a legal vector memory operand is a power of two (43_host_subset.md R247). -/
theorem emul8Of_eq_two_pow {s : State} {eew : Nat} {reg : VReg} {l m : Bool} (he : ∃ j, eew = 2 ^ j)
    (h : memRuns s eew reg l m) :
    ∃ k ≤ 6, emul8Of s eew = 2 ^ k := by
  obtain ⟨-, h1, h2, h3, h4, -⟩ := h
  obtain ⟨j, rfl⟩ := he
  rcases lmul8Of_cases s.vtype with h | ⟨-, k, hk, hl⟩
  · exact absurd h.1 h2
  have : emul8Of s (2 ^ j) = 2 ^ (j + k) / 2 ^ (3 + vsewOf s.vtype) := by
    unfold emul8Of State.lmul8 State.sew sewOf; rw [hl, pow_add, pow_add]; norm_num
  by_cases hle : 3 + vsewOf s.vtype ≤ j + k
  · rw [Nat.pow_div hle (by norm_num)] at this
    refine ⟨_, ?_, this⟩
    by_contra hc
    have : 2 ^ 7 ≤ 2 ^ (j + k - (3 + vsewOf s.vtype)) := Nat.pow_le_pow_right (by norm_num) (by omega)
    omega
  · rw [Nat.div_eq_of_lt (Nat.pow_lt_pow_right (by norm_num) (by omega))] at this
    omega

/-- `vl` is at most the elements of the group of a legal vector memory operand. -/
theorem State.vl_le_memElems {s : State} {eew : Nat} {reg : VReg} {l m : Bool} (hi : s.configWf) (he : ∃ j, eew = 2 ^ j)
    (h : memRuns s eew reg l m) :
    s.vl.toNat ≤ emul8Of s eew * s.params.vlen / (8 * eew) := by
  rcases hi with hi | ⟨-, hi⟩
  · simp [hi.2]
  refine hi.trans ?_
  obtain ⟨-, h1, h2, h3, h4, -⟩ := h
  obtain ⟨j, rfl⟩ := he
  rcases lmul8Of_cases s.vtype with h | ⟨-, k, hk, hl⟩
  · exact absurd h.1 h2
  unfold State.vlmax vlmaxOf emul8Of State.lmul8 State.sew at *
  have h8 : 0 < sewOf s.vtype := by unfold sewOf; positivity
  have hdvd : sewOf s.vtype ∣ 2 ^ j * lmul8Of s.vtype := by
    unfold sewOf at *; rw [hl] at h3 ⊢
    rw [show (8:Nat) = 2 ^ 3 by norm_num, ← pow_add, ← pow_add] at *
    apply Nat.pow_dvd_pow
    by_contra hc
    rw [Nat.div_eq_of_lt (Nat.pow_lt_pow_right (by norm_num) (by omega))] at h3
    omega
  obtain ⟨c, hc⟩ := hdvd
  rw [hc, Nat.mul_div_cancel_left _ h8]
  apply le_of_eq
  have hj : 0 < 2 ^ j := by positivity
  rw [← Nat.mul_div_mul_left _ _ hj, show 2 ^ j * (lmul8Of s.vtype * s.params.vlen) = sewOf s.vtype * (c * s.params.vlen) by
      rw [← mul_assoc, hc]; ring,
    show 2 ^ j * (8 * sewOf s.vtype) = sewOf s.vtype * (8 * 2 ^ j) by ring, Nat.mul_div_mul_left _ _ h8]

/-! ## What only writes vector registers -/

/-- Only vector registers differ. -/
abbrev OnlyV (s t : State) : Prop := t = { s with v := t.v }

theorem OnlyV.setVelem {s t : State} (h : OnlyV s t) (r eew i : Nat) (w : BitVec eew) :
    OnlyV s (t.setVelem r eew i w) := by
  rw [h]; rfl

theorem OnlyV.agnosticElem {s t : State} (h : OnlyV s t) (r eew : Nat) (ag : Bool) (i : Nat) :
    OnlyV s (t.agnosticElem r eew ag i) := by
  unfold State.agnosticElem; split
  · exact OnlyV.setVelem h ..
  · exact h

theorem OnlyV.agnosticElems {s t : State} (h : OnlyV s t) (r eew : Nat) (ag : Bool) (l : List Nat) :
    OnlyV s (t.agnosticElems r eew ag l) := by
  induction l generalizing t with
  | nil => exact h
  | cons i l ih => exact ih (OnlyV.agnosticElem h ..)

theorem OnlyV.fillElems {s t : State} (h : OnlyV s t) (r eew : Nat) (w : BitVec eew) (l : List Nat) :
    OnlyV s (t.fillElems r eew w l) := by
  induction l generalizing t with
  | nil => exact h
  | cons i l ih => exact ih (OnlyV.setVelem h ..)

/-! ## Loads and stores -/

theorem LoadOp.exec_eq (op : LoadOp) (s : State) (vd : VReg) (rs1 : XReg) (masked : Bool) :
    exec (op.instr vd rs1 masked) s = s.vectorLoad op.eew vd rs1 masked := by cases op <;> rfl

theorem LoadOp.eew_eq_two_pow (op : LoadOp) : ∃ j, op.eew = 2 ^ j := by
  cases op; exacts [⟨3, rfl⟩, ⟨4, rfl⟩, ⟨5, rfl⟩]

theorem LoadOp.eight_dvd_eew (op : LoadOp) : 8 ∣ op.eew := by cases op <;> decide

theorem LoadOp.eew_dvd_vlen (op : LoadOp) {p : Params} (h : 5 ≤ p.vlenLog2) : op.eew ∣ p.vlen := by
  cases op; exacts [Params.dvd_vlen_8 h, Params.dvd_vlen_16 h, Params.dvd_vlen_32 h]

theorem LoadOp.eew_pos (op : LoadOp) : 0 < op.eew := by cases op <;> decide

/-- A legal load is the transfer of its body elements. -/
theorem State.vectorLoad_of_runs {s : State} {eew : Nat} {vd : VReg} {rs1 : XReg} {masked : Bool}
    (hr : memRuns s eew vd true masked) :
    s.vectorLoad eew vd rs1 masked = transferElems (loadElem eew vd rs1 masked) (finishLoad eew vd) s s.bodyIndices := by
  unfold State.vectorLoad State.transferUnder; rw [(State.memLegal_legal_iff ..).2 hr]

/-- A legal store is the transfer of its body elements. -/
theorem State.vectorStore_of_runs {s : State} {eew : Nat} {vd : VReg} {rs1 : XReg} {masked : Bool}
    (hr : memRuns s eew vd false masked) :
    s.vectorStore eew vd rs1 masked = transferElems (storeElem eew vd rs1 masked) State.retireVector s s.bodyIndices := by
  unfold State.vectorStore State.transferUnder; rw [(State.memLegal_legal_iff ..).2 hr]

/-- The bytes of a legal word store are fewer than addresses. -/
theorem State.store_bytes_fit {s : State} {vs3 : VReg} {masked : Bool} (hinv : s.Inv) (hr : memRuns s 32 vs3 false masked) :
    4 * s.vl.toNat ≤ s.params.vlen ∧ s.params.vlen < 2 ^ s.params.xlen.bits := by
  have hvl := State.vl_le_memElems (eew := 32) hinv.config ⟨5, rfl⟩ hr
  have h64 := hr.2.2.2.2.1
  constructor
  · have : emul8Of s 32 * s.params.vlen / (8 * 32) ≤ 64 * s.params.vlen / (8 * 32) :=
      Nat.div_le_div_right (Nat.mul_le_mul_right _ h64)
    omega
  · have := hinv.params
    simp [Params.wf] at this
    exact Nat.pow_lt_pow_right (by norm_num) this.1.1.1.1.1.1.1.1.2

/-- Two aligned word elements that near do not overlap. -/
theorem elemAddress_apart {s : State} {rs1 : XReg} {i j : Nat} (hal : elemAligned s rs1 32 i) (hal' : elemAligned s rs1 32 j)
    (hij : i < j) (hj : 4 * j < 2 ^ s.params.xlen.bits) :
    elemAddress s rs1 32 i + 4 ≤ elemAddress s rs1 32 j ∨ elemAddress s rs1 32 j + 4 ≤ elemAddress s rs1 32 i := by
  have hne : elemAddress s rs1 32 i ≠ elemAddress s rs1 32 j := by
    unfold elemAddress at *
    cases h : s.params.xlen <;> rw [h] at hj <;> simp only [XLen.bits] at * <;> omega
  have h1 : elemAddress s rs1 32 i % 4 = 0 := hal
  have h2 : elemAddress s rs1 32 j % 4 = 0 := hal'
  omega

end Sys2Proof.Machine
end

