-- ==== Sys2Proof/Laws/PerInstr.lean ====
section
/-! SUPPORT. The family `RowMatches`, one lemma per constructor: a word encoded from a well-formed instruction that has a row
shows the row's `match` under its `mask` (30_encoding.md R85, 43_host_subset.md R233 to R246). -/

namespace Sys2Proof.Laws

open Sys2Proof.Machine

/-- The encoded word of a well-formed instruction has the pattern of its row. -/
def RowMatches.Statement (i : Instr) : Prop :=
  ∀ (p : Params) (w m k : Insn), i.wf = true → patternOf i = some (m, k) → encode p i = some w → w &&& k = m

/-- The statement for an instruction with a row, from the fixed fields of its word. -/
theorem rowMatches_of {i : Instr} {w' m' k' : Insn} (hp : patternOf i = some (m', k')) (he : ∀ p, encode p i = some w')
    (h : i.wf = true → w' &&& k' = m') : RowMatches.Statement i := by
  intro p w m k hwf hmk hw
  obtain ⟨rfl, rfl⟩ : m' = m ∧ k' = k := by simpa [hp] using hmk
  obtain rfl : w' = w := by simpa [he p] using hw
  exact h hwf

/-- An instruction without a row. -/
theorem rowMatches_none {i : Instr} (hp : patternOf i = none) : RowMatches.Statement i :=
  fun _ _ _ _ _ hmk _ => absurd (hp.symm.trans hmk) (by simp)

/-- Masking a word whose fields are known. -/
theorem and_eq_of_fields {w m k : Insn} (fs : List FixedField) (hk : fs.foldr (fun f k => f.bits ||| k) 0 = k.toNat)
    (hm : fs.foldr (fun f k => f.value * 2 ^ f.lsb ||| k) 0 = m.toNat)
    (h : ∀ f ∈ fs, field w f.lsb f.width = f.value) : w &&& k = m :=
  BitVec.eq_of_toNat_eq (by rw [BitVec.toNat_and, ← hk, ← hm]; exact and_mask_of_fields h)

theorem vmBitOf_le (masked : Bool) : vmBitOf masked ≤ 1 := by cases masked <;> decide

/-- The fixed fields of a word of format VCI. -/
theorem encodeVci_fields {funct6 funct3 : Nat} (h6 : funct6 < 64) (h3 : funct3 < 8) (vd vs2 vs1 : VReg) {ci : Nat}
    (hci : ci ≤ 56) (masked : Bool) :
    ∀ f ∈ [(⟨0, 7, 0x77⟩ : FixedField), ⟨12, 3, funct3⟩, ⟨26, 6, funct6⟩],
      field (encodeVci funct6 funct3 vd vs2 vs1 ci masked) f.lsb f.width = f.value := by
  have := vmBitOf_le masked
  have := vd.isLt; have := vs2.isLt; have := vs1.isLt
  simp only [List.forall_mem_cons, field, encodeVci, BitVec.toNat_ofNat]
  refine ⟨by omega, by omega, by omega, by simp⟩

/-- The fixed fields of a unit-stride load or store. -/
theorem encodeUnitStride_fields {opcode width : Nat} (ho : opcode < 128) (hw : width < 8) (vd : VReg) (rs1 : XReg)
    (masked : Bool) :
    ∀ f ∈ [(⟨0, 7, opcode⟩ : FixedField), ⟨12, 3, width⟩, ⟨20, 5, 0⟩, ⟨26, 6, 0⟩],
      field (encodeUnitStride opcode width vd rs1 masked) f.lsb f.width = f.value := by
  have := vmBitOf_le masked
  have := vd.isLt; have := rs1.isLt
  simp only [List.forall_mem_cons, field, encodeUnitStride, BitVec.toNat_ofNat]
  refine ⟨by omega, by omega, by omega, by omega, by simp⟩

/-- The fixed fields of an R-type word. -/
theorem encodeR_fields {funct7 funct3 opcode : Nat} (h7 : funct7 < 128) (h3 : funct3 < 8) (ho : opcode < 128)
    (rd rs1 rs2 : XReg) :
    ∀ f ∈ [(⟨0, 7, opcode⟩ : FixedField), ⟨12, 3, funct3⟩, ⟨25, 7, funct7⟩],
      field (encodeR funct7 funct3 opcode rd rs1 rs2) f.lsb f.width = f.value := by
  have := rd.isLt; have := rs1.isLt; have := rs2.isLt
  simp only [List.forall_mem_cons, field, encodeR, BitVec.toNat_ofNat]
  refine ⟨by omega, by omega, by omega, by simp⟩

theorem batch_ci_le {vs2 : VReg} {ci : Nat} (h : batchOperandsWf vs2 ci = true) : ci ≤ 56 := by
  simp [batchOperandsWf] at h; exact h.2

theorem RowMatches.vqmmaccU (vd vs2 vs1 : VReg) (ci : Nat) (masked : Bool) : RowMatches.Statement (.vqmmaccU vd vs2 vs1 ci masked) :=
  rowMatches_of rfl (fun _ => rfl) fun h => and_eq_of_fields _ (by decide) (by decide)
    (encodeVci_fields (funct6 := 46) (funct3 := 0) (by decide) (by decide) vd vs2 vs1 (batch_ci_le h) masked)

theorem RowMatches.vqmmaccS (vd vs2 vs1 : VReg) (ci : Nat) (masked : Bool) : RowMatches.Statement (.vqmmaccS vd vs2 vs1 ci masked) :=
  rowMatches_of rfl (fun _ => rfl) fun h => and_eq_of_fields _ (by decide) (by decide)
    (encodeVci_fields (funct6 := 47) (funct3 := 0) (by decide) (by decide) vd vs2 vs1 (batch_ci_le h) masked)

theorem RowMatches.vfwmmacc (vd vs2 vs1 : VReg) (ci : Nat) (masked : Bool) : RowMatches.Statement (.vfwmmacc vd vs2 vs1 ci masked) :=
  rowMatches_of rfl (fun _ => rfl) fun h => and_eq_of_fields _ (by decide) (by decide)
    (encodeVci_fields (funct6 := 44) (funct3 := 1) (by decide) (by decide) vd vs2 vs1 (batch_ci_le h) masked)

theorem RowMatches.vfqmmacc (vd vs2 vs1 : VReg) (ci : Nat) (masked : Bool) : RowMatches.Statement (.vfqmmacc vd vs2 vs1 ci masked) :=
  rowMatches_of rfl (fun _ => rfl) fun h => and_eq_of_fields _ (by decide) (by decide)
    (encodeVci_fields (funct6 := 46) (funct3 := 1) (by decide) (by decide) vd vs2 vs1 (batch_ci_le h) masked)

theorem RowMatches.vfqmmaccAlt (vd vs2 vs1 : VReg) (ci : Nat) (masked : Bool) : RowMatches.Statement (.vfqmmaccAlt vd vs2 vs1 ci masked) :=
  rowMatches_of rfl (fun _ => rfl) fun h => and_eq_of_fields _ (by decide) (by decide)
    (encodeVci_fields (funct6 := 47) (funct3 := 1) (by decide) (by decide) vd vs2 vs1 (batch_ci_le h) masked)

theorem RowMatches.vfmmacc (vd vs2 vs1 : VReg) (ci : Nat) (masked : Bool) : RowMatches.Statement (.vfmmacc vd vs2 vs1 ci masked) :=
  rowMatches_of rfl (fun _ => rfl) fun h => and_eq_of_fields _ (by decide) (by decide)
    (encodeVci_fields (funct6 := 43) (funct3 := 1) (by decide) (by decide) vd vs2 vs1 (batch_ci_le h) masked)

theorem RowMatches.vqldotu (vd vs2 vs1 : VReg) (masked : Bool) : RowMatches.Statement (.vqldotu vd vs2 vs1 masked) :=
  rowMatches_none rfl

theorem RowMatches.vqldots (vd vs2 vs1 : VReg) (masked : Bool) : RowMatches.Statement (.vqldots vd vs2 vs1 masked) :=
  rowMatches_none rfl

theorem RowMatches.vfwldot (vd vs2 vs1 : VReg) (masked : Bool) : RowMatches.Statement (.vfwldot vd vs2 vs1 masked) :=
  rowMatches_none rfl

theorem RowMatches.vfqldot (vd vs2 vs1 : VReg) (masked : Bool) : RowMatches.Statement (.vfqldot vd vs2 vs1 masked) :=
  rowMatches_none rfl

theorem RowMatches.vfqldotAlt (vd vs2 vs1 : VReg) (masked : Bool) : RowMatches.Statement (.vfqldotAlt vd vs2 vs1 masked) :=
  rowMatches_none rfl

theorem RowMatches.add (rd rs1 rs2 : XReg) : RowMatches.Statement (.add rd rs1 rs2) :=
  rowMatches_of rfl (fun _ => rfl) fun _ => and_eq_of_fields _ (by decide) (by decide)
    (encodeR_fields (funct7 := 0) (funct3 := 0) (opcode := 0x33) (by decide) (by decide) (by decide) rd rs1 rs2)

theorem RowMatches.sub (rd rs1 rs2 : XReg) : RowMatches.Statement (.sub rd rs1 rs2) :=
  rowMatches_of rfl (fun _ => rfl) fun _ => and_eq_of_fields _ (by decide) (by decide)
    (encodeR_fields (funct7 := 32) (funct3 := 0) (opcode := 0x33) (by decide) (by decide) (by decide) rd rs1 rs2)

theorem RowMatches.addi (rd rs1 : XReg) (imm : BitVec 12) : RowMatches.Statement (.addi rd rs1 imm) :=
  rowMatches_of rfl (fun _ => rfl) fun _ => and_eq_of_fields [⟨0, 7, 0x13⟩, ⟨12, 3, 0⟩] (by decide) (by decide) (by
    have := rd.isLt; have := rs1.isLt; have := imm.isLt
    simp only [List.forall_mem_cons, field, BitVec.toNat_ofNat]
    refine ⟨by omega, by omega, by simp⟩)

theorem RowMatches.bne (rs1 rs2 : XReg) (offset : BitVec 13) : RowMatches.Statement (.bne rs1 rs2 offset) :=
  rowMatches_of rfl (fun _ => rfl) fun _ => and_eq_of_fields [⟨0, 7, 0x63⟩, ⟨12, 3, 1⟩] (by decide) (by decide) (by
    have := rs1.isLt; have := rs2.isLt
    have h1 : offset.toNat / 4096 < 2 := by have := offset.isLt; omega
    have h2 : offset.toNat / 32 % 64 < 64 := Nat.mod_lt _ (by decide)
    have h3 : offset.toNat / 2 % 16 < 16 := Nat.mod_lt _ (by decide)
    have h4 : offset.toNat / 2048 % 2 < 2 := Nat.mod_lt _ (by decide)
    revert h1 h2 h3 h4
    generalize offset.toNat / 4096 = b12, offset.toNat / 32 % 64 = b10, offset.toNat / 2 % 16 = b4,
      offset.toNat / 2048 % 2 = b11
    intro h1 h2 h3 h4
    simp only [List.forall_mem_cons, field, BitVec.toNat_ofNat]
    refine ⟨by omega, by omega, by simp⟩)

theorem RowMatches.vsetvli (rd rs1 : XReg) (zimm : BitVec 11) : RowMatches.Statement (.vsetvli rd rs1 zimm) :=
  rowMatches_of rfl (fun _ => rfl) fun _ => and_eq_of_fields [⟨0, 7, 0x57⟩, ⟨12, 3, 7⟩, ⟨31, 1, 0⟩] (by decide) (by decide) (by
    have := rd.isLt; have := rs1.isLt; have := zimm.isLt
    simp only [List.forall_mem_cons, field, BitVec.toNat_ofNat]
    refine ⟨by omega, by omega, by omega, by simp⟩)

theorem RowMatches.vmvVI (vd : VReg) (simm5 : BitVec 5) : RowMatches.Statement (.vmvVI vd simm5) :=
  rowMatches_of rfl (fun _ => rfl) fun _ => and_eq_of_fields [⟨0, 7, 0x57⟩, ⟨12, 3, 3⟩, ⟨20, 5, 0⟩, ⟨25, 1, 1⟩, ⟨26, 6, 0b010111⟩] (by decide) (by decide) (by
    have := vd.isLt; have := simm5.isLt
    simp only [List.forall_mem_cons, field, BitVec.toNat_ofNat]
    refine ⟨by omega, by omega, by omega, by omega, by omega, by simp⟩)

theorem RowMatches.vle8 (vd : VReg) (rs1 : XReg) (masked : Bool) : RowMatches.Statement (.vle8 vd rs1 masked) :=
  rowMatches_of rfl (fun _ => rfl) fun _ => and_eq_of_fields _ (by decide) (by decide)
    (encodeUnitStride_fields (opcode := 7) (width := 0) (by decide) (by decide) vd rs1 masked)

theorem RowMatches.vle16 (vd : VReg) (rs1 : XReg) (masked : Bool) : RowMatches.Statement (.vle16 vd rs1 masked) :=
  rowMatches_of rfl (fun _ => rfl) fun _ => and_eq_of_fields _ (by decide) (by decide)
    (encodeUnitStride_fields (opcode := 7) (width := 5) (by decide) (by decide) vd rs1 masked)

theorem RowMatches.vle32 (vd : VReg) (rs1 : XReg) (masked : Bool) : RowMatches.Statement (.vle32 vd rs1 masked) :=
  rowMatches_of rfl (fun _ => rfl) fun _ => and_eq_of_fields _ (by decide) (by decide)
    (encodeUnitStride_fields (opcode := 7) (width := 6) (by decide) (by decide) vd rs1 masked)

theorem RowMatches.vse32 (vd : VReg) (rs1 : XReg) (masked : Bool) : RowMatches.Statement (.vse32 vd rs1 masked) :=
  rowMatches_of rfl (fun _ => rfl) fun _ => and_eq_of_fields _ (by decide) (by decide)
    (encodeUnitStride_fields (opcode := 39) (width := 6) (by decide) (by decide) vd rs1 masked)

end Sys2Proof.Laws
end

