-- ==== Sys2Proof/Tests/Slice0.lean ====
section
/-! SUPPORT. Small tests: the checks of WellFormed, decoding of words written out from the spec, one step of each
instruction with expected values from 95_test_vectors.md, and a witness for the hypotheses of each statement. -/

namespace Sys2Proof.Tests

open Sys2Proof.Machine

/-! ## Helpers -/

/-- `n` elements of width `w` packed with element 0 lowest (10_state.md R33). -/
def packed (w : Nat) : List Nat → VBits
  | [] => 0
  | e :: rest => e + 2 ^ w * packed w rest

/-- The parameters of 95_test_vectors.md with another VLEN. -/
def labParams (vlenLog2 : Nat) : Params := { Params.reset with vlenLog2 := vlenLog2 }

/-- A launch state with every register zero but the given vector registers. -/
def lab (vlenLog2 : Nat) (vtype vl : Word) (regs : List (Nat × VBits)) : State :=
  regs.foldl (fun s r => s.setVreg r.1 r.2)
    { State.launch with
      params := labParams vlenLog2
      x := Vector.replicate 32 0
      v := Vector.replicate 32 0
      vtype := vtype
      vl := vl }

/-- What `f` reads in the next state. -/
def after {α : Type} (o : Host.Outcome State Fault Refusal) (f : State → α) : Option α :=
  match o with
  | .next t => some (f t)
  | .fault _ => none
  | .refused _ => none

/-- The outcome is the stop on a reserved configuration. -/
def isReserved : Host.Outcome State Fault Refusal → Bool
  | .fault .reservedInstruction => true
  | _ => false

/-- The outcome is the stopped machine of an exception with this cause. -/
def stopsWith (cause : Cause) : Host.Outcome State Fault Refusal → Bool
  | .next t => t.stopped.map TrapRecord.cause == some cause
  | _ => false

/-- The field map of five bits from bit `lsb` up. -/
def bitsFrom (lsb : Nat) : List FieldBit := (List.range 5).map fun k => .bit (lsb + k)

/-- A long encoding of the tests: format VCI with `vs2` in bits 24:20, opcode `0x77`, funct3 2. -/
def labEncoding (funct6 : Nat) : LongEncoding :=
  ⟨BitVec.ofNat 32 (funct6 * 2 ^ 26 + 2 * 2 ^ 12 + 0x77), 0xFC00707F, bitsFrom 7, bitsFrom 15, bitsFrom 20, .bit 25⟩

/-- A long encoding whose operand bits are scattered: the bits of `vd` from bit 11 down, `vs2` only `v0`, `v2`, up to `v30` with its
bits apart, the lowest bit of `vs1` fixed at 1, and no `vm`, so that it is unmasked. -/
def scatteredEncoding : LongEncoding :=
  ⟨0x0000207B, 0x8200707F, (bitsFrom 7).reverse, .one :: (List.range 4).map (.bit <| · + 15),
    [.zero, .bit 30, .bit 19, .bit 29, .bit 20], .one⟩

/-- The parameters with that encoding for `vqldots.vv`. -/
def scatteredParams : Params :=
  { Params.reset with enc := { LongEncodings.none with vqldots := some scatteredEncoding } }

/-- The parameters with the five long encodings configured. -/
def encodedParams : Params :=
  { Params.reset with
    enc := ⟨some (labEncoding 1), some (labEncoding 2), some (labEncoding 3), some (labEncoding 4), some (labEncoding 5)⟩ }

/-! ## WellFormed: each check refuses an ill-formed term -/

theorem test_wf_batch_vs2 : (Instr.vqmmaccU 16 9 31 0 false).wf = false := by decide
theorem test_wf_batch_ci : (Instr.vqmmaccS 16 8 31 4 false).wf = false := by decide
theorem test_wf_batch_ci_high : (Instr.vfwmmacc 16 8 31 64 false).wf = false := by decide
theorem test_wf_batch_all :
    [Instr.vfqmmacc 16 9 31 0 false, .vfqmmaccAlt 16 9 31 0 false, .vfmmacc 16 9 31 0 false].map Instr.wf
      = [false, false, false] := by decide
theorem test_wf_bne_odd : (Instr.bne 1 2 3).wf = false := by decide
theorem test_wf_params_vlen : { Params.reset with vlenLog2 := 4 }.wf = false := by decide
theorem test_wf_params_vlen_high : { Params.reset with vlenLog2 := 64 }.wf = false := by decide
theorem test_wf_params_elen_low : { Params.reset with elen := 16 }.wf = false := by decide
theorem test_wf_params_elen_high : { Params.reset with elen := 256 }.wf = false := by decide
theorem test_wf_params_altfmt : [7, 11].map (fun b => { Params.reset with altfmtBit := b }.wf) = [false, false] := by decide
theorem test_wf_params_start : { Params.reset with startPc := 0x1002 }.wf = false := by decide
theorem test_wf_params_start_high : { Params.reset with xlen := .x32, data := [], startPc := 0x100000000 }.wf = false := by
  decide
theorem test_wf_region : { Params.reset with text := [⟨2 ^ 64 - 2, 4⟩] }.wf = false := by decide
theorem test_wf_data : { Params.reset with data := [⟨1, 2 ^ 64⟩] }.wf = false := by decide
theorem test_wf_params_reset : Params.reset.wf = true := by decide

/-- A fixed bit outside the mask, and a pattern that shares words with an encoded row (92_eei_decisions.md D2). -/
theorem test_wf_long_encoding :
    [{ labEncoding 1 with mask := 0xFC00707E }, { labEncoding 1 with fixedBits := 0x060020F7 },
      { labEncoding 1 with fixedBits := 0xB8000077 }, { labEncoding 1 with mask := 0, fixedBits := 0 }].map LongEncoding.wf
      = List.replicate 4 false := by decide

/-- Encodings that leave a bit of the word without a use. -/
theorem test_long_encoding_covers :
    [{ labEncoding 1 with vm := .zero }, { labEncoding 1 with mask := 0x7C00707F }, { labEncoding 1 with vs1 := bitsFrom 16 },
      scatteredEncoding].map LongEncoding.covers = List.replicate 4 false
      ∧ encodedParams.enc.covers = true := by decide

theorem test_wf_long_encodings : encodedParams.enc.wf = true := by decide

theorem test_wf_long_encodings_meet :
    { encodedParams.enc with vqldots := some (labEncoding 1) }.wf = false := by decide

/-! ## Decoding: words written out from the spec -/

/-- 30_encoding.md R85, 95_test_vectors.md T10: `101110 0 01 001 11111 000 10000 1110111`. -/
theorem test_decode_vqmmacc_u : decode .reset 0xB89F8877 = .ok (.vqmmaccU 16 8 31 8 true) := by decide
/-- T10: `101111 1 00 000 11111 000 10000 1110111`. -/
theorem test_decode_vqmmacc_s : decode .reset 0xBE0F8877 = .ok (.vqmmaccS 16 0 31 0 false) := by decide
/-- T10: `101100 0 10 011 00011 001 01100 1110111`. -/
theorem test_decode_vfwmmacc : decode .reset 0xB1319677 = .ok (.vfwmmacc 12 16 3 24 true) := by decide
/-- T10: every operand field all ones. -/
theorem test_decode_vfqmmacc : decode .reset 0xB9FF9FF7 = .ok (.vfqmmacc 31 24 31 56 true) := by decide
/-- T10: `101111 1 11 111 00001 001 01000 1110111`. -/
theorem test_decode_vfqmmacc_alt : decode .reset 0xBFF09477 = .ok (.vfqmmaccAlt 8 24 1 56 false) := by decide
/-- T10: `101011 0 10 010 00111 001 11000 1110111`. -/
theorem test_decode_vfmmacc : decode .reset 0xAD239C77 = .ok (.vfmmacc 24 16 7 16 true) := by decide
/-- T10, the words that are no instruction. -/
theorem test_decode_unknown :
    (([0xB8002077, 0xB0000077, 0xAC000077, 0xA8001077, 0xB4001077, 0xBFFFFFF7, 0xB8000057, 0, 0xFFFFFFFF] : List Insn).map
      fun w => (decode .reset w).toOption.isNone) = List.replicate 9 true := by decide
theorem test_decode_absent :
    decode { Params.reset with ext := { Extensions.all with zvreddot32a8i := false } } 0xBE0F8877
      = .error (.absentExtension "vqmmacc.s.vv") := by decide

/-- 30_encoding.md R86: the five long instructions at the places the tests' `ENC_*` give: `0000xx vm vs2 vs1 010 vd 1110111`. -/
theorem test_decode_vqldotu : decode encodedParams 0x06882277 = .ok (.vqldotu 4 8 16 false) := by decide
theorem test_decode_vqldots : decode encodedParams 0x0820A277 = .ok (.vqldots 4 2 1 true) := by decide
theorem test_decode_vfwldot : decode encodedParams 0x0E882277 = .ok (.vfwldot 4 8 16 false) := by decide
theorem test_decode_vfqldot : decode encodedParams 0x10882277 = .ok (.vfqldot 4 8 16 true) := by decide
theorem test_decode_vfqldot_alt : decode encodedParams 0x15FFAFF7 = .ok (.vfqldotAlt 31 31 31 true) := by decide
/-- 30_encoding.md R86: without `ENC_*` the words are no instruction. -/
theorem test_decode_long_unconfigured : decode .reset 0x06882277 = .error .unknownWord := by decide

/-- 92_eei_decisions.md D2: the bits of an operand may stand anywhere. Here `vd` = `v4` puts its bit 2 in bit 9, `vs2` = `v22` its
bits 1, 2 and 4 in bits 30, 19 and 20, and `vs1` = `v3` its bit 1 in bit 15. An even `vs1`, an odd `vs2` and a masked form
have no word. -/
theorem test_decode_scattered :
    scatteredParams.enc.wf = true ∧ decode scatteredParams 0x4018A27B = .ok (.vqldots 4 22 3 false)
      ∧ encode scatteredParams (.vqldots 4 22 3 false) = some 0x4018A27B
      ∧ encode scatteredParams (.vqldots 1 22 3 false) = some 0x4018A87B
      ∧ [encode scatteredParams (.vqldots 4 22 2 false), encode scatteredParams (.vqldots 4 23 3 false),
          encode scatteredParams (.vqldots 4 22 3 true)] = [none, none, none] := by decide

/-- 43_host_subset.md R233: `0000000 00110 01101 000 10000 0110011`. -/
theorem test_decode_add : decode .reset 0x00668833 = .ok (.add 16 13 6) := by decide
/-- R234: `0100000 11100 01010 000 01010 0110011`. -/
theorem test_decode_sub : decode .reset 0x41C50533 = .ok (.sub 10 10 28) := by decide
/-- R235: `111111111111 01011 000 01011 0010011`, the immediate -1. -/
theorem test_decode_addi : decode .reset 0xFFF58593 = .ok (.addi 11 11 (-1)) := by decide
/-- R232, R236: `bne a0, x0, -380` of T2. -/
theorem test_decode_bne : decode .reset 0xE80512E3 = .ok (.bne 10 0 (-380)) := by decide
/-- R238: `vsetvli t3, a0, e8alt, m1, ta, ma`. -/
theorem test_decode_vsetvli : decode .reset 0x1C057E57 = .ok (.vsetvli 28 10 0x1C0) := by decide
/-- R241: `010111 1 00000 11111 011 00100 1010111`, the immediate -1. -/
theorem test_decode_vmv_v_i : decode .reset 0x5E0FB257 = .ok (.vmvVI 4 (-1)) := by decide
/-- R243: `000 0 00 1 00000 10000 000 11111 0000111`. -/
theorem test_decode_vle8 : decode .reset 0x02080F87 = .ok (.vle8 31 16 false) := by decide
/-- R244. -/
theorem test_decode_vle16 : decode .reset 0x0206D407 = .ok (.vle16 8 13 false) := by decide
/-- R245, masked. -/
theorem test_decode_vle32 : decode .reset 0x00066207 = .ok (.vle32 4 12 true) := by decide
/-- R246. -/
theorem test_decode_vse32 : decode .reset 0x02066227 = .ok (.vse32 4 12 false) := by decide
/-- 20_memory.md R61: the low byte of the word stands first. -/
theorem test_decode_bytes : decodeBytes .reset [0x77, 0x88, 0x0F, 0xBE, 0x13] = .ok (.vqmmaccS 16 0 31 0 false, [0x13]) := by
  decide
theorem test_decode_truncated : decodeBytes .reset [0x77, 0x88, 0x0F] = .error .truncated := by decide

/-! ## The long family (95_test_vectors.md T11 to T13, with `vta` = `vma` = 0) -/

/-- The low 32 bits of `v4`. -/
def v4 (t : State) : BitVec 32 := t.velem 4 32 0

/-- T11 vectors 1 and 2: unsigned by unsigned, and unsigned by signed. -/
theorem test_vqldotu :
    after (exec (.vqldotu 4 8 16 false) (lab 7 0x000 16 [(8, 2 ^ 128 - 1), (16, 2 ^ 128 - 1)])) v4 = some 0x000FE010
      ∧ after (exec (.vqldotu 4 8 16 false) (lab 7 0x100 16 [(8, 2 ^ 128 - 1), (16, 2 ^ 128 - 1)])) v4
        = some 0xFFFFF010 := by decide
/-- T11 vector 7: wraps modulo 2^32. -/
theorem test_vqldotu_wraps :
    after (exec (.vqldotu 4 8 16 false) (lab 7 0x000 16 [(8, 2 ^ 128 - 1), (16, 2 ^ 128 - 1), (4, 0xFFFFFFF0)])) v4
      = some 0x000FE000 := by decide
/-- The source bytes of T11 vector 14. -/
def x14 : VBits := packed 8 [0x01, 0xFE, 0x03, 0xFC, 0x05, 0xFA, 0x07, 0xF8, 0x09, 0xF6, 0x0B, 0xF4, 0x0D, 0xF2, 0x0F, 0xF0]
def y14 : VBits := packed 8 [0xEC, 0xEF, 0xF2, 0xF5, 0xF8, 0xFB, 0xFE, 0x01, 0x04, 0x07, 0x0A, 0x0D, 0x10, 0x13, 0x16, 0x19]
/-- T11 vectors 14 and 17: the mask, and `vl` below VLMAX. -/
theorem test_vqldots_masked :
    after (exec (.vqldots 4 2 1 true) (lab 7 0x100 12 [(0, 0xFAB7), (2, x14), (1, y14), (4, 7)])) v4
      = some 0xFFFFFEF7 := by decide
theorem test_vqldotu_masked :
    after (exec (.vqldotu 4 2 1 true) (lab 7 0x000 12 [(0, 0xFAB7), (2, x14), (1, y14), (4, 7)])) v4
      = some 0x0001FEF7 := by decide
/-- T11 vector 9: LMUL = 2. -/
theorem test_vqldots_lmul2 :
    after (exec (.vqldots 4 8 16 false) (lab 7 0x101 32
        [(8, 2 ^ 128 - 1), (9, 2 ^ 128 - 1), (16, 2 ^ 128 - 1), (17, 2 ^ 128 - 1)])) v4 = some 0x00000020 := by
  decide
/-- T12 vectors 1 and 2: the result depends on VLMAX. -/
theorem test_vfwldot_vlmax :
    (([0x108, 0x109] : List Word).map fun vtype =>
        after (exec (.vfwldot 4 8 16 false) (lab 7 vtype 3
          [(8, packed 16 [0x3F80, 0x3200, 0xB280]), (16, packed 16 [0x3F80, 0x3F80, 0x3F80])])) v4)
      = [some 0x3F800000, some 0x3F7FFFFF] := by decide
/-- T12 vectors 5 and 8: elements that are masked off or in the tail raise nothing. -/
theorem test_vfwldot_masked :
    (([(4, 0xFD), (8, 0x3D)] : List (Word × VBits)).map fun c =>
        after (exec (.vfwldot 4 8 16 true) (lab 7 0x108 c.1
          [(0, c.2), (8, packed 16 [0x3FC0, 0x7FC0, 0x4000, 0xC040, 0x7F81, 0x7F80, 0x7F80, 0xFF80]),
            (16, packed 16 [0x4000, 0x3F80, 0x3F00, 0x3F80, 0x3F80, 0x0000, 0x3F80, 0x3F80]), (4, 0x41200000)]))
          fun t => (v4 t, t.fflags))
      = [some (0x41300000, 0), some (0x7FC00000, 0x10)] := by decide
/-- T13 vectors 1, 2 and 11. -/
theorem test_vfqldot :
    (([(0x000, [0x3C, 0x40, 0xB8], [0x40, 0x3C, 0x38], 0x3F800000), (0x100, [0x3C, 0x40], [0x40, 0x3E], 0),
        (0x000, [0x7D], [0x38], 0)] : List (Word × List Nat × List Nat × Nat)).map fun c =>
        after (exec (.vfqldot 4 8 16 false) (lab 7 c.1 16 [(8, packed 8 c.2.1), (16, packed 8 c.2.2.1), (4, c.2.2.2)]))
          fun t => (v4 t, t.fflags))
      = [some (0x40C00000, 0), some (0x40C00000, 0), some (0x43D00000, 0)] := by decide
/-- T13 vectors 3, 10 and 14. -/
theorem test_vfqldot_alt :
    (([(0x000, [0x40, 0x3E], [0x3C, 0x40], 0), (0x100, [0x7D], [0x3C], 0),
        (0x000, List.replicate 16 0x7B, List.replicate 16 0x7E, 0x7F7FFFFF)]
          : List (Word × List Nat × List Nat × Nat)).map fun c =>
        after (exec (.vfqldotAlt 4 8 16 false) (lab 7 c.1 16 [(8, packed 8 c.2.1), (16, packed 8 c.2.2.1), (4, c.2.2.2)]))
          fun t => (v4 t, t.fflags))
      = [some (0x40C00000, 0), some (0x7FC00000, 0x10), some (0x7F800000, 0x04)] := by decide

/-! ## The batched family (T14 to T17) -/

/-- The eight destination elements of `v16` and up from `ci`. -/
def c16 (ci : Nat) (t : State) : List (BitVec 32) := (List.range 8).map fun n => t.velem 16 32 (ci + n)

/-- The registers `v8` to `v15` and `v31` of a batched test, elements of width `w`. -/
def columns (w : Nat) (a : List Nat) (b : List (List Nat)) : List (Nat × VBits) :=
  (31, packed w a) :: (List.range 8).zipWith (fun n col => (8 + n, packed w col)) b

/-- T14 vectors 1 and 5. -/
theorem test_vqmmacc_u :
    after (exec (.vqmmaccU 16 8 31 0 false) (lab 7 0x000 16
        ((16, packed 32 [0, 1, 2, 3]) :: (17, packed 32 [4, 5, 6, 7])
          :: columns 8 (List.replicate 16 0xFF) (List.replicate 8 (List.replicate 16 0xFF))))) (c16 0)
      = some [0x000FE010, 0x000FE011, 0x000FE012, 0x000FE013, 0x000FE014, 0x000FE015, 0x000FE016, 0x000FE017]
    ∧ after (exec (.vqmmaccU 16 8 31 0 false) (lab 7 0x100 16
        (columns 8 (List.replicate 16 0xFF) (List.replicate 8 (List.replicate 16 0xFF))))) (c16 0)
      = some (List.replicate 8 0xFFFFF010) := by decide +kernel
/-- T14 vector 6: masked, `vma` = 0. -/
theorem test_vqmmacc_s_masked :
    after (exec (.vqmmaccS 16 8 31 0 true) (lab 7 0x100 16
        ((0, 0xA5) :: (16, packed 32 [0x1000, 0x1001, 0x1002, 0x1003]) :: (17, packed 32 [0x1004, 0x1005, 0x1006, 0x1007])
          :: columns 8 (List.replicate 16 1) ((List.range 8).map fun n => List.replicate 16 (n + 1))))) (c16 0)
      = some [0x00001010, 0x00001001, 0x00001032, 0x00001003, 0x00001004, 0x00001065, 0x00001006, 0x00001087] := by
  decide +kernel
/-- T14 vector 8: `ci` = 8 and the mask bits of the destination elements, VLEN = 512. -/
theorem test_vqmmacc_s_ci :
    after (exec (.vqmmaccS 16 8 31 8 true) (lab 9 0x100 64
        ((0, 0x5A00) :: (16, packed 32 ((List.range 16).map (100 + ·)))
          :: columns 8 (List.replicate 64 0xFF) ((List.range 8).map fun n => List.replicate 64 (n + 1)))))
        (fun t => (c16 0 t, c16 8 t))
      = some ([0x64, 0x65, 0x66, 0x67, 0x68, 0x69, 0x6A, 0x6B],
          [0x6C, 0xFFFFFFED, 0x6E, 0xFFFFFF6F, 0xFFFFFF30, 0x71, 0xFFFFFEB2, 0x73]) := by decide +kernel
/-- T15 vector 4. -/
theorem test_vfwmmacc :
    after (exec (.vfwmmacc 16 8 31 0 true) (lab 7 0x108 8
        ((0, 0xDF) :: columns 16 (0x7F80 :: List.replicate 7 0x7F7F)
          [[0x3F80], [0x7F80], [0x7F81], [0xFF80], [0], [0x8000], List.replicate 8 0x7F7F, [0x7FC0]])))
        (fun t => (c16 0 t, t.fflags))
      = some ([0x7F800000, 0x7F800000, 0x7FC00000, 0xFF800000, 0x7FC00000, 0, 0x7F800000, 0x7FC00000], 0x10) := by
  decide
/-- T16 vector 2: `vs2` E4M3, `vs1` E5M2. -/
theorem test_vfqmmacc :
    after (exec (.vfqmmacc 16 8 31 0 false) (lab 7 0x100 16
        (columns 8 [0x3C, 0x40, 0x42, 0x44]
          [List.replicate 4 0x38, List.replicate 4 0x40, List.replicate 4 0xB8, List.replicate 4 0x30, [0x7F],
            List.replicate 4 0x7E, [], [0x01]]))) (fun t => (c16 0 t, t.fflags))
      = some ([0x41200000, 0x41A00000, 0xC1200000, 0x40A00000, 0x7FC00000, 0x458C0000, 0, 0x3B000000], 0) := by
  decide +kernel
/-- T16 vector 3: `vs2` E5M2, `vs1` E4M3. -/
theorem test_vfqmmacc_alt :
    after (exec (.vfqmmaccAlt 16 8 31 0 false) (lab 7 0x000 16
        (columns 8 [0x38, 0x40, 0x44, 0x48]
          [List.replicate 4 0x3C, List.replicate 4 0x40, List.replicate 4 0xBC, List.replicate 4 0x38, [0x7C],
            List.replicate 4 0x7B, [0x7D], [0x01]]))) (fun t => (c16 0 t, t.fflags))
      = some ([0x41200000, 0x41A00000, 0xC1200000, 0x40A00000, 0x7F800000, 0x490C0000, 0x7FC00000, 0x37800000], 0x10) := by
  decide +kernel

/-- Choices an implementation of `FP32_DOT` may make: every product kept exact, or every product rounded; the terms added
in order; FP32 adders. -/
def fp32Choices (exact : Bool) : Fp32Choices where
  keepExact _ _ _ _ _ _ _ := exact
  pick _ _ _ := (0, 0)
  extraPrecision _ _ _ := 0
  extraExponent _ _ _ := 0
  tininessAfterRounding := true

/-- T17 vectors 1, and 2 for column 1, under two choices. -/
theorem test_fp32Dot :
    ([false, true].map fun exact =>
        (fp32Dot (fp32Choices exact) .rne 0 8 8 (List.replicate 8 0x3F800000) (List.replicate 8 0x40000000) 0x3F800000,
          fp32Dot (fp32Choices exact) .rne 0 8 8 (List.replicate 8 0x40000000)
            [0x3F800000, 0x40000000, 0x40400000, 0x40800000, 0x40A00000, 0x40C00000, 0x40E00000, 0x41000000] 0x3F000000))
      = List.replicate 2 (⟨0x41880000, 0⟩, ⟨0x42910000, 0⟩) := by decide
/-- The five rounding modes (10_state.md R41): a tie, and an overflow below zero. -/
theorem test_roundTo :
    ([.rne, .rtz, .rdn, .rup, .rmm].map fun rm =>
        (roundTo binFp32 rm true (.fin false (2 ^ 24 + 1) 0), roundTo binFp32 rm true (.fin true 1 128)))
      = [(⟨.fin false (2 ^ 23) 1, 0x01⟩, ⟨.inf true, 0x05⟩),
        (⟨.fin false (2 ^ 23) 1, 0x01⟩, ⟨.fin true (2 ^ 24 - 1) 104, 0x05⟩),
        (⟨.fin false (2 ^ 23) 1, 0x01⟩, ⟨.inf true, 0x05⟩),
        (⟨.fin false (2 ^ 23 + 1) 1, 0x01⟩, ⟨.fin true (2 ^ 24 - 1) 104, 0x05⟩),
        (⟨.fin false (2 ^ 23 + 1) 1, 0x01⟩, ⟨.inf true, 0x05⟩)] := by decide
/-- T17 vector 5, columns 1, 2 and 3. -/
theorem test_fp32Dot_special :
    (([(0x00000000, 0), (0xFF800000, 0), (0x00000000, 0x7F800001)] : List (BitVec 32 × BitVec 32)).map fun c =>
        fp32Dot (fp32Choices false) .rne 0 8 8 (c.1 :: List.replicate 7 0) (0x7F800000 :: List.replicate 7 0) c.2)
      = [⟨0x7FC00000, 0x10⟩, ⟨0xFF800000, 0⟩, ⟨0x7FC00000, 0x10⟩] := by decide

/-! ## Reserved configurations (T18) -/

/-- T18 vectors 1 to 8 and 14. -/
theorem test_reserved_configuration :
    (([(.vqldotu 4 8 16 false, 0x000, 1), (.vqmmaccS 16 8 31 0 false, 0x100, 8), (.vqldots 4 8 16 false, 0x008, 0),
        (.vfqldot 4 8 16 false, 0x010, 0), (.vfmmacc 16 8 31 0 false, 0x000, 0), (.vfwldot 4 8 16 false, 0x008, 0),
        (.vfwmmacc 16 8 31 0 false, 0x008, 0), (.vfwmmacc 16 8 31 0 false, 0x100, 0), (.vfmmacc 16 8 31 8 false, 0x010, 0)]
          : List (Instr × Word × Word)).map fun c => isReserved (exec c.1 { lab 7 c.2.1 1 [] with vstart := c.2.2 }))
      = List.replicate 9 true := by decide
/-- T18 vectors 9 to 13 and 15 to 18. -/
theorem test_reserved_operands :
    (([(7, .vqmmaccU 16 8 31 0 false, 0x001), (7, .vqmmaccU 16 8 31 0 false, 0x007), (7, .vqmmaccS 16 8 31 16 false, 0x100),
        (7, .vqmmaccS 16 8 31 8 false, 0x100), (9, .vqmmaccS 16 8 31 16 false, 0x100),
        (7, .vqmmaccS 17 8 31 0 false, 0x100), (7, .vqmmaccS 8 8 31 0 false, 0x100), (7, .vqmmaccS 30 8 31 0 false, 0x100),
        (7, .vqmmaccS 0 8 31 0 true, 0x100)] : List (Nat × Instr × Word)).map fun c =>
          isReserved (exec c.2.1 (lab c.1 c.2.2 1 []))) = List.replicate 9 true := by decide

/-! ## The host subset (T20) -/

/-- `lab` with integer registers, and `pc`. -/
def labX (vtype vl : Word) (pc : Word) (xs : List (XReg × Word)) (regs : List (Nat × VBits)) : State :=
  xs.foldl (fun s r => s.writeX r.1 r.2) { lab 7 vtype vl regs with pc := pc }

/-- T20 vector 1. -/
theorem test_add : after (exec (.add 16 13 6) (labX 0 0 0x1000 [(13, 0x8100), (6, 16)] []))
    (fun t => (t.readX 16, t.pc)) = some (0x8110, 0x1004) := by decide
/-- 10_state.md R21: a write to `x0` is ignored. -/
theorem test_add_x0 : after (exec (.add 0 13 6) (labX 0 0 0x1000 [(13, 0x8100), (6, 16)] []))
    (fun t => (t.readX 0, t.pc)) = some (0, 0x1004) := by decide
/-- T20 vector 2. -/
theorem test_sub : after (exec (.sub 10 10 28) (labX 0 0 0x1000 [(10, 40), (28, 16)] [])) (·.readX 10) = some 24 := by
  decide
/-- 43_host_subset.md R235: the immediate is sign-extended, the sum wraps. -/
theorem test_addi : after (exec (.addi 11 11 (-1)) (labX 0 0 0x1000 [(11, 0)] [])) (·.readX 11)
    = some 0xFFFFFFFFFFFFFFFF := by decide
/-- T20 vectors 3 and 4. -/
theorem test_bne :
    after (exec (.bne 10 0 (-88)) (labX 0 0 0x2060 [(10, 24)] [])) (·.pc) = some 0x2008
      ∧ after (exec (.bne 10 0 (-88)) (labX 0 0 0x2060 [(10, 0)] [])) (·.pc) = some 0x2064 := by decide
/-- 60_exceptions.md R264: a taken branch to an address that is no multiple of 4. -/
theorem test_bne_misaligned :
    after (exec (.bne 10 0 6) (labX 0 0 0x2060 [(10, 24)] [])) (·.stopped) = some (some ⟨.insnMisaligned, 0x2060, 0x2066, 0⟩) := by
  decide
/-- T20 vectors 5 and 7. -/
theorem test_vsetvli :
    (([40, 8] : List Word).map fun avl => after (exec (.vsetvli 28 10 0x1C0) (labX 0 0 0x1000 [(10, avl)] []))
        fun t => (t.vl, t.readX 28, t.vtype)) = [some (16, 16, 0x1C0), some (8, 8, 0x1C0)] := by decide
/-- 43_host_subset.md R238: `altfmt` = 1 with SEW = 32, and bits above `altfmt`, are not supported. -/
theorem test_vsetvli_vill :
    (([0x1D0, 0x200, 0x020, 0x004, 0x00F, 0x018] : List (BitVec 11)).map fun zimm =>
        after (exec (.vsetvli 28 10 zimm) (labX 0 0 0x1000 [(10, 8)] [])) fun t => (t.vill, t.vl, t.readX 28))
      = List.replicate 4 (some (true, 0, 0)) ++ [some (false, 4, 4), some (false, 2, 2)] := by decide
/-- T20 vector 10, with the tail undisturbed, and the immediate -1. -/
theorem test_vmv_v_i :
    after (exec (.vmvVI 4 (-1)) (labX 0x011 7 0x1000 [] [(5, 2 ^ 128 - 1 - 5 * 2 ^ 96)]))
      (fun t => (t.vreg 4, t.velem 5 32 2, t.velem 5 32 3)) = some (2 ^ 128 - 1, 0xFFFFFFFF, 0xFFFFFFFA) := by decide
/-- `vmv.v.i` starts at `vstart` (R241). -/
theorem test_vmv_v_i_vstart :
    after (exec (.vmvVI 4 3) { labX 0x010 4 0x1000 [] [] with vstart := 2 })
      (fun t => ([0, 1, 2, 3].map (t.velem 4 32), t.vstart)) = some ([0, 0, 3, 3], 0) := by decide

/-- `labX` with bytes in memory from `0x8000` up. -/
def labMem (vtype vl : Word) (base : Word) (bytes : List Byte) (regs : List (Nat × VBits)) : State :=
  let s := labX vtype vl 0x1000 [(11, base)] regs
  { s with mem := s.mem.writeBytes 0x8000 bytes }

/-- T20 vector 11, with `vl` = 4 and the tail undisturbed. -/
theorem test_vle8 :
    after (exec (.vle8 1 11 false) (labMem 0x100 4 0x8000 [0x01, 0xFE, 0x03, 0xFC] [(1, 0xAA00000000)])) (·.vreg 1)
      = some 0xAAFC03FE01 := by decide
/-- R247: EEW = 16 at SEW = 8 needs EMUL = 2, so an odd register is reserved. -/
theorem test_vle16 :
    after (exec (.vle16 2 11 false) (labMem 0x008 2 0x8000 [0x34, 0x12, 0x78, 0x56] [])) (·.vreg 2) = some 0x56781234
      ∧ isReserved (exec (.vle16 1 11 false) (labMem 0x000 2 0x8000 [0x34, 0x12, 0x78, 0x56] [])) = true := by decide
/-- R247: a masked load leaves a masked-off element under `vma` = 0, and does not access its bytes, here unwritten. -/
theorem test_vle32_masked :
    after (exec (.vle32 4 11 true) (labMem 0x010 2 0x7FFC [1, 2, 3, 4] [(0, 2), (4, 7)])) (fun t => [0, 1].map (t.velem 4 32))
      = some [7, 0x04030201] := by decide
/-- R247, 60_exceptions.md R270: the base address is misaligned, so element 0 is. -/
theorem test_vle32_misaligned :
    after (exec (.vle32 4 11 false) (labMem 0x010 1 0x8002 [1, 2, 3, 4] [])) (·.stopped)
      = some (some ⟨.loadMisaligned, 0x1000, 0x8002, 0⟩) := by decide
/-- T20 vector 12. -/
theorem test_vse32 :
    after (exec (.vse32 4 11 false) (labMem 0x010 1 0x8200 [] [(4, 0xFFFFFFC0)])) (·.mem)
      = some [(0x8200, 0xC0), (0x8201, 0xFF), (0x8202, 0xFF), (0x8203, 0xFF)] := by decide
/-- 20_memory.md R69: a store into the program text. -/
theorem test_vse32_text :
    after (exec (.vse32 4 11 false)
        (let s := labMem 0x010 1 0x8200 [] []; { s with params := { s.params with text := [⟨0x8203, 1⟩] } })) (·.stopped)
      = some (some ⟨.storeAccess, 0x1000, 0x8200, 0⟩) := by decide

/-! ## The step -/

/-- 70_reset_and_hazards.md: the word placed where the reset machine fetches is run by the next step. -/
theorem test_step_from_reset :
    after (step (State.reset.withFetchWord 32 0x00100093)) (fun t => (t.pc, t.readX 0)) = some (0x1004, 0) := by decide
/-- 10_state.md R44, R49: at reset `mstatus.VS` is Off, so a vector instruction is illegal. -/
theorem test_step_reset_vector_off : stopsWith .illegalInsn (step (State.reset.withFetchWord 32 0xBE0F8877)) = true := by
  decide
/-- 60_exceptions.md R264: a fetch outside the program text. -/
theorem test_step_reset_no_text : stopsWith .insnAccess (step State.reset) = true := by decide
theorem test_step_illegal_word : stopsWith .illegalInsn (step (State.launch.withFetchWord 32 0)) = true := by decide

/-! ## Witnesses: states and operands that meet the hypotheses of the statements -/

/-- A completing outcome has a next state. -/
theorem next_of_after {o : Host.Outcome State Fault Refusal} (h : after o (fun _ => ()) = some ()) : ∃ t, o = .next t := by
  cases o with
  | next t => exact ⟨t, rfl⟩
  | fault r => exact absurd h (by simp [after])
  | refused r => exact absurd h (by simp [after])

/-- A state about to fetch the word, with the tests' encodings configured. -/
def fetchState (w : Nat) : State :=
  ({ lab 7 0x100 16 [] with params := encodedParams } : State).withFetchWord 32 w

theorem witness_DecodeInvertsEncode :
    encodedParams.enc.wf = true
      ∧ (Instr.vfqmmacc 31 24 31 56 true).wf = true ∧ extPresent encodedParams.ext (.vfqmmacc 31 24 31 56 true) = true
      ∧ encode encodedParams (.vfqmmacc 31 24 31 56 true) = some 0xB9FF9FF7
      ∧ (Instr.vfqldotAlt 31 31 31 true).wf = true ∧ extPresent encodedParams.ext (.vfqldotAlt 31 31 31 true) = true
      ∧ encode encodedParams (.vfqldotAlt 31 31 31 true) = some 0x15FFAFF7
      ∧ (Instr.bne 10 0 (-380)).wf = true ∧ encode encodedParams (.bne 10 0 (-380)) = some 0xE80512E3 := by decide

theorem witness_EncodeInvertsDecode :
    encodedParams.enc.wf = true ∧ encodedParams.enc.covers = true ∧ decode encodedParams 0x15FFAFF7 = .ok (.vfqldotAlt 31 31 31 true)
      ∧ decode encodedParams 0xB9FF9FF7 = .ok (.vfqmmacc 31 24 31 56 true) := by
  refine ⟨by decide, by decide, by decide, by decide⟩

theorem witness_RowsMatchByMask :
    patternOf (.add 0 0 0) = some (0x00000033, 0xFE00707F) ∧ extPresent Params.reset.ext (.add 0 0 0) = true := by decide

theorem witness_BatchedOperandFields :
    decode .reset 0xB9FF9FF7 = .ok (BatchOp.instr .vfqmmacc 31 24 31 56 true)
      ∧ decode .reset 0xBA000077 = .ok (BatchOp.instr .vqmmaccU 0 0 0 0 false) := by decide

theorem witness_fetches : fetches (fetchState 0xBE0F8877) 0xBE0F8877 ∧ fetches (fetchState 0) 0
    ∧ fetches (fetchState 0x06882277) 0x06882277 := by decide

theorem witness_StepRunsDecoded : fetches (fetchState 0xBE0F8877) 0xBE0F8877
    ∧ decode (fetchState 0xBE0F8877).params 0xBE0F8877 = .ok (.vqmmaccS 16 0 31 0 false) :=
  ⟨witness_fetches.1, by decide⟩

theorem witness_NoInstructionIsIllegal : fetches (fetchState 0) 0 ∧ ¬isInstruction (fetchState 0).params 0 := by
  refine ⟨witness_fetches.2.1, ?_⟩
  rintro (⟨i, m, k, h, -, hw⟩ | ⟨op, e, h, -, hw⟩)
  · cases i <;> simp [patternOf] at h <;> obtain ⟨rfl, rfl⟩ := h <;> revert hw <;> decide
  · cases op <;> simp only [LongOp.encoding] at h <;> cases h <;> revert hw <;> decide

theorem witness_InstructionIsRun :
    (fetchState 0xBE0F8877).params.enc.wf = true ∧ fetches (fetchState 0xBE0F8877) 0xBE0F8877
      ∧ isInstruction (fetchState 0xBE0F8877).params 0xBE0F8877
      ∧ fetches (fetchState 0x06882277) 0x06882277 ∧ isInstruction (fetchState 0x06882277).params 0x06882277 :=
  ⟨by decide, witness_fetches.1, .inl ⟨.vqmmaccS 0 0 0 0 false, _, _, rfl, rfl, by decide⟩, witness_fetches.2.2,
    .inr ⟨.vqldotu, labEncoding 1, rfl, rfl, by decide⟩⟩

theorem witness_PlacedWordRunsNext : State.reset.pc.toNat % 4 = 0
    ∧ decode State.reset.params (BitVec.ofNat 32 (0xBE0F8877 % 2 ^ 32)) = .ok (.vqmmaccS 16 0 31 0 false) := by decide

theorem witness_StepWithoutInstruction :
    ({ lab 7 0x100 16 [] with stopped := some ⟨.illegalInsn, 0x1000, 0, 0⟩ } : State).stopped
        = some ⟨.illegalInsn, 0x1000, 0, 0⟩
    ∧ (let s := { lab 7 0x100 16 [] with params := { labParams 7 with endPc := some 0x1000 } };
      s.stopped = none ∧ s.params.endPc = some s.pc)
    ∧ (let s := { lab 7 0x100 16 [] with pc := 0x1002 };
      s.stopped = none ∧ s.params.endPc ≠ some s.pc ∧ s.pc.toNat % 4 ≠ 0)
    ∧ (let s := { fetchState 0 with pc := 0x1004 };
      s.stopped = none ∧ s.params.endPc ≠ some s.pc ∧ s.pc.toNat % 4 = 0
        ∧ ¬(∀ k < 4, ∃ r ∈ s.params.text, r.base ≤ s.pc.toNat + k ∧ s.pc.toNat + k < r.base + r.size)) := by
  decide

/-- The state of `lab` under the policy `enter`, with a vector base that carries mode bits. -/
def enterState : State :=
  { lab 7 0x100 16 [] with params := { labParams 7 with trapPolicy := .enter }, mtvec := 0x2001 }

theorem witness_TakingAnException :
    (lab 7 0x100 16 []).params.trapPolicy = .stop ∧ enterState.params.trapPolicy = .enter
      ∧ fitsX enterState.params enterState.mtvec ∧ fitsX enterState.params enterState.pc := by decide

theorem witness_illegalFor :
    illegalFor { lab 7 0x100 16 [] with params := { labParams 7 with ext := { Extensions.all with zvreddot32a8i := false } } }
        (.vqmmaccS 16 8 31 0 false)
      ∧ illegalFor State.reset (.vsetvli 1 1 0)
      ∧ illegalFor { lab 7 0x108 8 [] with mstatus := { (lab 7 0x108 8 []).mstatus with fs := .off } }
        (.vfwldot 4 8 16 false)
      ∧ illegalFor (lab 7 0x8000000000000000 0 []) (.vle8 1 11 false) :=
  ⟨.inl rfl, .inr (.inl ⟨rfl, rfl⟩), .inr (.inr (.inl ⟨rfl, rfl⟩)), .inr (.inr (.inr ⟨rfl, by decide⟩))⟩

theorem isDot_batch (op : BatchOp) (vd vs2 vs1 : VReg) (ci : Nat) (masked : Bool) :
    isDot (op.instr vd vs2 vs1 ci masked) := .inr ⟨op, vd, vs2, vs1, ci, masked, rfl⟩
theorem isDot_long (op : LongOp) (vd vs2 vs1 : VReg) (masked : Bool) : isDot (op.instr vd vs2 vs1 masked) :=
  .inl ⟨op, vd, vs2, vs1, masked, rfl⟩

/-- The `vtype` each long instruction runs under in the tests. -/
def longVtype : LongOp → Word
  | .vfwldot => 0x108
  | _ => 0x100

/-- The `vtype` each batched instruction runs under in the tests. -/
def batchVtype : BatchOp → Word
  | .vfwmmacc => 0x108
  | .vfmmacc => 0x010
  | _ => 0x000

theorem witness_longRuns : ∀ op masked, 5 ≤ (lab 7 (longVtype op) 4 []).params.vlenLog2
    ∧ longRuns op (lab 7 (longVtype op) 4 []) 4 8 16 masked := by
  intro op masked; cases op <;> cases masked <;> decide

/-- `vl` = 0, the smallest VLEN, and the registers at the end of the file. -/
theorem witness_longRuns_edge : ∀ op, 5 ≤ (lab 5 (longVtype op) 0 []).params.vlenLog2
    ∧ longRuns op (lab 5 (longVtype op) 0 []) 31 30 0 false := by
  intro op; cases op <;> decide

theorem witness_batchRuns : ∀ op masked, 5 ≤ (lab 7 (batchVtype op) 4 []).params.vlenLog2
    ∧ batchRuns op (lab 7 (batchVtype op) 4 []) 16 8 31 0 masked := by
  intro op masked; cases op <;> cases masked <;> decide

/-- `vl` = 0 and `ci` = 8, the last that VLEN = 512 allows. -/
theorem witness_batchRuns_edge : ∀ op, 5 ≤ (lab 9 (batchVtype op) 0 []).params.vlenLog2
    ∧ batchRuns op (lab 9 (batchVtype op) 0 []) 16 0 31 8 true ∧ (lab 9 (batchVtype op) 0 []).vl = 0 := by
  intro op; cases op <;> decide

/-- The FP8 forms with another function for `FP8_DOT`, and `vl` = 0. -/
theorem witness_substitutedFp8 :
    (let s := { lab 9 0x000 0 [] with params := { labParams 9 with fp8Dot := .substituted } };
      batchRuns .vfqmmacc s 16 0 31 8 true ∧ batchRuns .vfqmmaccAlt s 16 0 31 8 true
        ∧ longRuns .vfqldot s 4 8 16 false ∧ longRuns .vfqldotAlt s 4 8 16 false ∧ s.vl = 0) := by
  refine ⟨?_, ?_, ?_, ?_, ?_⟩ <;> decide

theorem witness_DotExceptionsOnlyIllegal :
    isDot (BatchOp.instr .vqmmaccS 16 8 31 0 false) ∧ illegalFor State.reset (BatchOp.instr .vqmmaccS 16 8 31 0 false)
      ∧ ¬illegalFor (lab 7 0x000 4 []) (BatchOp.instr .vqmmaccS 16 8 31 0 false) :=
  ⟨isDot_batch .., by decide, by decide⟩

/-- The last clause is met by a state with `vill` set and a nonzero `vstart`. -/
theorem witness_NonzeroVstartIsReserved :
    isDot (LongOp.instr .vqldotu 4 8 16 false)
      ∧ (¬illegalFor { lab 7 0 4 [] with vstart := 1 } (LongOp.instr .vqldotu 4 8 16 false)
        ∧ ({ lab 7 0 4 [] with vstart := 1 } : State).vstart ≠ 0)
      ∧ (let s := { State.reset with vstart := 5 };
        s.stopped = none ∧ ∃ t, exec (LongOp.instr .vqldotu 4 8 16 false) s = .next t
          ∧ t.stopped = some ⟨.illegalInsn, 0x1000, s.illegalValue, 0⟩) :=
  ⟨isDot_long .., by decide, rfl, _, rfl, rfl⟩

theorem witness_LongLegality :
    longRuns .vqldotu (lab 7 0 4 []) 4 8 16 false
      ∧ ¬enabled State.reset (LongOp.present .vqldotu State.reset.params.ext) (LongOp.fp .vqldotu)
      ∧ (enabled (lab 7 0 4 []) (LongOp.present .vqldotu (lab 7 0 4 []).params.ext) (LongOp.fp .vqldotu)
        ∧ ¬longRuns .vqldotu (lab 7 0 4 []) 8 8 16 false) := by
  refine ⟨by decide, by decide, by decide, by decide⟩

theorem witness_BatchLegality :
    batchRuns .vqmmaccS (lab 7 0 4 []) 16 8 31 0 false
      ∧ ¬enabled State.reset (BatchOp.present .vqmmaccS State.reset.params.ext) (BatchOp.fp .vqmmaccS)
      ∧ (enabled (lab 7 0 4 []) (BatchOp.present .vqmmaccS (lab 7 0 4 []).params.ext) (BatchOp.fp .vqmmaccS)
        ∧ ¬batchRuns .vqmmaccS (lab 7 0 4 []) 17 8 31 0 false) := by
  refine ⟨by decide, by decide, by decide, by decide⟩

/-- At XLEN = 64 every word fits. -/
theorem fitsX_of_x64 {p : Params} (h : p.xlen = .x64) (w : Word) : fitsX p w := by
  unfold fitsX; rw [h]; exact w.isLt

/-- The invariant from its parts, which `decide` settles on a concrete state. -/
theorem inv_of {s : State} (h : s.params.xlen = .x64 ∧ s.params.wf = true ∧ s.mem.wf ∧ (∀ c ∈ s.mem, c.1 < 2 ^ 64)
    ∧ s.pc.toNat % 4 = 0 ∧ (∀ r : VReg, s.vreg r < 2 ^ s.params.vlen) ∧ s.configWf) : s.Inv := by
  obtain ⟨hx, hp, hm, hs, hpc, hv, hc⟩ := h
  have hf := fitsX_of_x64 hx
  exact ⟨hp, hm, by rw [hx]; exact hs, hpc, hf _, fun _ => hf _, hv, hf _, hf _, hf _, hf _, hf _, hc⟩

theorem witness_HostVectorStops :
    (let s := labX 0x011 4 0x1000 [] []; enabled s true false ∧ ¬moveRuns s 5 ∧ moveRuns s 4)
    ∧ (let s := labX 0x003 4 0x1000 [] [];
        enabled s true false ∧ ¬memRuns s 16 8 true false ∧ ¬memRuns s 8 0 true true ∧ ¬memRuns s 32 8 false false)
    ∧ (let s := labX 0x010 1 0x1000 [(11, 0x8000)] [];
        s.Inv ∧ enabled s true false ∧ memRuns s 32 4 true false ∧ accessed s false 0
          ∧ (∀ j < 0, accessed s false j → loadable s 11 32 j) ∧ elemAligned s 11 32 0
          ∧ inMemory s.params (elemAddress s 11 32 0) (32 / 8) ∧ ¬elemWritten s 11 32 0) := by
  refine ⟨by decide, by decide, inv_of (by decide), by decide, by decide, by decide, by simp, by decide, by decide, ?_⟩
  intro h; obtain ⟨b, hb⟩ := h 0 (by decide)
  exact absurd (hb.symm.trans (rfl : _ = none)) (by simp)

theorem witness_LongIgnoresInactiveSources :
    (let s := lab 7 0x100 2 [(0, 1), (8, 0x0505)]; let s' := lab 7 0x100 2 [(0, 1), (8, 0x060605)];
      s' = { s with v := s'.v } ∧ longRuns .vqldots s 4 8 16 true ∧ s'.vreg 0 = s.vreg 0
        ∧ s'.velem 4 32 0 = s.velem 4 32 0
        ∧ (∀ i < s.vl.toNat, performed s true i = true →
          s'.velem 8 8 i = s.velem 8 8 i ∧ s'.velem 16 8 i = s.velem 16 8 i)
        ∧ (∃ t, exec (LongOp.instr .vqldots 4 8 16 true) s = .next t)
        ∧ (∃ t, exec (LongOp.instr .vqldots 4 8 16 true) s' = .next t) ∧ 5 ≤ s.params.vlenLog2) :=
  ⟨rfl, by decide, by decide, by decide, by decide, next_of_after (by decide),
    next_of_after (by decide), by decide⟩

theorem witness_BatchIgnoresTailSources :
    (let s := lab 7 0x100 2 [(0, 1), (8, 0x0505), (9, 7)]; let s' := lab 7 0x100 2 [(0, 1), (8, 0x060505), (9, 8)];
      s' = { s with v := s'.v } ∧ batchRuns .vqmmaccS s 16 8 31 0 true ∧ s'.vreg 0 = s.vreg 0
        ∧ (∀ n < 8, s'.velem 16 32 (0 + n) = s.velem 16 32 (0 + n))
        ∧ (∀ k < s.vl.toNat, s'.velem 31 8 k = s.velem 31 8 k)
        ∧ (∀ n < 8, performed s true (0 + n) = true →
          ∀ k < s.vl.toNat, s'.velem (8 + n) 8 k = s.velem (8 + n) 8 k)
        ∧ (∃ t, exec (BatchOp.instr .vqmmaccS 16 8 31 0 true) s = .next t)
        ∧ (∃ t, exec (BatchOp.instr .vqmmaccS 16 8 31 0 true) s' = .next t) ∧ 5 ≤ s.params.vlenLog2) :=
  ⟨rfl, by decide, by decide, by decide, by decide, by decide,
    next_of_after (by decide), next_of_after (by decide), by decide⟩

theorem witness_BatchLeavesTheRest :
    (let s := lab 7 0x000 4 []; 5 ≤ s.params.vlenLog2 ∧ batchRuns .vqmmaccU s 16 8 31 0 true
      ∧ (∃ t, exec (BatchOp.instr .vqmmaccU 16 8 31 0 true) s = .next t) ∧ s.params.altfmtBit ≠ 6) :=
  ⟨by decide, by decide, next_of_after (by decide), by decide⟩

theorem witness_DotsIgnoreIntegerState :
    isDot (BatchOp.instr .vqmmaccU 16 8 31 0 true)
      ∧ ∀ k < 4, (lab 7 0x000 4 []).mem.read ((lab 7 0x000 4 []).pc.toNat + k)
        = Memory.read [(0x8000, 1)] ((lab 7 0x000 4 []).pc.toNat + k) := ⟨isDot_batch .., by decide⟩

theorem witness_DotsEndAtNextPc : isDot (LongOp.instr .vqldotu 4 8 16 false)
    ∧ ¬illegalFor (lab 7 0x000 4 []) (LongOp.instr .vqldotu 4 8 16 false) := ⟨isDot_long .., by decide⟩

theorem witness_BulkIgnoresFrm :
    isDot (LongOp.instr .vfwldot 4 8 16 false)
      ∧ (∀ vd vs2 vs1 ci masked, LongOp.instr .vfwldot 4 8 16 false ≠ .vfmmacc vd vs2 vs1 ci masked)
      ∧ (lab 7 0x108 4 []).frm.toNat ≤ 4 ∧ (4 : BitVec 3).toNat ≤ 4 :=
  ⟨isDot_long .., fun _ _ _ _ _ => by simp [LongOp.instr], by decide, by decide⟩

theorem witness_FlagsAccrue :
    (∃ t, exec (LongOp.instr .vfwldot 4 8 16 false) (lab 7 0x108 4 []) = .next t)
      ∧ isBulk (LongOp.instr .vfwldot 4 8 16 false) ∧ isFpForm (.add 1 2 3) = false
      ∧ ∃ t, exec (.add 1 2 3) (lab 7 0x108 4 []) = .next t :=
  ⟨next_of_after (by decide), .inl ⟨.vfwldot, 4, 8, 16, false, rfl, rfl⟩, rfl, _, rfl⟩

theorem witness_OnlyTheirWritersWrite :
    (∃ t, exec (.vmvVI 4 3) (labX 0x010 4 0x1000 [] []) = .next t) ∧ usesVector (.vmvVI 4 3) = true
      ∧ (∃ t, exec (.vse32 4 11 false) (labX 0x010 1 0x1000 [(11, 0x8000)] []) = .next t)
      ∧ usesVector (.bne 1 2 8) = false ∧ writesX (.bne 1 2 8) = false
      ∧ ∃ t, exec (.bne 1 2 8) (labX 0x010 1 0x1000 [(1, 5)] []) = .next t :=
  ⟨next_of_after (by decide), rfl, next_of_after (by decide), rfl, rfl, next_of_after (by decide)⟩

theorem witness_BranchNotEqual :
    (let s := labX 0 0 0x2060 [(10, 24)] [];
      s.readX 10 ≠ s.readX 0 ∧ ((0x2060 : Int) + (-88 : BitVec 13).toInt) % 4 = 0
        ∧ ((0x2060 : Int) + (6 : BitVec 13).toInt) % 4 ≠ 0 ∧ s.readX 11 = s.readX 0) := by decide

/-- The settings at the boundaries of R238: AVL at VLMAX, one above, one below twice VLMAX, and at twice VLMAX. -/
theorem witness_VectorConfiguration :
    (let s := labX 0 0 0x1000 [(10, 16), (11, 17), (12, 31), (13, 32)] [];
      s.params.wf = true ∧ s.mstatus.vs ≠ .off ∧ supportedSetting s.params 0x1C0 ∧ ¬supportedSetting s.params 0x1D0
        ∧ ¬supportedSetting s.params 0x200 ∧ settingVlmax s.params 0x1C0 = 16 ∧ avlOf s 10 = 16 ∧ avlOf s 11 = 17
        ∧ avlOf s 12 = 31 ∧ avlOf s 13 = 32 ∧ avlOf s 0 = 2 ^ 64 - 1) := by decide

theorem witness_VectorMove : (labX 0x011 8 0x1000 [(11, 0x8000)] []).Inv ∧ moveRuns (labX 0x011 8 0x1000 [(11, 0x8000)] []) 30
    ∧ (labX 0x017 0 0x1000 [(11, 0x8000)] []).Inv ∧ moveRuns (labX 0x017 0 0x1000 [(11, 0x8000)] []) 31 :=
  ⟨inv_of (by decide), by decide, inv_of (by decide), by decide⟩

/-- The bytes of the two words at `0x8000` have values. -/
theorem labMem_written (vtype vl base : Word) (a : Nat) (h0 : 0x8000 ≤ a) (h1 : a < 0x8008) :
    ∃ b, (labMem vtype vl base [1, 2, 3, 4, 5, 6, 7, 8] []).mem.read a = some b := by
  obtain ⟨k, rfl⟩ := Nat.exists_eq_add_of_le h0
  have hk : k < 8 := by omega
  interval_cases k <;> exact ⟨_, rfl⟩

theorem witness_VectorLoad :
    (let s := labMem 0x010 2 0x8000 [1, 2, 3, 4, 5, 6, 7, 8] [];
      s.Inv ∧ memRuns s (LoadOp.eew .vle32) 31 true false ∧ memRuns s (LoadOp.eew .vle16) 31 true true
        ∧ memRuns s (LoadOp.eew .vle8) 31 true false
        ∧ ∀ i, accessed s false i → loadable s 11 32 i) := by
  refine ⟨inv_of (by decide), by decide, by decide, by decide, ?_⟩
  rintro i ⟨-, hi, -⟩
  have hi : i < 2 := hi
  have hk {i : Nat} (hi : i < 2) : ∀ k < 4, 0x8000 ≤ elemAddress (labMem 0x010 2 0x8000 [1, 2, 3, 4, 5, 6, 7, 8] []) 11 32 i + k
      ∧ elemAddress (labMem 0x010 2 0x8000 [1, 2, 3, 4, 5, 6, 7, 8] []) 11 32 i + k < 0x8008 := by
    interval_cases i <;> decide
  refine ⟨?_, ?_, fun k hk4 => labMem_written _ _ _ _ (hk hi k hk4).1 (hk hi k hk4).2⟩ <;> interval_cases i <;> decide

theorem witness_VectorStore :
    (let s := labMem 0x010 2 0x8000 [1, 2, 3, 4, 5, 6, 7, 8] [];
      s.Inv ∧ memRuns s 32 31 false false ∧ memRuns s 32 0 false true
        ∧ ∀ i, accessed s false i → storable s 11 32 i) := by
  refine ⟨inv_of (by decide), by decide, by decide, ?_⟩
  rintro i ⟨-, hi, -⟩
  have hi : i < 2 := hi
  interval_cases i <;> exact ⟨by decide, by decide, by decide⟩

/-- Element 0 at the last byte of the address space is misaligned; element 1, above `0x8004`, is outside a data range. -/
theorem witness_LoadExceptionAtElement :
    (let s := labMem 0x010 2 0x8002 [1, 2, 3, 4, 5, 6, 7, 8] [];
      s.Inv ∧ memRuns s (LoadOp.eew .vle32) 4 true false ∧ accessed s false 0
        ∧ (∀ j < 0, accessed s false j → loadable s 11 32 j) ∧ ¬elemAligned s 11 32 0) := by
  exact ⟨inv_of (by decide), by decide, by decide, by simp, by decide⟩

theorem witness_LoadAccessFault :
    (let s := { labX 0x010 2 0x1000 [(11, 0x8000)] [] with params := { labParams 7 with data := [] } };
      memRuns s (LoadOp.eew .vle32) 4 true false ∧ accessed s false 0 ∧ elemAligned s 11 32 0
        ∧ ¬inMemory s.params (elemAddress s 11 32 0) (LoadOp.eew .vle32 / 8)) := by decide

theorem witness_StoreExceptionAtElement :
    (let s := labMem 0x010 2 0x8002 [1, 2, 3, 4, 5, 6, 7, 8] [];
      s.Inv ∧ memRuns s 32 4 false false ∧ accessed s false 0
        ∧ (∀ j < 0, accessed s false j → storable s 11 32 j) ∧ ¬storable s 11 32 0)
    ∧ (let s := { labX 0x010 2 0x1000 [(11, 0x8000)] [] with params := { labParams 7 with text := [⟨0x8004, 4⟩] } };
      memRuns s 32 4 false false ∧ accessed s false 1 ∧ (∀ j < 1, accessed s false j → storable s 11 32 j)
        ∧ ¬storable s 11 32 1) := by
  exact ⟨⟨inv_of (by decide), by decide, by decide, by simp, by decide⟩,
    ⟨by decide, by decide, by decide, by decide⟩⟩

theorem witness_ByteAndWordLoadsAgree :
    (let s := labMem 0x010 2 0x8000 [1, 2, 3, 4, 5, 6, 7, 8] [];
      let s' := labMem 0x000 8 0x8000 [1, 2, 3, 4, 5, 6, 7, 8] [];
      s.Inv ∧ s'.Inv ∧ s' = { s with vtype := s'.vtype, vl := s'.vl } ∧ s.vstart = 0 ∧ s'.vl.toNat = 4 * s.vl.toNat
        ∧ s.vta = false ∧ s'.vta = false ∧ memRuns s 32 4 true false ∧ memRuns s' 8 4 true false
        ∧ ∀ i < s.vl.toNat, loadable s 11 32 i) := by
  refine ⟨inv_of (by decide), inv_of (by decide), rfl, rfl, by decide, by decide,
    by decide, by decide, by decide, fun i hi => witness_VectorLoad.2.2.2.2 i ⟨Nat.zero_le _, hi, by simp⟩⟩

/-- Pairs that meet every clause of `SpecialValues`: a signaling NaN, a quiet NaN, zero times infinity, infinities of both
signs, and one infinity. -/
theorem witness_SpecialValues :
    bf16 ∈ factorFormats
      ∧ (let P := [(0x7F81, 0x3F80)].map (decodePair bf16 bf16); anySNaN (decodeAddend fp32Acc 0) P ∧ anyNaN (decodeAddend fp32Acc 0) P)
      ∧ invalidSum (decodeAddend fp32Acc 0) ([(0x7F80, 0)].map (decodePair bf16 bf16))
      ∧ infTerm (decodeAddend fp32Acc 0) ([(0x7F80, 0x3F80)].map (decodePair bf16 bf16)) false
      ∧ ¬(anyNaN (decodeAddend fp32Acc 0) ([(0x7F80, 0x3F80)].map (decodePair bf16 bf16))
          ∨ invalidSum (decodeAddend fp32Acc 0) ([(0x7F80, 0x3F80)].map (decodePair bf16 bf16))) := by
  refine ⟨by decide, ⟨.inr ⟨_, List.mem_singleton.2 rfl, .inl (by decide)⟩, .inr ⟨_, List.mem_singleton.2 rfl, .inl (by decide)⟩⟩,
    .inl ⟨_, List.mem_singleton.2 rfl, by decide⟩, .inr ⟨_, List.mem_singleton.2 rfl, by decide, by decide⟩, ?_⟩
  simp only [anyNaN, invalidSum, infTerm, List.map_cons, List.map_nil, List.mem_singleton, exists_eq_left]
  decide

theorem witness_bulk :
    e4m3 ∈ factorFormats ∧ e5m2 ∈ factorFormats
      ∧ (∀ ab ∈ [(0, 0x3C), (0x38, 0x80)], zeroPair (decodePair e4m3 e5m2 ab) = true)
      ∧ (∀ ab ∈ [(0x7E, 0x7B), (0x01, 0x80)], finitePair (decodePair e4m3 e5m2 ab) = true)
      ∧ List.Perm [(1, 2), (3, 4)] [(3, 4), (1, 2)] ∧ ((-7 : Int) ≠ 0)
      ∧ bitField (0x7F7FFFFF : BitVec 32).toNat 23 8 ≠ 255 ∧ [(0x7E, 0x7B), (0x01, 0x80)].length ≤ 2 := by
  refine ⟨by decide, by decide, by decide, by decide, List.Perm.swap .., by decide, by decide, by decide⟩

theorem witness_FinalRoundingIsToOdd :
    (normalise fp32Acc 3 127 (-7)).2 = false ∧ (normalise fp32Acc 3 254 (2 ^ 40)).2 = true := by decide

/-- The rational of a positive power of two. -/
theorem fp32Rat_of {w : BitVec 32} {ref : Nat}
    (h : decodeFactor ⟨8, 24, .ieee⟩ w.toNat = ⟨false, false, false, false, false, 2 ^ 23, ref⟩) :
    fp32Rat w = 2 ^ ((ref : Int) - 127) := by
  unfold fp32Rat factorRat; rw [h]
  rw [show (FactorFmt.bias ⟨8, 24, .ieee⟩ : Int) = 127 by decide]
  simp only [Bool.false_eq_true, if_false, one_mul, Nat.cast_pow, Nat.cast_ofNat]
  rw [← zpow_natCast, ← zpow_add₀ (by norm_num)]
  congr 1
  push_cast; ring

/-- The accumulator 1 and the product of 1 and 1: every sub-collection sums to 1 or 2. -/
theorem witness_Fp32ExactWhereRepresentable :
    fp32Finite 0x3F800000
      ∧ (∀ ab ∈ [((0x3F800000, 0x3F800000) : BitVec 32 × BitVec 32)], fp32Finite ab.1 ∧ fp32Finite ab.2)
      ∧ ∀ T : List ℚ, T.Sublist (fp32Terms [(0x3F800000, 0x3F800000)] 0x3F800000) → T ≠ [] → inFp32 T.sum := by
  have h1 : fp32Rat 0x3F800000 = 1 := by simpa using fp32Rat_of (ref := 127) (w := 0x3F800000) (by decide)
  have h2 : fp32Rat 0x40000000 = 2 := by simpa using fp32Rat_of (ref := 128) (w := 0x40000000) (by decide)
  refine ⟨by unfold fp32Finite; decide, by simp [fp32Finite, bitField], fun T hT hne => ?_⟩
  have hs : T.sum = 1 ∨ T.sum = 2 := by
    simp only [fp32Terms, List.map_cons, List.map_nil, h1, mul_one] at hT
    rw [← List.mem_sublists'] at hT
    simp only [List.sublists'_cons, List.sublists'_nil, List.map_cons, List.map_nil, List.cons_append, List.nil_append,
      List.mem_cons, List.not_mem_nil, or_false] at hT
    obtain rfl | rfl | rfl | rfl := hT
    · exact absurd rfl hne
    all_goals norm_num
  obtain hs | hs := hs
  · exact ⟨0x3F800000, by unfold fp32Finite; decide, by rw [hs, h1]⟩
  · exact ⟨0x40000000, by unfold fp32Finite; decide, by rw [hs, h2]⟩
theorem witness_Fp32NaNResults :
    fp32IsSNaN 0x7F800001 ∧ fp32IsNaN 0x7FC00000 ∧ fp32ZeroTimesInf (0x00000000, 0xFF800000)
      ∧ (fp32InfTerm [(0x7F800000, 0xBF800000)] 0x7F800000 true ∧ fp32InfTerm [(0x7F800000, 0xBF800000)] 0x7F800000 false)
      ∧ ¬(fp32IsNaN 0x7F800000 ∨ ∃ ab ∈ ([(0x7F800000, 0xBF800000)] : List (BitVec 32 × BitVec 32)), fp32IsNaN ab.1 ∨ fp32IsNaN ab.2) := by
  refine ⟨?_, ?_, ?_, ⟨.inr ⟨_, List.mem_singleton.2 rfl, ?_⟩, .inl ?_⟩, ?_⟩ <;>
    simp only [fp32IsSNaN, fp32IsNaN, fp32IsInf, fp32IsZero, fp32ZeroTimesInf, List.mem_singleton, exists_eq_left] <;> decide

/-- FP32, and a value just below the smallest normal number that rounds up to it: whether it is tiny depends on when tininess is
detected. -/
theorem witness_RoundedArithmetic :
    2 ≤ binFp32.prec ∧ 2 ≤ binFp32.expBits
      ∧ (roundTo binFp32 .rne true (.fin false (2 ^ 24 - 1) (-150))).flags = 0x03
      ∧ ([true, false].map fun after => (roundTo binFp32 .rne after (.fin false (2 ^ 26 - 1) (-152))).flags) = [0x01, 0x03] := by
  decide

theorem witness_StepKeepsInvariant :
    (labX 0x010 4 0x1000 [(11, 0x8000)] []).Inv ∧ ∃ t, step (labX 0x010 4 0x1000 [(11, 0x8000)] []) = .next t :=
  ⟨inv_of (by decide), next_of_after (by decide)⟩

end Sys2Proof.Tests
end

section
/-! SUPPORT. The FP8 forms of the two dot-product families: what each operation hands to `FP8_DOT` and takes from it (00_scope.md
R6, 42_bulk_normalization.md R211), and the statements about them. -/

namespace Sys2Proof.Machine

/-- Element 0 and the flags of the two long FP8 forms are `FP8_DOT` of the encoded factors and the accumulator
(40_zvldot_long.md R118, R119, formats R120). -/
theorem LongOp.longResult_fp8 (alt : Bool) (s : State) (vd vs2 vs1 : VReg) (masked : Bool) :
    s.longResult (LongOp.sew (if alt then .vfqldotAlt else .vfqldot)) vd vs2 vs1 masked
        (LongOp.dot (if alt then .vfqldotAlt else .vfqldot) s)
      = ⟨(bulkPair (fp8Result s alt (longFactors s 8 vs2 masked) (longFactors s 8 vs1 masked) (s.velem vd 32 0))).1,
          (bulkPair (fp8Result s alt (longFactors s 8 vs2 masked) (longFactors s 8 vs1 masked) (s.velem vd 32 0))).2⟩ := by
  have hdot := s.fp8DotOf_eq alt (s.longOperand 8 vs2 masked) (s.longOperand 8 vs1 masked) (s.velem vd 32 0)
  rw [State.longOperand_toNat, State.longOperand_toNat] at hdot
  rw [← hdot]
  cases alt with
  | false => rfl
  | true => rfl

/-- Dot product `n` of the two batched FP8 forms is `FP8_DOT` of the encoded factors and its destination element
(41_zvbdot_batched.md R163, R164, formats R175). -/
theorem BatchOp.pair_fp8 (alt : Bool) (s : State) (vd vs2 vs1 : VReg) (ci n : Nat) :
    BatchOp.pair (if alt then .vfqmmaccAlt else .vfqmmacc) s vd vs2 vs1 ci n
      = bulkPair (fp8Result s alt (batchFactors s 8 (vs2.val + n)) (batchFactors s 8 vs1) (s.velem vd 32 (ci + n))) := by
  have hdot := s.fp8DotOf_eq alt (s.batchOperand 8 (vs2.val + n)) (s.batchOperand 8 vs1) (s.velem vd 32 (ci + n))
  rw [State.batchOperand_toNat, State.batchOperand_toNat] at hdot
  have hpair := congrArg (fun d : DotResult => (d.bits, d.flags)) hdot
  cases alt with
  | false => exact hpair
  | true => exact hpair

/-- Settles O20: the shared effect of a long instruction that runs, with its dot product read as `FP8_DOT`. -/
theorem longFp8Dot : Obligations.LongFp8Dot := by
  intro alt s vd vs2 vs1 masked h5 hruns
  have hfp : LongOp.fp (if alt then .vfqldotAlt else .vfqldot) = true := by cases alt <;> rfl
  have hframe := LongOp.after_frame (if alt then .vfqldotAlt else .vfqldot) s vd vs2 vs1 masked
  obtain ⟨hrest, hresult⟩ := LongOp.after_spec (if alt then .vfqldotAlt else .vfqldot) vd vs2 vs1 masked h5
  rw [hfp] at hframe
  rw [LongOp.longResult_fp8] at hresult
  exact ⟨_, LongOp.exec_runs hruns, hrest, hframe, hresult⟩

/-- Settles O24: the shared effect of a batched instruction that runs, with each of its dot products read as `FP8_DOT`. -/
theorem batchFp8Dot : Obligations.BatchFp8Dot := by
  intro alt s vd vs2 vs1 ci masked h5 hruns
  have hfp : BatchOp.fp (if alt then .vfqmmaccAlt else .vfqmmacc) = true := by cases alt <;> rfl
  have hframe := BatchOp.after_frame (if alt then .vfqmmaccAlt else .vfqmmacc) s vd vs2 vs1 ci masked
  have ⟨_, _, hoperands⟩ := hruns
  obtain ⟨hrest, hresult⟩ := BatchOp.after_spec (if alt then .vfqmmaccAlt else .vfqmmacc) h5 hoperands
  rw [hfp] at hframe
  rw [funext (BatchOp.pair_fp8 alt s vd vs2 vs1 ci)] at hresult
  exact ⟨_, BatchOp.exec_runs hruns, hrest, hframe, hresult⟩

end Sys2Proof.Machine
end

section
/-! SUPPORT. The instructions by family, what each can come to, and what it leaves alone. -/

namespace Sys2Proof.Machine

/-! ## Cases by family -/

/-- A property of every instruction, family by family: the eleven dot products, the vector loads, and the other seven. -/
theorem Instr.byFamily {P : Instr → Prop}
    (long : ∀ op vd vs2 vs1 masked, P (LongOp.instr op vd vs2 vs1 masked))
    (batch : ∀ op vd vs2 vs1 ci masked, P (BatchOp.instr op vd vs2 vs1 ci masked))
    (load : ∀ op vd rs1 masked, P (LoadOp.instr op vd rs1 masked))
    (add : ∀ rd rs1 rs2, P (.add rd rs1 rs2)) (sub : ∀ rd rs1 rs2, P (.sub rd rs1 rs2))
    (addi : ∀ rd rs1 imm, P (.addi rd rs1 imm)) (bne : ∀ rs1 rs2 offset, P (.bne rs1 rs2 offset))
    (vsetvli : ∀ rd rs1 zimm, P (.vsetvli rd rs1 zimm)) (vmvVI : ∀ vd simm5, P (.vmvVI vd simm5))
    (vse32 : ∀ vs3 rs1 masked, P (.vse32 vs3 rs1 masked)) (i : Instr) : P i := by
  cases i with
  | vqmmaccU vd vs2 vs1 ci masked => exact batch .vqmmaccU vd vs2 vs1 ci masked
  | vqmmaccS vd vs2 vs1 ci masked => exact batch .vqmmaccS vd vs2 vs1 ci masked
  | vfwmmacc vd vs2 vs1 ci masked => exact batch .vfwmmacc vd vs2 vs1 ci masked
  | vfqmmacc vd vs2 vs1 ci masked => exact batch .vfqmmacc vd vs2 vs1 ci masked
  | vfqmmaccAlt vd vs2 vs1 ci masked => exact batch .vfqmmaccAlt vd vs2 vs1 ci masked
  | vfmmacc vd vs2 vs1 ci masked => exact batch .vfmmacc vd vs2 vs1 ci masked
  | vqldotu vd vs2 vs1 masked => exact long .vqldotu vd vs2 vs1 masked
  | vqldots vd vs2 vs1 masked => exact long .vqldots vd vs2 vs1 masked
  | vfwldot vd vs2 vs1 masked => exact long .vfwldot vd vs2 vs1 masked
  | vfqldot vd vs2 vs1 masked => exact long .vfqldot vd vs2 vs1 masked
  | vfqldotAlt vd vs2 vs1 masked => exact long .vfqldotAlt vd vs2 vs1 masked
  | add rd rs1 rs2 => exact add rd rs1 rs2
  | sub rd rs1 rs2 => exact sub rd rs1 rs2
  | addi rd rs1 imm => exact addi rd rs1 imm
  | bne rs1 rs2 offset => exact bne rs1 rs2 offset
  | vsetvli rd rs1 zimm => exact vsetvli rd rs1 zimm
  | vmvVI vd simm5 => exact vmvVI vd simm5
  | vle8 vd rs1 masked => exact load .vle8 vd rs1 masked
  | vle16 vd rs1 masked => exact load .vle16 vd rs1 masked
  | vle32 vd rs1 masked => exact load .vle32 vd rs1 masked
  | vse32 vs3 rs1 masked => exact vse32 vs3 rs1 masked

@[simp] theorem LongOp.usesVector_instr (op : LongOp) (vd vs2 vs1 : VReg) (masked : Bool) :
    usesVector (op.instr vd vs2 vs1 masked) = true := by cases op <;> rfl

@[simp] theorem BatchOp.usesVector_instr (op : BatchOp) (vd vs2 vs1 : VReg) (ci : Nat) (masked : Bool) :
    usesVector (op.instr vd vs2 vs1 ci masked) = true := by cases op <;> rfl

@[simp] theorem LoadOp.usesVector_instr (op : LoadOp) (vd : VReg) (rs1 : XReg) (masked : Bool) :
    usesVector (op.instr vd rs1 masked) = true := by cases op <;> rfl

/-! ## What each family can come to -/

/-- What one of the eleven can come to: the illegal-instruction exception, the stop on a reserved configuration, or
completion with its frame (40_zvldot_long.md R112, 41_zvbdot_batched.md R150). -/
theorem isDot.exec_cases {i : Instr} (h : isDot i) (s : State) :
    (illegalFor s i ∧ exec i s = .next s.raiseDotIllegal)
      ∨ (¬illegalFor s i ∧ exec i s = .fault .reservedInstruction)
      ∨ (¬illegalFor s i ∧ s.vstart = 0 ∧ ∃ fp t, exec i s = .next t ∧ dotFrame s t fp) := by
  rcases h with ⟨op, vd, vs2, vs1, masked, rfl⟩ | ⟨op, vd, vs2, vs1, ci, masked, rfl⟩
  · rw [LongOp.illegalFor_iff, not_not]
    by_cases he : enabled s (op.present s.params.ext) op.fp
    · by_cases hr : longRuns op s vd vs2 vs1 masked
      · have ⟨_, ⟨hvstart, _⟩, _⟩ := hr
        exact .inr (.inr ⟨he, hvstart, op.fp, _, LongOp.exec_runs hr, LongOp.after_frame ..⟩)
      · exact .inr (.inl ⟨he, LongOp.exec_reserved he hr⟩)
    · exact .inl ⟨he, LongOp.exec_illegal he⟩
  · rw [BatchOp.illegalFor_iff, not_not]
    by_cases he : enabled s (op.present s.params.ext) op.fp
    · by_cases hr : batchRuns op s vd vs2 vs1 ci masked
      · have ⟨_, ⟨hvstart, _⟩, _⟩ := hr
        exact .inr (.inr ⟨he, hvstart, op.fp, _, BatchOp.exec_runs hr, BatchOp.after_frame ..⟩)
      · exact .inr (.inl ⟨he, BatchOp.exec_reserved he hr⟩)
    · exact .inl ⟨he, BatchOp.exec_illegal he⟩

/-- Where a long instruction goes on, it took the illegal-instruction exception or it ran. -/
theorem LongOp.exec_next {op : LongOp} {s t : State} {vd vs2 vs1 : VReg} {masked : Bool}
    (ht : exec (op.instr vd vs2 vs1 masked) s = .next t) : t = s.raiseDotIllegal ∨ t = op.after s vd vs2 vs1 masked := by
  by_cases he : enabled s (op.present s.params.ext) op.fp
  · by_cases hr : longRuns op s vd vs2 vs1 masked
    · rw [LongOp.exec_runs hr] at ht; cases ht; exact .inr rfl
    · rw [LongOp.exec_reserved he hr] at ht; cases ht
  · rw [LongOp.exec_illegal he] at ht; cases ht; exact .inl rfl

/-- Where a batched instruction goes on, it took the illegal-instruction exception or it ran. -/
theorem BatchOp.exec_next {op : BatchOp} {s t : State} {vd vs2 vs1 : VReg} {ci : Nat} {masked : Bool}
    (ht : exec (op.instr vd vs2 vs1 ci masked) s = .next t) :
    t = s.raiseDotIllegal ∨ t = op.after s vd vs2 vs1 ci masked := by
  by_cases he : enabled s (op.present s.params.ext) op.fp
  · by_cases hr : batchRuns op s vd vs2 vs1 ci masked
    · rw [BatchOp.exec_runs hr] at ht; cases ht; exact .inr rfl
    · rw [BatchOp.exec_reserved he hr] at ht; cases ht
  · rw [BatchOp.exec_illegal he] at ht; cases ht; exact .inl rfl

/-- Where `vmv.v.i` goes on, it took the illegal-instruction exception or it ran (43_host_subset.md R241). -/
theorem execVmvVI_next {s t : State} {vd : VReg} {simm5 : BitVec 5} (ht : execVmvVI vd simm5 s = .next t) :
    t = s.raiseIllegal ∨ (moveRuns s vd ∧ t = ((s.fillElems vd s.sew (simm5.signExtend s.sew) s.bodyIndices).agnosticElems
      vd s.sew s.vta s.moveTail).retireVector) := by
  unfold execVmvVI at ht
  cases hv : s.moveLegal vd with
  | illegal => rw [hv] at ht; cases ht; exact .inl rfl
  | reserved => rw [hv] at ht; cases ht
  | legal => rw [hv] at ht; cases ht; exact .inr ⟨(s.moveLegal_legal_iff vd).1 hv, rfl⟩

/-- A step of a transfer: what an element leaves that was transferred, or that an overrun filled with a free value. -/
abbrev ElemStep (elem : State → Nat → ElemOutcome) (s s' : State) (i : Nat) : Prop :=
  elem s i = .done s' ∨ ∃ a, elem s i = .unwritten a s'

/-- The rule of a transfer: what every element keeps holds where the instruction ends and where an exception is taken. -/
theorem transferElems_next {elem : State → Nat → ElemOutcome} {finish : State → State} {P R : State → Prop}
    {l : List Nat} {s t : State} (hstep : ∀ s s' i, P s → ElemStep elem s s' i → P s') (hfinish : ∀ s, P s → R (finish s))
    (htrap : ∀ s u i n cause addr, i ∈ l → P s → elem s i = .trap cause addr → P u →
      R (({ u with vstart := BitVec.ofNat 64 i, draws := n } : State).takeException cause addr))
    (h : P s) (ht : transferElems elem finish s l = .next t) : R t := by
  induction l generalizing s with
  | nil =>
    cases ht
    exact hfinish s h
  | cons i rest ih =>
    unfold transferElems at ht
    cases he : elem s i with
    | done s' =>
      rw [he] at ht
      exact ih (fun s u j n c a hj => htrap s u j n c a (List.mem_cons_of_mem _ hj)) (hstep s s' i h (.inl he)) ht
    | trap cause addr =>
      rw [he] at ht
      cases ht
      exact htrap s _ i _ cause addr (List.mem_cons_self ..) h he (overrunElems_keeps (fun s s' j _ => hstep s s' j) h)
    | unwritten a drawn => rw [he] at ht; cases ht

/-- The same rule for a load or store under its verdict, with the illegal-instruction exception beside it. -/
theorem State.transferUnder_next {v : Verdict} {elem : State → Nat → ElemOutcome} {finish : State → State}
    {P R : State → Prop} {s t : State} (hillegal : R s.raiseIllegal)
    (hstep : ∀ s s' i, P s → ElemStep elem s s' i → P s') (hfinish : ∀ s, P s → R (finish s))
    (htrap : ∀ u u' i n cause addr, i ∈ s.bodyIndices → P u → elem u i = .trap cause addr → P u' →
      R (({ u' with vstart := BitVec.ofNat 64 i, draws := n } : State).takeException cause addr))
    (h : P s) (ht : s.transferUnder v elem finish = .next t) : R t := by
  cases v with
  | illegal => cases ht; exact hillegal
  | reserved => cases ht
  | legal => exact transferElems_next hstep hfinish htrap h ht

/-- An element of a load writes the element, or follows the mask policy. -/
theorem loadElem_cases {eew : Nat} {vd : VReg} {rs1 : XReg} {masked : Bool} {u u' : State} {i : Nat}
    (hstep : ElemStep (loadElem eew vd rs1 masked) u u' i) :
    (∃ w, u' = u.setVelem vd eew i w) ∨ u' = u.agnosticElem vd eew u.vma i := by
  unfold ElemStep loadElem at hstep
  grind

/-- An element of a load writes vector registers only. -/
theorem loadElem_onlyV {eew : Nat} {vd : VReg} {rs1 : XReg} {masked : Bool} {s u u' : State} {i : Nat} (h : OnlyV s u)
    (hstep : ElemStep (loadElem eew vd rs1 masked) u u' i) : OnlyV s u' := by
  rcases loadElem_cases hstep with ⟨w, rfl⟩ | rfl
  · exact h.setVelem ..
  · exact h.agnosticElem ..

/-- Only memory differs. -/
abbrev OnlyMem (s t : State) : Prop := t = { s with mem := t.mem }

/-- An element of a store leaves the state, or stores its bytes inside launch memory and outside the program text. -/
theorem storeElem_cases {eew : Nat} {vs3 : VReg} {rs1 : XReg} {masked : Bool} {u u' : State} {i : Nat}
    (hstep : ElemStep (storeElem eew vs3 rs1 masked) u u' i) :
    u' = u ∨ (storable u rs1 eew i
      ∧ u' = { u with mem := u.mem.writeBytes (elemAddress u rs1 eew i) (bytesOfNat (eew / 8) (u.velem vs3 eew i).toNat) }) := by
  unfold ElemStep at hstep
  by_cases ha : u.active masked i = true
  · by_cases hs : storable u rs1 eew i
    · simp only [storeElem_active ha hs, ElemOutcome.done.injEq, reduceCtorEq, exists_false, or_false] at hstep
      exact .inr ⟨hs, hstep.symm⟩
    · rw [storeElem_trap ha hs] at hstep
      simp at hstep
  · simp only [storeElem_inactive (Bool.not_eq_true _ ▸ ha), ElemOutcome.done.injEq, reduceCtorEq, exists_false, or_false]
      at hstep
    exact .inl hstep.symm

/-- An element of a store writes memory only. -/
theorem storeElem_onlyMem {eew : Nat} {vs3 : VReg} {rs1 : XReg} {masked : Bool} {s u u' : State} {i : Nat}
    (h : OnlyMem s u) (hstep : ElemStep (storeElem eew vs3 rs1 masked) u u' i) : OnlyMem s u' := by
  rcases storeElem_cases hstep with rfl | ⟨-, rfl⟩
  · exact h
  · rw [h]

/-! ## What an instruction leaves alone -/

/-- What no instruction but `vsetvli` changes: the parameters, the vector configuration, `frm`, `vxsat` and `vxrm`
(10_state.md R39, R41, R43). -/
structure KeepsConfig (s t : State) : Prop where
  params : t.params = s.params
  vtype : t.vtype = s.vtype
  vl : t.vl = s.vl
  frm : t.frm = s.frm
  vxsat : t.vxsat = s.vxsat
  vxrm : t.vxrm = s.vxrm

theorem KeepsConfig.refl (s : State) : KeepsConfig s s := ⟨rfl, rfl, rfl, rfl, rfl, rfl⟩

theorem KeepsConfig.takeException {s t : State} (h : KeepsConfig s t) (cause : Cause) (value : Word) :
    KeepsConfig s (t.takeException cause value) := by
  constructor <;> simp [h.params, h.vtype, h.vl, h.frm, h.vxsat, h.vxrm]

theorem KeepsConfig.atElement {s t : State} (h : KeepsConfig s t) (i n : Nat) :
    KeepsConfig s { t with vstart := BitVec.ofNat 64 i, draws := n } :=
  ⟨h.params, h.vtype, h.vl, h.frm, h.vxsat, h.vxrm⟩

theorem KeepsConfig.advance {s t : State} (h : KeepsConfig s t) : KeepsConfig s t.advance :=
  ⟨h.params, h.vtype, h.vl, h.frm, h.vxsat, h.vxrm⟩

theorem KeepsConfig.writeX {s t : State} (h : KeepsConfig s t) (r : XReg) (w : Word) : KeepsConfig s (t.writeX r w) := by
  rw [State.writeX_eq]
  exact ⟨h.params, h.vtype, h.vl, h.frm, h.vxsat, h.vxrm⟩

theorem OnlyV.keepsConfig {s t : State} (h : OnlyV s t) : KeepsConfig s t := by
  rw [h]; exact ⟨rfl, rfl, rfl, rfl, rfl, rfl⟩

theorem OnlyMem.keepsConfig {s t : State} (h : OnlyMem s t) : KeepsConfig s t := by
  rw [h]; exact ⟨rfl, rfl, rfl, rfl, rfl, rfl⟩

/-- What one of the eleven leaves alone (10_state.md R22, R39, R43; 20_memory.md R60). -/
theorem isDot.next_keeps {i : Instr} (h : isDot i) {s t : State} (ht : exec i s = .next t) :
    KeepsConfig s t ∧ t.x = s.x ∧ t.mem = s.mem := by
  rcases h.exec_cases s with ⟨-, he⟩ | ⟨-, he⟩ | ⟨-, -, fp, u, he, hframe⟩
  · rw [he] at ht
    cases ht
    simp only [State.raiseDotIllegal, State.raiseIllegal]
    refine ⟨KeepsConfig.takeException (by constructor <;> rfl) _ _, by simp, by simp⟩
  · rw [he] at ht
    cases ht
  · rw [he] at ht
    cases ht
    rw [hframe]
    exact ⟨⟨rfl, rfl, rfl, rfl, rfl, rfl⟩, rfl, rfl⟩

/-- What a vector load leaves alone. -/
theorem State.vectorLoad_next_keeps {s t : State} {eew : Nat} {vd : VReg} {rs1 : XReg} {masked : Bool}
    (ht : s.vectorLoad eew vd rs1 masked = .next t) : KeepsConfig s t ∧ t.x = s.x ∧ t.mem = s.mem := by
  refine State.transferUnder_next (P := OnlyV s) (R := fun t => KeepsConfig s t ∧ t.x = s.x ∧ t.mem = s.mem)
    ⟨(KeepsConfig.refl s).takeException .., by simp [State.raiseIllegal], by simp [State.raiseIllegal]⟩
    (fun u u' i hu hstep => loadElem_onlyV hu hstep) (fun u hu => ?_) (fun u u' i n cause addr _ _ _ hu' => ?_) rfl ht
  · have hfill := hu.agnosticElems vd eew u.vta (u.memTail eew)
    rw [finishLoad, hfill]
    exact ⟨⟨rfl, rfl, rfl, rfl, rfl, rfl⟩, rfl, rfl⟩
  · exact ⟨(hu'.keepsConfig.atElement i n).takeException .., by simp [congrArg State.x hu'],
      by simp [congrArg State.mem hu']⟩

/-- What a vector store leaves alone. -/
theorem State.vectorStore_next_keeps {s t : State} {eew : Nat} {vs3 : VReg} {rs1 : XReg} {masked : Bool}
    (ht : s.vectorStore eew vs3 rs1 masked = .next t) : KeepsConfig s t ∧ t.x = s.x ∧ t.v = s.v := by
  refine State.transferUnder_next (P := OnlyMem s) (R := fun t => KeepsConfig s t ∧ t.x = s.x ∧ t.v = s.v)
    ⟨(KeepsConfig.refl s).takeException .., by simp [State.raiseIllegal], by simp [State.raiseIllegal]⟩
    (fun u u' i hu hstep => storeElem_onlyMem hu hstep) (fun u hu => ?_) (fun u u' i n cause addr _ _ _ hu' => ?_) rfl ht
  · rw [hu]
    exact ⟨⟨rfl, rfl, rfl, rfl, rfl, rfl⟩, rfl, rfl⟩
  · exact ⟨(hu'.keepsConfig.atElement i n).takeException .., by simp [congrArg State.x hu'],
      by simp [congrArg State.v hu']⟩

/-- What `vmv.v.i` leaves alone. -/
theorem execVmvVI_next_keeps {s t : State} {vd : VReg} {simm5 : BitVec 5} (ht : execVmvVI vd simm5 s = .next t) :
    KeepsConfig s t ∧ t.x = s.x ∧ t.mem = s.mem := by
  rcases execVmvVI_next ht with rfl | ⟨-, rfl⟩
  · exact ⟨(KeepsConfig.refl s).takeException .., by simp [State.raiseIllegal], by simp [State.raiseIllegal]⟩
  · exact ⟨by constructor <;> simp, by simp, by simp⟩

/-- What `bne` leaves alone. -/
theorem execBne_next_keeps {s t : State} {rs1 rs2 : XReg} {offset : BitVec 13} (ht : execBne rs1 rs2 offset s = .next t) :
    KeepsConfig s t ∧ t.x = s.x ∧ t.mem = s.mem ∧ t.v = s.v := by
  unfold execBne at ht
  split_ifs at ht
  · cases ht
    exact ⟨⟨rfl, rfl, rfl, rfl, rfl, rfl⟩, rfl, rfl, rfl⟩
  · cases ht
    exact ⟨(KeepsConfig.refl s).takeException .., by simp, by simp, by simp⟩
  · cases ht
    exact ⟨(KeepsConfig.refl s).advance, rfl, rfl, rfl⟩

/-- What `vsetvli` can come to: the illegal-instruction exception, the refusal of the keep-vl form, or a vector
configuration, that of a supported setting or that of an unsupported one (43_host_subset.md R238). -/
theorem execVsetvli_cases (rd rs1 : XReg) (zimm : BitVec 11) (s : State) :
    execVsetvli rd rs1 zimm s = .next s.raiseIllegal
      ∨ execVsetvli rd rs1 zimm s = .refused .vsetvliKeepVl
      ∨ (supportedVtype s.params (zimm.setWidth 64) = true ∧ execVsetvli rd rs1 zimm s = .next (s.setVectorConfig rd
          (zimm.setWidth 64) (newVl (s.avl rs1) (vlmaxOf s.params (zimm.setWidth 64)))))
      ∨ execVsetvli rd rs1 zimm s = .next (s.setVectorConfig rd (villVtype s.params) 0) := by
  unfold execVsetvli
  split_ifs with hoff hkeep hsupported
  · exact .inl rfl
  · exact .inr (.inl rfl)
  · exact .inr (.inr (.inl ⟨hsupported, rfl⟩))
  · exact .inr (.inr (.inr rfl))

/-- What `vsetvli` leaves alone. -/
theorem execVsetvli_next_keeps {s t : State} {rd rs1 : XReg} {zimm : BitVec 11} (ht : execVsetvli rd rs1 zimm s = .next t) :
    t.params = s.params ∧ t.frm = s.frm ∧ t.vxsat = s.vxsat ∧ t.vxrm = s.vxrm ∧ t.mem = s.mem ∧ t.v = s.v := by
  rcases execVsetvli_cases rd rs1 zimm s with he | he | ⟨-, he⟩ | he
  · rw [he] at ht
    cases ht
    simp [State.raiseIllegal]
  · rw [he] at ht
    cases ht
  · rw [he] at ht
    cases ht
    rw [State.setVectorConfig_eq]
    exact ⟨rfl, rfl, rfl, rfl, rfl, rfl⟩
  · rw [he] at ht
    cases ht
    rw [State.setVectorConfig_eq]
    exact ⟨rfl, rfl, rfl, rfl, rfl, rfl⟩

/-- What an integer operation leaves alone. -/
theorem State.writeX_advance_keeps (s : State) (rd : XReg) (w : Word) :
    KeepsConfig s (s.writeX rd w).advance ∧ (s.writeX rd w).advance.mem = s.mem ∧ (s.writeX rd w).advance.v = s.v :=
  ⟨((KeepsConfig.refl s).writeX rd w).advance, by simp, by simp⟩

/-- Settles O33, family by family: the frame of each, with the hypotheses of the other clauses refuted by its name. -/
theorem onlyTheirWritersWrite : Obligations.OnlyTheirWritersWrite := by
  intro i s t ht
  induction i using Instr.byFamily with
  | long op vd vs2 vs1 masked =>
    obtain ⟨hk, hx, hmem⟩ := isDot.next_keeps (.inl ⟨op, vd, vs2, vs1, masked, rfl⟩) ht
    refine ⟨fun _ => ⟨hk.vtype, hk.vl⟩, fun _ => hmem, fun _ => hx, fun hw => absurd hw ?_, hk.frm, hk.vxsat, hk.vxrm⟩
    cases op <;> simp [LongOp.instr, usesVector]
  | batch op vd vs2 vs1 ci masked =>
    obtain ⟨hk, hx, hmem⟩ := isDot.next_keeps (.inr ⟨op, vd, vs2, vs1, ci, masked, rfl⟩) ht
    refine ⟨fun _ => ⟨hk.vtype, hk.vl⟩, fun _ => hmem, fun _ => hx, fun hw => absurd hw ?_, hk.frm, hk.vxsat, hk.vxrm⟩
    cases op <;> simp [BatchOp.instr, usesVector]
  | load op vd rs1 masked =>
    rw [LoadOp.exec_eq] at ht
    obtain ⟨hk, hx, hmem⟩ := State.vectorLoad_next_keeps ht
    refine ⟨fun _ => ⟨hk.vtype, hk.vl⟩, fun _ => hmem, fun _ => hx, fun hw => absurd hw ?_, hk.frm, hk.vxsat, hk.vxrm⟩
    cases op <;> simp [LoadOp.instr, usesVector]
  | add rd rs1 rs2 =>
    cases ht
    obtain ⟨hk, hmem, hv⟩ := s.writeX_advance_keeps rd (s.readX rs1 + s.readX rs2)
    exact ⟨fun _ => ⟨hk.vtype, hk.vl⟩, fun _ => hmem, nofun, fun _ => hv, hk.frm, hk.vxsat, hk.vxrm⟩
  | sub rd rs1 rs2 =>
    cases ht
    obtain ⟨hk, hmem, hv⟩ := s.writeX_advance_keeps rd (s.readX rs1 - s.readX rs2)
    exact ⟨fun _ => ⟨hk.vtype, hk.vl⟩, fun _ => hmem, nofun, fun _ => hv, hk.frm, hk.vxsat, hk.vxrm⟩
  | addi rd rs1 imm =>
    cases ht
    obtain ⟨hk, hmem, hv⟩ := s.writeX_advance_keeps rd (s.readX rs1 + sextX s.params imm)
    exact ⟨fun _ => ⟨hk.vtype, hk.vl⟩, fun _ => hmem, nofun, fun _ => hv, hk.frm, hk.vxsat, hk.vxrm⟩
  | bne rs1 rs2 offset =>
    obtain ⟨hk, hx, hmem, hv⟩ := execBne_next_keeps ht
    exact ⟨fun _ => ⟨hk.vtype, hk.vl⟩, fun _ => hmem, fun _ => hx, fun _ => hv, hk.frm, hk.vxsat, hk.vxrm⟩
  | vsetvli rd rs1 zimm =>
    obtain ⟨-, hfrm, hvxsat, hvxrm, hmem, hv⟩ := execVsetvli_next_keeps ht
    exact ⟨fun hne => absurd rfl (hne rd rs1 zimm), fun _ => hmem, nofun, fun _ => hv, hfrm, hvxsat, hvxrm⟩
  | vmvVI vd simm5 =>
    obtain ⟨hk, hx, hmem⟩ := execVmvVI_next_keeps ht
    refine ⟨fun _ => ⟨hk.vtype, hk.vl⟩, fun _ => hmem, fun _ => hx, fun hw => absurd hw ?_, hk.frm, hk.vxsat, hk.vxrm⟩
    simp [usesVector]
  | vse32 vs3 rs1 masked =>
    obtain ⟨hk, hx, hv⟩ := State.vectorStore_next_keeps ht
    exact ⟨fun _ => ⟨hk.vtype, hk.vl⟩, fun hne => absurd rfl (hne vs3 rs1 masked), fun _ => hx, fun _ => hv, hk.frm,
      hk.vxsat, hk.vxrm⟩

end Sys2Proof.Machine
end

section
/-! SUPPORT. The invariant: the reset state meets it, every update of the state keeps it, and so does every step. -/

namespace Sys2Proof.Machine

/-! ## Reset -/

/-- A launch value is brought into XLEN bits. -/
theorem launchWord_fits (p : Params) (w : Word) : fitsX p (launchWord p w) := by
  show (truncX p w).toNat < 2 ^ p.xlen.bits
  rw [truncX_toNat]
  exact Nat.mod_lt _ (Nat.two_pow_pos _)

/-- Settles O59: the given values by evaluation, the free launch values because they are brought into their widths. -/
theorem resetMeetsInvariant : Obligations.ResetMeetsInvariant where
  params := by decide
  memCanonical := reset_memory_wf
  memInSpace := nofun
  pcAligned := by decide
  pcFits := by decide
  xFits r := by
    have hx : State.reset.x.get r = if r = 0 then 0 else launchWord .reset (Config.launchX r) := by
      show (Vector.ofFn _)[r.val] = _
      rw [Vector.getElem_ofFn]
    rw [hx]
    split_ifs
    · exact Nat.two_pow_pos _
    · exact launchWord_fits ..
  vFits r := by
    have hv : State.reset.vreg r = Config.launchV r % 2 ^ Params.reset.vlen := by
      simp [State.vreg, State.reset]
    rw [hv]
    exact Nat.mod_lt _ (Nat.two_pow_pos _)
  vstartFits := by decide
  mepcFits := launchWord_fits ..
  mcauseFits := by decide
  mtvalFits := launchWord_fits ..
  mtvecFits := launchWord_fits ..
  config := .inl ⟨rfl, rfl⟩

/-- Settles O57: every field named is a literal of the reset state. -/
theorem resetValues : Obligations.ResetValues := by
  refine ⟨by decide, rfl, rfl, rfl, rfl, rfl, fun _ => rfl, rfl, rfl, rfl, rfl, rfl, rfl⟩

/-! ## Values within XLEN bits -/

theorem truncX_fits (p : Params) (w : Word) : fitsX p (truncX p w) := launchWord_fits p w

/-- Truncation keeps the alignment of an address. -/
theorem truncX_toNat_mod_four (p : Params) (w : Word) : (truncX p w).toNat % 4 = w.toNat % 4 := by
  rw [truncX_toNat]
  exact Nat.mod_mod_of_dvd _ (Nat.pow_dvd_pow 2 (m := 2) (by cases p.xlen <;> decide))

/-- A number below `2 ^ XLEN` as a word. -/
theorem ofNat_fits {p : Params} {n : Nat} (h : n < 2 ^ p.xlen.bits) : fitsX p (BitVec.ofNat 64 n) := by
  unfold fitsX
  rw [BitVec.toNat_ofNat]
  exact lt_of_le_of_lt (Nat.mod_le _ _) h

theorem State.illegalValue_fits (s : State) : fitsX s.params s.illegalValue := by
  unfold State.illegalValue
  split
  · split_ifs
    · exact truncX_fits ..
    · exact Nat.two_pow_pos _
  · exact Nat.two_pow_pos _

/-! ## Each update keeps the invariant -/

namespace State.Inv

variable {s : State}

theorem setPc (h : s.Inv) {w : Word} (hw : w.toNat % 4 = 0) : (s.setPc w).Inv :=
  { h with
    pcAligned := by rw [State.setPc_pc, truncX_toNat_mod_four, hw]
    pcFits := truncX_fits .. }

theorem advance (h : s.Inv) : s.advance.Inv := by
  refine h.setPc ?_
  have hal := h.pcAligned
  rw [BitVec.toNat_add]
  show (s.pc.toNat + 4) % 2 ^ 64 % 4 = 0
  omega

theorem writeX (h : s.Inv) (rd : XReg) (w : Word) : (s.writeX rd w).Inv := by
  unfold State.writeX
  split_ifs
  · exact h
  · refine { h with xFits := fun r => ?_ }
    show fitsX s.params (s.x.set rd (truncX s.params w))[r.val]
    rw [Vector.getElem_set]
    split_ifs
    · exact truncX_fits ..
    · exact h.xFits r

theorem setVelem (h : s.Inv) {eew : Nat} (hd : eew ∣ s.params.vlen) (r i : Nat) (w : BitVec eew) :
    (s.setVelem r eew i w).Inv :=
  { h with vFits := fun q => State.vreg_setVelem_lt w hd (h.vFits q) }

theorem agnosticElem (h : s.Inv) {eew : Nat} (hd : eew ∣ s.params.vlen) (r : Nat) (agnostic : Bool) (i : Nat) :
    (s.agnosticElem r eew agnostic i).Inv := by
  unfold State.agnosticElem
  split_ifs
  · exact h.setVelem hd ..
  · exact h

theorem agnosticElems (h : s.Inv) {eew : Nat} (hd : eew ∣ s.params.vlen) (r : Nat) (agnostic : Bool) (l : List Nat) :
    (s.agnosticElems r eew agnostic l).Inv := by
  induction l generalizing s with
  | nil => exact h
  | cons i rest ih => exact ih (h.agnosticElem hd r agnostic i) (by simpa using hd)

theorem fillElems (h : s.Inv) {eew : Nat} (hd : eew ∣ s.params.vlen) (r : Nat) (w : BitVec eew) (l : List Nat) :
    (s.fillElems r eew w l).Inv := by
  induction l generalizing s with
  | nil => exact h
  | cons i rest ih => exact ih (h.setVelem hd r i w) hd

theorem batchWrite (h : s.Inv) (vd : VReg) (j : Nat) (l : List DotResult) : (s.batchWrite vd j l).Inv := by
  induction l generalizing s j with
  | nil => exact h
  | cons r rest ih =>
    have hset := h.setVelem (Params.dvd_vlen_32 (Params.wf_bounds h.params).1) vd j r.bits
    have haccrued : ((s.setVelem vd 32 j r.bits).accrue r.flags).Inv := { hset with }
    exact ih haccrued (j + 1)

theorem longWrite (h : s.Inv) (vd : VReg) (r : DotResult) : (s.longWrite vd r).Inv := by
  have hd := Params.dvd_vlen_32 (Params.wf_bounds h.params).1
  have hset := (h.setVelem hd vd 0 r.bits).agnosticElems hd vd s.vta s.longTail
  exact { hset with }

theorem clearVstart (h : s.Inv) : ({ s with vstart := 0 } : State).Inv :=
  { h with vstartFits := Nat.two_pow_pos _ }

theorem markDirty (h : s.Inv) (fp : Bool) : (s.markDirty fp).Inv := { h with }

theorem retireVector (h : s.Inv) : s.retireVector.Inv := by
  have hdrawn : ({ s with vstart := 0, draws := s.draws + 1 } : State).Inv := { h.clearVstart with }
  exact hdrawn.advance

/-- Storing bytes inside the address space. -/
theorem storeBytes (h : s.Inv) {a : Nat} {l : List Byte} (ha : a + l.length ≤ 2 ^ s.params.xlen.bits) :
    ({ s with mem := s.mem.writeBytes a l } : State).Inv :=
  { h with
    memCanonical := Memory.writeBytes_wf h.memCanonical a l
    memInSpace := fun c hc => by
      rcases Memory.mem_writeBytes hc with ⟨_, hlt⟩ | hc
      · exact lt_of_lt_of_le hlt ha
      · exact h.memInSpace c hc }

/-- Taking an exception keeps the invariant where its value fits. -/
theorem takeException (h : s.Inv) (cause : Cause) {value : Word} (hv : fitsX s.params value) :
    (s.takeException cause value).Inv := by
  unfold State.takeException
  split
  · exact { h with }
  · refine { h with
      pcAligned := ?_, pcFits := truncX_fits .., mepcFits := h.pcFits, mcauseFits := ofNat_fits ?_, mtvalFits := hv }
    · show (truncX s.params s.trapBase).toNat % 4 = 0
      rw [truncX_toNat_mod_four, State.trapBase, BitVec.toNat_ofNat]
      omega
    · calc cause.code < 2 ^ 3 := by cases cause <;> decide
        _ ≤ 2 ^ s.params.xlen.bits := Nat.pow_le_pow_right (by norm_num) (by cases s.params.xlen <;> decide)

theorem raiseIllegal (h : s.Inv) : s.raiseIllegal.Inv := h.takeException _ s.illegalValue_fits

theorem raiseDotIllegal (h : s.Inv) : s.raiseDotIllegal.Inv := h.clearVstart.raiseIllegal

/-- `vl` is at most VLEN. -/
theorem vl_le_vlen (h : s.Inv) : s.vl.toNat ≤ s.params.vlen := by
  rcases h.config with ⟨_, hvl⟩ | ⟨_, hvl⟩
  · simp [hvl]
  · exact hvl.trans (vlmaxOf_le ..)

/-- The exception at a body element of a load or store leaves a `vstart` that fits. -/
theorem atElement (h : s.Inv) {i : Nat} (hi : i < s.params.vlen) (n : Nat) :
    ({ s with vstart := BitVec.ofNat 64 i, draws := n } : State).Inv :=
  { h with vstartFits := ofNat_fits (hi.trans (Params.vlen_lt h.params)) }

/-- Writing the configuration that `vsetvli` leaves, of a supported or an unsupported setting. -/
theorem setVectorConfig (h : s.Inv) (rd : XReg) {vtype : Word} {vl : Nat}
    (hc : (vtype = villVtype s.params ∧ vl = 0) ∨ (supportedVtype s.params vtype = true ∧ vl ≤ vlmaxOf s.params vtype)) :
    (s.setVectorConfig rd vtype vl).Inv := by
  have hconfig : ({ s with vtype := vtype, vl := BitVec.ofNat 64 vl, vstart := 0 } : State).Inv := by
    refine { h.clearVstart with config := ?_ }
    rcases hc with ⟨rfl, rfl⟩ | ⟨hs, hvl⟩
    · exact .inl ⟨rfl, rfl⟩
    · refine .inr ⟨hs, ?_⟩
      show (BitVec.ofNat 64 vl).toNat ≤ vlmaxOf s.params vtype
      rwa [ofNat_vl_toNat h.params (hvl.trans (vlmaxOf_le ..))]
  exact (hconfig.writeX rd _).advance

end State.Inv

/-! ## Loads and stores -/

/-- The body elements of a vector instruction lie below VLEN. -/
theorem State.Inv.bodyIndices_lt {s : State} (h : s.Inv) {i : Nat} (hi : i ∈ s.bodyIndices) : i < s.params.vlen := by
  have hvl := h.vl_le_vlen
  simp only [State.bodyIndices, List.mem_range'_1] at hi
  omega

/-- The value of an exception at an element of a load is its address. -/
theorem loadElem_trap_addr {eew : Nat} {vd : VReg} {rs1 : XReg} {masked : Bool} {s : State} {i : Nat} {cause : Cause}
    {addr : Word} (h : loadElem eew vd rs1 masked s i = .trap cause addr) : addr = s.elemAddr rs1 eew i := by
  unfold loadElem at h
  grind

/-- The value of an exception at an element of a store is its address. -/
theorem storeElem_trap_addr {eew : Nat} {vs3 : VReg} {rs1 : XReg} {masked : Bool} {s : State} {i : Nat} {cause : Cause}
    {addr : Word} (h : storeElem eew vs3 rs1 masked s i = .trap cause addr) : addr = s.elemAddr rs1 eew i := by
  unfold storeElem at h
  grind

/-- An element of a load keeps the invariant. -/
theorem loadElem_inv {eew : Nat} {vd : VReg} {rs1 : XReg} {masked : Bool} {u u' : State} {i : Nat} (h : u.Inv)
    (hd : eew ∣ u.params.vlen) (hstep : ElemStep (loadElem eew vd rs1 masked) u u' i) : u'.Inv := by
  rcases loadElem_cases hstep with ⟨w, rfl⟩ | rfl
  · exact h.setVelem hd ..
  · exact h.agnosticElem hd ..

/-- Launch memory lies in the address space. -/
theorem inMemory_le {p : Params} (hwf : p.wf = true) {a n : Nat} (hn : 0 < n) (h : inMemory p a n) :
    a + n ≤ 2 ^ p.xlen.bits := by
  obtain ⟨r, hr, -, hlt⟩ := h (n - 1) (by omega)
  have hregion : r.base + r.size ≤ 2 ^ p.xlen.bits := by
    simp only [Params.wf, Bool.and_eq_true, List.all_eq_true, Region.wf, decide_eq_true_eq] at hwf
    obtain ⟨⟨-, htext⟩, hdata⟩ := hwf
    rcases List.mem_append.1 hr with hr | hr
    · exact htext r hr
    · exact hdata r hr
  omega

/-- An element of a store keeps the invariant. -/
theorem storeElem_inv {eew : Nat} {vs3 : VReg} {rs1 : XReg} {masked : Bool} {u u' : State} {i : Nat} (h : u.Inv)
    (he : 0 < eew / 8) (hstep : ElemStep (storeElem eew vs3 rs1 masked) u u' i) : u'.Inv := by
  rcases storeElem_cases hstep with rfl | ⟨⟨-, hin, -⟩, rfl⟩
  · exact h
  · exact h.storeBytes (by simpa using inMemory_le h.params he hin)

/-- A vector load keeps the invariant. -/
theorem State.Inv.vectorLoad {s t : State} (h : s.Inv) {eew : Nat} {vd : VReg} {rs1 : XReg} {masked : Bool}
    (hd : eew ∣ s.params.vlen) (ht : s.vectorLoad eew vd rs1 masked = .next t) : t.Inv := by
  refine State.transferUnder_next (P := fun u => u.Inv ∧ u.params = s.params) (R := State.Inv) h.raiseIllegal ?_ ?_ ?_
    ⟨h, rfl⟩ ht
  · intro u u' i ⟨hu, hp⟩ hstep
    exact ⟨loadElem_inv hu (hp ▸ hd) hstep, (loadElem_onlyV rfl hstep).keepsConfig.params.trans hp⟩
  · intro u ⟨hu, hp⟩
    exact (hu.agnosticElems (hp ▸ hd) ..).retireVector
  · intro u u' i n cause addr hi ⟨_, hp⟩ he ⟨hu', hp'⟩
    refine (hu'.atElement (hp' ▸ h.bodyIndices_lt hi) n).takeException cause ?_
    rw [loadElem_trap_addr he, hp', ← hp]
    exact truncX_fits ..

/-- A vector store keeps the invariant. -/
theorem State.Inv.vectorStore {s t : State} (h : s.Inv) {eew : Nat} {vs3 : VReg} {rs1 : XReg} {masked : Bool}
    (he : 0 < eew / 8) (ht : s.vectorStore eew vs3 rs1 masked = .next t) : t.Inv := by
  refine State.transferUnder_next (P := fun u => u.Inv ∧ u.params = s.params) (R := State.Inv) h.raiseIllegal ?_ ?_ ?_
    ⟨h, rfl⟩ ht
  · intro u u' i ⟨hu, hp⟩ hstep
    exact ⟨storeElem_inv hu he hstep, (storeElem_onlyMem rfl hstep).keepsConfig.params.trans hp⟩
  · intro u ⟨hu, _⟩
    exact hu.retireVector
  · intro u u' i n cause addr hi ⟨_, hp⟩ htrap ⟨hu', hp'⟩
    refine (hu'.atElement (hp' ▸ h.bodyIndices_lt hi) n).takeException cause ?_
    rw [storeElem_trap_addr htrap, hp', ← hp]
    exact truncX_fits ..

/-! ## Instructions and steps -/

/-- A long instruction that runs keeps the invariant. -/
theorem LongOp.after_inv (op : LongOp) {s : State} (h : s.Inv) (vd vs2 vs1 : VReg) (masked : Bool) :
    (op.after s vd vs2 vs1 masked).Inv := by
  unfold LongOp.after
  split_ifs
  · exact (h.markDirty op.fp).retireVector
  · exact ((h.longWrite ..).markDirty op.fp).retireVector

/-- A batched instruction that runs keeps the invariant. -/
theorem BatchOp.after_inv (op : BatchOp) {s : State} (h : s.Inv) (vd vs2 vs1 : VReg) (ci : Nat) (masked : Bool) :
    (op.after s vd vs2 vs1 ci masked).Inv := by
  unfold BatchOp.after
  split_ifs
  · exact (h.markDirty op.fp).retireVector
  · exact ((h.batchWrite ..).markDirty op.fp).retireVector

/-- Every instruction keeps the invariant. -/
theorem State.Inv.exec {s t : State} (h : s.Inv) (i : Instr) (ht : exec i s = .next t) : t.Inv := by
  induction i using Instr.byFamily with
  | long op vd vs2 vs1 masked =>
    rcases LongOp.exec_next ht with rfl | rfl
    · exact h.raiseDotIllegal
    · exact op.after_inv h ..
  | batch op vd vs2 vs1 ci masked =>
    rcases BatchOp.exec_next ht with rfl | rfl
    · exact h.raiseDotIllegal
    · exact op.after_inv h ..
  | load op vd rs1 masked =>
    rw [LoadOp.exec_eq] at ht
    exact h.vectorLoad (op.eew_dvd_vlen (Params.wf_bounds h.params).1) ht
  | add rd rs1 rs2 => cases ht; exact (h.writeX ..).advance
  | sub rd rs1 rs2 => cases ht; exact (h.writeX ..).advance
  | addi rd rs1 imm => cases ht; exact (h.writeX ..).advance
  | bne rs1 rs2 offset =>
    change execBne rs1 rs2 offset s = .next t at ht
    unfold execBne at ht
    split_ifs at ht with hne hal
    · cases ht; exact h.setPc hal
    · cases ht; exact h.takeException _ (truncX_fits ..)
    · cases ht; exact h.advance
  | vsetvli rd rs1 zimm =>
    change execVsetvli rd rs1 zimm s = .next t at ht
    rcases execVsetvli_cases rd rs1 zimm s with he | he | ⟨hs, he⟩ | he
    · rw [he] at ht; cases ht; exact h.raiseIllegal
    · rw [he] at ht; cases ht
    · rw [he] at ht; cases ht; exact h.setVectorConfig rd (.inr ⟨hs, newVl_le ..⟩)
    · rw [he] at ht; cases ht; exact h.setVectorConfig rd (.inl ⟨rfl, rfl⟩)
  | vmvVI vd simm5 =>
    rcases execVmvVI_next ht with rfl | ⟨⟨⟨_, _, _, hvill⟩, _⟩, rfl⟩
    · exact h.raiseIllegal
    · have hd := State.sew_dvd_vlen h hvill
      exact ((h.fillElems hd ..).agnosticElems (by simpa using hd) ..).retireVector
  | vse32 vs3 rs1 masked => exact h.vectorStore (by norm_num) ht

/-- No instruction changes a parameter (00_scope.md R6). -/
theorem exec_params {i : Instr} {s t : State} (ht : exec i s = .next t) : t.params = s.params := by
  induction i using Instr.byFamily with
  | long op vd vs2 vs1 masked => exact (isDot.next_keeps (.inl ⟨op, vd, vs2, vs1, masked, rfl⟩) ht).1.params
  | batch op vd vs2 vs1 ci masked => exact (isDot.next_keeps (.inr ⟨op, vd, vs2, vs1, ci, masked, rfl⟩) ht).1.params
  | load op vd rs1 masked =>
    rw [LoadOp.exec_eq] at ht
    exact (State.vectorLoad_next_keeps ht).1.params
  | add rd rs1 rs2 => cases ht; exact (s.writeX_advance_keeps rd _).1.params
  | sub rd rs1 rs2 => cases ht; exact (s.writeX_advance_keeps rd _).1.params
  | addi rd rs1 imm => cases ht; exact (s.writeX_advance_keeps rd _).1.params
  | bne rs1 rs2 offset => exact (execBne_next_keeps ht).1.params
  | vsetvli rd rs1 zimm => exact (execVsetvli_next_keeps ht).1
  | vmvVI vd simm5 => exact (execVmvVI_next_keeps ht).1.params
  | vse32 vs3 rs1 masked => exact (State.vectorStore_next_keeps ht).1.params

/-- The value of an exception of the fetch is `pc` (60_exceptions.md R264). -/
theorem State.fetch_trap_value {s : State} {cause : Cause} {value : Word} (h : s.fetch = .trap cause value) :
    value = s.pc := by
  unfold State.fetch at h
  grind

/-- What a step that goes on comes to: the state at the end, an instruction, or an exception of the fetch, whose value is `pc`
or the value of an illegal instruction. -/
theorem step_next {s t : State} (ht : step s = .next t) :
    t = s ∨ (∃ i, exec i s = .next t)
      ∨ ∃ cause value, (value = s.pc ∨ value = s.illegalValue) ∧ t = s.takeException cause value := by
  unfold step at ht
  split at ht
  · cases ht
  · split_ifs at ht with hend
    · cases ht; exact .inl rfl
    · cases hf : s.fetch with
      | instr i => rw [hf] at ht; exact .inr (.inl ⟨i, ht⟩)
      | trap cause value =>
        rw [hf] at ht; cases ht
        exact .inr (.inr ⟨cause, value, .inl (State.fetch_trap_value hf), rfl⟩)
      | invalid => rw [hf] at ht; cases ht; exact .inr (.inr ⟨_, _, .inr rfl, rfl⟩)
      | unwritten a => rw [hf] at ht; cases ht

/-- Settles O60, from what a step that goes on comes to: each of its three outcomes keeps the invariant and the parameters. -/
theorem stepKeepsInvariant : Obligations.StepKeepsInvariant := by
  intro s t h ht
  rcases step_next ht with rfl | ⟨i, hi⟩ | ⟨cause, value, hvalue, rfl⟩
  · exact ⟨h, rfl⟩
  · exact ⟨h.exec i hi, exec_params hi⟩
  · refine ⟨h.takeException cause ?_, by simp⟩
    rcases hvalue with rfl | rfl
    · exact h.pcFits
    · exact s.illegalValue_fits

end Sys2Proof.Machine
end

section
/-! SUPPORT. The fetch, decoding of an instruction of the hart, and the legality of every vector instruction. -/

namespace Sys2Proof.Machine

/-! ## The fetched word -/

/-- A step at a fetched word that decodes. -/
theorem step_of_decode {s : State} {w : Insn} {i : Instr} (h : fetches s w) (hd : decode s.params w = .ok i) :
    step s = exec i s := by
  rw [step_of_fetches h, hd]

/-- Settles O6. -/
theorem stepRunsDecoded : Obligations.StepRunsDecoded := fun _ _ _ h hd => step_of_decode h hd

/-- The patterns of the statements are the match and mask words of the rows. -/
theorem rowPatterns_eq : rowPatterns = opcodeTable.map fun row =>
    (BitVec.ofNat 32 row.matchWord, BitVec.ofNat 32 row.maskWord) := by
  decide

/-- A row of the table accepts a word exactly where the word shows its match under its mask. -/
theorem row_accepts_iff {n : Nat} (h : n < opcodeTable.length) (w : Insn) :
    opcodeTable[n].accepts w = true
      ↔ w &&& BitVec.ofNat 32 opcodeTable[n].maskWord = BitVec.ofNat 32 opcodeTable[n].matchWord := by
  have hp : n < rowPatterns.length := by rw [rowPatterns_eq, List.length_map]; exact h
  have hrow := (List.forall₂_iff_get.1 opcodeTable_accepts).2 n h hp w
  simpa [rowPatterns_eq] using hrow

/-- The row of an instruction that has a pattern. -/
theorem exists_row_of_pattern {i : Instr} {m k : Insn} (h : patternOf i = some (m, k)) :
    ∃ row ∈ opcodeTable, (∀ w, row.accepts w = true ↔ w &&& k = m) ∧ ∀ e, row.present e = extPresent e i := by
  have key : ∀ n (hn : n < opcodeTable.length), some (BitVec.ofNat 32 opcodeTable[n].matchWord,
      BitVec.ofNat 32 opcodeTable[n].maskWord) = some (m, k) → (∀ e, opcodeTable[n].present e = extPresent e i) →
      ∃ row ∈ opcodeTable, (∀ w, row.accepts w = true ↔ w &&& k = m) ∧ ∀ e, row.present e = extPresent e i := by
    intro n hn hmk he
    obtain ⟨rfl, rfl⟩ := Prod.mk.inj (Option.some.inj hmk)
    exact ⟨_, List.getElem_mem hn, row_accepts_iff hn, he⟩
  cases i with
  | vqmmaccU => exact key 0 (by decide) h fun _ => rfl
  | vqmmaccS => exact key 1 (by decide) h fun _ => rfl
  | vfwmmacc => exact key 2 (by decide) h fun _ => rfl
  | vfqmmacc => exact key 3 (by decide) h fun _ => rfl
  | vfqmmaccAlt => exact key 4 (by decide) h fun _ => rfl
  | vfmmacc => exact key 5 (by decide) h fun _ => rfl
  | vqldotu => cases h
  | vqldots => cases h
  | vfwldot => cases h
  | vfqldot => cases h
  | vfqldotAlt => cases h
  | add => exact key 6 (by decide) h fun _ => rfl
  | sub => exact key 7 (by decide) h fun _ => rfl
  | addi => exact key 8 (by decide) h fun _ => rfl
  | bne => exact key 9 (by decide) h fun _ => rfl
  | vsetvli => exact key 10 (by decide) h fun _ => rfl
  | vmvVI => exact key 11 (by decide) h fun _ => rfl
  | vle8 => exact key 12 (by decide) h fun _ => rfl
  | vle16 => exact key 13 (by decide) h fun _ => rfl
  | vle32 => exact key 14 (by decide) h fun _ => rfl
  | vse32 => exact key 15 (by decide) h fun _ => rfl

theorem longEncoding_accepts_iff (e : LongEncoding) (w : Insn) : e.accepts w = true ↔ w &&& e.mask = e.fixedBits := by
  simp [LongEncoding.accepts]

/-- A well-formed long encoding shares no word with a row (92_eei_decisions.md D2). -/
theorem no_row_accepts_of_longEncoding {e : LongEncoding} (h : e.wf = true) {w : Insn} (he : e.accepts w = true) :
    ∀ row ∈ opcodeTable, row.accepts w = false := by
  intro row hrow
  obtain ⟨-, hdisjoint⟩ := Bool.and_eq_true_iff.1 h
  have hpattern := List.all_eq_true.1 hdisjoint row hrow
  obtain ⟨n, hn, rfl⟩ := List.mem_iff_getElem.1 hrow
  rw [← Bool.not_eq_true, row_accepts_iff hn]
  exact fun hr => disjointPatterns_sound hpattern ((longEncoding_accepts_iff e w).1 he) hr

/-- Among pairwise disjoint long encodings, the one that accepts a word decodes it. -/
theorem decodeLong_of_accepts {w : Insn} {name : String} {e : LongEncoding} {mk : VReg → VReg → VReg → Bool → Instr}
    {rows : List (String × Option LongEncoding × Bool × (VReg → VReg → VReg → Bool → Instr))}
    (hmem : (name, some e, true, mk) ∈ rows) (he : e.accepts w = true)
    (hp : (rows.filterMap fun row => row.2.1).Pairwise fun a b => disjointPatterns a.fixedBits a.mask b.fixedBits b.mask = true) :
    decodeLong w rows = .ok (longOperands e mk w) := by
  induction rows with
  | nil => simp at hmem
  | cons row rest ih =>
    obtain ⟨name', enc, present, mk'⟩ := row
    cases enc with
    | none => exact ih (by simpa using hmem) (by simpa using hp)
    | some e' =>
      simp only [List.filterMap_cons, List.pairwise_cons] at hp
      rcases List.mem_cons.1 hmem with heq | hrest
      · cases heq
        simp [decodeLong, he]
      · have hno : e'.accepts w = false := by
          rw [← Bool.not_eq_true, longEncoding_accepts_iff]
          exact fun hc => disjointPatterns_sound (hp.1 e (List.mem_filterMap.2 ⟨_, hrest, rfl⟩)) hc ((longEncoding_accepts_iff e w).1 he)
        rw [decodeLong, hno]
        exact ih hrest hp.2

/-- Every long instruction stands in the table of the long encodings. -/
theorem LongOp.mem_longTable (op : LongOp) (p : Params) :
    ∃ name, (name, op.encoding p.enc, op.present p.ext, op.instr) ∈ longTable p := by
  have row (n : Nat) (hn : n < 5) : (longTable p)[n]'hn ∈ longTable p := List.getElem_mem _
  cases op with
  | vqldotu => exact ⟨_, row 0 (by decide)⟩
  | vqldots => exact ⟨_, row 1 (by decide)⟩
  | vfwldot => exact ⟨_, row 2 (by decide)⟩
  | vfqldot => exact ⟨_, row 3 (by decide)⟩
  | vfqldotAlt => exact ⟨_, row 4 (by decide)⟩

/-- A word that is an instruction of the hart decodes (30_encoding.md R87). -/
theorem decode_of_isInstruction {p : Params} {w : Insn} (hwf : p.enc.wf = true) (h : isInstruction p w) :
    ∃ i, decode p w = .ok i := by
  rcases h with ⟨i, m, k, hi, hpresent, hw⟩ | ⟨op, e, he, hpresent, hw⟩
  · obtain ⟨row, hrow, haccepts, hext⟩ := exists_row_of_pattern hi
    refine ⟨row.build w, ?_⟩
    rw [decode_of_row hrow ((haccepts w).2 hw), hext, if_pos hpresent]
  · obtain ⟨hall, hpairwise⟩ := Bool.and_eq_true_iff.1 hwf
    obtain ⟨name, hmem⟩ := op.mem_longTable p
    rw [he, hpresent] at hmem
    have haccepts := (longEncoding_accepts_iff e w).2 hw
    have hconfigured : (longTable p).filterMap (fun row => row.2.1) = p.enc.configured := rfl
    have hewf : e.wf = true := List.all_eq_true.1 hall e (hconfigured ▸ List.mem_filterMap.2 ⟨_, hmem, rfl⟩)
    refine ⟨longOperands e op.instr w, ?_⟩
    rw [decode_of_no_row (no_row_accepts_of_longEncoding hewf haccepts),
      decodeLong_of_accepts hmem haccepts (hconfigured ▸ of_decide_eq_true hpairwise)]

/-- Settles O8. -/
theorem instructionIsRun : Obligations.InstructionIsRun := by
  intro s w hwf hfetch hinstr
  obtain ⟨i, hi⟩ := decode_of_isInstruction hwf hinstr
  exact ⟨i, hi, step_of_decode hfetch hi⟩

/-! ## A placed word -/

/-- Decoding depends on `EXT` and `ENC_*` only (30_encoding.md R87). -/
theorem decode_congr {p p' : Params} (he : p'.ext = p.ext) (hc : p'.enc = p.enc) (w : Insn) : decode p' w = decode p w := by
  unfold decode longTable
  rw [he, hc]

/-- The bytes of a word, as the statements write them (20_memory.md R61). -/
theorem bytesOfInsn_getElem? (w : Insn) {k : Nat} (h : k < 4) : (bytesOfInsn w)[k]? = some (byteOf w k) := by
  have hbyte (n : Nat) : BitVec.ofNat 8 (w.toNat / 2 ^ (8 * n)) = byteOf w n := by
    apply BitVec.eq_of_toNat_eq
    rw [BitVec.extractLsb'_toNat, BitVec.toNat_ofNat, Nat.shiftRight_eq_div_pow]
  interval_cases k
  · simpa [bytesOfInsn] using hbyte 0
  · simpa [bytesOfInsn] using hbyte 1
  · simpa [bytesOfInsn] using hbyte 2
  · simpa [bytesOfInsn] using hbyte 3

/-- Placing a word makes it program text at `pc`. -/
theorem State.placeAtPc_text (s : State) (w : Insn) : inText (s.placeAtPc w).params s.pc.toNat 4 = true := by
  unfold State.placeAtPc
  by_cases h : inText s.params s.pc.toNat 4 = true
  · simp only [h, if_true]
    exact h
  · rw [inText_iff]
    intro k hk
    exact ⟨⟨s.pc.toNat, 4⟩, by simp [h], by simp, by simpa using hk⟩

/-- The machine fetches the word placed at an aligned `pc` (log entry 9). -/
theorem State.placeAtPc_fetches {s : State} (hal : s.pc.toNat % 4 = 0) (w : Insn) : fetches (s.placeAtPc w) w := by
  refine ⟨rfl, ?_, hal, (inText_iff _ _ _).1 (s.placeAtPc_text w), fun k hk => ?_⟩
  · show (if s.atEnd then none else s.params.endPc) ≠ some s.pc
    split_ifs with hend
    · exact nofun
    · simpa [State.atEnd] using hend
  · show (s.mem.writeBytes s.pc.toNat (bytesOfInsn w)).read (s.pc.toNat + k) = _
    rw [Memory.read_writeBytes_same hk, bytesOfInsn_getElem? w hk]

/-- Settles O9: the placed word is fetched, and decodes as before since `EXT` and `ENC_*` are unchanged. -/
theorem placedWordRunsNext : Obligations.PlacedWordRunsNext := by
  intro s nbits w i hal hd
  refine ⟨_, rfl, step_of_decode (State.placeAtPc_fetches hal _) ((decode_congr rfl rfl _).trans hd), rfl, fun a ha => ?_⟩
  exact Memory.read_writeBytes_other ha

/-! ## Legality -/

/-- One of the eleven under a cause of 60_exceptions.md R262 takes the illegal-instruction exception. -/
theorem isDot.takesDotIllegal {i : Instr} (h : isDot i) {s : State} (hi : illegalFor s i) :
    takesDotIllegal s (exec i s) := by
  rcases h.exec_cases s with ⟨-, he⟩ | ⟨hn, -⟩ | ⟨hn, -⟩
  · rw [he]
    exact s.raiseDotIllegal_takesDotIllegal
  · exact absurd hi hn
  · exact absurd hi hn

/-- A vector load that is not enabled takes the illegal-instruction exception. -/
theorem State.vectorLoad_illegal {s : State} (h : ¬enabled s true false) (eew : Nat) (vd : VReg) (rs1 : XReg)
    (masked : Bool) : s.vectorLoad eew vd rs1 masked = .next s.raiseIllegal := by
  unfold State.vectorLoad State.transferUnder
  rw [(State.memLegal_illegal_iff ..).2 h]

/-- A vector store that is not enabled takes the illegal-instruction exception. -/
theorem State.vectorStore_illegal {s : State} (h : ¬enabled s true false) (eew : Nat) (vs3 : VReg) (rs1 : XReg)
    (masked : Bool) : s.vectorStore eew vs3 rs1 masked = .next s.raiseIllegal := by
  unfold State.vectorStore State.transferUnder
  rw [(State.memLegal_illegal_iff ..).2 h]

/-- Settles O12, family by family. -/
theorem disabledIsIllegal : Obligations.DisabledIsIllegal := by
  intro i s h
  refine ⟨fun hdot => hdot.takesDotIllegal h, fun hdot => ?_⟩
  induction i using Instr.byFamily with
  | long op vd vs2 vs1 masked => exact absurd (.inl ⟨op, vd, vs2, vs1, masked, rfl⟩) hdot
  | batch op vd vs2 vs1 ci masked => exact absurd (.inr ⟨op, vd, vs2, vs1, ci, masked, rfl⟩) hdot
  | load op vd rs1 masked =>
    have hne : ¬enabled s true false := by
      rw [not_enabled_iff]
      cases op <;> simpa [illegalFor, extPresent, LoadOp.instr, usesVector, isFpForm, dependsOnVtype] using h
    rw [LoadOp.exec_eq, State.vectorLoad_illegal hne]
    exact s.raiseIllegal_takesIllegal
  | add rd rs1 rs2 => simp [illegalFor, extPresent, usesVector, isFpForm, dependsOnVtype] at h
  | sub rd rs1 rs2 => simp [illegalFor, extPresent, usesVector, isFpForm, dependsOnVtype] at h
  | addi rd rs1 imm => simp [illegalFor, extPresent, usesVector, isFpForm, dependsOnVtype] at h
  | bne rs1 rs2 offset => simp [illegalFor, extPresent, usesVector, isFpForm, dependsOnVtype] at h
  | vsetvli rd rs1 zimm =>
    have hoff : s.mstatus.vs = .off := by
      simpa [illegalFor, extPresent, usesVector, isFpForm, dependsOnVtype] using h
    have he : exec (.vsetvli rd rs1 zimm) s = .next s.raiseIllegal := if_pos hoff
    rw [he]
    exact s.raiseIllegal_takesIllegal
  | vmvVI vd simm5 =>
    have hne : ¬enabled s true false := by
      rw [not_enabled_iff]
      simpa [illegalFor, extPresent, usesVector, isFpForm, dependsOnVtype] using h
    have he : exec (.vmvVI vd simm5) s = .next s.raiseIllegal := by
      show execVmvVI vd simm5 s = _
      rw [execVmvVI, (s.moveLegal_illegal_iff vd).2 hne, underVerdict]
    rw [he]
    exact s.raiseIllegal_takesIllegal
  | vse32 vs3 rs1 masked =>
    have hne : ¬enabled s true false := by
      rw [not_enabled_iff]
      simpa [illegalFor, extPresent, usesVector, isFpForm, dependsOnVtype] using h
    have he : exec (.vse32 vs3 rs1 masked) s = .next s.raiseIllegal := State.vectorStore_illegal hne ..
    rw [he]
    exact s.raiseIllegal_takesIllegal

/-- Settles O13, from what one of the eleven can come to. -/
theorem dotExceptionsOnlyIllegal : Obligations.DotExceptionsOnlyIllegal := by
  intro i s hdot
  refine ⟨fun h => hdot.takesDotIllegal h, fun h => ?_⟩
  rcases hdot.exec_cases s with ⟨hi, -⟩ | ⟨-, he⟩ | ⟨-, -, fp, t, he, hframe⟩
  · exact absurd hi h
  · exact .inl he
  · refine .inr ⟨t, he, ?_⟩
    rw [hframe]
    exact ⟨rfl, rfl, rfl, rfl, rfl, rfl, rfl, rfl, rfl⟩

/-- The exception of one of the eleven is recorded with `vstart` 0 (log entry 29). -/
theorem State.raiseDotIllegal_record {s : State} {record : TrapRecord} (h : s.raiseDotIllegal.stopped = some record)
    (hs : s.stopped = none) : record.vstart = 0 := by
  simp only [State.raiseDotIllegal, State.raiseIllegal, State.takeException] at h
  split at h
  · cases h; rfl
  · rw [hs] at h; cases h

/-- Settles O14, from what one of the eleven can come to. -/
theorem nonzeroVstartIsReserved : Obligations.NonzeroVstartIsReserved := by
  intro i s hdot
  rcases hdot.exec_cases s with ⟨hi, he⟩ | ⟨-, he⟩ | ⟨-, hvstart, fp, u, he, hframe⟩
  · refine ⟨fun h => absurd hi h, fun t ht => ?_⟩
    rw [he] at ht
    cases ht
    exact ⟨by simp [State.raiseDotIllegal, State.raiseIllegal], fun _ => State.raiseDotIllegal_record⟩
  · refine ⟨fun _ _ => he, fun t ht => ?_⟩
    rw [he] at ht
    cases ht
  · refine ⟨fun _ hne => absurd hvstart hne, fun t ht => ?_⟩
    rw [he] at ht
    cases ht
    rw [hframe]
    exact ⟨rfl, fun record hr hs => absurd (hr.symm.trans hs) nofun⟩

/-- Settles O15. -/
theorem longLegality : Obligations.LongLegality := by
  intro op s vd vs2 vs1 masked
  refine ⟨fun hr => ⟨_, LongOp.exec_runs hr⟩, fun he => ?_, LongOp.exec_reserved⟩
  rw [LongOp.exec_illegal he]
  exact s.raiseDotIllegal_takesDotIllegal

/-- Settles O16. -/
theorem batchLegality : Obligations.BatchLegality := by
  intro op s vd vs2 vs1 ci masked
  refine ⟨fun hr => ⟨_, BatchOp.exec_runs hr⟩, fun he => ?_, BatchOp.exec_reserved⟩
  rw [BatchOp.exec_illegal he]
  exact s.raiseDotIllegal_takesDotIllegal

/-- Settles O30, from what one of the eleven can come to. -/
theorem dotsEndAtNextPc : Obligations.DotsEndAtNextPc := by
  intro i s hdot h
  rcases hdot.exec_cases s with ⟨hi, -⟩ | ⟨-, he⟩ | ⟨-, -, fp, t, he, hframe⟩
  · exact absurd hi h
  · exact .inl he
  · exact .inr ⟨t, he, congrArg State.pc hframe⟩

/-! ## Reserved configurations of the host subset -/

/-- `vmv.v.i` that is enabled but does not run stops on the reserved configuration (43_host_subset.md R241). -/
theorem execVmvVI_reserved {s : State} {vd : VReg} (he : enabled s true false) (hr : ¬moveRuns s vd) (simm5 : BitVec 5) :
    execVmvVI vd simm5 s = .fault .reservedInstruction := by
  unfold execVmvVI
  cases hv : s.moveLegal vd with
  | legal => exact absurd ((s.moveLegal_legal_iff vd).1 hv) hr
  | illegal => exact absurd he ((s.moveLegal_illegal_iff vd).1 hv)
  | reserved => rfl

/-- The verdict of a vector load or store that is enabled but does not run (43_host_subset.md R247). -/
theorem State.memLegal_reserved {s : State} {eew : Nat} {reg : VReg} {load masked : Bool} (he : enabled s true false)
    (hr : ¬memRuns s eew reg load masked) : s.memLegal eew reg load masked = .reserved := by
  cases hv : s.memLegal eew reg load masked with
  | legal => exact absurd ((State.memLegal_legal_iff ..).1 hv) hr
  | illegal => exact absurd he ((State.memLegal_illegal_iff ..).1 hv)
  | reserved => rfl

/-! ## The progress of a load -/

/-- What a load has written so far: vector registers only, and where it is masked not the mask. -/
def LoadProgress (s u : State) (masked : Bool) : Prop := OnlyV s u ∧ (masked = true → u.vreg 0 = s.vreg 0)

theorem LoadProgress.refl (s : State) (masked : Bool) : LoadProgress s s masked := ⟨rfl, fun _ => rfl⟩

/-- The elements that take part stay the same during a load. -/
theorem LoadProgress.active {s u : State} {masked : Bool} (h : LoadProgress s u masked) (i : Nat) :
    u.active masked i = s.active masked i := by
  cases masked with
  | false => rfl
  | true => simp [State.active, State.maskBit, h.2]

/-- An element of a load that is not masked by its own destination keeps what a load has written so far. -/
theorem LoadProgress.step {s u u' : State} {eew : Nat} {vd : VReg} {rs1 : XReg} {masked : Bool} {i : Nat}
    (h : LoadProgress s u masked) (hmask : ¬(masked = true ∧ vd = 0))
    (hstep : ElemStep (loadElem eew vd rs1 masked) u u' i) : LoadProgress s u' masked := by
  refine ⟨loadElem_onlyV h.1 hstep, fun hm => ?_⟩
  have hvd : 0 ≠ u.elemReg vd eew i := by
    have hne : vd.val ≠ 0 := fun hc => hmask ⟨hm, Fin.ext hc⟩
    have hle : vd.val ≤ u.elemReg vd eew i := Nat.le_add_right ..
    omega
  rw [← h.2 hm]
  rcases loadElem_cases hstep with ⟨w, rfl⟩ | rfl
  · exact State.vreg_setVelem_other w hvd
  · exact State.vreg_agnosticElem_other hvd

/-- What `loadable` and its parts say stays the same during a load. -/
theorem LoadProgress.loadable_iff {s u : State} {masked : Bool} (h : LoadProgress s u masked) (rs1 : XReg) (eew i : Nat) :
    loadable u rs1 eew i ↔ loadable s rs1 eew i := by
  rw [h.1]; rfl

/-- A load whose elements up to an element are transferred. -/
theorem LoadProgress.transfer {s : State} {eew : Nat} {vd : VReg} {rs1 : XReg} {masked : Bool} {i : Nat}
    {finish : State → State} (h8 : 8 ∣ eew) (hmask : ¬(masked = true ∧ vd = 0)) (hi : s.vstart.toNat ≤ i)
    (hivl : i < s.vl.toNat) (hload : ∀ j < i, accessed s masked j → loadable s rs1 eew j) :
    ∃ u, LoadProgress s u masked ∧ transferElems (loadElem eew vd rs1 masked) finish s s.bodyIndices
      = transferElems (loadElem eew vd rs1 masked) finish u (List.range' i (s.vl.toNat - i)) := by
  have hstep : ∀ j u, s.vstart.toNat ≤ j → j < s.vstart.toNat + (i - s.vstart.toNat) → LoadProgress s u masked →
      ∃ u', loadElem eew vd rs1 masked u j = .done u' ∧ LoadProgress s u' masked := by
    intro j u hj hji hu
    have hdone : ∃ u', loadElem eew vd rs1 masked u j = .done u' := by
      by_cases ha : u.active masked j = true
      · have hacc : accessed s masked j := ⟨hj, by omega, (s.active_iff masked j).1 (hu.active j ▸ ha)⟩
        obtain ⟨w, hw, -⟩ := loadElem_active (vd := vd) h8 ha ((hu.loadable_iff ..).2 (hload j (by omega) hacc))
        exact ⟨_, hw⟩
      · exact ⟨_, loadElem_inactive (Bool.not_eq_true _ ▸ ha)⟩
    obtain ⟨u', hu'⟩ := hdone
    exact ⟨u', hu', hu.step hmask (.inl hu')⟩
  obtain ⟨u, hu, hq⟩ := transferElems_range' (finish := finish) (Q := fun _ u => LoadProgress s u masked)
    (s.vl.toNat - s.vstart.toNat) hstep (.refl s masked) (by omega)
  refine ⟨u, hq, ?_⟩
  rw [State.bodyIndices, hu, show s.vstart.toNat + (i - s.vstart.toNat) = i by omega,
    show s.vl.toNat - s.vstart.toNat - (i - s.vstart.toNat) = s.vl.toNat - i by omega]

/-- Settles O17: the reserved verdicts, and a load that is transferred up to the element with an unwritten byte. -/
theorem hostVectorStops : Obligations.HostVectorStops := by
  intro s he
  refine ⟨fun vd simm5 hr => execVmvVI_reserved he hr simm5, fun op vd rs1 masked hr => ?_, fun vs3 rs1 masked hr => ?_,
    fun op vd rs1 masked i _ hr hacc hload hal hin hunwritten => ?_⟩
  · rw [LoadOp.exec_eq, State.vectorLoad, State.memLegal_reserved he hr, State.transferUnder]
  · show s.vectorStore 32 vs3 rs1 masked = _
    rw [State.vectorStore, State.memLegal_reserved he hr, State.transferUnder]
  · obtain ⟨hvstart, hvl, hmasked⟩ := hacc
    have ⟨_, _, _, _, _, _, hmask⟩ := hr
    obtain ⟨u, hu, htransfer⟩ := LoadProgress.transfer (finish := finishLoad op.eew vd) op.eight_dvd_eew
      (by simpa using hmask) hvstart hvl hload
    have ha : u.active masked i = true := by rw [hu.active, State.active_iff]; exact hmasked
    have hparts : elemAligned u rs1 op.eew i ∧ inMemory u.params (elemAddress u rs1 op.eew i) (op.eew / 8)
        ∧ ¬elemWritten u rs1 op.eew i ∧ u.mem = s.mem ∧ ∀ a, inElement u rs1 op.eew i a → inElement s rs1 op.eew i a := by
      rw [hu.1]
      exact ⟨hal, hin, hunwritten, rfl, fun _ h => h⟩
    obtain ⟨hal', hin', hunwritten', hmem, helem⟩ := hparts
    obtain ⟨a, hina, hread, helemOutcome⟩ := loadElem_unwritten (vd := vd) ha hal' hin' hunwritten'
    refine ⟨a, helem a hina, hmem ▸ hread, ?_⟩
    rw [LoadOp.exec_eq, State.vectorLoad_of_runs hr, htransfer]
    exact transferElems_unwritten (by omega) helemOutcome

end Sys2Proof.Machine
end

section
/-! SUPPORT. The integer registers, the CSRs, the vector configuration and `vfmmacc.vv`. -/

namespace Sys2Proof.Machine

/-! ## Integer arithmetic -/

/-- What an integer operation leaves: its result in `x[rd]` and the next `pc`, the rest unchanged (43_host_subset.md R233). -/
theorem State.writeX_advance_spec (s : State) (rd : XReg) (w : Word) :
    (s.writeX rd w).advance = { s with x := (s.writeX rd w).advance.x, pc := nextPc s }
      ∧ ∀ r, (s.writeX rd w).advance.readX r = if r = rd ∧ rd ≠ 0 then truncX s.params w else s.readX r := by
  refine ⟨?_, fun r => State.readX_writeX s rd r w⟩
  rw [State.advance_eq, State.writeX_eq]

/-- Truncation of a word is its integer value modulo `2 ^ XLEN`, whatever multiple of `2 ^ 64` it differs by. -/
theorem truncX_toInt_emod (p : Params) {w : Word} {z : Int} (h : (w.toNat : Int) = z % (2 ^ 64 : Nat)) :
    ((truncX p w).toNat : Int) = z % 2 ^ p.xlen.bits := by
  rw [truncX_toNat, Int.natCast_mod, h, Int.emod_emod_of_dvd _ (XLen.two_pow_bits_dvd_int p)]
  norm_cast

/-- Settles O34. -/
theorem integerArithmetic : Obligations.IntegerArithmetic := by
  intro s rd rs1 rs2 imm
  refine ⟨?_, ?_, ?_⟩
  · obtain ⟨hframe, hread⟩ := s.writeX_advance_spec rd (s.readX rs1 + s.readX rs2)
    refine ⟨_, rfl, hframe, fun r => ?_⟩
    rw [hread]
    split_ifs
    · rw [truncX_toNat, BitVec.toNat_add, Nat.mod_mod_of_dvd _ (XLen.two_pow_bits_dvd _)]
    · rfl
  · obtain ⟨hframe, hread⟩ := s.writeX_advance_spec rd (s.readX rs1 - s.readX rs2)
    refine ⟨_, rfl, hframe, fun r => ?_⟩
    rw [hread]
    split_ifs
    · refine truncX_toInt_emod _ ?_
      have := (s.readX rs1).isLt
      have := (s.readX rs2).isLt
      rw [BitVec.toNat_sub]
      omega
    · rfl
  · obtain ⟨hframe, hread⟩ := s.writeX_advance_spec rd (s.readX rs1 + sextX s.params imm)
    refine ⟨_, rfl, hframe, fun r => ?_⟩
    rw [hread]
    split_ifs
    · have hsum : ((s.readX rs1 + sextX s.params imm).toNat : Int)
          = ((s.readX rs1).toNat + (sextX s.params imm).toNat : Int) % (2 ^ 64 : Nat) := by
        rw [BitVec.toNat_add]; norm_cast
      rw [truncX_toInt_emod _ hsum, sextX_toNat _ (by decide)]
      push_cast
      rw [Int.add_emod_emod]
    · rfl

/-! ## CSRs -/

/-- The bits of a word from bit `k` up. -/
theorem setWidth_ushiftRight (w : Word) (k n : Nat) : (w >>> k).setWidth n = w.extractLsb' k n := by
  ext i hi
  simp [BitVec.getElem_setWidth, BitVec.getElem_extractLsb']

/-- The low bits of a word. -/
theorem setWidth_eq_extractLsb' (w : Word) (n : Nat) : w.setWidth n = w.extractLsb' 0 n := by
  simpa using setWidth_ushiftRight w 0 n

/-- The low byte of `fcsr` after it was written (10_state.md R45). -/
theorem State.fcsr_of_write {s : State} {w : Word} (hfrm : s.frm = w.extractLsb' 5 3)
    (hfflags : s.fflags = w.extractLsb' 0 5) : s.fcsr.extractLsb' 0 8 = w.extractLsb' 0 8 := by
  apply BitVec.eq_of_toNat_eq
  simp only [State.fcsr, hfrm, hfflags, BitVec.extractLsb'_toNat, BitVec.toNat_ofNat, Nat.shiftRight_eq_div_pow]
  omega

/-- `vcsr` holds `vxrm` above `vxsat` (10_state.md R43, log entry 30). -/
theorem State.vcsr_fields (s : State) :
    s.vcsr.extractLsb' 1 2 = s.vxrm ∧ s.vcsr.extractLsb' 0 1 = s.vxsat ∧ s.vcsr.toNat < 8 := by
  have hrm := s.vxrm.isLt
  have hsat := s.vxsat.isLt
  have hvcsr : s.vcsr.toNat = s.vxrm.toNat * 2 + s.vxsat.toNat := by
    rw [State.vcsr, BitVec.toNat_ofNat]
    omega
  refine ⟨BitVec.eq_of_toNat_eq ?_, BitVec.eq_of_toNat_eq ?_, by omega⟩
  · rw [BitVec.extractLsb'_toNat, hvcsr, Nat.shiftRight_eq_div_pow]
    omega
  · rw [BitVec.extractLsb'_toNat, hvcsr, Nat.shiftRight_eq_div_pow]
    omega

/-- Settles O58: each CSR by its number, the low bits a write keeps, and the two views `fcsr` and `vcsr`. -/
theorem csrViews : Obligations.CsrViews := by
  intro s w
  have hfrm := setWidth_ushiftRight w 5 3
  have hfflags := setWidth_eq_extractLsb' w 5
  refine ⟨⟨_, rfl, hfrm, hfflags, rfl, rfl, rfl, ?_⟩, rfl, rfl, rfl, rfl, ⟨s.vcsr, rfl, s.vcsr_fields⟩, ?_, ?_, rfl, ?_, ?_, ?_,
    rfl, rfl, rfl, rfl, rfl, rfl, rfl⟩
  · exact congrArg some (State.fcsr_of_write hfrm hfflags)
  · exact hfflags ▸ rfl
  · exact setWidth_eq_extractLsb' w 3 ▸ rfl
  · exact setWidth_eq_extractLsb' w 1 ▸ rfl
  · exact setWidth_eq_extractLsb' w 2 ▸ rfl
  · exact setWidth_ushiftRight w 1 2 ▸ setWidth_eq_extractLsb' w 1 ▸ rfl

/-! ## Vector configuration -/

/-- Settles O36: the refusal, and the two configurations that `vsetvli` writes (43_host_subset.md R238). -/
theorem vectorConfiguration : Obligations.VectorConfiguration := by
  intro s rd rs1 zimm hwf hvs
  have hexec : exec (.vsetvli rd rs1 zimm) s = execVsetvli rd rs1 zimm s := rfl
  rw [hexec, execVsetvli, if_neg hvs]
  refine ⟨fun hkeep => if_pos hkeep, fun hkeep => ?_⟩
  rw [if_neg hkeep]
  by_cases hs : supportedSetting s.params zimm
  · have ⟨_, _, hvlmul, _⟩ := hs
    have hvlmax := vlmaxOf_eq_settingVlmax s.params zimm hvlmul
    have hle := (newVl_le (s.avl rs1) (vlmaxOf s.params (zimm.setWidth 64))).trans (vlmaxOf_le ..)
    rw [if_pos ((supportedVtype_iff ..).2 hs)]
    refine ⟨_, rfl, ?_, fun r => ?_, fun hn => absurd hs hn, fun _ => ⟨?_, ?_⟩⟩
    · rw [State.setVectorConfig_vtype, State.setVectorConfig_vl]
      exact State.setVectorConfig_eq ..
    · rw [State.setVectorConfig_readX rd _ hwf hle, State.setVectorConfig_vl]
    · rw [State.setVectorConfig_vtype, setWidth_zimm_toNat]
    · rw [State.setVectorConfig_vl, ofNat_vl_toNat hwf hle, hvlmax]
      have havl : s.avl rs1 = avlOf s rs1 := rfl
      rw [havl]
      refine ⟨fun h => ?_, fun h => ?_, newVl_ge, newVl_le ..⟩
      · simp [newVl, h]
      · unfold newVl
        split_ifs <;> omega
  · rw [if_neg (by rw [supportedVtype_iff]; exact hs)]
    refine ⟨_, rfl, ?_, fun r => ?_, fun _ => ⟨?_, ?_⟩, fun h => absurd h hs⟩
    · rw [State.setVectorConfig_vtype, State.setVectorConfig_vl]
      exact State.setVectorConfig_eq ..
    · rw [State.setVectorConfig_readX rd _ hwf (Nat.zero_le _), State.setVectorConfig_vl]
    · rw [State.setVectorConfig_vl]; rfl
    · rw [State.setVectorConfig_vtype, villVtype, BitVec.toNat_ofNat]
      cases s.params.xlen <;> rfl

/-! ## `vfmmacc.vv` -/

/-- A valid `frm` names a rounding mode (10_state.md R41). -/
theorem roundingModeOf_isSome {f : BitVec 3} (h : f.toNat ≤ 4) : ∃ rm, roundingModeOf f = some rm := by
  unfold roundingModeOf
  generalize f.toNat = n at *
  interval_cases n <;> exact ⟨_, rfl⟩

/-- Settles O25: the shared effect of a batched instruction that runs, with its dot product read as `FP32_DOT` under the
implementation's choices. -/
theorem batchFp32Dot : Obligations.BatchFp32Dot := by
  intro s vd vs2 vs1 ci masked h5 hruns
  have ⟨_, ⟨_, _, _, _, _, hfrm⟩, hoperands⟩ := hruns
  obtain ⟨rm, hrm⟩ := roundingModeOf_isSome (hfrm rfl)
  obtain ⟨hrest, hresult⟩ := BatchOp.after_spec .vfmmacc h5 hoperands
  refine ⟨_, BatchOp.exec_runs hruns, hrest, BatchOp.after_frame .vfmmacc .., hresult.imp_left fun hr => ?_⟩
  have hpair : BatchOp.pair .vfmmacc s vd vs2 vs1 ci = fun n =>
      let d := fp32Dot freeFp32Choices rm s.frm s.vlmax s.vl.toNat (fp32Factors s (vs2.val + n)) (fp32Factors s vs1)
        (s.velem vd 32 (ci + n))
      (d.bits, d.flags) := by
    funext n
    have hdot : BatchOp.dot .vfmmacc s = fp32Dot freeFp32Choices rm s.frm s.vlmax s.vl.toNat := by
      show s.fp32DotOf = _
      funext A B C
      rw [State.fp32DotOf, hrm]
    show (let d := BatchOp.dot .vfmmacc s _ _ _; (d.bits, d.flags)) = _
    rw [hdot]
    rfl
  rw [hpair] at hr
  exact ⟨freeFp32Choices, rm, hrm, hr⟩

end Sys2Proof.Machine
end

section
/-! SUPPORT. What the eleven do not read: they commute with a change of the `x` registers, of memory off the word at `pc`, and,
but for `vfmmacc.vv`, of a valid `frm` (10_state.md R22, R41; 20_memory.md R60). -/

namespace Sys2Proof.Machine

/-! ## The word at `pc` -/

/-- The same bytes are read where every read agrees. -/
theorem Memory.readBytes_congr {m m' : Memory} {a n : Nat} (h : ∀ k < n, m'.read (a + k) = m.read (a + k)) :
    m'.readBytes a n = m.readBytes a n := by
  induction n generalizing a with
  | zero => rfl
  | succ n ih =>
    have hfirst : m'.read a = m.read a := h 0 (by omega)
    have hrest : m'.readBytes (a + 1) n = m.readBytes (a + 1) n :=
      ih fun k hk => by simpa [Nat.add_assoc, Nat.add_comm 1 k] using h (k + 1) (by omega)
    rw [Memory.readBytes, Memory.readBytes, hfirst, hrest]

theorem State.wordAtPc_congr {s t : State} (h : t.mem.readBytes t.pc.toNat 4 = s.mem.readBytes s.pc.toNat 4) :
    t.wordAtPc = s.wordAtPc := by
  unfold State.wordAtPc
  rw [h]

theorem State.illegalValue_congr {s t : State} (h : t.wordAtPc = s.wordAtPc) (hp : t.params = s.params) :
    t.illegalValue = s.illegalValue := by
  unfold State.illegalValue
  rw [h, hp]

/-! ## A change of the state that the eleven do not see -/

/-- The state with other `x` registers, another memory and another `frm`. -/
def State.withOther (s : State) (x : Vector Word 32) (m : Memory) (f : BitVec 3) : State :=
  { s with x := x, mem := m, frm := f }

section Other

variable (s : State) (x : Vector Word 32) (m : Memory) (f : BitVec 3)

theorem State.withOther_agnosticElem (r eew : Nat) (agnostic : Bool) (i : Nat) :
    (s.withOther x m f).agnosticElem r eew agnostic i = (s.agnosticElem r eew agnostic i).withOther x m f := by
  have hdraws : (s.withOther x m f).draws = s.draws := rfl
  unfold State.agnosticElem
  rw [hdraws]
  split_ifs
  · rfl
  · rfl

theorem State.withOther_agnosticElems (r eew : Nat) (agnostic : Bool) (l : List Nat) :
    (s.withOther x m f).agnosticElems r eew agnostic l = (s.agnosticElems r eew agnostic l).withOther x m f := by
  induction l generalizing s with
  | nil => rfl
  | cons i rest ih => rw [State.agnosticElems, State.withOther_agnosticElem, ih]; rfl

theorem State.withOther_longWrite (vd : VReg) (r : DotResult) :
    (s.withOther x m f).longWrite vd r = (s.longWrite vd r).withOther x m f := by
  unfold State.longWrite
  have hset : (s.withOther x m f).setVelem vd 32 0 r.bits = (s.setVelem vd 32 0 r.bits).withOther x m f := rfl
  rw [hset, State.withOther_agnosticElems]
  rfl

theorem State.withOther_batchWrite (vd : VReg) (j : Nat) (l : List DotResult) :
    (s.withOther x m f).batchWrite vd j l = (s.batchWrite vd j l).withOther x m f := by
  induction l generalizing s j with
  | nil => rfl
  | cons r rest ih =>
    have hset : ((s.withOther x m f).setVelem vd 32 j r.bits).accrue r.flags
        = ((s.setVelem vd 32 j r.bits).accrue r.flags).withOther x m f := rfl
    rw [State.batchWrite, hset, ih]
    rfl

/-- A long instruction that runs commutes with the change: no long dot product reads `frm`. -/
theorem LongOp.after_withOther (op : LongOp) (vd vs2 vs1 : VReg) (masked : Bool) :
    op.after (s.withOther x m f) vd vs2 vs1 masked = (op.after s vd vs2 vs1 masked).withOther x m f := by
  have hdot : op.dot (s.withOther x m f) = op.dot s := by cases op <;> rfl
  unfold LongOp.after
  have hskips : (s.withOther x m f).skipsAtVl0 = s.skipsAtVl0 := rfl
  rw [hdot, State.withOther_longWrite, hskips]
  split_ifs
  · rfl
  · rfl

/-- A batched instruction that runs commutes with the change where its dot product does. -/
theorem BatchOp.after_withOther (op : BatchOp) (hdot : op.dot (s.withOther x m f) = op.dot s) (vd vs2 vs1 : VReg) (ci : Nat)
    (masked : Bool) :
    op.after (s.withOther x m f) vd vs2 vs1 ci masked = (op.after s vd vs2 vs1 ci masked).withOther x m f := by
  unfold BatchOp.after
  have hskips : (s.withOther x m f).skipsAtVl0 = s.skipsAtVl0 := rfl
  rw [hdot, State.withOther_batchWrite, hskips]
  split_ifs
  · rfl
  · rfl

theorem State.withOther_takeException (cause : Cause) (value : Word) :
    (s.withOther x m f).takeException cause value = (s.takeException cause value).withOther x m f := by
  unfold State.takeException State.withOther
  cases s.params.trapPolicy with
  | stop => rfl
  | enter => rfl

/-- The illegal-instruction exception commutes with the change where the word at `pc` is kept. -/
theorem State.withOther_raiseDotIllegal (hword : (s.withOther x m f).wordAtPc = s.wordAtPc) :
    (s.withOther x m f).raiseDotIllegal = s.raiseDotIllegal.withOther x m f := by
  have hvalue : State.illegalValue { s.withOther x m f with vstart := 0 } = State.illegalValue { s with vstart := 0 } :=
    State.illegalValue_congr hword rfl
  unfold State.raiseDotIllegal State.raiseIllegal
  rw [hvalue]
  exact State.withOther_takeException { s with vstart := 0 } x m f ..

/-- The eleven commute with the change, where the word at `pc` is kept, the configuration a dot product requires is, and `frm` is for
`vfmmacc.vv`. -/
theorem isDot.exec_withOther {i : Instr} (h : isDot i) (hword : (s.withOther x m f).wordAtPc = s.wordAtPc)
    (hfrm : s.frm.toNat ≤ 4 ↔ f.toNat ≤ 4) (hfp32 : f = s.frm ∨ ∀ vd vs2 vs1 ci masked, i ≠ .vfmmacc vd vs2 vs1 ci masked) :
    exec i (s.withOther x m f) = mapNext (fun t => t.withOther x m f) (exec i s) := by
  have hdotConfigured (sew : Nat) (altfmt : Option Bool) (fp : Bool) :
      dotConfigured (s.withOther x m f) sew altfmt fp ↔ dotConfigured s sew altfmt fp := by
    show (_ ∧ _ ∧ _ ∧ _ ∧ _ ∧ (fp = true → f.toNat ≤ 4)) ↔ _
    rw [← hfrm]
    rfl
  rcases h with ⟨op, vd, vs2, vs1, masked, rfl⟩ | ⟨op, vd, vs2, vs1, ci, masked, rfl⟩
  · by_cases he : enabled s (op.present s.params.ext) op.fp
    · by_cases hr : longRuns op s vd vs2 vs1 masked
      · have hr' : longRuns op (s.withOther x m f) vd vs2 vs1 masked := ⟨hr.1, (hdotConfigured ..).2 hr.2.1, hr.2.2⟩
        rw [LongOp.exec_runs hr, LongOp.exec_runs hr', LongOp.after_withOther, mapNext]
      · have hr' : ¬longRuns op (s.withOther x m f) vd vs2 vs1 masked :=
          fun hc => hr ⟨hc.1, (hdotConfigured ..).1 hc.2.1, hc.2.2⟩
        rw [LongOp.exec_reserved he hr, LongOp.exec_reserved (s := s.withOther x m f) he hr', mapNext]
    · rw [LongOp.exec_illegal he, LongOp.exec_illegal (s := s.withOther x m f) he,
        State.withOther_raiseDotIllegal s x m f hword, mapNext]
  · have hdot : op.dot (s.withOther x m f) = op.dot s := by
      rcases hfp32 with rfl | hne
      · cases op <;> rfl
      · cases op
        case vfmmacc => exact absurd rfl (hne vd vs2 vs1 ci masked)
        all_goals rfl
    by_cases he : enabled s (op.present s.params.ext) op.fp
    · by_cases hr : batchRuns op s vd vs2 vs1 ci masked
      · have hr' : batchRuns op (s.withOther x m f) vd vs2 vs1 ci masked := ⟨hr.1, (hdotConfigured ..).2 hr.2.1, hr.2.2⟩
        rw [BatchOp.exec_runs hr, BatchOp.exec_runs hr', BatchOp.after_withOther s x m f op hdot, mapNext]
      · have hr' : ¬batchRuns op (s.withOther x m f) vd vs2 vs1 ci masked :=
          fun hc => hr ⟨hc.1, (hdotConfigured ..).1 hc.2.1, hc.2.2⟩
        rw [BatchOp.exec_reserved he hr, BatchOp.exec_reserved (s := s.withOther x m f) he hr', mapNext]
    · rw [BatchOp.exec_illegal he, BatchOp.exec_illegal (s := s.withOther x m f) he,
        State.withOther_raiseDotIllegal s x m f hword, mapNext]

end Other

/-- Two changes of the next state that agree on it. -/
theorem mapNext_congr {f g : State → State} {o : Host.Outcome State Fault Refusal} (h : ∀ t, o = .next t → f t = g t) :
    mapNext f o = mapNext g o := by
  cases o with
  | next t => exact congrArg _ (h t rfl)
  | fault r => rfl
  | refused r => rfl

/-- Settles O29: the change of `x` and memory keeps `frm`, which none of the eleven writes. -/
theorem dotsIgnoreIntegerState : Obligations.DotsIgnoreIntegerState := by
  intro i s x m hdot hread
  have hword : (s.withOther x m s.frm).wordAtPc = s.wordAtPc :=
    State.wordAtPc_congr (Memory.readBytes_congr hread)
  refine (hdot.exec_withOther s x m s.frm hword .rfl (.inl rfl)).trans (mapNext_congr fun t ht => ?_)
  rw [State.withOther, ← (hdot.next_keeps ht).1.frm]

/-- Settles O31: the change of `frm` keeps `x` and memory, which none of the eleven writes. -/
theorem bulkIgnoresFrm : Obligations.BulkIgnoresFrm := by
  intro i s f hdot hne hs hf
  refine (hdot.exec_withOther s s.x s.mem f rfl (iff_of_true hs hf) (.inr hne)).trans (mapNext_congr fun t ht => ?_)
  obtain ⟨-, hx, hmem⟩ := hdot.next_keeps ht
  rw [State.withOther, ← hx, ← hmem]

end Sys2Proof.Machine
end

section
/-! SUPPORT. A vector element of four bytes is four vector elements of one byte (10_state.md R33, 20_memory.md R61), so loads of
words and of bytes agree. -/

namespace Sys2Proof.Machine

/-! ## A field in two parts -/

/-- Setting a field is setting its lower and then its upper part. -/
theorem setBitField_split (n lsb a b value : Nat) :
    setBitField n lsb (a + b) value = setBitField (setBitField n lsb a value) (lsb + a) b (value / 2 ^ a) := by
  apply Nat.eq_of_testBit_eq
  intro j
  simp only [setBitField_testBit, Nat.testBit_div_two_pow]
  rw [← Nat.add_assoc]
  by_cases hbelow : j < lsb
  · simp [hbelow, Nat.lt_add_right a hbelow]
  · by_cases hlow : j < lsb + a
    · simp [hlow, Nat.lt_add_right b hlow]
    · have hbit : j - (lsb + a) + a = j - lsb := by omega
      simp [hbelow, hlow, hbit]

/-- A field depends on the low bits of the value only. -/
theorem setBitField_mod (n lsb w value : Nat) : setBitField n lsb w (value % 2 ^ w) = setBitField n lsb w value := by
  simp [setBitField]

/-- The state with a field of a vector register replaced. -/
def State.setField (s : State) (r lsb width value : Nat) : State :=
  s.setVreg r (setBitField (s.vreg r) lsb width value)

/-- There is no register past `v31` to write. -/
theorem State.setVreg_of_le {s : State} {r : Nat} (h : 32 ≤ r) (w : VBits) : s.setVreg r w = s := by
  have hv : s.v.setIfInBounds r w = s.v := Vector.setIfInBounds_eq_of_size_le h
  rw [State.setVreg, hv]

theorem State.setField_mod (s : State) (r lsb width value : Nat) :
    s.setField r lsb width (value % 2 ^ width) = s.setField r lsb width value := by
  simp [State.setField, setBitField_mod]

theorem State.setField_split (s : State) (r lsb a b value : Nat) :
    s.setField r lsb (a + b) value = (s.setField r lsb a value).setField r (lsb + a) b (value / 2 ^ a) := by
  by_cases hr : r < 32
  · have hread : (s.setField r lsb a value).vreg r = setBitField (s.vreg r) lsb a value := by
      simp [State.setField, State.vreg_setVreg, hr]
    rw [State.setField, State.setField, hread, setBitField_split]
    simp [State.setField, State.setVreg]
  · simp only [State.setField, State.setVreg_of_le (Nat.not_lt.1 hr)]

/-- Writing an element sets its field. -/
theorem State.setVelem_eq_setField {s : State} {r eew i q lsb : Nat} (hq : s.elemReg r eew i = q)
    (hlsb : s.elemLsb eew i = lsb) (w : BitVec eew) : s.setVelem r eew i w = s.setField q lsb eew w.toNat := by
  rw [← hq, ← hlsb]; rfl

/-! ## A word element as four byte elements -/

/-- Byte `k` of a word element stands in the word's register, `8 * k` bits above the word (10_state.md R33). -/
theorem State.byteElem_place {s : State} (h : 32 ∣ s.params.vlen) (r i : Nat) {k : Nat} (hk : k < 4) :
    s.elemReg r 8 (4 * i + k) = s.elemReg r 32 i ∧ s.elemLsb 8 (4 * i + k) = s.elemLsb 32 i + 8 * k := by
  have hpos := s.params.vlen_pos
  have hle := State.elemLsb_add_le h i
  unfold State.elemReg State.elemLsb at *
  have hsplit : (4 * i + k) * 8 = i * 32 % s.params.vlen + 8 * k + s.params.vlen * (i * 32 / s.params.vlen) := by
    have := Nat.mod_add_div (i * 32) s.params.vlen
    omega
  have hlt : i * 32 % s.params.vlen + 8 * k < s.params.vlen := by omega
  rw [hsplit, Nat.add_mul_div_left _ _ hpos, Nat.div_eq_of_lt hlt, Nat.add_mul_mod_self_left, Nat.mod_eq_of_lt hlt]
  exact ⟨by omega, rfl⟩

theorem byteOf_toNat {n : Nat} (w : BitVec n) (k : Nat) : (byteOf w k).toNat = w.toNat / 2 ^ (8 * k) % 2 ^ 8 := by
  rw [BitVec.extractLsb'_toNat, Nat.shiftRight_eq_div_pow]

/-- The state with the four bytes of a word written to the byte elements of a word element. -/
def State.setVelemBytes (s : State) (r i : Nat) (w : BitVec 32) : State :=
  (((s.setVelem r 8 (4 * i) (byteOf w 0)).setVelem r 8 (4 * i + 1) (byteOf w 1)).setVelem r 8 (4 * i + 2)
    (byteOf w 2)).setVelem r 8 (4 * i + 3) (byteOf w 3)

/-- Writing a word element is writing its four byte elements. -/
theorem State.setVelem_word_eq_bytes {s : State} (h : 32 ∣ s.params.vlen) (r i : Nat) (w : BitVec 32) :
    s.setVelem r 32 i w = s.setVelemBytes r i w := by
  have hbyte (u : State) {k : Nat} (hk : k < 4) (hu : u.params = s.params) : u.setVelem r 8 (4 * i + k) (byteOf w k)
      = u.setField (s.elemReg r 32 i) (s.elemLsb 32 i + 8 * k) 8 (w.toNat / 2 ^ (8 * k)) := by
    obtain ⟨hq, hlsb⟩ := State.byteElem_place h r i hk
    have hq' : u.elemReg r 8 (4 * i + k) = s.elemReg r 32 i := by rw [← hq, State.elemReg, State.elemReg, hu]
    have hlsb' : u.elemLsb 8 (4 * i + k) = s.elemLsb 32 i + 8 * k := by rw [← hlsb, State.elemLsb, State.elemLsb, hu]
    rw [State.setVelem_eq_setField hq' hlsb', byteOf_toNat, State.setField_mod]
  have h0 := hbyte s (k := 0) (by decide) rfl
  simp only [Nat.mul_zero, Nat.add_zero, pow_zero, Nat.div_one] at h0
  rw [State.setVelemBytes, hbyte _ (k := 3) (by decide), hbyte _ (k := 2) (by decide), hbyte _ (k := 1) (by decide), h0,
    State.setVelem_eq_setField rfl rfl, State.setField_split _ _ _ 8 24, State.setField_split _ _ _ 8 16,
    State.setField_split _ _ _ 8 8]
  · simp [Nat.div_div_eq_div_mul, Nat.add_assoc]
  all_goals rfl

/-! ## Loading words and loading bytes -/

/-- The address of byte `k` of an aligned word element is the address of a byte element (43_host_subset.md R247). -/
theorem elemAddress_byte {s : State} {rs1 : XReg} {i k : Nat} (hal : elemAligned s rs1 32 i) (hk : k < 4) :
    elemAddress s rs1 8 (4 * i + k) = elemAddress s rs1 32 i + k := by
  unfold elemAligned elemAddress at *
  cases h : s.params.xlen with
  | x32 => rw [h] at hal; simp only [XLen.bits] at *; omega
  | x64 => rw [h] at hal; simp only [XLen.bits] at *; omega

/-- A byte element whose byte has a value is loaded. -/
theorem loadElem_byte {s : State} {vd : VReg} {rs1 : XReg} {j : Nat} {b : Byte}
    (hin : inMemory s.params (elemAddress s rs1 8 j) 1) (hread : s.mem.read (elemAddress s rs1 8 j) = some b) :
    loadElem 8 vd rs1 false s j = .done (s.setVelem vd 8 j b) := by
  have hwritten : elemWritten s rs1 8 j := fun k hk => ⟨b, by
    obtain rfl : k = 0 := by omega
    exact hread⟩
  obtain ⟨w, hdone, hw⟩ := loadElem_active (vd := vd) (masked := false) (by decide) rfl
    (show loadable s rs1 8 j from ⟨Nat.mod_one _, hin, hwritten⟩)
  have hbyte : byteOf w 0 = w := by
    apply BitVec.eq_of_toNat_eq
    have := w.isLt
    rw [byteOf_toNat]
    omega
  have heq : some b = some (byteOf w 0) := hread.symm.trans (hw 0 (by decide))
  rw [hdone, Option.some.inj heq, hbyte]

/-- A transfer goes on after an element that is transferred. -/
theorem transferElems_cons_done {elem : State → Nat → ElemOutcome} {finish : State → State} {s s' : State} {i : Nat}
    {rest : List Nat} (h : elem s i = .done s') :
    transferElems elem finish s (i :: rest) = transferElems elem finish s' rest := by
  rw [transferElems, h]

/-- A word element that is loaded as a word, and as four bytes. -/
theorem loadElem_word_and_bytes {s u : State} {vd : VReg} {rs1 : XReg} {i : Nat} (h5 : 5 ≤ s.params.vlenLog2)
    (hload : loadable s rs1 32 i) (hu : u = { s with v := u.v, vtype := u.vtype, vl := u.vl }) (hv : u.v = s.v)
    (finish : State → State) (rest : List Nat) : ∃ w, loadElem 32 vd rs1 false s i = .done (s.setVelem vd 32 i w)
      ∧ transferElems (loadElem 8 vd rs1 false) finish u ((4 * i) :: (4 * i + 1) :: (4 * i + 2) :: (4 * i + 3) :: rest)
        = transferElems (loadElem 8 vd rs1 false) finish (u.setVelemBytes vd i w) rest
      ∧ (u.setVelemBytes vd i w).v = (s.setVelem vd 32 i w).v := by
  obtain ⟨w, hword, hread⟩ := loadElem_active (vd := vd) (masked := false) (by decide) rfl hload
  obtain ⟨hal, hin, -⟩ := hload
  have hbyte (u' : State) {k : Nat} (hk : k < 4) (hsame : u'.x = s.x ∧ u'.params = s.params ∧ u'.mem = s.mem) :
      loadElem 8 vd rs1 false u' (4 * i + k) = .done (u'.setVelem vd 8 (4 * i + k) (byteOf w k)) := by
    obtain ⟨hx, hp, hmem⟩ := hsame
    have haddr : elemAddress u' rs1 8 (4 * i + k) = elemAddress s rs1 32 i + k := by
      rw [← elemAddress_byte hal hk, elemAddress, elemAddress, State.readX, State.readX, hx, hp]
    refine loadElem_byte ?_ ?_
    · rw [haddr, hp]
      intro j hj
      obtain rfl : j = 0 := by omega
      exact hin k hk
    · rw [haddr, hmem, hread k hk]
  have hx : u.x = s.x := (congrArg State.x hu :)
  have hp : u.params = s.params := (congrArg State.params hu :)
  have hmem : u.mem = s.mem := (congrArg State.mem hu :)
  refine ⟨w, hword, ?_, ?_⟩
  · have h0 : loadElem 8 vd rs1 false u (4 * i) = .done (u.setVelem vd 8 (4 * i) (byteOf w 0)) :=
      hbyte u (k := 0) (by decide) ⟨hx, hp, hmem⟩
    rw [transferElems_cons_done h0, transferElems_cons_done (hbyte _ (k := 1) (by decide) ?_),
      transferElems_cons_done (hbyte _ (k := 2) (by decide) ?_), transferElems_cons_done (hbyte _ (k := 3) (by decide) ?_)]
    · rfl
    all_goals exact ⟨hx, hp, hmem⟩
  · rw [← State.setVelem_word_eq_bytes (hp ▸ Params.dvd_vlen_32 h5)]
    simp only [State.setVelem, State.setVreg, State.elemReg, State.elemLsb, hp, State.vreg_congr hv, hv]

theorem OnlyV.trans {s t u : State} (h : OnlyV s t) (h' : OnlyV t u) : OnlyV s u := by
  rw [h', h]

theorem OnlyV.setVelemBytes (s : State) (r i : Nat) (w : BitVec 32) : OnlyV s (s.setVelemBytes r i w) :=
  OnlyV.setVelem (OnlyV.setVelem (OnlyV.setVelem (OnlyV.setVelem rfl ..) ..) ..) ..

/-- The registers after loading words and after loading the same bytes. -/
theorem transfer_words_and_bytes {s u : State} {vd : VReg} {rs1 : XReg} (h5 : 5 ≤ s.params.vlenLog2)
    (hu : u = { s with v := u.v, vtype := u.vtype, vl := u.vl }) (hv : u.v = s.v) (finish finish' : State → State) (i k : Nat)
    (hload : ∀ j, i ≤ j → j < i + k → loadable s rs1 32 j) :
    ∃ t t', transferElems (loadElem 32 vd rs1 false) finish s (List.range' i k) = .next (finish t)
      ∧ transferElems (loadElem 8 vd rs1 false) finish' u (List.range' (4 * i) (4 * k)) = .next (finish' t')
      ∧ OnlyV s t ∧ OnlyV u t' ∧ t'.v = t.v := by
  induction k generalizing s u i with
  | zero => exact ⟨s, u, rfl, rfl, rfl, rfl, hv⟩
  | succ k ih =>
    obtain ⟨w, hword, hbytes, hv'⟩ := loadElem_word_and_bytes (vd := vd) h5 (hload i le_rfl (by omega)) hu hv finish'
      (List.range' (4 * (i + 1)) (4 * k))
    have hu' : u.setVelemBytes vd i w = { s.setVelem vd 32 i w with
        v := (u.setVelemBytes vd i w).v
        vtype := (u.setVelemBytes vd i w).vtype
        vl := (u.setVelemBytes vd i w).vl } := by
      rw [hu]; rfl
    have hload' : ∀ j, i + 1 ≤ j → j < i + 1 + k → loadable (s.setVelem vd 32 i w) rs1 32 j :=
      fun j hj hj' => hload j (by omega) (by omega)
    obtain ⟨t, t', ht, ht', honly, honly', heq⟩ := ih (s := s.setVelem vd 32 i w) h5 hu' hv' (i + 1) hload'
    have hword_onlyV : OnlyV s (s.setVelem vd 32 i w) := OnlyV.setVelem rfl vd.val 32 i w
    refine ⟨t, t', ?_, ?_, hword_onlyV.trans honly, (OnlyV.setVelemBytes u vd i w).trans honly', heq⟩
    · rw [List.range'_succ, transferElems_cons_done hword]
      exact ht
    · rw [show 4 * (k + 1) = 4 * k + 1 + 1 + 1 + 1 by ring, List.range'_succ, List.range'_succ, List.range'_succ,
        List.range'_succ]
      exact hbytes.trans ht'

/-- Where the tail is undisturbed it is left alone. -/
theorem State.agnosticElems_false (s : State) (r eew : Nat) (l : List Nat) : s.agnosticElems r eew false l = s := by
  induction l with
  | nil => rfl
  | cons i rest ih => exact ih

/-- A load with an undisturbed tail ends with the registers its elements left. -/
theorem finishLoad_v {s : State} (h : s.vta = false) (eew : Nat) (vd : VReg) : (finishLoad eew vd s).v = s.v := by
  rw [finishLoad, h, State.agnosticElems_false, State.retireVector_v]

/-- Settles O42: each word element is the four byte elements at its place, and the tail is undisturbed. -/
theorem byteAndWordLoadsAgree : Obligations.ByteAndWordLoadsAgree := by
  intro s s' vd rs1 hinv _ hs' hvstart hvl hvta hvta' hruns hruns' hload
  have h5 := (Params.wf_bounds hinv.params).1
  have hv : s'.v = s.v := (congrArg State.v hs' :)
  have hvstart' : s'.vstart = 0 := (congrArg State.vstart hs' :).trans hvstart
  have hu : s' = { s with v := s'.v, vtype := s'.vtype, vl := s'.vl } := by rw [hv]; exact hs'
  obtain ⟨t, t', ht, ht', honly, honly', heq⟩ := transfer_words_and_bytes (vd := vd) (rs1 := rs1) h5 hu hv
    (finishLoad 32 vd) (finishLoad 8 vd) 0 s.vl.toNat fun j _ hj => hload j (by omega)
  have hwords : exec (.vle32 vd rs1 false) s = .next (finishLoad 32 vd t) := by
    show s.vectorLoad 32 vd rs1 false = _
    rw [State.vectorLoad_of_runs hruns, State.bodyIndices, hvstart]
    exact ht
  have hbytes : exec (.vle8 vd rs1 false) s' = .next (finishLoad 8 vd t') := by
    show s'.vectorLoad 8 vd rs1 false = _
    rw [State.vectorLoad_of_runs hruns', State.bodyIndices, hvstart', hvl]
    exact ht'
  have htail : t.vta = false := (congrArg State.vta honly :).trans hvta
  have htail' : t'.vta = false := (congrArg State.vta honly' :).trans hvta'
  exact ⟨_, _, hwords, hbytes, by rw [finishLoad_v htail, finishLoad_v htail', heq]⟩

end Sys2Proof.Machine
end

section
/-! SUPPORT. The arithmetic of `vfmmacc.vv` as arithmetic on rationals (41_zvbdot_batched.md R171, R172; log entries 18 and 19):
exact products and sums, the numbers of a format, and rounding to them under each mode. -/

namespace Sys2Proof.Machine

/-! ## Exact products and sums -/

theorem abs_finRat (sign : Bool) (mant : Nat) (exp : Int) : |finRat sign mant exp| = mant * 2 ^ exp := by
  cases sign
  · simp [finRat]
  · simp [finRat]

theorem finRat_true (mant : Nat) (exp : Int) : finRat true mant exp = -finRat false mant exp := by
  simp [finRat]

theorem finRat_false (mant : Nat) (exp : Int) : finRat false mant exp = mant * 2 ^ exp := by
  simp [finRat]

theorem finRat_mul (s₁ s₂ : Bool) (m₁ m₂ : Nat) (e₁ e₂ : Int) :
    finRat (s₁ ^^ s₂) (m₁ * m₂) (e₁ + e₂) = finRat s₁ m₁ e₁ * finRat s₂ m₂ e₂ := by
  have hsign : (if (s₁ ^^ s₂) = true then (-1 : ℚ) else 1) = (if s₁ = true then -1 else 1) * if s₂ = true then -1 else 1 := by
    cases s₁ <;> cases s₂ <;> norm_num
  unfold finRat
  rw [hsign, zpow_add₀ two_ne_zero]
  push_cast
  ring

/-- A lower exponent with the significand shifted by as many bits. -/
theorem intCast_shift {n e e' : Int} (h : e' ≤ e) : ((n * 2 ^ (e - e').toNat : Int) : ℚ) * 2 ^ e' = n * 2 ^ e := by
  have hexp : e = ((e - e').toNat : Int) + e' := by omega
  conv_rhs => rw [hexp, zpow_add₀ two_ne_zero, zpow_natCast]
  push_cast
  ring

theorem natCast_shift {n : Nat} {e e' : Int} (h : e' ≤ e) : ((n * 2 ^ (e - e').toNat : Nat) : ℚ) * 2 ^ e' = n * 2 ^ e := by
  exact_mod_cast intCast_shift (n := n) h

theorem signedTerm_cast (sign : Bool) (n : Nat) (e : Int) : (signedTerm sign n : ℚ) * 2 ^ e = finRat sign n e := by
  cases sign <;> simp [signedTerm, finRat]

/-- A finite value as an integer in units of a lower power of two. -/
theorem finRat_align (sign : Bool) (n : Nat) {e e' : Int} (h : e' ≤ e) :
    (signedTerm sign (n * 2 ^ (e - e').toNat) : ℚ) * 2 ^ e' = finRat sign n e := by
  rw [signedTerm_cast]
  cases sign
  · rw [finRat_false, finRat_false, natCast_shift h]
  · rw [finRat_true, finRat_true, finRat_false, finRat_false, natCast_shift h]

theorem finRat_natAbs (z : Int) (e : Int) : finRat (decide (z < 0)) z.natAbs e = z * 2 ^ e := by
  unfold finRat
  rw [Nat.cast_natAbs]
  by_cases h : z < 0
  · rw [abs_of_neg h]; simp [h]
  · rw [abs_of_nonneg (not_lt.1 h)]; simp [h]

/-- The sum of two finite values in units of the lower of their weights. -/
def alignedSum (s₁ s₂ : Bool) (m₁ m₂ : Nat) (e₁ e₂ : Int) : Int :=
  signedTerm s₁ (m₁ * 2 ^ (e₁ - min e₁ e₂).toNat) + signedTerm s₂ (m₂ * 2 ^ (e₂ - min e₁ e₂).toNat)

theorem alignedSum_cast (s₁ s₂ : Bool) (m₁ m₂ : Nat) (e₁ e₂ : Int) :
    (alignedSum s₁ s₂ m₁ m₂ e₁ e₂ : ℚ) * 2 ^ min e₁ e₂ = finRat s₁ m₁ e₁ + finRat s₂ m₂ e₂ := by
  rw [alignedSum, Int.cast_add, add_mul, finRat_align _ _ (min_le_left e₁ e₂), finRat_align _ _ (min_le_right e₁ e₂)]

theorem fpAdd_fin_eq (rm : RoundingMode) (s₁ s₂ : Bool) (m₁ m₂ : Nat) (e₁ e₂ : Int) :
    fpAdd rm (.fin s₁ m₁ e₁) (.fin s₂ m₂ e₂)
      = if alignedSum s₁ s₂ m₁ m₂ e₁ e₂ = 0 then
          if m₁ = 0 ∧ m₂ = 0 ∧ s₁ = s₂ then ⟨.fin s₁ 0 0, 0⟩ else ⟨.fin (rm == .rdn) 0 0, 0⟩
        else ⟨.fin (decide (alignedSum s₁ s₂ m₁ m₂ e₁ e₂ < 0)) (alignedSum s₁ s₂ m₁ m₂ e₁ e₂).natAbs (min e₁ e₂), 0⟩ := rfl

/-- The sum of two finite values is exact and raises no flag. -/
theorem fpAdd_fin (rm : RoundingMode) (s₁ s₂ : Bool) (m₁ m₂ : Nat) (e₁ e₂ : Int) :
    ∃ s m e, fpAdd rm (.fin s₁ m₁ e₁) (.fin s₂ m₂ e₂) = ⟨.fin s m e, 0⟩
      ∧ finRat s m e = finRat s₁ m₁ e₁ + finRat s₂ m₂ e₂ := by
  rw [fpAdd_fin_eq, ← alignedSum_cast]
  split_ifs with hzero hsame
  · exact ⟨s₁, 0, 0, rfl, by simp [finRat, hzero]⟩
  · exact ⟨rm == .rdn, 0, 0, rfl, by simp [finRat, hzero]⟩
  · exact ⟨_, _, _, rfl, finRat_natAbs ..⟩

/-! ## The numbers of a format -/

section Grid

variable {prec : Nat} {low : Option Int}

theorem onGrid.neg {even : Bool} {x : ℚ} (h : onGrid prec low even x) : onGrid prec low even (-x) := by
  obtain ⟨m, e, hm, hl, heven, rfl⟩ := h
  exact ⟨-m, e, by rwa [abs_neg], hl, fun h => by have := heven h; omega, by push_cast; ring⟩

/-- A significand in range is a number of the format. -/
theorem onGrid_natCast {n : Nat} {e : Int} {even : Bool} (hn : n < 2 ^ prec) (hl : ∀ l ∈ low, l ≤ e)
    (heven : even = true → n % 2 = 0) : onGrid prec low even (n * 2 ^ e) :=
  ⟨n, e, by rw [Nat.abs_cast]; exact_mod_cast hn, hl, fun h => by have := heven h; omega, by push_cast; rfl⟩

/-- The significand one above the largest is a number of the format with the next exponent, and an even one. -/
theorem onGrid_two_pow {e : Int} (hprec : 2 ≤ prec) (hl : ∀ l ∈ low, l ≤ e) (even : Bool) :
    onGrid prec low even (((2 ^ prec : Nat) : ℚ) * 2 ^ e) := by
  obtain ⟨p, rfl⟩ := Nat.exists_eq_add_of_le hprec
  have hval : (((2 ^ (2 + p) : Nat) : ℚ) * 2 ^ e) = ((2 ^ (1 + p) : Nat) : ℚ) * 2 ^ (e + 1) := by
    rw [zpow_add₀ two_ne_zero]; push_cast; ring
  rw [hval]
  refine onGrid_natCast (Nat.pow_lt_pow_right (by norm_num) (by omega)) (fun l hl' => ?_) fun _ => ?_
  · have := hl l hl'; omega
  · rw [pow_add]; omega

/-- The significand after `q`, where `q` is in range, is a number of the format. -/
theorem onGrid_succ {q : Nat} {e : Int} {even : Bool} (hprec : 2 ≤ prec) (hq : q < 2 ^ prec) (hl : ∀ l ∈ low, l ≤ e)
    (heven : even = true → q % 2 = 1) : onGrid prec low even (((q + 1 : Nat) : ℚ) * 2 ^ e) := by
  by_cases hlt : q + 1 < 2 ^ prec
  · exact onGrid_natCast hlt hl fun h => by have := heven h; omega
  · rw [show q + 1 = 2 ^ prec by omega]
    exact onGrid_two_pow hprec hl even

/-- Between two neighbouring significands at an exponent there is no number of the format, where no lower exponent reaches them:
the exponent is the lowest, or the significand has all its bits. -/
theorem onGrid.gap {q : Nat} {e : Int} (hprec : 2 ≤ prec) (hfull : low = some e ∨ 2 ^ (prec - 1) ≤ q) {y : ℚ}
    (hy : onGrid prec low false y) : y ≤ q * 2 ^ e ∨ ((q + 1 : Nat) : ℚ) * 2 ^ e ≤ y := by
  obtain ⟨m, e', hm, hl, -, rfl⟩ := hy
  have hpos : (0 : ℚ) < 2 ^ e := by positivity
  by_cases he : e ≤ e'
  · rw [← intCast_shift he]
    rcases lt_or_ge (q : Int) (m * 2 ^ (e' - e).toNat) with h | h
    · exact .inr (mul_le_mul_of_nonneg_right (by exact_mod_cast h) hpos.le)
    · exact .inl (mul_le_mul_of_nonneg_right (by exact_mod_cast h) hpos.le)
  · left
    rcases hfull with hlow | hfull
    · exact absurd (hl e hlow) he
    · calc (m : ℚ) * 2 ^ e' ≤ 2 ^ prec * 2 ^ e' := by
            refine mul_le_mul_of_nonneg_right ?_ (by positivity)
            exact_mod_cast (lt_of_abs_lt hm).le
        _ = 2 ^ ((prec : Int) + e') := by rw [zpow_add₀ two_ne_zero, zpow_natCast]
        _ ≤ 2 ^ (((prec - 1 : Nat) : Int) + e) := zpow_le_zpow_right₀ one_le_two (by omega)
        _ = ((2 ^ (prec - 1) : Nat) : ℚ) * 2 ^ e := by rw [zpow_add₀ two_ne_zero, zpow_natCast]; push_cast; rfl
        _ ≤ q * 2 ^ e := mul_le_mul_of_nonneg_right (by exact_mod_cast hfull) hpos.le

/-- Above an even significand in range, and below any larger even multiple of its weight, there is a number of the format. -/
theorem onGrid.exists_above_even {m n e : Int} (hprec : 2 ≤ prec) (hm : |m| < 2 ^ prec) (hl : ∀ l ∈ low, l ≤ e)
    (hme : m % 2 = 0) (hne : n % 2 = 0) (hlt : (m : ℚ) * 2 ^ e < n * 2 ^ e) :
    ∃ y, onGrid prec low false y ∧ (m : ℚ) * 2 ^ e < y ∧ y < n * 2 ^ e := by
  have hpos : (0 : ℚ) < 2 ^ e := by positivity
  have hmn : m < n := by exact_mod_cast lt_of_mul_lt_mul_right hlt hpos.le
  have hsucc : |m + 1| < 2 ^ prec := by
    obtain ⟨p, rfl⟩ := Nat.exists_eq_add_of_le hprec
    rw [pow_add] at hm ⊢
    rw [abs_lt] at hm ⊢
    omega
  refine ⟨((m + 1 : Int) : ℚ) * 2 ^ e, ⟨m + 1, e, hsucc, hl, nofun, rfl⟩, ?_, ?_⟩
  · exact mul_lt_mul_of_pos_right (by exact_mod_cast Int.lt_succ m) hpos
  · exact mul_lt_mul_of_pos_right (by exact_mod_cast (show m + 1 < n by omega)) hpos

/-- Between two different even numbers of a format there is a number of the format. -/
theorem onGrid.exists_between {x z : ℚ} (hprec : 2 ≤ prec) (hx : onGrid prec low true x) (hz : onGrid prec low true z)
    (hlt : x < z) : ∃ y, onGrid prec low false y ∧ x < y ∧ y < z := by
  obtain ⟨m, e, hm, hl, hme, rfl⟩ := hx
  obtain ⟨m', e', hm', hl', hme', rfl⟩ := hz
  have heven {k : Int} (hk : k % 2 = 0) (j : Nat) : k * 2 ^ j % 2 = 0 := by
    rw [Int.mul_emod, hk]; simp
  rcases le_total e e' with h | h
  · rw [← intCast_shift h] at hlt ⊢
    exact exists_above_even hprec hm hl (hme rfl) (heven (hme' rfl) _) hlt
  · rw [← intCast_shift h] at hlt ⊢
    obtain ⟨y, hy, hlo, hhi⟩ := exists_above_even (n := -(m * 2 ^ (e - e').toNat)) hprec (by rwa [abs_neg]) hl'
      (show -m' % 2 = 0 by have := hme' rfl; omega) (by have := heven (hme rfl) (e - e').toNat; omega)
      (by push_cast at hlt ⊢; linarith)
    exact ⟨-y, hy.neg, by push_cast at hhi ⊢; linarith, by push_cast at hlo ⊢; linarith⟩

end Grid

/-! ## Rounding is unique -/

/-- A number between two that are equally far from a value is closer to it. -/
theorem abs_sub_lt_of_between {r r' v y : ℚ} (hdist : |r - v| = |r' - v|) (hlo : r < y) (hhi : y < r') :
    |y - v| < |r - v| := by
  have hmid : r - v = -(r' - v) := (abs_eq_abs.1 hdist).resolve_left (by intro h; linarith)
  have habs : |r - v| = v - r := by rw [abs_of_neg (by linarith)]; ring
  rw [habs, abs_lt]
  constructor <;> linarith

/-- Two numbers of a format that are both the rounding of one value are equal. -/
theorem roundedAs_unique {rm : RoundingMode} {prec : Nat} {low : Option Int} {v r r' : ℚ} (hprec : 2 ≤ prec) (hv : v ≠ 0)
    (h : roundedAs rm prec low v r) (h' : roundedAs rm prec low v r') : r = r' := by
  obtain ⟨hr, h⟩ := h
  obtain ⟨hr', h'⟩ := h'
  cases rm with
  | rne =>
    have hdist : |r - v| = |r' - v| := le_antisymm (h r' hr').1 (h' r hr).1
    by_contra hne
    have heven : onGrid prec low true r := ((h r' hr').2 hdist.symm).resolve_left (Ne.symm hne)
    have heven' : onGrid prec low true r' := ((h' r hr).2 hdist).resolve_left hne
    rcases lt_or_gt_of_ne hne with hlt | hlt
    · obtain ⟨y, hy, hlo, hhi⟩ := heven.exists_between hprec heven' hlt
      exact absurd (h y hy).1 (not_le.2 (abs_sub_lt_of_between hdist hlo hhi))
    · obtain ⟨y, hy, hlo, hhi⟩ := heven'.exists_between hprec heven hlt
      exact absurd (h' y hy).1 (not_le.2 (abs_sub_lt_of_between hdist.symm hlo hhi))
  | rtz =>
    obtain ⟨hle, hsign, hmax⟩ := h
    obtain ⟨hle', hsign', hmax'⟩ := h'
    have habs : |r| = |r'| := le_antisymm (hmax' r hr hle) (hmax r' hr' hle')
    rcases abs_eq_abs.1 habs with heq | rfl
    · exact heq
    · have hzero : r' * v = 0 := le_antisymm (by linarith) hsign'
      rcases mul_eq_zero.1 hzero with rfl | hv0
      · simp
      · exact absurd hv0 hv
  | rdn => exact le_antisymm (h'.2 r hr h.1) (h.2 r' hr' h'.1)
  | rup => exact le_antisymm (h.2 r' hr' h'.1) (h'.2 r hr h.1)
  | rmm =>
    have hdist : |r - v| = |r' - v| := le_antisymm (h r' hr').1 (h' r hr).1
    have habs : |r| = |r'| := le_antisymm ((h' r hr).2 hdist) ((h r' hr').2 hdist.symm)
    rcases abs_eq_abs.1 habs with heq | rfl
    · exact heq
    · rcases abs_eq_abs.1 hdist with heq | heq
      · linarith
      · exact absurd (by linarith) hv

/-! ## Rounding a positive value between its neighbours -/

/-- `lo` and `hi` are the numbers of the format next to the non-negative value `a`: `lo` is the last one up to it. -/
structure Neighbours (prec : Nat) (low : Option Int) (a lo hi : ℚ) : Prop where
  lo_nonneg : 0 ≤ lo
  lo_le : lo ≤ a
  lt_hi : a < hi
  lo_grid : onGrid prec low false lo
  hi_grid : onGrid prec low false hi
  gap : ∀ y, onGrid prec low false y → y ≤ lo ∨ hi ≤ y

namespace Neighbours

variable {prec : Nat} {low : Option Int} {a lo hi : ℚ}

/-- The last number up to the value. -/
theorem le_lo (h : Neighbours prec low a lo hi) {y : ℚ} (hy : onGrid prec low false y) (hle : y ≤ a) : y ≤ lo :=
  (h.gap y hy).resolve_right fun hc => absurd (hc.trans hle) (not_le.2 h.lt_hi)

/-- The first number from a value that is no number of the format. -/
theorem hi_le (h : Neighbours prec low a lo hi) (hne : lo ≠ a) {y : ℚ} (hy : onGrid prec low false y) (hle : a ≤ y) :
    hi ≤ y :=
  (h.gap y hy).resolve_left fun hc => absurd (hle.trans hc) (not_le.2 (lt_of_le_of_ne h.lo_le hne))

/-- Where the lower neighbour is not the farther one, it is nearest, and only the other can be as near. -/
theorem nearest_lo (h : Neighbours prec low a lo hi) (hnear : a - lo ≤ hi - a) {y : ℚ} (hy : onGrid prec low false y) :
    |lo - a| ≤ |y - a| ∧ (|y - a| = |lo - a| → y = lo ∨ (y = hi ∧ hi - a = a - lo)) := by
  have hlo := h.lo_le
  have hhi := h.lt_hi
  have habs : |lo - a| = a - lo := by rw [abs_of_nonpos (by linarith)]; ring
  rcases h.gap y hy with hle | hle
  · have hy' : |y - a| = a - y := by rw [abs_of_nonpos (by linarith)]; ring
    rw [habs, hy']
    exact ⟨by linarith, fun heq => .inl (by linarith)⟩
  · have hy' : |y - a| = y - a := abs_of_nonneg (by linarith)
    rw [habs, hy']
    exact ⟨by linarith, fun heq => .inr ⟨by linarith, by linarith⟩⟩

/-- Where the upper neighbour is not the farther one, it is nearest, and only the other can be as near. -/
theorem nearest_hi (h : Neighbours prec low a lo hi) (hnear : hi - a ≤ a - lo) {y : ℚ} (hy : onGrid prec low false y) :
    |hi - a| ≤ |y - a| ∧ (|y - a| = |hi - a| → y = hi ∨ (y = lo ∧ hi - a = a - lo)) := by
  have hlo := h.lo_le
  have hhi := h.lt_hi
  have habs : |hi - a| = hi - a := abs_of_nonneg (by linarith)
  rcases h.gap y hy with hle | hle
  · have hy' : |y - a| = a - y := by rw [abs_of_nonpos (by linarith)]; ring
    rw [habs, hy']
    exact ⟨by linarith, fun heq => .inr ⟨by linarith, by linarith⟩⟩
  · have hy' : |y - a| = y - a := abs_of_nonneg (by linarith)
    rw [habs, hy']
    exact ⟨by linarith, fun heq => .inl (by linarith)⟩

theorem rtz (h : Neighbours prec low a lo hi) : roundedAs .rtz prec low a lo := by
  have ha := h.lo_nonneg.trans h.lo_le
  refine ⟨h.lo_grid, ?_, mul_nonneg h.lo_nonneg ha, fun y hy hle => ?_⟩
  · rw [abs_of_nonneg h.lo_nonneg, abs_of_nonneg ha]
    exact h.lo_le
  · rw [abs_of_nonneg ha] at hle
    rw [abs_of_nonneg h.lo_nonneg]
    refine h.le_lo ?_ hle
    rcases abs_choice y with heq | heq
    · rwa [heq]
    · rw [heq]; exact hy.neg

theorem rdn (h : Neighbours prec low a lo hi) : roundedAs .rdn prec low a lo :=
  ⟨h.lo_grid, h.lo_le, fun _ hy hle => h.le_lo hy hle⟩

theorem rup (h : Neighbours prec low a lo hi) (hne : lo ≠ a) : roundedAs .rup prec low a hi :=
  ⟨h.hi_grid, h.lt_hi.le, fun _ hy hle => h.hi_le hne hy hle⟩

theorem rne_lo (h : Neighbours prec low a lo hi) (hnear : a - lo ≤ hi - a)
    (heven : hi - a = a - lo → onGrid prec low true lo) : roundedAs .rne prec low a lo := by
  refine ⟨h.lo_grid, fun y hy => ?_⟩
  obtain ⟨hle, htie⟩ := h.nearest_lo hnear hy
  exact ⟨hle, fun heq => (htie heq).imp_right fun htie => heven htie.2⟩

theorem rne_hi (h : Neighbours prec low a lo hi) (hnear : hi - a ≤ a - lo)
    (heven : hi - a = a - lo → onGrid prec low true hi) : roundedAs .rne prec low a hi := by
  refine ⟨h.hi_grid, fun y hy => ?_⟩
  obtain ⟨hle, htie⟩ := h.nearest_hi hnear hy
  exact ⟨hle, fun heq => (htie heq).imp_right fun htie => heven htie.2⟩

theorem rmm_lo (h : Neighbours prec low a lo hi) (hnear : a - lo < hi - a) : roundedAs .rmm prec low a lo := by
  refine ⟨h.lo_grid, fun y hy => ?_⟩
  obtain ⟨hle, htie⟩ := h.nearest_lo hnear.le hy
  refine ⟨hle, fun heq => ?_⟩
  rcases htie heq with rfl | ⟨-, htie⟩
  · rfl
  · exact absurd htie hnear.ne'

theorem rmm_hi (h : Neighbours prec low a lo hi) (hnear : hi - a ≤ a - lo) : roundedAs .rmm prec low a hi := by
  refine ⟨h.hi_grid, fun y hy => ?_⟩
  obtain ⟨hle, htie⟩ := h.nearest_hi hnear hy
  refine ⟨hle, fun heq => ?_⟩
  rcases htie heq with rfl | ⟨rfl, -⟩
  · rfl
  · rw [abs_of_nonneg h.lo_nonneg, abs_of_nonneg (by linarith [h.lo_nonneg, h.lo_le, h.lt_hi])]
    linarith [h.lo_le, h.lt_hi]

end Neighbours

/-- A number of the format is its own rounding. -/
theorem roundedAs_self (rm : RoundingMode) {prec : Nat} {low : Option Int} {v : ℚ} (h : onGrid prec low false v) :
    roundedAs rm prec low v v := by
  refine ⟨h, ?_⟩
  cases rm with
  | rne => exact fun y _ => ⟨by simp, fun heq => .inl (by simpa [sub_eq_zero] using heq)⟩
  | rtz => exact ⟨le_rfl, mul_self_nonneg v, fun _ _ hle => hle⟩
  | rdn => exact ⟨le_rfl, fun _ _ hle => hle⟩
  | rup => exact ⟨le_rfl, fun _ _ hle => hle⟩
  | rmm => exact fun y _ => ⟨by simp, fun heq => by rw [show y = v by simpa [sub_eq_zero] using heq]⟩

/-! ## Negative values -/

/-- The mode that does to negative values what this one does to positive ones. -/
def RoundingMode.mirror : RoundingMode → RoundingMode
  | .rdn => .rup
  | .rup => .rdn
  | rm => rm

theorem roundsUp_true (rm : RoundingMode) (kept rest drop : Nat) :
    roundsUp rm true kept rest drop = roundsUp rm.mirror false kept rest drop := by
  cases rm <;> rfl

theorem roundMag_true (rm : RoundingMode) (mant drop : Nat) :
    roundMag rm true mant drop = roundMag rm.mirror false mant drop := by
  rw [roundMag, roundMag, roundsUp_true]

/-- Rounding a negative value is rounding the positive one under the mirrored mode. -/
theorem roundedAs.neg {rm : RoundingMode} {prec : Nat} {low : Option Int} {v r : ℚ}
    (h : roundedAs rm.mirror prec low v r) : roundedAs rm prec low (-v) (-r) := by
  obtain ⟨hr, h⟩ := h
  have hdist (x : ℚ) : |x - -v| = |-x - v| := by rw [← abs_neg]; congr 1; ring
  refine ⟨hr.neg, ?_⟩
  cases rm with
  | rne =>
    intro y hy
    obtain ⟨hle, htie⟩ := h (-y) hy.neg
    rw [hdist, hdist, neg_neg]
    exact ⟨hle, fun heq => (htie heq).imp (fun h => by rw [← h, neg_neg]) onGrid.neg⟩
  | rtz =>
    obtain ⟨hle, hsign, hmax⟩ := h
    exact ⟨by rwa [abs_neg, abs_neg], by rwa [neg_mul_neg], fun y hy hle => by rw [abs_neg] at hle ⊢; exact hmax y hy hle⟩
  | rdn => exact ⟨neg_le_neg h.1, fun y hy hle => le_neg.2 (h.2 (-y) hy.neg (le_neg.2 hle))⟩
  | rup => exact ⟨neg_le_neg h.1, fun y hy hle => neg_le.2 (h.2 (-y) hy.neg (neg_le.2 hle))⟩
  | rmm =>
    intro y hy
    obtain ⟨hle, htie⟩ := h (-y) hy.neg
    rw [hdist, hdist, neg_neg, abs_neg r]
    exact ⟨hle, fun heq => by simpa using htie heq⟩

end Sys2Proof.Machine
end

section
/-! SUPPORT. `roundTo` is the rounding of its value to the format, with the flags and the overflow of 10_state.md R41, R42 and
41_zvbdot_batched.md R172. -/

namespace Sys2Proof.Machine

/-! ## Rounding a magnitude -/

theorem roundMag_of_up {rm : RoundingMode} {sign : Bool} {mant drop : Nat}
    (h : roundsUp rm sign (mant / 2 ^ drop) (mant % 2 ^ drop) drop = true) :
    roundMag rm sign mant drop = mant / 2 ^ drop + 1 := by
  rw [roundMag, h]; rfl

theorem roundMag_of_down {rm : RoundingMode} {sign : Bool} {mant drop : Nat}
    (h : roundsUp rm sign (mant / 2 ^ drop) (mant % 2 ^ drop) drop = false) :
    roundMag rm sign mant drop = mant / 2 ^ drop := by
  rw [roundMag, h]; rfl

/-- Nothing is rounded where nothing is dropped. -/
theorem roundsUp_rest_zero (rm : RoundingMode) (sign : Bool) (kept drop : Nat) : roundsUp rm sign kept 0 drop = false := by
  have hpos := Nat.two_pow_pos drop
  cases rm <;> simp [roundsUp, hpos.ne]

/-- A magnitude is unchanged by rounding exactly where nothing is dropped. -/
theorem roundMag_exact_iff (rm : RoundingMode) (sign : Bool) (mant drop : Nat) :
    roundMag rm sign mant drop * 2 ^ drop = mant ↔ mant % 2 ^ drop = 0 := by
  have hdiv := Nat.div_add_mod' mant (2 ^ drop)
  have hlt : mant % 2 ^ drop < 2 ^ drop := Nat.mod_lt _ (Nat.two_pow_pos drop)
  constructor
  · intro h
    rw [← h, Nat.mul_mod_left]
  · intro h
    rw [roundMag_of_down (h ▸ roundsUp_rest_zero ..)]
    omega

section Magnitude

variable {prec : Nat} {low : Option Int} {mant : Nat} {exp Q : Int}

/-- The numbers of the format next to a magnitude of which some low bits are dropped. -/
theorem neighbours_of_dropped (hprec : 2 ≤ prec) (hl : ∀ l ∈ low, l ≤ Q) (hQ : exp ≤ Q)
    (hq : mant / 2 ^ (Q - exp).toNat < 2 ^ prec) (hfull : low = some Q ∨ 2 ^ (prec - 1) ≤ mant / 2 ^ (Q - exp).toNat) :
    Neighbours prec low (mant * 2 ^ exp) ((mant / 2 ^ (Q - exp).toNat : Nat) * 2 ^ Q)
      ((mant / 2 ^ (Q - exp).toNat + 1 : Nat) * 2 ^ Q) where
  lo_nonneg := by positivity
  lo_le := by
    rw [← natCast_shift hQ]
    exact mul_le_mul_of_nonneg_right (by exact_mod_cast Nat.div_mul_le_self ..) (by positivity)
  lt_hi := by
    rw [← natCast_shift hQ]
    refine mul_lt_mul_of_pos_right ?_ (by positivity)
    exact_mod_cast Nat.lt_mul_of_div_lt (Nat.lt_succ_self _) (Nat.two_pow_pos _)
  lo_grid := onGrid_natCast hq hl nofun
  hi_grid := onGrid_succ hprec hq hl nofun
  gap _ hy := hy.gap hprec hfull

/-- How far a magnitude is from the numbers of the format next to it. -/
theorem neighbours_distance (mant : Nat) (hQ : exp ≤ Q) :
    (mant * 2 ^ exp : ℚ) - (mant / 2 ^ (Q - exp).toNat : Nat) * 2 ^ Q = (mant % 2 ^ (Q - exp).toNat : Nat) * 2 ^ exp
      ∧ ((mant / 2 ^ (Q - exp).toNat + 1 : Nat) * 2 ^ Q : ℚ) - mant * 2 ^ exp
        = ((2 ^ (Q - exp).toNat : Nat) - (mant % 2 ^ (Q - exp).toNat : Nat)) * 2 ^ exp := by
  have hdiv : (mant : ℚ) = ((mant / 2 ^ (Q - exp).toNat * 2 ^ (Q - exp).toNat : Nat) : ℚ)
      + (mant % 2 ^ (Q - exp).toNat : Nat) := by exact_mod_cast (Nat.div_add_mod' mant _).symm
  rw [← natCast_shift hQ, ← natCast_shift hQ, Nat.succ_mul]
  constructor
  · conv_lhs => rw [hdiv]
    ring
  · conv_lhs => rw [hdiv]
    push_cast
    ring

/-- The rounded magnitude is the rounding of a positive value. -/
theorem roundMag_roundedAs (rm : RoundingMode) (hprec : 2 ≤ prec) (hl : ∀ l ∈ low, l ≤ Q) (hQ : exp ≤ Q)
    (hq : mant / 2 ^ (Q - exp).toNat < 2 ^ prec) (hfull : low = some Q ∨ 2 ^ (prec - 1) ≤ mant / 2 ^ (Q - exp).toNat) :
    roundedAs rm prec low (mant * 2 ^ exp) (roundMag rm false mant (Q - exp).toNat * 2 ^ Q) := by
  have hnext := neighbours_of_dropped hprec hl hQ hq hfull
  obtain ⟨hlo, hhi⟩ := neighbours_distance mant hQ
  have hpos : (0 : ℚ) < 2 ^ exp := by positivity
  have hlt : mant % 2 ^ (Q - exp).toNat < 2 ^ (Q - exp).toNat := Nat.mod_lt _ (Nat.two_pow_pos _)
  have hup := roundMag_of_up (rm := rm) (sign := false) (mant := mant) (drop := (Q - exp).toNat)
  have hdown := roundMag_of_down (rm := rm) (sign := false) (mant := mant) (drop := (Q - exp).toNat)
  have heven (h : (mant / 2 ^ (Q - exp).toNat) % 2 = 0) := onGrid_natCast (even := true) hq hl fun _ => h
  have hodd (h : (mant / 2 ^ (Q - exp).toNat) % 2 = 1) := onGrid_succ (even := true) hprec hq hl fun _ => h
  generalize mant / 2 ^ (Q - exp).toNat = q at *
  generalize mant % 2 ^ (Q - exp).toNat = rest at *
  generalize hdrop : (Q - exp).toNat = drop at *
  have hle : (mant * 2 ^ exp : ℚ) - q * 2 ^ Q ≤ (q + 1 : Nat) * 2 ^ Q - mant * 2 ^ exp ↔ 2 * rest ≤ 2 ^ drop := by
    rw [hlo, hhi, mul_le_mul_iff_left₀ hpos, le_sub_iff_add_le]
    norm_cast
    omega
  have hge : ((q + 1 : Nat) * 2 ^ Q : ℚ) - mant * 2 ^ exp ≤ mant * 2 ^ exp - q * 2 ^ Q ↔ 2 ^ drop ≤ 2 * rest := by
    rw [hlo, hhi, mul_le_mul_iff_left₀ hpos, sub_le_iff_le_add]
    norm_cast
    omega
  have htie (h : ((q + 1 : Nat) * 2 ^ Q : ℚ) - mant * 2 ^ exp = mant * 2 ^ exp - q * 2 ^ Q) : 2 * rest = 2 ^ drop :=
    le_antisymm (hle.1 h.ge) (hge.1 h.le)
  have hexact : (q * 2 ^ Q : ℚ) = mant * 2 ^ exp ↔ rest = 0 := by
    rw [← sub_eq_zero, ← neg_sub, hlo, neg_eq_zero, mul_eq_zero, or_iff_left hpos.ne', Nat.cast_eq_zero]
  cases hb : roundsUp rm false q rest drop with
  | false =>
    rw [hdown hb]
    cases rm with
    | rne =>
      simp only [roundsUp, Bool.or_eq_false_iff, decide_eq_false_iff_not, Bool.and_eq_false_iff, Nat.testBit_zero] at hb
      exact hnext.rne_lo (hle.2 (not_lt.1 hb.1)) fun h => heven (by have := htie h; omega)
    | rtz => exact hnext.rtz
    | rdn => exact hnext.rdn
    | rup =>
      simp only [roundsUp, Bool.not_false, Bool.true_and, decide_eq_false_iff_not, not_not] at hb
      rw [← hexact.2 hb]
      exact roundedAs_self .rup hnext.lo_grid
    | rmm =>
      simp only [roundsUp, Bool.and_eq_false_iff, decide_eq_false_iff_not] at hb
      exact hnext.rmm_lo (not_le.1 fun h => by have := hge.1 h; omega)
  | true =>
    rw [hup hb]
    cases rm with
    | rne =>
      simp only [roundsUp, Bool.or_eq_true, Bool.and_eq_true, decide_eq_true_eq, Nat.testBit_zero] at hb
      exact hnext.rne_hi (hge.2 (by omega)) fun h => hodd (by have := htie h; omega)
    | rtz => cases hb
    | rdn => cases hb
    | rup =>
      simp only [roundsUp, Bool.not_false, Bool.true_and, decide_eq_true_eq] at hb
      exact hnext.rup fun h => hb (hexact.1 h)
    | rmm =>
      simp only [roundsUp, Bool.and_eq_true, decide_eq_true_eq] at hb
      exact hnext.rmm_hi (hge.2 hb.2)

end Magnitude

/-! ## The weight of the leading bit -/

/-- A scaled number reaches a power of two exactly where its leading bit does. -/
theorem two_pow_le_iff {n : Nat} (hn : n ≠ 0) (e k : Int) : (2 : ℚ) ^ k ≤ n * 2 ^ e ↔ k ≤ e + bitLength n - 1 := by
  have hlen : 1 ≤ bitLength n := by simp [bitLength, hn]
  have hpos : (0 : ℚ) < 2 ^ e := by positivity
  constructor
  · intro h
    have hlt : (n : ℚ) * 2 ^ e < 2 ^ ((bitLength n : Int) + e) := by
      rw [zpow_add₀ two_ne_zero, zpow_natCast]
      exact mul_lt_mul_of_pos_right (by exact_mod_cast lt_two_pow_bitLength n) hpos
    have := (zpow_lt_zpow_iff_right₀ one_lt_two).1 (h.trans_lt hlt)
    omega
  · intro h
    calc (2 : ℚ) ^ k ≤ 2 ^ (((bitLength n - 1 : Nat) : Int) + e) := zpow_le_zpow_right₀ one_le_two (by omega)
      _ = ((2 ^ (bitLength n - 1) : Nat) : ℚ) * 2 ^ e := by rw [zpow_add₀ two_ne_zero, zpow_natCast]; push_cast; rfl
      _ ≤ n * 2 ^ e := mul_le_mul_of_nonneg_right (by exact_mod_cast two_pow_bitLength_le hn) hpos.le

theorem lt_two_pow_iff {n : Nat} (hn : n ≠ 0) (e k : Int) : (n : ℚ) * 2 ^ e < 2 ^ k ↔ e + bitLength n - 1 < k := by
  rw [← not_le, two_pow_le_iff hn, not_le]

/-! ## Rounding at a weight -/

/-- The magnitude `mant * 2 ^ exp` rounded to a multiple of `2 ^ Q`, in units of `2 ^ Q`. -/
def roundedMag (rm : RoundingMode) (sign : Bool) (mant : Nat) (exp Q : Int) : Nat :=
  if Q ≤ exp then mant * 2 ^ (exp - Q).toNat else roundMag rm sign mant (Q - exp).toNat

/-- Whether rounding to a multiple of `2 ^ Q` drops nothing. -/
def roundExact (mant : Nat) (exp Q : Int) : Bool := decide (Q ≤ exp) || mant % 2 ^ (Q - exp).toNat == 0

/-- A rounding that drops nothing keeps the value, and no other does. -/
theorem roundExact_iff (rm : RoundingMode) (sign : Bool) (mant : Nat) (exp Q : Int) :
    roundExact mant exp Q = true ↔ finRat sign (roundedMag rm sign mant exp Q) Q = finRat sign mant exp := by
  have hsign : finRat sign (roundedMag rm sign mant exp Q) Q = finRat sign mant exp
      ↔ (roundedMag rm sign mant exp Q : ℚ) * 2 ^ Q = mant * 2 ^ exp := by
    cases sign
    · rw [finRat_false, finRat_false]
    · rw [finRat_true, finRat_true, neg_inj, finRat_false, finRat_false]
  rw [hsign]
  by_cases hQ : Q ≤ exp
  · rw [roundedMag, if_pos hQ, natCast_shift hQ]
    simp [roundExact, hQ]
  · have hpos : (2 : ℚ) ^ exp ≠ 0 := by positivity
    rw [roundedMag, if_neg hQ, ← natCast_shift (not_le.1 hQ).le, mul_left_inj' hpos, Nat.cast_inj, roundMag_exact_iff]
    simp [roundExact, hQ]

/-- Rounding at a weight `2 ^ Q` is rounding to the format where `Q` is not below the lowest weight, the value has no more than
`prec` bits above `Q`, and all of them unless `Q` is the lowest weight. -/
theorem roundedMag_roundedAs (rm : RoundingMode) (sign : Bool) {prec : Nat} {low : Option Int} {mant : Nat} {exp Q : Int}
    (hmant : mant ≠ 0) (hprec : 2 ≤ prec) (hl : ∀ l ∈ low, l ≤ Q) (hlt : exp + bitLength mant ≤ Q + prec)
    (hfull : low = some Q ∨ exp + bitLength mant = Q + prec) :
    roundedAs rm prec low (finRat sign mant exp) (finRat sign (roundedMag rm sign mant exp Q) Q) := by
  have hlt' : (mant : ℚ) * 2 ^ exp < 2 ^ ((prec : Int) + Q) := (lt_two_pow_iff hmant ..).2 (by omega)
  rw [zpow_add₀ two_ne_zero, zpow_natCast] at hlt'
  have hposQ : (0 : ℚ) < 2 ^ Q := by positivity
  by_cases hQ : Q ≤ exp
  · have hgrid : onGrid prec low false (mant * 2 ^ exp) := by
      rw [← natCast_shift hQ] at hlt' ⊢
      exact onGrid_natCast (by exact_mod_cast lt_of_mul_lt_mul_right hlt' hposQ.le) hl nofun
    rw [(roundExact_iff rm sign mant exp Q).1 (by simp [roundExact, hQ])]
    refine roundedAs_self rm ?_
    cases sign
    · rwa [finRat_false]
    · rw [finRat_true, finRat_false]; exact hgrid.neg
  · have hpos (mode : RoundingMode) : roundedAs mode prec low (mant * 2 ^ exp)
        (roundMag mode false mant (Q - exp).toNat * 2 ^ Q) := by
      have hQ' : exp ≤ Q := (not_le.1 hQ).le
      have hposExp : (0 : ℚ) < 2 ^ exp := by positivity
      refine roundMag_roundedAs mode hprec hl hQ' ?_ (hfull.imp_right fun hfull => ?_)
      · rw [Nat.div_lt_iff_lt_mul (Nat.two_pow_pos _)]
        have hscaled : (mant : ℚ) * 2 ^ exp < ((2 ^ prec * 2 ^ (Q - exp).toNat : Nat) : ℚ) * 2 ^ exp := by
          rw [natCast_shift hQ']; exact_mod_cast hlt'
        exact_mod_cast lt_of_mul_lt_mul_right hscaled hposExp.le
      · rw [Nat.le_div_iff_mul_le (Nat.two_pow_pos _)]
        have hscaled : ((2 ^ (prec - 1) * 2 ^ (Q - exp).toNat : Nat) : ℚ) * 2 ^ exp ≤ mant * 2 ^ exp := by
          have hge := (two_pow_le_iff hmant exp (((prec - 1 : Nat) : Int) + Q)).2 (by omega)
          rw [natCast_shift hQ']
          rw [zpow_add₀ two_ne_zero, zpow_natCast] at hge
          exact_mod_cast hge
        exact_mod_cast le_of_mul_le_mul_right hscaled hposExp
    rw [roundedMag, if_neg hQ]
    cases sign
    · rw [finRat_false, finRat_false]
      exact hpos rm
    · rw [finRat_true, finRat_true, finRat_false, finRat_false, roundMag_true]
      exact (hpos rm.mirror).neg

/-- A value rounded at the weight of its own leading bits does not vanish. -/
theorem roundedMag_ne_zero (rm : RoundingMode) (sign : Bool) {prec mant : Nat} {exp Q : Int} (hmant : mant ≠ 0)
    (hprec : 2 ≤ prec) (hfull : exp + bitLength mant = Q + prec) : roundedMag rm sign mant exp Q ≠ 0 := by
  by_cases hQ : Q ≤ exp
  · rw [roundedMag, if_pos hQ]
    positivity
  · rw [roundedMag, if_neg hQ, roundMag]
    have hge : 2 ^ (Q - exp).toNat ≤ mant :=
      (Nat.pow_le_pow_right (by norm_num) (by omega)).trans (two_pow_bitLength_le hmant)
    have := Nat.div_pos hge (Nat.two_pow_pos _)
    omega

/-! ## `roundTo` -/

/-- The weight of the last bit that a format keeps of a magnitude. -/
def roundQuantum (f : BinFmt) (mant : Nat) (exp : Int) : Int := max (exp + bitLength mant - 1) f.emin - (f.prec - 1)

/-- Rounding of a finite non-zero value, by its rounded magnitude. -/
theorem roundTo_fin (f : BinFmt) (rm : RoundingMode) (after sign : Bool) {mant : Nat} (hmant : mant ≠ 0) (exp : Int) :
    roundTo f rm after (.fin sign mant exp)
      = if f.emax < roundQuantum f mant exp + bitLength (roundedMag rm sign mant exp (roundQuantum f mant exp)) - 1 then
          ⟨if overflowsToInf rm sign then .inf sign else .fin sign (2 ^ f.prec - 1) (f.emax - (f.prec - 1)), 0x05⟩
        else
          ⟨.fin sign (roundedMag rm sign mant exp (roundQuantum f mant exp)) (roundQuantum f mant exp),
            flagIf (!roundExact mant exp (roundQuantum f mant exp)) flagNX
              ||| flagIf (!roundExact mant exp (roundQuantum f mant exp) && isTiny f rm after sign mant exp) flagUF⟩ := by
  rw [roundTo, if_neg hmant]
  rfl

/-- The value of an overflow, as the statements write it (log entry 18). -/
theorem overflowValue_eq (f : BinFmt) (rm : RoundingMode) (sign : Bool) :
    (if overflowsToInf rm sign then FpVal.inf sign else .fin sign (2 ^ f.prec - 1) (f.emax - (f.prec - 1)))
      = overflowValue f rm sign := by
  have hexp : f.emax - ((f.prec : Int) - 1) = 2 ^ (f.expBits - 1) - f.prec := by rw [BinFmt.emax]; ring
  rw [hexp]
  cases rm <;> cases sign <;> rfl

/-- The weight at which a format rounds a non-zero magnitude: never below the format's lowest, and above it only where the
magnitude has all the bits of the format from there. -/
theorem roundQuantum_spec (f : BinFmt) (mant : Nat) (exp : Int) :
    f.emin - (f.prec - 1) ≤ roundQuantum f mant exp ∧ exp + bitLength mant ≤ roundQuantum f mant exp + f.prec
      ∧ (roundQuantum f mant exp = f.emin - (f.prec - 1) ∨ exp + bitLength mant = roundQuantum f mant exp + f.prec) := by
  unfold roundQuantum
  omega

/-- The value after rounding, with no bound above, is the rounding to the format's precision and lowest weight. -/
theorem roundedAs_roundQuantum (f : BinFmt) (rm : RoundingMode) (sign : Bool) {mant : Nat} (hmant : mant ≠ 0)
    (hprec : 2 ≤ f.prec) (exp : Int) :
    roundedAs rm f.prec (some (f.emin - (f.prec - 1))) (finRat sign mant exp)
      (finRat sign (roundedMag rm sign mant exp (roundQuantum f mant exp)) (roundQuantum f mant exp)) := by
  obtain ⟨hlow, hlt, hfull⟩ := roundQuantum_spec f mant exp
  exact roundedMag_roundedAs rm sign hmant hprec (by simpa using hlow) hlt (hfull.imp_left fun h => by rw [h])

/-- The overflow test of `roundTo` is whether the rounded value exceeds the largest finite number. -/
theorem overflows_iff (f : BinFmt) (rm : RoundingMode) (sign : Bool) {mant : Nat} (hmant : mant ≠ 0) (hprec : 2 ≤ f.prec)
    (hexp : 2 ≤ f.expBits) (exp : Int) :
    f.emax < roundQuantum f mant exp + bitLength (roundedMag rm sign mant exp (roundQuantum f mant exp)) - 1
      ↔ (2 : ℚ) ^ (f.emax + 1)
        ≤ |finRat sign (roundedMag rm sign mant exp (roundQuantum f mant exp)) (roundQuantum f mant exp)| := by
  rw [abs_finRat]
  by_cases hzero : roundedMag rm sign mant exp (roundQuantum f mant exp) = 0
  · have hlow : roundQuantum f mant exp = f.emin - (f.prec - 1) :=
      (roundQuantum_spec f mant exp).2.2.resolve_right fun h => roundedMag_ne_zero rm sign hmant hprec h hzero
    have hemax : 1 ≤ f.emax := by
      have : (2 : Int) ^ 1 ≤ 2 ^ (f.expBits - 1) := pow_le_pow_right₀ (by norm_num) (by omega)
      unfold BinFmt.emax
      omega
    have hpos : (0 : ℚ) < 2 ^ (f.emax + 1) := by positivity
    rw [hzero]
    refine iff_of_false ?_ ?_
    · rw [hlow, BinFmt.emin, bitLength, if_pos rfl]
      omega
    · simpa using hpos
  · rw [two_pow_le_iff hzero]
    omega

/-- Tininess: the value, or the value rounded as though the exponent range were unbounded, is below the smallest normal number
(log entry 19). -/
theorem isTiny_iff (f : BinFmt) (rm : RoundingMode) (after sign : Bool) {mant : Nat} (hmant : mant ≠ 0) (hprec : 2 ≤ f.prec)
    (exp : Int) :
    isTiny f rm after sign mant exp = true
      ↔ if after then ∃ u, roundedAs rm f.prec none (finRat sign mant exp) u ∧ |u| < 2 ^ f.emin
        else |finRat sign mant exp| < 2 ^ f.emin := by
  cases after with
  | false =>
    rw [abs_finRat, lt_two_pow_iff hmant]
    simp [isTiny]
  | true =>
    obtain ⟨Q, hQ⟩ : ∃ Q : Int, Q = exp + bitLength mant - 1 - (f.prec - 1) := ⟨_, rfl⟩
    have hfull : exp + bitLength mant = Q + f.prec := by omega
    have hround := roundedMag_roundedAs rm sign hmant hprec (low := none) nofun hfull.le (.inr hfull)
    have hne := roundedMag_ne_zero rm sign hmant hprec hfull
    have hv : finRat sign mant exp ≠ 0 := by
      rw [← abs_ne_zero, abs_finRat]
      positivity
    have hexists : (∃ u, roundedAs rm f.prec none (finRat sign mant exp) u ∧ |u| < 2 ^ f.emin)
        ↔ |finRat sign (roundedMag rm sign mant exp Q) Q| < 2 ^ f.emin :=
      ⟨fun ⟨u, hu, hlt⟩ => roundedAs_unique hprec hv hu hround ▸ hlt, fun hlt => ⟨_, hround, hlt⟩⟩
    rw [if_pos rfl, hexists]
    by_cases hle : Q ≤ exp
    · rw [(roundExact_iff rm sign mant exp Q).1 (by simp [roundExact, hle]), abs_finRat, lt_two_pow_iff hmant]
      simp [isTiny, ← hQ, hle]
    · rw [abs_finRat, lt_two_pow_iff hne]
      simp [isTiny, ← hQ, hle, roundedMag]

/-- The flags of a rounding that does not overflow. -/
theorem roundFlags_spec (exact tiny : Bool) (flags : FpFlags)
    (h : flags = flagIf (!exact) flagNX ||| flagIf (!exact && tiny) flagUF) :
    (flags = 0 ↔ exact = true) ∧ flags &&& 0x1C = 0 ∧ (exact = false → flags.getLsbD 0 = true)
      ∧ (flags.getLsbD 1 = true ↔ exact = false ∧ tiny = true) := by
  subst h
  revert exact tiny
  decide

/-- Settles O56: products and sums are exact, and `roundTo` is the rounding to the format, its flags and its overflow. -/
theorem roundedArithmetic : Obligations.RoundedArithmetic := by
  refine ⟨fun rm s₁ s₂ m₁ m₂ e₁ e₂ => ⟨⟨_, _, _, rfl, finRat_mul .., rfl⟩, fpAdd_fin ..⟩, ?_⟩
  intro f rm after sign mant exp hprec hexp
  have hlow : (2 : Int) - 2 ^ (f.expBits - 1) - (f.prec - 1) = f.emin - (f.prec - 1) := by
    rw [BinFmt.emin, BinFmt.emax]; ring
  refine ⟨fun h => by simp [roundTo, h], rfl, rfl, fun hmant => ?_⟩
  rw [hlow]
  have hover := overflows_iff f rm sign hmant hprec hexp exp
  have hexact := roundExact_iff rm sign mant exp (roundQuantum f mant exp)
  have hround := roundedAs_roundQuantum f rm sign hmant hprec exp
  refine ⟨_, hround, fun hle => ?_, fun hlt => ?_⟩
  · rw [roundTo_fin f rm after sign hmant, if_pos (hover.2 hle), overflowValue_eq]
  · rw [roundTo_fin f rm after sign hmant, if_neg fun h => absurd (hover.1 h) (not_le.2 hlt)]
    obtain ⟨hzero, hother, hinexact, hunderflow⟩ := roundFlags_spec _ (isTiny f rm after sign mant exp) _ rfl
    refine ⟨⟨_, _, rfl, rfl⟩, hzero.trans hexact, hother, fun hne => hinexact ?_, hunderflow.trans ?_⟩
    · rw [← Bool.not_eq_true, hexact]
      exact hne
    · rw [← Bool.not_eq_true, hexact, isTiny_iff f rm after sign hmant hprec]
      rfl

end Sys2Proof.Machine
end

section
/-! SUPPORT. A step that runs no instruction: the machine is stopped or at its end, or the fetch raises an exception. -/

namespace Sys2Proof.Machine

/-- A machine that an exception has stopped answers its record (60_exceptions.md R269). -/
theorem step_of_stopped {s : State} {record : TrapRecord} (h : s.stopped = some record) :
    step s = .fault (.exception record) := by
  rw [step, h]

/-- A running machine at the end of the run stays (92_eei_decisions.md D23). -/
theorem step_of_atEnd {s : State} (hrun : s.stopped = none) (hend : s.params.endPc = some s.pc) : step s = .next s := by
  have hatEnd : s.atEnd = true := by simp [State.atEnd, hend]
  rw [step, hrun]
  exact if_pos hatEnd

/-- An exception of the fetch is the step's. -/
theorem step_of_fetch_trap {s : State} {cause : Cause} {value : Word} (hrun : s.stopped = none)
    (hend : s.params.endPc ≠ some s.pc) (hfetch : s.fetch = .trap cause value) :
    step s = .next (s.takeException cause value) := by
  have hatEnd : s.atEnd ≠ true := by simpa [State.atEnd] using hend
  rw [step, hrun, hfetch]
  exact if_neg hatEnd

theorem State.fetch_misaligned {s : State} (h : s.pc.toNat % 4 ≠ 0) : s.fetch = .trap .insnMisaligned s.pc := by
  rw [State.fetch, if_pos h]

theorem State.fetch_outside_text {s : State} (hal : s.pc.toNat % 4 = 0) (ht : ¬inText s.params s.pc.toNat 4 = true) :
    s.fetch = .trap .insnAccess s.pc := by
  rw [State.fetch, if_neg (not_not.2 hal), if_neg ht]

/-- Settles O10: the cases of `step` and of the fetch before any instruction is known. -/
theorem stepWithoutInstruction : Obligations.StepWithoutInstruction := by
  intro s
  refine ⟨fun _ hstopped => step_of_stopped hstopped, step_of_atEnd, fun hrun hend => ⟨fun hal => ?_, fun hal ht => ?_⟩⟩
  · exact step_of_fetch_trap hrun hend (State.fetch_misaligned hal)
  · rw [← inText_iff] at ht
    exact step_of_fetch_trap hrun hend (State.fetch_outside_text hal ht)

end Sys2Proof.Machine
end

section
/-! SUPPORT. What a vector load or store has done after some of its elements, and what it leaves where it ends or meets an
exception (43_host_subset.md R247). -/

namespace Sys2Proof.Machine

/-! ## The end of a vector instruction -/

/-- What every completed vector instruction does last (10_state.md R40). -/
theorem State.retireVector_eq (s : State) :
    s.retireVector = { s with vstart := 0, pc := nextPc s, draws := s.draws + 1 } :=
  State.advance_eq _

/-- An instruction that has written vector registers only, and then ends. -/
theorem OnlyV.vectorFrame_retireVector {s u : State} (h : OnlyV s u) : vectorFrame s u.retireVector := by
  rw [h, State.retireVector_eq]

/-! ## The progress of a load, element by element -/

/-- A load of a group of `n` registers before its element `k`: the elements below `k` are as the rules leave them, those
from `k` on are untouched, and so is all outside the group. -/
structure LoadedBelow (s u : State) (eew : Nat) (vd : VReg) (rs1 : XReg) (masked : Bool) (n k : Nat) : Prop where
  progress : LoadProgress s u masked
  outside : outsideGroup s u vd n
  loaded : ∀ j < k, loadedElem s u vd rs1 eew masked j
  untouched : ∀ j, k ≤ j → u.velem vd eew j = s.velem vd eew j

section Load

variable {s u : State} {eew : Nat} {vd : VReg} {rs1 : XReg} {masked : Bool} {n k i j : Nat}

/-- A load writes no element below `vstart`. -/
theorem LoadedBelow.refl (s : State) (eew : Nat) (vd : VReg) (rs1 : XReg) (masked : Bool) (n : Nat) :
    LoadedBelow s s eew vd rs1 masked n s.vstart.toNat where
  progress := .refl s masked
  outside _ _ := rfl
  loaded j hj := by
    unfold loadedElem
    rw [if_pos hj]
    split
    · exact .inl rfl
    · rfl
  untouched _ _ := rfl

/-- What a load has left in an element depends on that element alone. -/
theorem loadedElem_congr {t : State} (h : t.velem vd eew j = u.velem vd eew j) :
    loadedElem s t vd rs1 eew masked j ↔ loadedElem s u vd rs1 eew masked j := by
  simp only [loadedElem, keptOrOnes, h]

/-- A body element that takes part has the bytes of memory. -/
theorem loadedElem_active (hacc : accessed s masked i)
    (h : ∀ m < eew / 8, s.mem.read (elemAddress s rs1 eew i + m) = some (byteOf (u.velem vd eew i) m)) :
    loadedElem s u vd rs1 eew masked i := by
  obtain ⟨hvstart, hvl, hmask⟩ := hacc
  have hpart : ¬(masked = true ∧ (s.vreg 0).testBit i = false) := fun ⟨hm, hbit⟩ => by simp [hmask hm] at hbit
  rw [loadedElem, if_neg (by omega), if_neg (by omega), if_neg hpart]
  exact h

/-- A body element that is masked off follows the mask policy. -/
theorem loadedElem_inactive (hvstart : s.vstart.toNat ≤ i) (hvl : i < s.vl.toNat) (ha : ¬s.active masked i = true)
    (h : keptOrOnes s u s.vma vd eew i) : loadedElem s u vd rs1 eew masked i := by
  rw [State.active_iff, Classical.not_imp, Bool.not_eq_true] at ha
  rw [loadedElem, if_neg (by omega), if_neg (by omega), if_pos ha]
  exact h

/-- The next element of a load goes on with what the load has done. -/
theorem LoadedBelow.succ {u' : State} (h : LoadedBelow s u eew vd rs1 masked n k) (hd : eew ∣ s.params.vlen)
    (hmask : ¬(masked = true ∧ vd = 0)) (hreg : vd.val ≤ s.elemReg vd eew k ∧ s.elemReg vd eew k < vd.val + n)
    (hdone : loadElem eew vd rs1 masked u k = .done u') (helem : loadedElem s u' vd rs1 eew masked k) :
    LoadedBelow s u' eew vd rs1 masked n (k + 1) := by
  have hp : u.params = s.params := h.progress.1.keepsConfig.params
  have hd' : eew ∣ u.params.vlen := hp ▸ hd
  have hreg' : u.elemReg vd eew k = s.elemReg vd eew k := by rw [State.elemReg, State.elemReg, hp]
  have hother : ∀ j, j ≠ k → u'.velem vd eew j = u.velem vd eew j := by
    intro j hj
    rcases loadElem_cases (.inl hdone) with ⟨w, rfl⟩ | rfl
    · exact State.velem_setVelem_other w hd' hj
    · exact State.velem_agnosticElem_other hd' hj
  have houtside : ∀ r, r ≠ u.elemReg vd eew k → u'.vreg r = u.vreg r := by
    intro r hr
    rcases loadElem_cases (.inl hdone) with ⟨w, rfl⟩ | rfl
    · exact State.vreg_setVelem_other w hr
    · exact State.vreg_agnosticElem_other hr
  refine ⟨h.progress.step hmask (.inl hdone), fun r hr => ?_, fun j hj => ?_, fun j hj => ?_⟩
  · exact (houtside r (by omega)).trans (h.outside r hr)
  · by_cases hjk : j = k
    · exact hjk ▸ helem
    · exact (loadedElem_congr (hother j hjk)).2 (h.loaded j (by omega))
  · exact (hother j (by omega)).trans (h.untouched j (by omega))

/-- A body element of a load that can be loaded if it is accessed. -/
theorem LoadedBelow.step (h : LoadedBelow s u eew vd rs1 masked n k) (h8 : 8 ∣ eew) (hd : eew ∣ s.params.vlen)
    (hmask : ¬(masked = true ∧ vd = 0)) (hvstart : s.vstart.toNat ≤ k) (hvl : k < s.vl.toNat)
    (hreg : vd.val ≤ s.elemReg vd eew k ∧ s.elemReg vd eew k < vd.val + n ∧ vd.val + n ≤ 32)
    (hload : accessed s masked k → loadable s rs1 eew k) :
    ∃ u', loadElem eew vd rs1 masked u k = .done u' ∧ LoadedBelow s u' eew vd rs1 masked n (k + 1) := by
  obtain ⟨hle, hlt, h32⟩ := hreg
  have hvma : u.vma = s.vma := by rw [h.progress.1]; rfl
  have hreg' : u.elemReg vd eew k < 32 := by
    rw [State.elemReg, h.progress.1.keepsConfig.params, ← State.elemReg]
    omega
  by_cases ha : s.active masked k = true
  · have hacc : accessed s masked k := ⟨hvstart, hvl, (s.active_iff masked k).1 ha⟩
    obtain ⟨w, hdone, hread⟩ := loadElem_active (vd := vd) h8 ((h.progress.active k).trans ha)
      ((h.progress.loadable_iff ..).2 (hload hacc))
    have hread' : ∀ m < eew / 8, s.mem.read (elemAddress s rs1 eew k + m) = some (byteOf w m) := by
      rw [h.progress.1] at hread
      exact hread
    refine ⟨_, hdone, h.succ hd hmask ⟨hle, hlt⟩ hdone (loadedElem_active hacc ?_)⟩
    rw [State.velem_setVelem_same w hreg']
    exact hread'
  · have hinactive : u.active masked k = false := by
      rw [h.progress.active, ← Bool.not_eq_true]
      exact ha
    have hdone := loadElem_inactive (vd := vd) (rs1 := rs1) (eew := eew) hinactive
    refine ⟨_, hdone, h.succ hd hmask ⟨hle, hlt⟩ hdone (loadedElem_inactive hvstart hvl ha ?_)⟩
    have hkept := State.velem_agnosticElem_same u vd eew u.vma k
    rw [h.untouched k le_rfl, hvma] at hkept
    rw [hvma]
    exact hkept

/-- The elements of the tail follow the tail policy, and the others keep what the load has done. -/
theorem LoadedBelow.finish (h : LoadedBelow s u eew vd rs1 masked n k) (hd : eew ∣ s.params.vlen) (hk : s.vl.toNat ≤ k)
    (j : Nat) : loadedElem s (finishLoad eew vd u) vd rs1 eew masked j := by
  have hd' : eew ∣ u.params.vlen := h.progress.1.keepsConfig.params ▸ hd
  have hvl : u.vl = s.vl := h.progress.1.keepsConfig.vl
  have hvta : u.vta = s.vta := by rw [h.progress.1]; rfl
  have hretire : (finishLoad eew vd u).velem vd eew j = (u.agnosticElems vd eew u.vta (u.memTail eew)).velem vd eew j := rfl
  by_cases hj : j < s.vl.toNat
  · have hbody : j ∉ u.memTail eew := by
      rw [State.memTail, List.mem_range'_1, hvl]
      omega
    have hsame := hretire.trans (State.velem_agnosticElems_other hd' hbody)
    exact (loadedElem_congr hsame).2 (h.loaded j (by omega))
  · rw [loadedElem, if_pos (by omega), keptOrOnes, hretire, hvta]
    have hbefore : keptOrOnes s u s.vta vd eew j := by
      by_cases hjk : j < k
      · have := h.loaded j hjk
        rwa [loadedElem, if_pos (by omega)] at this
      · exact .inl (h.untouched j (by omega))
    rcases State.velem_agnosticElems (agnostic := s.vta) (l := u.memTail eew) (r := vd) hd' j with htail | htail
    · rw [htail]
      exact hbefore
    · exact .inr htail

/-- The end of a load writes no register outside the group of its elements. -/
theorem LoadedBelow.finish_outside (h : LoadedBelow s u eew vd rs1 masked n k)
    (hreg : ∀ j < s.memElems eew, vd.val ≤ s.elemReg vd eew j ∧ s.elemReg vd eew j < vd.val + n) :
    outsideGroup s (finishLoad eew vd u) vd n := by
  intro r hr
  have htail : ∀ j ∈ u.memTail eew, r.val ≠ u.elemReg vd eew j := by
    rw [h.progress.1]
    intro j hj
    have htail : s.vl.toNat ≤ j ∧ j < s.vl.toNat + (s.memElems eew - s.vl.toNat) := List.mem_range'_1.1 hj
    have hgroup := hreg j (by omega)
    show r.val ≠ s.elemReg vd eew j
    omega
  exact (State.vreg_agnosticElems_other htail).trans (h.outside r hr)

/-- Where the elements of a legal load stand (10_state.md R31 to R33). -/
theorem LoadOp.elemReg_in_group (op : LoadOp) (hinv : s.Inv) (hr : memRuns s op.eew vd true masked)
    (hj : j < s.memElems op.eew) :
    vd.val ≤ s.elemReg vd op.eew j ∧ s.elemReg vd op.eew j < vd.val + max 1 (emul8Of s op.eew / 8)
      ∧ vd.val + max 1 (emul8Of s op.eew / 8) ≤ 32 := by
  have ⟨_, _, _, _, _, halign, _⟩ := hr
  exact State.elemReg_in_group (op.eew_dvd_vlen (Params.wf_bounds hinv.params).1) op.eew_pos
    (emul8Of_eq_two_pow op.eew_eq_two_pow hr) halign hj

/-- A legal load whose elements below `i` can be loaded where they are accessed transfers them. -/
theorem LoadedBelow.of_transfer (op : LoadOp) (hinv : s.Inv) (hr : memRuns s op.eew vd true masked)
    (hk : k ≤ s.vl.toNat - s.vstart.toNat)
    (hload : ∀ j < s.vstart.toNat + k, accessed s masked j → loadable s rs1 op.eew j) :
    ∃ u, exec (op.instr vd rs1 masked) s
        = transferElems (loadElem op.eew vd rs1 masked) (finishLoad op.eew vd) u
            (List.range' (s.vstart.toNat + k) (s.vl.toNat - s.vstart.toNat - k))
      ∧ LoadedBelow s u op.eew vd rs1 masked (max 1 (emul8Of s op.eew / 8)) (s.vstart.toNat + k) := by
  have ⟨_, _, _, _, _, _, hmask⟩ := hr
  have hd := op.eew_dvd_vlen (Params.wf_bounds hinv.params).1
  have hvl : s.vl.toNat ≤ s.memElems op.eew :=
    (State.vl_le_memElems hinv.config op.eew_eq_two_pow hr).trans (le_max_right ..)
  rw [LoadOp.exec_eq, State.vectorLoad_of_runs hr]
  refine transferElems_range' _ (Q := fun j u => LoadedBelow s u op.eew vd rs1 masked _ j) (fun j u hj hjk hu => ?_)
    (.refl ..) hk
  exact hu.step op.eight_dvd_eew hd (by simpa using hmask) hj (by omega) (op.elemReg_in_group hinv hr (by omega))
    (hload j hjk)

end Load

/-- Settles O38: every body element is transferred, and the tail follows `vta`. -/
theorem vectorLoad : Obligations.VectorLoad := by
  intro op s vd rs1 masked hinv hr hload
  have hd := op.eew_dvd_vlen (Params.wf_bounds hinv.params).1
  obtain ⟨u, hexec, hu⟩ := LoadedBelow.of_transfer (rs1 := rs1) op hinv hr le_rfl fun j _ hacc => hload j hacc
  refine ⟨finishLoad op.eew vd u, ?_, ?_, ?_, fun j _ => hu.finish hd (by omega) j⟩
  · rw [hexec, Nat.sub_self]
    rfl
  · exact (hu.progress.1.agnosticElems ..).vectorFrame_retireVector
  · exact hu.finish_outside fun j hj => by
      obtain ⟨hle, hlt, -⟩ := op.elemReg_in_group hinv hr hj
      exact ⟨hle, hlt⟩

/-! ## The progress of a store, element by element -/

/-- A word store before its element `k`: only memory has changed, the accessed elements below `k` could be stored and are,
and no byte has changed but those of accessed elements that can be stored. -/
structure StoredBelow (s u : State) (vs3 : VReg) (rs1 : XReg) (masked : Bool) (k : Nat) : Prop where
  onlyMem : OnlyMem s u
  canStore : ∀ j < k, accessed s masked j → storable s rs1 32 j
  stored : ∀ j < k, accessed s masked j → ∀ m < 4,
    u.mem.read (elemAddress s rs1 32 j + m) = some (byteOf (s.velem vs3 32 j) m)
  others : ∀ a, (∀ j, accessed s masked j → storable s rs1 32 j → ¬inElement s rs1 32 j a) →
    u.mem.read a = s.mem.read a

/-- Reading a byte of a word that was stored. -/
theorem Memory.read_writeBytes_word {m : Memory} {a k : Nat} (w : BitVec 32) (hk : k < 4) :
    (m.writeBytes a (bytesOfNat 4 w.toNat)).read (a + k) = some (byteOf w k) := by
  rw [Memory.read_writeBytes_same (by simpa using hk), bytesOfNat_getElem? _ _ _ hk]
  refine congrArg some (BitVec.eq_of_toNat_eq ?_)
  rw [byteOf_toNat, BitVec.toNat_ofNat]

section Store

variable {s u u' : State} {vs3 : VReg} {rs1 : XReg} {masked : Bool} {k i : Nat}

/-- A store stores no element below `vstart`. -/
theorem StoredBelow.refl (s : State) (vs3 : VReg) (rs1 : XReg) (masked : Bool) :
    StoredBelow s s vs3 rs1 masked s.vstart.toNat where
  onlyMem := rfl
  canStore _ hj hacc := absurd hacc.1 (by omega)
  stored _ hj hacc := absurd hacc.1 (by omega)
  others _ _ := rfl

theorem OnlyMem.active (h : OnlyMem s u) (masked : Bool) (i : Nat) : u.active masked i = s.active masked i := by
  rw [h]; rfl

theorem OnlyMem.storable_iff (h : OnlyMem s u) (rs1 : XReg) (eew i : Nat) :
    storable u rs1 eew i ↔ storable s rs1 eew i := by
  rw [h]; rfl

/-- What storing one accessed element does to memory. -/
theorem OnlyMem.storeElem_active (h : OnlyMem s u) (hacc : accessed s masked i) (hs : storable s rs1 32 i) :
    storeElem 32 vs3 rs1 masked u i = .done
      { u with mem := u.mem.writeBytes (elemAddress s rs1 32 i) (bytesOfNat 4 (s.velem vs3 32 i).toNat) } := by
  obtain ⟨-, -, hmask⟩ := hacc
  rw [Machine.storeElem_active ((h.active masked i).trans ((s.active_iff masked i).2 hmask)) ((h.storable_iff ..).2 hs), h]
  rfl

/-- An accessed element that cannot be stored raises its exception. -/
theorem OnlyMem.storeElem_trap (h : OnlyMem s u) (hacc : accessed s masked i) (hs : ¬storable s rs1 32 i) :
    storeElem 32 vs3 rs1 masked u i
      = .trap (if elemAligned s rs1 32 i then .storeAccess else .storeMisaligned)
          (BitVec.ofNat 64 (elemAddress s rs1 32 i)) := by
  obtain ⟨-, -, hmask⟩ := hacc
  rw [Machine.storeElem_trap ((h.active masked i).trans ((s.active_iff masked i).2 hmask))
    (fun hu => hs ((h.storable_iff ..).1 hu)), h]
  rfl

/-- A body element that is not accessed stores nothing. -/
theorem OnlyMem.storeElem_inactive (h : OnlyMem s u) (hvstart : s.vstart.toNat ≤ i) (hvl : i < s.vl.toNat)
    (hacc : ¬accessed s masked i) : storeElem 32 vs3 rs1 masked u i = .done u := by
  refine Machine.storeElem_inactive ?_
  rw [h.active, ← Bool.not_eq_true, State.active_iff]
  exact fun hmask => hacc ⟨hvstart, hvl, hmask⟩

/-- Storing an element from `k` on keeps what the store has done below `k`: no two elements overlap. -/
theorem StoredBelow.write (h : StoredBelow s u vs3 rs1 masked k) (hfit : 4 * s.vl.toNat ≤ 2 ^ s.params.xlen.bits)
    (hki : k ≤ i) (hacc : accessed s masked i) (hs : storable s rs1 32 i) :
    StoredBelow s { u with mem := u.mem.writeBytes (elemAddress s rs1 32 i) (bytesOfNat 4 (s.velem vs3 32 i).toNat) }
      vs3 rs1 masked k := by
  have ⟨_, hvl, _⟩ := hacc
  refine ⟨?_, h.canStore, fun j hj haccj m hm => ?_, fun a ha => ?_⟩
  · rw [h.onlyMem]
  · have hapart := elemAddress_apart (h.canStore j hj haccj).1 hs.1 (by omega) (by omega)
    have hread := h.stored j hj haccj m hm
    rwa [← Memory.read_writeBytes_other (a := elemAddress s rs1 32 i)
      (l := bytesOfNat 4 (s.velem vs3 32 i).toNat) (by rw [bytesOfNat_length]; omega)] at hread
  · have hout : ¬inElement s rs1 32 i a := ha i hacc hs
    refine (Memory.read_writeBytes_other ?_).trans (h.others a ha)
    rw [bytesOfNat_length]
    omega

/-- The next element counts as stored if its bytes are in memory where it is accessed. -/
theorem StoredBelow.succ (h : StoredBelow s u vs3 rs1 masked k) (hs : accessed s masked k → storable s rs1 32 k)
    (hstored : accessed s masked k → ∀ m < 4,
      u.mem.read (elemAddress s rs1 32 k + m) = some (byteOf (s.velem vs3 32 k) m)) :
    StoredBelow s u vs3 rs1 masked (k + 1) where
  onlyMem := h.onlyMem
  canStore j hj hacc := by
    rcases Nat.lt_succ_iff_lt_or_eq.1 hj with hlt | rfl
    · exact h.canStore j hlt hacc
    · exact hs hacc
  stored j hj hacc := by
    rcases Nat.lt_succ_iff_lt_or_eq.1 hj with hlt | rfl
    · exact h.stored j hlt hacc
    · exact hstored hacc
  others := h.others

/-- A body element of a store that can be stored if it is accessed. -/
theorem StoredBelow.step (h : StoredBelow s u vs3 rs1 masked k) (hfit : 4 * s.vl.toNat ≤ 2 ^ s.params.xlen.bits)
    (hvstart : s.vstart.toNat ≤ k) (hvl : k < s.vl.toNat) (hs : accessed s masked k → storable s rs1 32 k) :
    ∃ u', storeElem 32 vs3 rs1 masked u k = .done u' ∧ StoredBelow s u' vs3 rs1 masked (k + 1) := by
  by_cases hacc : accessed s masked k
  · exact ⟨_, h.onlyMem.storeElem_active hacc (hs hacc),
      (h.write hfit le_rfl hacc (hs hacc)).succ hs fun _ _ hm => Memory.read_writeBytes_word _ hm⟩
  · exact ⟨u, h.onlyMem.storeElem_inactive hvstart hvl hacc, h.succ hs fun hc => absurd hc hacc⟩

/-- An element above one that met an exception, stored or not, keeps what the store has done below it. -/
theorem StoredBelow.overrun (h : StoredBelow s u vs3 rs1 masked k) (hfit : 4 * s.vl.toNat ≤ 2 ^ s.params.xlen.bits)
    (hvstart : s.vstart.toNat ≤ i) (hvl : i < s.vl.toNat) (hki : k ≤ i)
    (hstep : ElemStep (storeElem 32 vs3 rs1 masked) u u' i) : StoredBelow s u' vs3 rs1 masked k := by
  by_cases hacc : accessed s masked i
  · rcases storeElem_cases hstep with rfl | ⟨hs, rfl⟩
    · exact h
    · rw [h.onlyMem.storable_iff] at hs
      have hwrite := h.write hfit hki hacc hs
      rw [h.onlyMem] at hwrite ⊢
      exact hwrite
  · rw [ElemStep, h.onlyMem.storeElem_inactive hvstart hvl hacc] at hstep
    obtain rfl : u = u' := by simpa using hstep
    exact h

/-- The bytes of the elements of a legal word store are fewer than the addresses. -/
theorem four_mul_vl_le (hinv : s.Inv) (hr : memRuns s 32 vs3 false masked) :
    4 * s.vl.toNat ≤ 2 ^ s.params.xlen.bits := by
  obtain ⟨hvlen, hlt⟩ := State.store_bytes_fit hinv hr
  omega

/-- A legal word store whose first `k` body elements can be stored where they are accessed stores them. -/
theorem StoredBelow.of_transfer (hinv : s.Inv) (hr : memRuns s 32 vs3 false masked)
    (hk : k ≤ s.vl.toNat - s.vstart.toNat)
    (hs : ∀ j < s.vstart.toNat + k, accessed s masked j → storable s rs1 32 j) :
    ∃ u, exec (.vse32 vs3 rs1 masked) s
        = transferElems (storeElem 32 vs3 rs1 masked) State.retireVector u
            (List.range' (s.vstart.toNat + k) (s.vl.toNat - s.vstart.toNat - k))
      ∧ StoredBelow s u vs3 rs1 masked (s.vstart.toNat + k) := by
  show ∃ u, s.vectorStore 32 vs3 rs1 masked = _ ∧ _
  rw [State.vectorStore_of_runs hr]
  refine transferElems_range' _ (Q := fun j u => StoredBelow s u vs3 rs1 masked j) (fun j u hj hjk hu => ?_) (.refl ..) hk
  exact hu.step (four_mul_vl_le hinv hr) hj (by omega) (hs j hjk)

end Store

/-- Settles O39: every accessed body element is stored, at bytes no other element of the store has. -/
theorem vectorStore : Obligations.VectorStore := by
  intro s vs3 rs1 masked hinv hr hs
  obtain ⟨u, hexec, hu⟩ := StoredBelow.of_transfer (rs1 := rs1) hinv hr le_rfl fun j _ hacc => hs j hacc
  refine ⟨u.retireVector, ?_, ?_, fun i hacc => ?_, fun a ha => ?_⟩
  · rw [hexec, Nat.sub_self]
    rfl
  · rw [hu.onlyMem, State.retireVector_eq]
  · have ⟨_, hvl, _⟩ := hacc
    exact hu.stored i (by omega) hacc
  · exact hu.others a fun j hacc _ => ha j hacc

/-- Settles O41: the elements below `i` are stored, element `i` raises its exception, and an overrun above it stores only
elements that can be stored. -/
theorem storeExceptionAtElement : Obligations.StoreExceptionAtElement := by
  intro s vs3 rs1 masked i hinv hr hacc hbelow hfail
  have ⟨hvstart, hvl, _⟩ := hacc
  obtain ⟨k, rfl⟩ := Nat.exists_eq_add_of_le hvstart
  obtain ⟨u, hexec, hu⟩ := StoredBelow.of_transfer (rs1 := rs1) hinv hr (by omega) hbelow
  have htrap := transferElems_trap (finish := State.retireVector) (k := s.vl.toNat - s.vstart.toNat - k) (by omega)
    (hu.onlyMem.storeElem_trap (vs3 := vs3) hacc hfail)
  have hover : StoredBelow s (overrunElems (storeElem 32 vs3 rs1 masked) u
      (List.range' (s.vstart.toNat + k + 1) (s.vl.toNat - s.vstart.toNat - k - 1))) vs3 rs1 masked (s.vstart.toNat + k) := by
    refine overrunElems_keeps (P := fun v => StoredBelow s v vs3 rs1 masked (s.vstart.toNat + k))
      (fun v v' j hj hv hstep => ?_) hu
    rw [List.mem_range'_1] at hj
    exact hv.overrun (four_mul_vl_le hinv hr) (by omega) (by omega) (by omega) hstep
  refine ⟨_, hexec.trans htrap, ?_, hover.stored, hover.others⟩
  rw [hover.onlyMem]

end Sys2Proof.Machine
end

section
/-! SUPPORT. The words of the encoded rows: the operand fields of an encoded word hold the operands, and a word that a row
accepts is the encoding of its fields (30_encoding.md R82 to R85, 43_host_subset.md R232 to R246). -/

namespace Sys2Proof

open Sys2Proof.Laws Sys2Proof.Machine

/-! ## A word from its fields -/

theorem field_lt (w : Insn) (lsb width : Nat) : field w lsb width < 2 ^ width := Nat.mod_lt _ (Nat.two_pow_pos _)

/-- Adjacent fields of the given widths from bit `lsb` up, each in its place. -/
def joinFields (w : Insn) : (lsb : Nat) → (widths : List Nat) → Nat
  | _, [] => 0
  | lsb, width :: rest => field w lsb width * 2 ^ lsb + joinFields w (lsb + width) rest

/-- Adjacent fields join to one field. -/
theorem joinFields_eq_field (w : Insn) (lsb : Nat) (widths : List Nat) :
    joinFields w lsb widths = field w lsb widths.sum * 2 ^ lsb := by
  induction widths generalizing lsb with
  | nil => simp [joinFields, field, Nat.mod_one]
  | cons width rest ih =>
    rw [joinFields, ih, List.sum_cons]
    simp only [field]
    rw [pow_add 2 width, Nat.mod_mul, Nat.div_div_eq_div_mul, ← pow_add, pow_add]
    ring

/-- A number that is the join of fields filling the word is the word's own. -/
theorem ofNat_eq_of_joinFields {w : Insn} {n : Nat} (widths : List Nat) (h32 : widths.sum = 32)
    (h : n = joinFields w 0 widths) : BitVec.ofNat 32 n = w := by
  rw [joinFields_eq_field, h32, field, pow_zero, Nat.div_one, mul_one, Nat.mod_eq_of_lt w.isLt] at h
  rw [h, BitVec.ofNat_toNat, BitVec.setWidth_eq]

/-! ## Operand fields -/

@[simp] theorem regField_val (w : Insn) (lsb : Nat) : (regField w lsb).val = field w lsb 5 :=
  Nat.mod_eq_of_lt (field_lt w lsb 5)

@[simp] theorem vmBitOf_maskedField (w : Insn) (bit : Nat) : vmBitOf (maskedField w bit) = field w bit 1 := by
  have := field_lt w bit 1
  unfold maskedField vmBitOf
  split_ifs with h
  · exact (beq_iff_eq.1 h).symm
  · rw [beq_iff_eq] at h
    omega

@[simp] theorem toNat_ofNat_field (w : Insn) (lsb n : Nat) : (BitVec.ofNat n (field w lsb n)).toNat = field w lsb n := by
  rw [BitVec.toNat_ofNat, Nat.mod_eq_of_lt (field_lt w lsb n)]

/-- A register field that holds a register's number is the register. -/
theorem regField_eq {w : Insn} {lsb : Nat} {r : Fin 32} (h : field w lsb 5 = r) : regField w lsb = r :=
  Fin.ext ((regField_val w lsb).trans h)

/-- A `vm` field that holds the bit of a form says the form (30_encoding.md R84). -/
theorem maskedField_eq {w : Insn} {bit : Nat} {masked : Bool} (h : field w bit 1 = vmBitOf masked) :
    maskedField w bit = masked := by
  rw [maskedField, h]
  cases masked <;> rfl

/-- A number that is an immediate's is the immediate. -/
theorem ofNat_eq_imm {n k : Nat} {imm : BitVec n} (h : k = imm.toNat) : BitVec.ofNat n k = imm := by
  rw [h, BitVec.ofNat_toNat, BitVec.setWidth_eq]

/-- A row accepts a word whose fixed fields hold their values. -/
theorem OpcodeRow.accepts_iff_fields (row : OpcodeRow) (w : Insn) :
    row.accepts w = true ↔ ∀ f ∈ row.fixed, field w f.lsb f.width = f.value := by
  simp [OpcodeRow.accepts]

/-! ## Format VCI -/

/-- The operand fields of a word of format VCI hold its operands (30_encoding.md R83, R84). -/
theorem field_of_encodeVci {funct6 funct3 : Nat} (h3 : funct3 < 8) {vd vs2 vs1 : VReg} {ci : Nat} {masked : Bool}
    (hwf : batchOperandsWf vs2 ci = true) {w : Insn} (hw : encodeVci funct6 funct3 vd vs2 vs1 ci masked = w) :
    vd = field w 7 5 ∧ vs1 = field w 15 5 ∧ vs2 = 8 * field w 23 2 ∧ ci = 8 * field w 20 3
      ∧ vmBitOf masked = field w 25 1 := by
  subst hw
  have := vmBitOf_le masked
  have := vd.isLt; have := vs2.isLt; have := vs1.isLt
  simp only [batchOperandsWf, Bool.and_eq_true, beq_iff_eq, decide_eq_true_eq] at hwf
  obtain ⟨⟨hvs2, hci⟩, hle⟩ := hwf
  simp only [field, encodeVci, BitVec.toNat_ofNat]
  refine ⟨by omega, by omega, by omega, by omega, by omega⟩

theorem vciOperands_of_encodeVci {funct6 funct3 : Nat} (h3 : funct3 < 8)
    (mk : VReg → VReg → VReg → Nat → Bool → Instr) {vd vs2 vs1 : VReg} {ci : Nat} {masked : Bool}
    (hwf : batchOperandsWf vs2 ci = true) {w : Insn} (hw : some (encodeVci funct6 funct3 vd vs2 vs1 ci masked) = some w) :
    vciOperands mk w = mk vd vs2 vs1 ci masked := by
  obtain ⟨hvd, hvs1, hvs2, hci, hvm⟩ := field_of_encodeVci h3 hwf (Option.some.inj hw)
  rw [vciOperands, regField_eq hvd.symm, ← hvs2, regField_eq hvs1.symm, ← hci, maskedField_eq hvm.symm,
    Fin.ofNat_val_eq_self]

theorem batchOperandsWf_fields (w : Insn) :
    batchOperandsWf (Fin.ofNat 32 (8 * field w 23 2)) (8 * field w 20 3) = true := by
  have := field_lt w 20 3
  simp only [batchOperandsWf, Fin.val_ofNat, Bool.and_eq_true, beq_iff_eq, decide_eq_true_eq]
  refine ⟨⟨by omega, by omega⟩, by omega⟩

theorem encodeVci_of_accepts {mnemonic : String} {funct6 funct3 : Nat} {present : Extensions → Bool}
    {mk : VReg → VReg → VReg → Nat → Bool → Instr} {w : Insn}
    (h : (vciRow mnemonic funct6 funct3 present mk).accepts w = true) :
    encodeVci funct6 funct3 (regField w 7) (Fin.ofNat 32 (8 * field w 23 2)) (regField w 15) (8 * field w 20 3)
      (maskedField w 25) = w := by
  simp only [OpcodeRow.accepts_iff_fields, vciRow, List.forall_mem_cons] at h
  obtain ⟨hopcode, hfunct3, hfunct6, -⟩ := h
  have := field_lt w 23 2
  refine ofNat_eq_of_joinFields [7, 5, 3, 5, 3, 2, 1, 6] rfl ?_
  simp only [joinFields, Nat.reduceAdd, regField_val, vmBitOf_maskedField, Fin.val_ofNat]
  omega

/-! ## Unit-stride loads and stores -/

theorem operands_of_encodeUnitStride {opcode width : Nat} (ho : opcode < 128) (hwidth : width < 8) {vd : VReg}
    {rs1 : XReg} {masked : Bool} {w : Insn} (hw : encodeUnitStride opcode width vd rs1 masked = w) :
    regField w 7 = vd ∧ regField w 15 = rs1 ∧ maskedField w 25 = masked := by
  subst hw
  have := vmBitOf_le masked
  have := vd.isLt; have := rs1.isLt
  refine ⟨regField_eq ?_, regField_eq ?_, maskedField_eq ?_⟩ <;>
    (simp only [field, encodeUnitStride, BitVec.toNat_ofNat]; omega)

theorem unitStride_of_encode {opcode width : Nat} (ho : opcode < 128) (hwidth : width < 8)
    (mk : VReg → XReg → Bool → Instr) {vd : VReg} {rs1 : XReg} {masked : Bool} {w : Insn}
    (hw : some (encodeUnitStride opcode width vd rs1 masked) = some w) :
    mk (regField w 7) (regField w 15) (maskedField w 25) = mk vd rs1 masked := by
  obtain ⟨hvd, hrs1, hvm⟩ := operands_of_encodeUnitStride ho hwidth (Option.some.inj hw)
  rw [hvd, hrs1, hvm]

theorem encodeUnitStride_of_accepts {mnemonic : String} {opcode width : Nat} {mk : VReg → XReg → Bool → Instr}
    {w : Insn} (h : (unitStrideRow mnemonic opcode width mk).accepts w = true) :
    encodeUnitStride opcode width (regField w 7) (regField w 15) (maskedField w 25) = w := by
  simp only [OpcodeRow.accepts_iff_fields, unitStrideRow, List.forall_mem_cons] at h
  obtain ⟨hopcode, hwidth, hlumop, hfunct6, -⟩ := h
  refine ofNat_eq_of_joinFields [7, 5, 3, 5, 5, 1, 6] rfl ?_
  simp only [joinFields, Nat.reduceAdd, regField_val, vmBitOf_maskedField]
  omega

/-! ## The integer instructions -/

theorem operands_of_encodeR {funct7 funct3 opcode : Nat} (h3 : funct3 < 8) (ho : opcode < 128) {rd rs1 rs2 : XReg}
    {w : Insn} (hw : encodeR funct7 funct3 opcode rd rs1 rs2 = w) :
    regField w 7 = rd ∧ regField w 15 = rs1 ∧ regField w 20 = rs2 := by
  subst hw
  have := rd.isLt; have := rs1.isLt; have := rs2.isLt
  refine ⟨regField_eq ?_, regField_eq ?_, regField_eq ?_⟩ <;>
    (simp only [field, encodeR, BitVec.toNat_ofNat]; omega)

theorem rType_of_encode {funct7 funct3 opcode : Nat} (h3 : funct3 < 8) (ho : opcode < 128)
    (mk : XReg → XReg → XReg → Instr) {rd rs1 rs2 : XReg} {w : Insn}
    (hw : some (encodeR funct7 funct3 opcode rd rs1 rs2) = some w) :
    mk (regField w 7) (regField w 15) (regField w 20) = mk rd rs1 rs2 := by
  obtain ⟨hrd, hrs1, hrs2⟩ := operands_of_encodeR h3 ho (Option.some.inj hw)
  rw [hrd, hrs1, hrs2]

theorem encodeR_of_accepts {row : OpcodeRow} {funct7 funct3 opcode : Nat} {w : Insn} (h : row.accepts w = true)
    (hfixed : row.fixed = [⟨0, 7, opcode⟩, ⟨12, 3, funct3⟩, ⟨25, 7, funct7⟩]) :
    encodeR funct7 funct3 opcode (regField w 7) (regField w 15) (regField w 20) = w := by
  simp only [OpcodeRow.accepts_iff_fields, hfixed, List.forall_mem_cons] at h
  obtain ⟨hopcode, hfunct3, hfunct7, -⟩ := h
  refine ofNat_eq_of_joinFields [7, 5, 3, 5, 5, 7] rfl ?_
  simp only [joinFields, Nat.reduceAdd, regField_val]
  omega

theorem addi_of_encode {p : Params} {rd rs1 : XReg} {imm : BitVec 12} {w : Insn}
    (hw : encode p (.addi rd rs1 imm) = some w) :
    Instr.addi (regField w 7) (regField w 15) (BitVec.ofNat 12 (field w 20 12)) = .addi rd rs1 imm := by
  obtain ⟨hrd, hrs1, himm⟩ : field w 7 5 = rd ∧ field w 15 5 = rs1 ∧ field w 20 12 = imm.toNat := by
    obtain rfl := Option.some.inj hw
    have := rd.isLt; have := rs1.isLt; have := imm.isLt
    simp only [field, BitVec.toNat_ofNat]
    refine ⟨by omega, by omega, by omega⟩
  rw [regField_eq hrd, regField_eq hrs1, ofNat_eq_imm himm]

theorem encode_addi_of_accepts (p : Params) {row : OpcodeRow} {w : Insn} (h : row.accepts w = true)
    (hfixed : row.fixed = [⟨0, 7, 0x13⟩, ⟨12, 3, 0⟩]) :
    encode p (.addi (regField w 7) (regField w 15) (BitVec.ofNat 12 (field w 20 12))) = some w := by
  simp only [OpcodeRow.accepts_iff_fields, hfixed, List.forall_mem_cons] at h
  obtain ⟨hopcode, hfunct3, -⟩ := h
  refine congrArg some (ofNat_eq_of_joinFields [7, 5, 3, 5, 12] rfl ?_)
  simp only [joinFields, Nat.reduceAdd, regField_val, toNat_ofNat_field]
  omega

theorem branchField_toNat (w : Insn) :
    (branchField w).toNat = field w 31 1 * 4096 + field w 7 1 * 2048 + field w 25 6 * 32 + field w 8 4 * 2 := by
  have := field_lt w 31 1; have := field_lt w 7 1; have := field_lt w 25 6; have := field_lt w 8 4
  rw [branchField, BitVec.toNat_ofNat]
  omega

theorem branchField_even (w : Insn) : (branchField w).getLsbD 0 = false := by
  rw [BitVec.getLsbD, branchField_toNat, Nat.testBit_zero]
  simp only [decide_eq_false_iff_not]
  omega

/-- The fields of a B-type word hold the four parts of its offset and its registers (43_host_subset.md R232). -/
theorem field_of_bType {imm12 imm11 imm10 imm4 rs1 rs2 : Nat} (h12 : imm12 < 2) (h11 : imm11 < 2) (h10 : imm10 < 64)
    (h4 : imm4 < 16) (h1 : rs1 < 32) (h2 : rs2 < 32) {w : Insn}
    (hw : BitVec.ofNat 32 (imm12 * 2 ^ 31 + imm10 * 2 ^ 25 + rs2 * 2 ^ 20 + rs1 * 2 ^ 15 + 1 * 2 ^ 12 + imm4 * 2 ^ 8
      + imm11 * 2 ^ 7 + 0x63) = w) :
    field w 31 1 = imm12 ∧ field w 7 1 = imm11 ∧ field w 25 6 = imm10 ∧ field w 8 4 = imm4 ∧ field w 15 5 = rs1
      ∧ field w 20 5 = rs2 := by
  subst hw
  simp only [field, BitVec.toNat_ofNat]
  refine ⟨by omega, by omega, by omega, by omega, by omega, by omega⟩

theorem bne_of_encode {p : Params} {rs1 rs2 : XReg} {offset : BitVec 13} (heven : offset.getLsbD 0 = false) {w : Insn}
    (hw : encode p (.bne rs1 rs2 offset) = some w) :
    Instr.bne (regField w 15) (regField w 20) (branchField w) = .bne rs1 rs2 offset := by
  have := offset.isLt
  have hbit0 : offset.toNat % 2 = 0 := by simpa [BitVec.getLsbD, Nat.testBit_zero] using heven
  obtain ⟨h12, h11, h10, h4, hrs1, hrs2⟩ := field_of_bType (by omega) (Nat.mod_lt _ (by decide))
    (Nat.mod_lt _ (by decide)) (Nat.mod_lt _ (by decide)) rs1.isLt rs2.isLt (Option.some.inj hw)
  have hoffset : branchField w = offset := by
    refine BitVec.eq_of_toNat_eq ?_
    rw [branchField_toNat, h12, h11, h10, h4]
    omega
  rw [regField_eq hrs1, regField_eq hrs2, hoffset]

theorem encode_bne_of_accepts (p : Params) {row : OpcodeRow} {w : Insn} (h : row.accepts w = true)
    (hfixed : row.fixed = [⟨0, 7, 0x63⟩, ⟨12, 3, 1⟩]) :
    encode p (.bne (regField w 15) (regField w 20) (branchField w)) = some w := by
  simp only [OpcodeRow.accepts_iff_fields, hfixed, List.forall_mem_cons] at h
  obtain ⟨hopcode, hfunct3, -⟩ := h
  have := field_lt w 31 1; have := field_lt w 7 1; have := field_lt w 25 6; have := field_lt w 8 4
  refine congrArg some (ofNat_eq_of_joinFields [7, 1, 4, 3, 5, 5, 6, 1] rfl ?_)
  simp only [joinFields, Nat.reduceAdd, regField_val, branchField_toNat]
  omega

/-! ## Vector configuration and the vector move -/

theorem vsetvli_of_encode {p : Params} {rd rs1 : XReg} {zimm : BitVec 11} {w : Insn}
    (hw : encode p (.vsetvli rd rs1 zimm) = some w) :
    Instr.vsetvli (regField w 7) (regField w 15) (BitVec.ofNat 11 (field w 20 11)) = .vsetvli rd rs1 zimm := by
  obtain ⟨hrd, hrs1, hzimm⟩ : field w 7 5 = rd ∧ field w 15 5 = rs1 ∧ field w 20 11 = zimm.toNat := by
    obtain rfl := Option.some.inj hw
    have := rd.isLt; have := rs1.isLt; have := zimm.isLt
    simp only [field, BitVec.toNat_ofNat]
    refine ⟨by omega, by omega, by omega⟩
  rw [regField_eq hrd, regField_eq hrs1, ofNat_eq_imm hzimm]

theorem encode_vsetvli_of_accepts (p : Params) {row : OpcodeRow} {w : Insn} (h : row.accepts w = true)
    (hfixed : row.fixed = [⟨0, 7, 0x57⟩, ⟨12, 3, 7⟩, ⟨31, 1, 0⟩]) :
    encode p (.vsetvli (regField w 7) (regField w 15) (BitVec.ofNat 11 (field w 20 11))) = some w := by
  simp only [OpcodeRow.accepts_iff_fields, hfixed, List.forall_mem_cons] at h
  obtain ⟨hopcode, hfunct3, htop, -⟩ := h
  refine congrArg some (ofNat_eq_of_joinFields [7, 5, 3, 5, 11, 1] rfl ?_)
  simp only [joinFields, Nat.reduceAdd, regField_val, toNat_ofNat_field]
  omega

theorem vmvVI_of_encode {p : Params} {vd : VReg} {simm5 : BitVec 5} {w : Insn}
    (hw : encode p (.vmvVI vd simm5) = some w) :
    Instr.vmvVI (regField w 7) (BitVec.ofNat 5 (field w 15 5)) = .vmvVI vd simm5 := by
  obtain ⟨hvd, hsimm5⟩ : field w 7 5 = vd ∧ field w 15 5 = simm5.toNat := by
    obtain rfl := Option.some.inj hw
    have := vd.isLt; have := simm5.isLt
    simp only [field, BitVec.toNat_ofNat]
    refine ⟨by omega, by omega⟩
  rw [regField_eq hvd, ofNat_eq_imm hsimm5]

theorem encode_vmvVI_of_accepts (p : Params) {row : OpcodeRow} {w : Insn} (h : row.accepts w = true)
    (hfixed : row.fixed = [⟨0, 7, 0x57⟩, ⟨12, 3, 3⟩, ⟨20, 5, 0⟩, ⟨25, 1, 1⟩, ⟨26, 6, 0b010111⟩]) :
    encode p (.vmvVI (regField w 7) (BitVec.ofNat 5 (field w 15 5))) = some w := by
  simp only [OpcodeRow.accepts_iff_fields, hfixed, List.forall_mem_cons] at h
  obtain ⟨hopcode, hfunct3, hvs2, hvm, hfunct6, -⟩ := h
  refine congrArg some (ofNat_eq_of_joinFields [7, 5, 3, 5, 5, 1, 6] rfl ?_)
  simp only [joinFields, Nat.reduceAdd, regField_val, toNat_ofNat_field]
  omega

end Sys2Proof
end

section
/-! SUPPORT. The rows of the opcode table as a whole: what each row builds, and encoding and decoding by rows (30_encoding.md R85,
R87, 43_host_subset.md R233 to R246). -/

namespace Sys2Proof

open Sys2Proof.Laws Sys2Proof.Machine

/-! ## What a row builds -/

/-- A row builds the instruction of its pattern and of its extension. -/
theorem patternOf_build {row : OpcodeRow} (hrow : row ∈ opcodeTable) (w : Insn) :
    patternOf (row.build w) = some (BitVec.ofNat 32 row.matchWord, BitVec.ofNat 32 row.maskWord)
      ∧ ∀ e, extPresent e (row.build w) = row.present e := by
  obtain ⟨n, hn, rfl⟩ := List.mem_iff_getElem.1 hrow
  have hlength : n < 16 := hn
  interval_cases n <;> exact ⟨rfl, fun _ => rfl⟩

/-- A row builds an instruction that an encoding can hold, and the word it accepts is the encoding. -/
theorem encode_build {row : OpcodeRow} (hrow : row ∈ opcodeTable) (p : Params) {w : Insn} (h : row.accepts w = true) :
    (row.build w).wf = true ∧ encode p (row.build w) = some w := by
  revert row
  simp only [opcodeTable, List.forall_mem_cons]
  have batch {mnemonic funct6 funct3 present mk} (h : (vciRow mnemonic funct6 funct3 present mk).accepts w = true) :=
    And.intro (batchOperandsWf_fields w) (congrArg some (encodeVci_of_accepts h))
  have unitStride {mnemonic opcode width mk} (h : (unitStrideRow mnemonic opcode width mk).accepts w = true) :=
    And.intro (rfl : true = true) (congrArg some (encodeUnitStride_of_accepts h))
  exact ⟨batch, batch, batch, batch, batch, batch,
    fun h => ⟨rfl, congrArg some (encodeR_of_accepts h rfl)⟩,
    fun h => ⟨rfl, congrArg some (encodeR_of_accepts h rfl)⟩,
    fun h => ⟨rfl, encode_addi_of_accepts p h rfl⟩,
    fun h => ⟨congrArg (!·) (branchField_even w), encode_bne_of_accepts p h rfl⟩,
    fun h => ⟨rfl, encode_vsetvli_of_accepts p h rfl⟩,
    fun h => ⟨rfl, encode_vmvVI_of_accepts p h rfl⟩,
    unitStride, unitStride, unitStride, unitStride, nofun⟩

/-- A row accepts the words of the pattern it stands for. -/
theorem OpcodeRow.accepts_iff_pattern {row : OpcodeRow} (hrow : row ∈ opcodeTable) (w : Insn) :
    row.accepts w = true ↔ w &&& BitVec.ofNat 32 row.maskWord = BitVec.ofNat 32 row.matchWord := by
  obtain ⟨n, hn, rfl⟩ := List.mem_iff_getElem.1 hrow
  exact row_accepts_iff hn w

theorem mem_rowPatterns_of_patternOf {i : Instr} {mk : Insn × Insn} (h : patternOf i = some mk) :
    mk ∈ rowPatterns := by
  cases i <;> cases h <;> decide

theorem mem_rowPatterns_of_row {row : OpcodeRow} (hrow : row ∈ opcodeTable) :
    (BitVec.ofNat 32 row.matchWord, BitVec.ofNat 32 row.maskWord) ∈ rowPatterns := by
  rw [rowPatterns_eq]
  exact List.mem_map_of_mem hrow

/-- A word has at most one pattern of the rows (30_encoding.md R87). -/
theorem rowPatterns_unique {a b : Insn × Insn} (ha : a ∈ rowPatterns) (hb : b ∈ rowPatterns) {w : Insn}
    (hwa : w &&& a.2 = a.1) (hwb : w &&& b.2 = b.1) : a = b := by
  by_contra hne
  have hsymm : Std.Symm fun a b : Insn × Insn => ∀ w, w &&& a.2 = a.1 → w &&& b.2 = b.1 → False :=
    ⟨fun _ _ h w hb ha => h w ha hb⟩
  have hdisjoint := rowPatterns_disjoint.imp fun h w ha hb => disjointPatterns_sound (w := w) h ha hb
  exact hdisjoint.forall ha hb hne w hwa hwb

/-! ## Encoding by a row -/

/-- An encoding decodes to its instruction where a row builds that from the word: the row is then the instruction's own, and
the word shows its pattern. -/
theorem decode_encode_of_row {p : Params} {i : Instr} {w : Insn} {row : OpcodeRow} (hrow : row ∈ opcodeTable)
    (hmatches : RowMatches.Statement i) (hwf : i.wf = true) (hpresent : extPresent p.ext i = true)
    (hencode : encode p i = some w) (hbuild : row.build w = i) : decode p w = .ok i := by
  obtain ⟨hpattern, hext⟩ := patternOf_build hrow w
  rw [hbuild] at hpattern hext
  have haccepts := (row.accepts_iff_pattern hrow w).2 (hmatches p w _ _ hwf hpattern hencode)
  rw [decode_of_row hrow haccepts, ← hext, if_pos hpresent, hbuild]

end Sys2Proof
end

section
/-! SUPPORT. The configured long encodings: the places of the operand bits (30_encoding.md R86, 92_eei_decisions.md D2, log
entry 13). -/

namespace Sys2Proof

open Sys2Proof.Machine

/-! ## Operand bits in their places -/

theorem FieldBit.getLsbD_place (f : FieldBit) (value : Bool) {k : Nat} (hk : k < 32) :
    (f.place value).getLsbD k = (value && FieldBit.bit k == f) := by
  cases f with
  | zero => simp [FieldBit.place]
  | one => simp [FieldBit.place]
  | bit pos =>
    rw [beq_eq_decide]
    cases value <;> simp [FieldBit.place, hk]

/-- Reading an operand bit and putting it back gives the word's own bit. -/
theorem FieldBit.getLsbD_place_read (f : FieldBit) (w : Insn) {k : Nat} (hk : k < 32) :
    (f.place (f.read w)).getLsbD k = (w.getLsbD k && FieldBit.bit k == f) := by
  rw [FieldBit.getLsbD_place f _ hk]
  by_cases h : FieldBit.bit k = f
  · subst h
    rfl
  · simp [beq_eq_false_iff_ne.2 h]

theorem placeMapped_zero (fs : List FieldBit) : placeMapped 0 fs = 0 := by
  induction fs with
  | nil => rfl
  | cons f fs ih => cases f <;> simp [placeMapped, FieldBit.place, ih]

/-- Reading the `n` lowest operand bits of a field map and putting them back gives the word's own bits at their places. -/
theorem getLsbD_placeMapped_mappedField (w : Insn) (n : Nat) (fs : List FieldBit) {k : Nat} (hk : k < 32) :
    (placeMapped (mappedField w fs % 2 ^ n) fs).getLsbD k = (w.getLsbD k && (fs.take n).contains (.bit k)) := by
  induction fs generalizing n with
  | nil => simp [placeMapped]
  | cons f fs ih =>
    cases n with
    | zero => simp [Nat.mod_one, placeMapped_zero]
    | succ n =>
      have hlow : (mappedField w (f :: fs) % 2 ^ (n + 1)).testBit 0 = f.read w := by
        cases hf : f.read w <;> simp [mappedField, hf]
      have hrest : mappedField w (f :: fs) % 2 ^ (n + 1) / 2 = mappedField w fs % 2 ^ n := by
        have := Bool.toNat_lt (f.read w)
        rw [mappedField, pow_succ', Nat.mod_mul_right_div_self]
        congr 1
        omega
      rw [placeMapped, hlow, hrest, BitVec.getLsbD_or, f.getLsbD_place_read w hk, ih, List.take_succ_cons,
        List.contains_cons, ← Bool.and_or_distrib_left]

/-! ## The word of a long instruction -/

/-- The word that `encodeLong` tries for the given operands. -/
def LongEncoding.wordOf (e : LongEncoding) (vd vs2 vs1 : VReg) (masked : Bool) : Insn :=
  e.fixedBits ||| placeMapped vd e.vd ||| placeMapped vs2 e.vs2 ||| placeMapped vs1 e.vs1 ||| e.vm.place (!masked)

/-- `encodeLong` answers the word it tries where that decodes to the operands. -/
theorem encodeLong_eq_some_iff {e : LongEncoding} {vd vs2 vs1 : VReg} {masked : Bool} {w : Insn} :
    encodeLong (some e) vd vs2 vs1 masked = some w
      ↔ e.wordOf vd vs2 vs1 masked = w ∧ e.accepts w = true
        ∧ longOperands e (fun vd vs2 vs1 masked => (vd, vs2, vs1, masked)) w = (vd, vs2, vs1, masked) := by
  show (if _ then some (e.wordOf vd vs2 vs1 masked) else none) = some w ↔ _
  simp only [Option.ite_none_right_eq_some, Option.some.injEq, Bool.and_eq_true, beq_iff_eq]
  constructor
  · rintro ⟨⟨haccepts, hoperands⟩, rfl⟩
    exact ⟨rfl, haccepts, hoperands⟩
  · rintro ⟨rfl, haccepts, hoperands⟩
    exact ⟨⟨haccepts, hoperands⟩, rfl⟩

/-- The encoding of a long instruction is a word of its pattern that holds its operands. -/
theorem longOperands_of_encodeLong {α : Type} {e : LongEncoding} {vd vs2 vs1 : VReg} {masked : Bool} {w : Insn}
    (h : encodeLong (some e) vd vs2 vs1 masked = some w) (mk : VReg → VReg → VReg → Bool → α) :
    e.accepts w = true ∧ longOperands e mk w = mk vd vs2 vs1 masked := by
  obtain ⟨-, haccepts, hoperands⟩ := encodeLong_eq_some_iff.1 h
  exact ⟨haccepts, congrArg (fun o : VReg × VReg × VReg × Bool => mk o.1 o.2.1 o.2.2.1 o.2.2.2) hoperands⟩

/-- Where no bit is ignored, the word of a pattern is made again from its own operands (log entry 13). -/
theorem LongEncoding.wordOf_operands {e : LongEncoding} (hcovers : e.covers = true) {w : Insn} (h : e.accepts w = true) :
    longOperands e e.wordOf w = w := by
  rw [longEncoding_accepts_iff] at h
  refine BitVec.eq_of_getLsbD_eq fun k hk => ?_
  have hbit := List.all_eq_true.1 hcovers k (List.mem_range.2 hk)
  simp only [List.contains_append, List.contains_cons, List.contains_nil, Bool.or_false] at hbit
  have hplace (fs : List FieldBit) : (placeMapped (mappedField w fs % 32) fs).getLsbD k
      = (w.getLsbD k && (fs.take 5).contains (.bit k)) := getLsbD_placeMapped_mappedField w 5 fs hk
  simp only [longOperands, LongEncoding.wordOf, ← h, BitVec.getLsbD_or, BitVec.getLsbD_and, Fin.val_ofNat, Bool.not_not,
    hplace, FieldBit.getLsbD_place_read _ _ hk, ← Bool.and_or_distrib_left]
  simp only [Bool.or_assoc] at hbit ⊢
  rw [hbit, Bool.and_true]

/-- Where no bit is ignored, encoding the operands of a word of the pattern gives it back. -/
theorem encodeLong_operands {e : LongEncoding} (hcovers : e.covers = true) {w : Insn} (h : e.accepts w = true) :
    longOperands e (encodeLong (some e)) w = some w :=
  encodeLong_eq_some_iff.2 ⟨e.wordOf_operands hcovers h, h, rfl⟩

end Sys2Proof

namespace Sys2Proof.Machine

/-! ## The long instructions -/

theorem LongOp.encode_instr (op : LongOp) (p : Params) :
    (fun vd vs2 vs1 masked => encode p (op.instr vd vs2 vs1 masked)) = encodeLong (op.encoding p.enc) := by
  cases op <;> rfl

theorem LongOp.wf_instr (op : LongOp) (vd vs2 vs1 : VReg) (masked : Bool) : (op.instr vd vs2 vs1 masked).wf = true := by
  cases op <;> rfl

theorem LongOp.extPresent_instr (op : LongOp) (e : Extensions) (vd vs2 vs1 : VReg) (masked : Bool) :
    extPresent e (op.instr vd vs2 vs1 masked) = op.present e := by
  cases op <;> rfl

theorem LongOp.patternOf_instr (op : LongOp) (vd vs2 vs1 : VReg) (masked : Bool) :
    patternOf (op.instr vd vs2 vs1 masked) = none := by
  cases op <;> rfl

theorem LongOp.mem_configured {op : LongOp} {enc : LongEncodings} {e : LongEncoding} (h : op.encoding enc = some e) :
    e ∈ enc.configured := by
  rw [LongEncodings.configured, List.mem_filterMap]
  refine ⟨op.encoding enc, ?_, h⟩
  cases op <;> simp [LongOp.encoding]

/-! ## Decoding -/

/-- A word of a configured pattern decodes to its long instruction (30_encoding.md R86, R87). -/
theorem decode_of_longEncoding {p : Params} (hwf : p.enc.wf = true) {op : LongOp} {e : LongEncoding}
    (he : op.encoding p.enc = some e) (hpresent : op.present p.ext = true) {w : Insn} (h : e.accepts w = true) :
    decode p w = .ok (longOperands e op.instr w) := by
  obtain ⟨hall, hpairwise⟩ := Bool.and_eq_true_iff.1 hwf
  obtain ⟨name, hmem⟩ := op.mem_longTable p
  rw [he, hpresent] at hmem
  rw [decode_of_no_row (no_row_accepts_of_longEncoding (List.all_eq_true.1 hall e (LongOp.mem_configured he)) h)]
  exact decodeLong_of_accepts hmem h (of_decide_eq_true hpairwise)

/-- A word that is decoded among long encodings is a word of one of them, whose extension is present. -/
theorem decodeLong_eq_ok {w : Insn} {i : Instr}
    {rows : List (String × Option LongEncoding × Bool × (VReg → VReg → VReg → Bool → Instr))}
    (h : decodeLong w rows = .ok i) :
    ∃ name e mk, (name, some e, true, mk) ∈ rows ∧ e.accepts w = true ∧ i = longOperands e mk w := by
  induction rows with
  | nil => exact nomatch h
  | cons row rest ih =>
    obtain ⟨name, _ | e, present, mk⟩ := row
    · obtain ⟨name', e, mk', hmem, hrest⟩ := ih h
      exact ⟨name', e, mk', List.mem_cons_of_mem _ hmem, hrest⟩
    · rw [decodeLong] at h
      split_ifs at h with haccepts hpresent
      · subst hpresent
        exact ⟨name, e, mk, List.mem_cons_self .., haccepts, (Except.ok.inj h).symm⟩
      · obtain ⟨name', e', mk', hmem, hrest⟩ := ih h
        exact ⟨name', e', mk', List.mem_cons_of_mem _ hmem, hrest⟩

/-- Every row of the table of the long encodings is that of a long instruction. -/
theorem exists_longOp_of_mem {p : Params} {name : String} {enc : Option LongEncoding} {present : Bool}
    {mk : VReg → VReg → VReg → Bool → Instr} (h : (name, enc, present, mk) ∈ longTable p) :
    ∃ op : LongOp, op.encoding p.enc = enc ∧ op.present p.ext = present ∧ op.instr = mk := by
  simp only [longTable, List.mem_cons, List.not_mem_nil, or_false] at h
  rcases h with h | h | h | h | h <;> cases h
  · exact ⟨.vqldotu, rfl, rfl, rfl⟩
  · exact ⟨.vqldots, rfl, rfl, rfl⟩
  · exact ⟨.vfwldot, rfl, rfl, rfl⟩
  · exact ⟨.vfqldot, rfl, rfl, rfl⟩
  · exact ⟨.vfqldotAlt, rfl, rfl, rfl⟩

/-- A word that decodes is accepted by a row or by a configured long encoding, with the extension present. -/
theorem decode_eq_ok {p : Params} {w : Insn} {i : Instr} (h : decode p w = .ok i) :
    (∃ row ∈ opcodeTable, row.accepts w = true ∧ row.present p.ext = true ∧ row.build w = i)
      ∨ ∃ (op : LongOp) (e : LongEncoding), op.encoding p.enc = some e ∧ op.present p.ext = true ∧ e.accepts w = true
          ∧ longOperands e op.instr w = i := by
  rcases decode_cases p w with ⟨row, hrow, haccepts, hdecode⟩ | ⟨-, hdecode⟩
  · rw [hdecode] at h
    split_ifs at h with hpresent
    exact .inl ⟨row, hrow, haccepts, hpresent, Except.ok.inj h⟩
  · obtain ⟨name, e, mk, hmem, haccepts, rfl⟩ := decodeLong_eq_ok (hdecode.symm.trans h)
    obtain ⟨op, he, hpresent, rfl⟩ := exists_longOp_of_mem hmem
    exact .inr ⟨op, e, he, hpresent, haccepts, rfl⟩

end Sys2Proof.Machine
end

section
/-! SUPPORT. Decoding and encoding invert each other (30_encoding.md R83 to R87, 43_host_subset.md R232 to R246), and what decodes
is an instruction of the hart (60_exceptions.md R262 (a)). -/

namespace Sys2Proof.Machine

open Sys2Proof.Laws

/-! ## A round trip from a word -/

/-- Settles O3: a row's word is the encoding of its fields, and a long encoding that ignores no bit makes its word again. -/
theorem encodeInvertsDecode : Obligations.EncodeInvertsDecode := by
  intro p i w hwf hcovers hdecode
  rcases decode_eq_ok hdecode with ⟨row, hrow, haccepts, hpresent, rfl⟩ | ⟨op, e, he, hpresent, haccepts, rfl⟩
  · obtain ⟨hiwf, hencode⟩ := encode_build hrow p haccepts
    exact ⟨hiwf, ((patternOf_build hrow w).2 p.ext).trans hpresent, hencode⟩
  · have hecovers : e.covers = true := List.all_eq_true.1 hcovers e (LongOp.mem_configured he)
    have hencode : longOperands e (fun vd vs2 vs1 masked => encode p (op.instr vd vs2 vs1 masked)) w = some w := by
      rw [op.encode_instr, he]
      exact encodeLong_operands hecovers haccepts
    exact ⟨op.wf_instr .., (op.extPresent_instr ..).trans hpresent, hencode⟩

/-! ## A round trip from an instruction -/

/-- The encoding of a long instruction decodes to it, wherever its parameter `ENC_*` places the operand bits. -/
theorem LongOp.decode_encode {p : Params} {op : LongOp} {vd vs2 vs1 : VReg} {masked : Bool} {w : Insn}
    (hwf : p.enc.wf = true) (hpresent : extPresent p.ext (op.instr vd vs2 vs1 masked) = true)
    (hencode : encode p (op.instr vd vs2 vs1 masked) = some w) : decode p w = .ok (op.instr vd vs2 vs1 masked) := by
  have hlong : encodeLong (op.encoding p.enc) vd vs2 vs1 masked = some w := by
    rw [← op.encode_instr]
    exact hencode
  cases he : op.encoding p.enc with
  | none => exact nomatch he ▸ hlong
  | some e =>
    obtain ⟨haccepts, hoperands⟩ := longOperands_of_encodeLong (he ▸ hlong) op.instr
    rw [decode_of_longEncoding hwf he ((op.extPresent_instr ..).symm.trans hpresent) haccepts, hoperands]

/-- Settles O2: each encoding shows the pattern of its row, and the row reads the operands back from their fields. -/
theorem decodeInvertsEncode : Obligations.DecodeInvertsEncode := by
  intro p i w henc hwf hpresent hencode
  have byRow (n : Nat) (hn : n < opcodeTable.length) (hmatches : RowMatches.Statement i) :=
    decode_encode_of_row (List.getElem_mem hn) hmatches hwf hpresent hencode
  cases i with
  | vqmmaccU =>
    exact byRow 0 (by decide) (RowMatches.vqmmaccU _ _ _ _ _)
      (vciOperands_of_encodeVci (by decide) _ hwf hencode)
  | vqmmaccS =>
    exact byRow 1 (by decide) (RowMatches.vqmmaccS _ _ _ _ _)
      (vciOperands_of_encodeVci (by decide) _ hwf hencode)
  | vfwmmacc =>
    exact byRow 2 (by decide) (RowMatches.vfwmmacc _ _ _ _ _)
      (vciOperands_of_encodeVci (by decide) _ hwf hencode)
  | vfqmmacc =>
    exact byRow 3 (by decide) (RowMatches.vfqmmacc _ _ _ _ _)
      (vciOperands_of_encodeVci (by decide) _ hwf hencode)
  | vfqmmaccAlt =>
    exact byRow 4 (by decide) (RowMatches.vfqmmaccAlt _ _ _ _ _)
      (vciOperands_of_encodeVci (by decide) _ hwf hencode)
  | vfmmacc =>
    exact byRow 5 (by decide) (RowMatches.vfmmacc _ _ _ _ _)
      (vciOperands_of_encodeVci (by decide) _ hwf hencode)
  | vqldotu => exact LongOp.decode_encode (op := .vqldotu) henc hpresent hencode
  | vqldots => exact LongOp.decode_encode (op := .vqldots) henc hpresent hencode
  | vfwldot => exact LongOp.decode_encode (op := .vfwldot) henc hpresent hencode
  | vfqldot => exact LongOp.decode_encode (op := .vfqldot) henc hpresent hencode
  | vfqldotAlt => exact LongOp.decode_encode (op := .vfqldotAlt) henc hpresent hencode
  | add => exact byRow 6 (by decide) (RowMatches.add _ _ _) (rType_of_encode (by decide) (by decide) _ hencode)
  | sub => exact byRow 7 (by decide) (RowMatches.sub _ _ _) (rType_of_encode (by decide) (by decide) _ hencode)
  | addi => exact byRow 8 (by decide) (RowMatches.addi _ _ _) (addi_of_encode hencode)
  | bne => exact byRow 9 (by decide) (RowMatches.bne _ _ _) (bne_of_encode (by simpa [Instr.wf] using hwf) hencode)
  | vsetvli => exact byRow 10 (by decide) (RowMatches.vsetvli _ _ _) (vsetvli_of_encode hencode)
  | vmvVI => exact byRow 11 (by decide) (RowMatches.vmvVI _ _) (vmvVI_of_encode hencode)
  | vle8 =>
    exact byRow 12 (by decide) (RowMatches.vle8 _ _ _)
      (unitStride_of_encode (by decide) (by decide) _ hencode)
  | vle16 =>
    exact byRow 13 (by decide) (RowMatches.vle16 _ _ _)
      (unitStride_of_encode (by decide) (by decide) _ hencode)
  | vle32 =>
    exact byRow 14 (by decide) (RowMatches.vle32 _ _ _)
      (unitStride_of_encode (by decide) (by decide) _ hencode)
  | vse32 =>
    exact byRow 15 (by decide) (RowMatches.vse32 _ _ _)
      (unitStride_of_encode (by decide) (by decide) _ hencode)

/-! ## Rows and their words -/

/-- Settles O4: the row that decodes a word accepts exactly its pattern, and a word has no second pattern. -/
theorem rowsMatchByMask : Obligations.RowsMatchByMask := by
  intro p w i m k hpattern hpresent
  constructor
  · rintro ⟨j, hdecode, hj⟩
    rcases decode_eq_ok hdecode with ⟨row, hrow, haccepts, -, rfl⟩ | ⟨op, e, -, -, -, rfl⟩
    · obtain ⟨rfl, rfl⟩ := Prod.mk.inj (Option.some.inj ((patternOf_build hrow w).1.symm.trans hj))
      exact (row.accepts_iff_pattern hrow w).1 haccepts
    · exact nomatch (op.patternOf_instr _ _ _ _).symm.trans hj
  · intro hw
    obtain ⟨row, hrow, haccepts, hext⟩ := exists_row_of_pattern hpattern
    have hrowAccepts := (haccepts w).2 hw
    refine ⟨row.build w, ?_, ?_⟩
    · rw [decode_of_row hrow hrowAccepts, hext, if_pos hpresent]
    · rw [(patternOf_build hrow w).1, rowPatterns_unique (mem_rowPatterns_of_row hrow)
        (mem_rowPatterns_of_patternOf hpattern) ((row.accepts_iff_pattern hrow w).1 hrowAccepts) hw]

/-! ## Batched operands -/

/-- A batched instruction is encoded in format VCI under its own `funct6` and `funct3` (30_encoding.md R82, R85). -/
theorem BatchOp.encode_instr (op : BatchOp) (p : Params) : ∃ funct6 funct3, funct3 < 8 ∧ ∀ vd vs2 vs1 ci masked,
    encode p (op.instr vd vs2 vs1 ci masked) = some (encodeVci funct6 funct3 vd vs2 vs1 ci masked) := by
  cases op <;> exact ⟨_, _, by decide, fun _ _ _ _ _ => rfl⟩

theorem BatchOp.wf_instr (op : BatchOp) (vd vs2 vs1 : VReg) (ci : Nat) (masked : Bool) :
    (op.instr vd vs2 vs1 ci masked).wf = batchOperandsWf vs2 ci := by
  cases op <;> rfl

/-- Settles O5: the word is the encoding of the instruction, whose fields hold the operands. -/
theorem batchedOperandFields : Obligations.BatchedOperandFields := by
  intro p w op vd vs2 vs1 ci masked hdecode
  rcases decode_eq_ok hdecode with ⟨row, hrow, haccepts, -, hi⟩ | ⟨lop, e, -, -, -, hi⟩
  · obtain ⟨hwf, hencode⟩ := encode_build hrow p haccepts
    obtain ⟨funct6, funct3, h3, hvci⟩ := op.encode_instr p
    rw [hi, op.wf_instr] at hwf
    rw [hi, hvci] at hencode
    obtain ⟨hvd, hvs1, hvs2, hci, hvm⟩ := field_of_encodeVci h3 hwf (Option.some.inj hencode)
    refine ⟨hvd, hvs1, hvs2, hci, ?_⟩
    rw [show bitField w.toNat 25 1 = vmBitOf masked from hvm.symm]
    cases masked <;> decide
  · cases op <;> cases lop <;> cases hi

/-! ## Words that are no instruction -/

/-- A word that decodes is an instruction of the hart. -/
theorem isInstruction_of_decode {p : Params} {w : Insn} {i : Instr} (h : decode p w = .ok i) : isInstruction p w := by
  rcases decode_eq_ok h with ⟨row, hrow, haccepts, hpresent, rfl⟩ | ⟨op, e, he, hpresent, haccepts, -⟩
  · obtain ⟨hpattern, hext⟩ := patternOf_build hrow w
    exact .inl ⟨_, _, _, hpattern, (hext p.ext).trans hpresent, (row.accepts_iff_pattern hrow w).1 haccepts⟩
  · exact .inr ⟨op, e, he, hpresent, (longEncoding_accepts_iff e w).1 haccepts⟩

/-- Settles O7: a word that is no instruction does not decode. -/
theorem noInstructionIsIllegal : Obligations.NoInstructionIsIllegal := by
  intro s w hfetch hno
  rw [step_of_fetches hfetch]
  cases hdecode : decode s.params w with
  | ok i => exact absurd (isInstruction_of_decode hdecode) hno
  | error reason => exact s.raiseIllegal_takesIllegal

/-! ## Sample words -/

/-- Settles O1: the decoder evaluated at each word. -/
theorem sampleWordsDecode : Obligations.SampleWordsDecode := by
  refine ⟨Tests.test_decode_vqmmacc_s, Tests.test_decode_add, Tests.test_decode_sub, ?_, ?_,
    Tests.test_decode_vsetvli, ?_, Tests.test_decode_vle8, Tests.test_decode_vle16, ?_, Tests.test_decode_vse32⟩ <;> decide

end Sys2Proof.Machine
end

section
/-! SUPPORT. The integer and BF16 forms of the long family, and which source elements a long result reads
(40_zvldot_long.md R113 to R117). -/

namespace Sys2Proof.Machine

/-! ## The integer forms -/

/-- Element 0 and the flags of the two integer forms (40_zvldot_long.md R115, R116). -/
theorem LongOp.longResult_int (signed2 : Bool) (s : State) (vd vs2 vs1 : VReg) (masked : Bool) :
    s.longResult (LongOp.sew (if signed2 then .vqldots else .vqldotu)) vd vs2 vs1 masked
        (LongOp.dot (if signed2 then .vqldots else .vqldotu) s)
      = ⟨BitVec.ofInt 32 ((s.velem vd 32 0).toNat + longIntSum s vs2 vs1 masked signed2), 0⟩ := by
  rw [← State.long_intDotSum]
  cases signed2 with
  | false => rfl
  | true => rfl

/-- With `vl = 0` no product is taken. -/
theorem longIntSum_of_vl_eq_zero {s : State} (h : s.vl = 0) (vs2 vs1 : VReg) (masked signed2 : Bool) :
    longIntSum s vs2 vs1 masked signed2 = 0 := by
  simp [longIntSum, h]

/-- An element a skipped instruction leaves is the element it held before. -/
theorem skipped.velem {s t : State} (h : skipped s t) (hp : t.params = s.params) (r eew i : Nat) :
    t.velem r eew i = s.velem r eew i := by
  obtain ⟨-, hv, -⟩ := h
  exact State.velem_congr hv hp r eew i

/-- Settles O18: the shared effect of a long instruction that runs; writing nothing at `vl = 0` is adding the empty sum. -/
theorem longIntegerDot : Obligations.LongIntegerDot := by
  intro signed2 s vd vs2 vs1 masked h5 hruns
  have hfp : LongOp.fp (if signed2 then .vqldots else .vqldotu) = false := by cases signed2 <;> rfl
  have hframe := LongOp.after_frame (if signed2 then .vqldots else .vqldotu) s vd vs2 vs1 masked
  obtain ⟨hrest, hresult⟩ := LongOp.after_spec (if signed2 then .vqldots else .vqldotu) vd vs2 vs1 masked h5
  rw [hfp] at hframe
  rw [LongOp.longResult_int] at hresult
  refine ⟨_, LongOp.exec_runs hruns, ?_⟩
  rcases hresult with ⟨helem, hflags⟩ | hskip
  · exact ⟨helem, hflags.trans BitVec.or_zero, hrest, hframe⟩
  · have ⟨hvl, _, hflags⟩ := hskip
    have hparams := congrArg State.params hframe
    refine ⟨?_, hflags, hrest, hframe⟩
    rw [hskip.velem hparams, longIntSum_of_vl_eq_zero hvl, add_zero, BitVec.ofInt_natCast, BitVec.ofNat_toNat,
      BitVec.setWidth_eq]

/-! ## The BF16 form -/

/-- Element 0 and the flags of the BF16 form are `RVBNA` of the encoded factors and the accumulator (40_zvldot_long.md R117). -/
theorem LongOp.longResult_bf16 (s : State) (vd vs2 vs1 : VReg) (masked : Bool) :
    s.longResult (LongOp.sew .vfwldot) vd vs2 vs1 masked (LongOp.dot .vfwldot s)
      = bulkDot (rvbna bf16 fp32Acc s.vlmax (longFactors s 16 vs2 masked) (longFactors s 16 vs1 masked)
          (s.velem vd 32 0).toNat) := by
  rw [← State.longOperand_toNat, ← State.longOperand_toNat]
  rfl

/-- Settles O19: the shared effect of a long instruction that runs, with its dot product read as `RVBNA`. -/
theorem longBf16Dot : Obligations.LongBf16Dot := by
  intro s vd vs2 vs1 masked h5 hruns
  obtain ⟨hrest, hresult⟩ := LongOp.after_spec .vfwldot vd vs2 vs1 masked h5
  rw [LongOp.longResult_bf16, bulkDot, bulkFlags_eq] at hresult
  exact ⟨_, LongOp.exec_runs hruns, hrest, LongOp.after_frame .vfwldot s vd vs2 vs1 masked, hresult⟩

/-! ## What the result reads -/

/-- A source array is decided by its elements below `vl` that are active (40_zvldot_long.md R113). -/
theorem State.longOperand_congr {s s' : State} {w : Nat} {r : VReg} {masked : Bool} (hvl : s'.vl = s.vl)
    (hvlmax : s'.vlmax = s.vlmax) (hmask : masked = true → s'.vreg 0 = s.vreg 0)
    (helem : ∀ i < s.vl.toNat, s.active masked i = true → s'.velem r w i = s.velem r w i) :
    s'.longOperand w r masked = s.longOperand w r masked := by
  have hactive (i : Nat) : s'.active masked i = s.active masked i := by
    cases masked with
    | false => rfl
    | true => simp only [State.active, State.maskBit, hmask rfl]
  unfold State.longOperand
  rw [hvlmax, hvl]
  refine List.map_congr_left fun i _ => ?_
  rw [hactive]
  split_ifs with hi
  · exact helem i hi.1 hi.2
  · rfl

/-- Element 0 of `vd` and the flags after a long instruction that runs, by whether it skips at `vl = 0` (D9). -/
theorem LongOp.after_elem_fflags (op : LongOp) {s : State} (vd vs2 vs1 : VReg) (masked : Bool)
    (h5 : 5 ≤ s.params.vlenLog2) :
    (op.after s vd vs2 vs1 masked).velem vd 32 0
        = (if s.skipsAtVl0 then s.velem vd 32 0 else (s.longResult op.sew vd vs2 vs1 masked (op.dot s)).bits)
      ∧ (op.after s vd vs2 vs1 masked).fflags
        = if s.skipsAtVl0 then s.fflags
          else s.fflags ||| (s.longResult op.sew vd vs2 vs1 masked (op.dot s)).flags := by
  unfold LongOp.after
  split_ifs
  · exact ⟨rfl, rfl⟩
  · obtain ⟨helem, -, -, hflags⟩ := State.longWrite_spec (Params.dvd_vlen_32 h5) vd
      (s.longResult op.sew vd vs2 vs1 masked (op.dot s))
    exact ⟨helem, hflags⟩

/-- Settles O21: both states hand the same two arrays and the same accumulator to the dot product, which reads no vector
register itself, and take the same choice at `vl = 0`. -/
theorem longIgnoresInactiveSources : Obligations.LongIgnoresInactiveSources := by
  intro op s s' t t' vd vs2 vs1 masked hs' hruns hmask hacc hsources ht ht' h5
  obtain ⟨v, rfl⟩ : ∃ v, s' = { s with v := v } := ⟨_, hs'⟩
  have hruns' : longRuns op { s with v := v } vd vs2 vs1 masked := hruns
  obtain rfl := Host.Outcome.next.inj ((LongOp.exec_runs hruns).symm.trans ht)
  obtain rfl := Host.Outcome.next.inj ((LongOp.exec_runs hruns').symm.trans ht')
  have hdot : op.dot { s with v := v } = op.dot s := by cases op <;> rfl
  have hvs2 : State.longOperand { s with v := v } op.sew vs2 masked = s.longOperand op.sew vs2 masked :=
    State.longOperand_congr rfl rfl hmask fun i hi hactive => (hsources i hi hactive).1
  have hvs1 : State.longOperand { s with v := v } op.sew vs1 masked = s.longOperand op.sew vs1 masked :=
    State.longOperand_congr rfl rfl hmask fun i hi hactive => (hsources i hi hactive).2
  have hresult : State.longResult { s with v := v } op.sew vd vs2 vs1 masked (op.dot { s with v := v })
      = s.longResult op.sew vd vs2 vs1 masked (op.dot s) := by
    rw [State.longResult, State.longResult, hdot, hvs2, hvs1, hacc]
  have hskips : State.skipsAtVl0 { s with v := v } = s.skipsAtVl0 := rfl
  obtain ⟨helem, hflags⟩ := LongOp.after_elem_fflags op vd vs2 vs1 masked h5
  obtain ⟨helem', hflags'⟩ := LongOp.after_elem_fflags op (s := { s with v := v }) vd vs2 vs1 masked h5
  rw [helem, helem', hflags, hflags', hresult, hskips, hacc]
  exact ⟨rfl, rfl⟩

end Sys2Proof.Machine
end

section
/-! SUPPORT. The integer and BF16 forms of the batched family, what a batched instruction leaves alone, and which source elements it
reads (41_zvbdot_batched.md R144 to R160). -/

namespace Sys2Proof.Machine

/-! ## The integer forms -/

/-- A dot product of the two integer forms (41_zvbdot_batched.md R155, R156). -/
theorem BatchOp.pair_int (signed2 : Bool) (s : State) (vd vs2 vs1 : VReg) (ci n : Nat) :
    BatchOp.pair (if signed2 then .vqmmaccS else .vqmmaccU) s vd vs2 vs1 ci n
      = (BitVec.ofInt 32 ((s.velem vd 32 (ci + n)).toNat + batchIntSum s vs2 vs1 signed2 n), 0) := by
  rw [← State.batch_intDotSum]
  cases signed2 with
  | false => rfl
  | true => rfl

/-- With `vl = 0` no product is taken. -/
theorem batchIntSum_of_vl_eq_zero {s : State} (h : s.vl = 0) (vs2 vs1 : VReg) (signed2 : Bool) (n : Nat) :
    batchIntSum s vs2 vs1 signed2 n = 0 := by
  simp [batchIntSum, h]

/-- Adding nothing to an element keeps it. -/
theorem ofInt_toNat_add_zero (c : BitVec 32) : BitVec.ofInt 32 (c.toNat + 0) = c := by
  rw [add_zero, BitVec.ofInt_natCast, BitVec.ofNat_toNat, BitVec.setWidth_eq]

/-- Dot products without flags leave `fflags`. -/
theorem batchResult.fflags_eq {s t : State} {vd : VReg} {ci : Nat} {masked : Bool} {bits : Nat → BitVec 32}
    (h : batchResult s t vd ci masked fun n => (bits n, 0)) : t.fflags = s.fflags := by
  obtain ⟨-, -, hflags⟩ := h
  rw [hflags]
  exact List.foldl_fixed' (fun f => BitVec.or_zero) _

/-- Writing nothing is a result that keeps every element and raises no flag. -/
theorem skipped.batchResult {s t : State} (h : skipped s t) (hp : t.params = s.params) (vd : VReg) (ci : Nat) (masked : Bool) :
    batchResult s t vd ci masked fun n => (s.velem vd 32 (ci + n), 0) := by
  have ⟨_, _, hflags⟩ := h
  refine ⟨fun n _ _ => h.velem hp .., fun n _ _ => .inl (h.velem hp ..), hflags.trans ?_⟩
  exact (List.foldl_fixed' (fun f => BitVec.or_zero) _).symm

/-- Settles O22: the shared effect of a batched instruction that runs; writing nothing at `vl = 0` is adding the empty sums. -/
theorem batchIntegerDot : Obligations.BatchIntegerDot := by
  intro signed2 s vd vs2 vs1 ci masked h5 hruns
  have hfp : BatchOp.fp (if signed2 then .vqmmaccS else .vqmmaccU) = false := by cases signed2 <;> rfl
  have hframe := BatchOp.after_frame (if signed2 then .vqmmaccS else .vqmmaccU) s vd vs2 vs1 ci masked
  have ⟨_, _, hoperands⟩ := hruns
  obtain ⟨hrest, hresult⟩ := BatchOp.after_spec (if signed2 then .vqmmaccS else .vqmmaccU) h5 hoperands
  rw [hfp] at hframe
  rw [funext (BatchOp.pair_int signed2 s vd vs2 vs1 ci)] at hresult
  have hresult := hresult.elim id fun hskip => by
    have ⟨hvl, _, _⟩ := hskip
    simp only [batchIntSum_of_vl_eq_zero hvl, ofInt_toNat_add_zero]
    exact hskip.batchResult (congrArg State.params hframe :) vd ci masked
  exact ⟨_, BatchOp.exec_runs hruns, hresult, hresult.fflags_eq, hrest, hframe⟩

/-! ## The BF16 form -/

/-- A dot product of the BF16 form is `RVBNA` of the encoded factors and its destination element (41_zvbdot_batched.md R160). -/
theorem BatchOp.pair_bf16 (s : State) (vd vs2 vs1 : VReg) (ci n : Nat) :
    BatchOp.pair .vfwmmacc s vd vs2 vs1 ci n
      = bulkPair (rvbna bf16 fp32Acc s.vlmax (batchFactors s 16 (vs2.val + n)) (batchFactors s 16 vs1)
          (s.velem vd 32 (ci + n)).toNat) := by
  rw [← State.batchOperand_toNat, ← State.batchOperand_toNat, bulkPair, ← bulkFlags_eq]
  rfl

/-- Settles O23: the shared effect of a batched instruction that runs, with each of its dot products read as `RVBNA`. -/
theorem batchBf16Dot : Obligations.BatchBf16Dot := by
  intro s vd vs2 vs1 ci masked h5 hruns
  have ⟨_, _, hoperands⟩ := hruns
  obtain ⟨hrest, hresult⟩ := BatchOp.after_spec .vfwmmacc h5 hoperands
  rw [funext (BatchOp.pair_bf16 s vd vs2 vs1 ci)] at hresult
  exact ⟨_, BatchOp.exec_runs hruns, hrest, BatchOp.after_frame .vfwmmacc s vd vs2 vs1 ci masked, hresult⟩

/-! ## What a batched instruction leaves alone -/

/-- The state with `vtype.vta` flipped (10_state.md R36). -/
def State.flipVta (s : State) : State := { s with vtype := s.vtype ^^^ 0x40 }

theorem State.flipVta_of_vtype_eq {s t : State} (h : t.vtype = s.vtype) :
    t.flipVta = { t with vtype := s.vtype ^^^ 0x40 } := by
  rw [← h]; rfl

/-- Only bit 6 of `vtype` changes. -/
theorem flipVta_getLsbD (w : Word) {i : Nat} (h : i ≠ 6) : (w ^^^ 0x40).getLsbD i = w.getLsbD i := by
  have hbit : (0x40 : Word) = BitVec.twoPow 64 6 := by decide
  rw [BitVec.getLsbD_xor, hbit, BitVec.getLsbD_twoPow]
  simp [h.symm]

/-- A field of `vtype` below bit 6. -/
theorem flipVta_bitField (w : Word) {lsb width : Nat} (h : lsb + width ≤ 6) :
    bitField (w ^^^ 0x40).toNat lsb width = bitField w.toNat lsb width := by
  refine Nat.eq_of_testBit_eq fun j => ?_
  rw [bitField_testBit, bitField_testBit]
  by_cases hj : j < width
  · rw [BitVec.testBit_toNat, BitVec.testBit_toNat, flipVta_getLsbD w (by omega)]
  · simp [hj]

theorem State.flipVta_vsew (s : State) : vsewOf s.flipVta.vtype = vsewOf s.vtype := flipVta_bitField _ (by norm_num)

theorem State.flipVta_vlmul (s : State) : vlmulOf s.flipVta.vtype = vlmulOf s.vtype := flipVta_bitField _ (by norm_num)

theorem State.flipVta_sew (s : State) : s.flipVta.sew = s.sew := congrArg (8 * 2 ^ ·) s.flipVta_vsew

theorem State.flipVta_lmul8 (s : State) : s.flipVta.lmul8 = s.lmul8 := by
  unfold State.lmul8 lmul8Of
  rw [s.flipVta_vlmul]

theorem State.flipVta_vlmax (s : State) : s.flipVta.vlmax = s.vlmax := by
  have hlmul := s.flipVta_lmul8
  have hsew := s.flipVta_sew
  unfold State.lmul8 at hlmul
  unfold State.sew at hsew
  unfold State.vlmax vlmaxOf
  rw [hlmul, hsew]
  rfl

theorem State.flipVta_vma (s : State) : s.flipVta.vma = s.vma := flipVta_getLsbD _ (by norm_num)

theorem State.flipVta_vill (s : State) : s.flipVta.vill = s.vill := by
  have hbit : s.params.xlen.bits - 1 ≠ 6 := by cases s.params.xlen <;> decide
  exact flipVta_getLsbD _ hbit

theorem State.flipVta_altfmt {s : State} (h : s.params.altfmtBit ≠ 6) : s.flipVta.altfmt = s.altfmt := flipVta_getLsbD _ h

/-- No dot product reads `vta`. -/
theorem BatchOp.dot_flipVta (op : BatchOp) {s : State} (h : s.params.altfmtBit ≠ 6) : op.dot s.flipVta = op.dot s := by
  have hfp8 (fA fB : FactorFmt) : s.flipVta.fp8DotOf fA fB = s.fp8DotOf fA fB := by
    funext A B C
    rw [State.fp8DotOf, State.fp8DotOf, s.flipVta_vlmax]
    rfl
  cases op with
  | vqmmaccU => exact congrArg (intDot false) (State.flipVta_altfmt h)
  | vqmmaccS => exact congrArg (intDot true) (State.flipVta_altfmt h)
  | vfwmmacc => exact congrArg bf16Dot s.flipVta_vlmax
  | vfqmmacc => exact (hfp8 ..).trans (congrArg (fun a => s.fp8DotOf e4m3 (fp8Selected a)) (State.flipVta_altfmt h))
  | vfqmmaccAlt => exact (hfp8 ..).trans (congrArg (fun a => s.fp8DotOf e5m2 (fp8Selected a)) (State.flipVta_altfmt h))
  | vfmmacc =>
    show s.flipVta.fp32DotOf = s.fp32DotOf
    funext A B C
    rw [State.fp32DotOf, State.fp32DotOf, s.flipVta_vlmax]
    rfl

theorem State.flipVta_batchOperand (s : State) (w r : Nat) : s.flipVta.batchOperand w r = s.batchOperand w r := by
  unfold State.batchOperand
  rw [s.flipVta_vlmax]
  rfl

/-- Nor does the mask policy of an element. -/
theorem BatchOp.batchElem_flipVta (op : BatchOp) {s : State} (h : s.params.altfmtBit ≠ 6) (vd vs2 vs1 : VReg) (ci : Nat)
    (masked : Bool) (n : Nat) :
    s.flipVta.batchElem op.sew vd vs2 vs1 ci masked (op.dot s.flipVta) n
      = s.batchElem op.sew vd vs2 vs1 ci masked (op.dot s) n := by
  unfold State.batchElem
  rw [op.dot_flipVta h, s.flipVta_batchOperand, s.flipVta_batchOperand, s.flipVta_vma]
  rfl

theorem State.flipVta_batchWrite (s : State) (vd : VReg) (j : Nat) (l : List DotResult) :
    s.flipVta.batchWrite vd j l = (s.batchWrite vd j l).flipVta := by
  induction l generalizing s j with
  | nil => rfl
  | cons r rest ih =>
    have hset : (s.flipVta.setVelem vd 32 j r.bits).accrue r.flags
        = ((s.setVelem vd 32 j r.bits).accrue r.flags).flipVta := rfl
    rw [State.batchWrite, hset, ih]
    rfl

theorem BatchOp.after_flipVta (op : BatchOp) {s : State} (h : s.params.altfmtBit ≠ 6) (vd vs2 vs1 : VReg) (ci : Nat)
    (masked : Bool) : op.after s.flipVta vd vs2 vs1 ci masked = (op.after s vd vs2 vs1 ci masked).flipVta := by
  unfold BatchOp.after
  have hskips : s.flipVta.skipsAtVl0 = s.skipsAtVl0 := rfl
  rw [funext (op.batchElem_flipVta h vd vs2 vs1 ci masked), State.flipVta_batchWrite, hskips]
  split_ifs
  · rfl
  · rfl

/-- The legality of a batched instruction does not depend on `vta` (41_zvbdot_batched.md R150). -/
theorem batchRuns.flipVta {op : BatchOp} {s : State} {vd vs2 vs1 : VReg} {ci : Nat} {masked : Bool}
    (h : s.params.altfmtBit ≠ 6) (hruns : batchRuns op s vd vs2 vs1 ci masked) :
    batchRuns op s.flipVta vd vs2 vs1 ci masked := by
  obtain ⟨⟨hpresent, hvs, hfs, hvill⟩, ⟨hvstart, hvsew, hvlmul, hsew, halt, hfrm⟩, hlmul8, hci, hrest⟩ := hruns
  refine ⟨⟨hpresent, hvs, hfs, ?_⟩, ⟨hvstart, ?_, ?_, ?_, fun a ha => ?_, hfrm⟩, ?_, ?_, hrest⟩
  · rwa [s.flipVta_vill]
  · rwa [s.flipVta_vsew]
  · rwa [s.flipVta_vlmul]
  · rwa [s.flipVta_sew]
  · rw [State.flipVta_altfmt h]
    exact halt a ha
  · rwa [s.flipVta_lmul8]
  · rwa [s.flipVta_vlmax]

/-- Settles O26: the sources and, where it is masked, `v0` lie outside the destination group (R150), and the instruction commutes
with a flip of `vta`. -/
theorem batchLeavesTheRest : Obligations.BatchLeavesTheRest := by
  intro op s t vd vs2 vs1 ci masked h5 hruns ht
  obtain ⟨hkeeps, -, -⟩ := isDot.next_keeps (.inr ⟨op, vd, vs2, vs1, ci, masked, rfl⟩) ht
  obtain rfl := Host.Outcome.next.inj ((BatchOp.exec_runs hruns).symm.trans ht)
  have ⟨_, _, hoperands⟩ := hruns
  have ⟨_, _, _, _, hvs2, hvs1Out, hvs2Out, hmask⟩ := hoperands
  obtain ⟨hrest, -⟩ := BatchOp.after_spec op h5 hoperands
  have ⟨hout, _⟩ := hrest
  have hvs2Lt := vs2.isLt
  refine ⟨hrest, hout vs1 hvs1Out, fun n hn => ?_, fun hm => ?_, hkeeps.vl, hkeeps.vtype, fun hbit => ?_⟩
  · exact hout ⟨vs2.val + n, by omega⟩ fun hc => hvs2Out (by simp only at hc; omega)
  · exact hout 0 fun hc => hmask ⟨hm, Fin.ext (Nat.le_zero.1 hc.1)⟩
  · have hflip := op.after_flipVta hbit vd vs2 vs1 ci masked
    rw [State.flipVta_of_vtype_eq hkeeps.vtype] at hflip
    exact (BatchOp.exec_runs (hruns.flipVta hbit)).trans (congrArg _ hflip)

/-! ## What the results read -/

/-- A source array is decided by its elements below `vl` (41_zvbdot_batched.md R144). -/
theorem State.batchOperand_congr {s s' : State} {w r : Nat} (hvl : s'.vl = s.vl) (hvlmax : s'.vlmax = s.vlmax)
    (helem : ∀ k < s.vl.toNat, s'.velem r w k = s.velem r w k) : s'.batchOperand w r = s.batchOperand w r := by
  unfold State.batchOperand
  rw [hvlmax, hvl]
  refine List.map_congr_left fun k _ => ?_
  split_ifs with hk
  · exact helem k hk
  · rfl

/-- The elements `ci` to `ci + 7` and the flags after a batched instruction that runs, by whether it skips at `vl = 0` (D9). -/
theorem BatchOp.after_elem_fflags (op : BatchOp) {s : State} {vd vs2 vs1 : VReg} {ci : Nat} {masked : Bool}
    (h5 : 5 ≤ s.params.vlenLog2) (h : batchOperandsLegal s vd vs2 vs1 ci masked) :
    (∀ n < 8, (op.after s vd vs2 vs1 ci masked).velem vd 32 (ci + n)
        = if s.skipsAtVl0 then s.velem vd 32 (ci + n)
          else (s.batchElem op.sew vd vs2 vs1 ci masked (op.dot s) n).bits)
      ∧ (op.after s vd vs2 vs1 ci masked).fflags
        = if s.skipsAtVl0 then s.fflags
          else ((List.range 8).map (s.batchElem op.sew vd vs2 vs1 ci masked (op.dot s))).foldl (fun f r => f ||| r.flags)
            s.fflags := by
  obtain ⟨-, -, hci, hal, -⟩ := h
  unfold BatchOp.after
  split_ifs
  · exact ⟨fun n _ => rfl, rfl⟩
  · obtain ⟨helem, -⟩ := State.batchWrite_spec
      (l := (List.range 8).map (s.batchElem op.sew vd vs2 vs1 ci masked (op.dot s))) h5 (by simp) hci hal
    refine ⟨fun n hn => ?_, ?_⟩
    · rw [State.dirtyRetire_velem, helem n (by simpa using hn), List.getElem_map, List.getElem_range]
    · rw [State.dirtyRetire_fflags, State.fflags_batchWrite]

/-- Settles O28: for every dot product both states hand the same two arrays and the same accumulator to the operation, which
reads no vector register itself, or leave it out and draw the same choice for its element. -/
theorem batchIgnoresTailSources : Obligations.BatchIgnoresTailSources := by
  intro op s s' t t' vd vs2 vs1 ci masked hs' h5 hruns hmask hacc hvs1 hvs2 ht ht'
  obtain ⟨v, rfl⟩ : ∃ v, s' = { s with v := v } := ⟨_, hs'⟩
  have hruns' : batchRuns op { s with v := v } vd vs2 vs1 ci masked := hruns
  have ⟨_, _, hoperands⟩ := hruns
  obtain rfl := Host.Outcome.next.inj ((BatchOp.exec_runs hruns).symm.trans ht)
  obtain rfl := Host.Outcome.next.inj ((BatchOp.exec_runs hruns').symm.trans ht')
  have hdot : op.dot { s with v := v } = op.dot s := by cases op <;> rfl
  have hactive (j : Nat) : State.active { s with v := v } masked j = s.active masked j := by
    cases masked with
    | false => rfl
    | true => simp only [State.active, State.maskBit, hmask rfl]
  have hoperand1 : State.batchOperand { s with v := v } op.sew vs1 = s.batchOperand op.sew vs1 :=
    State.batchOperand_congr rfl rfl hvs1
  have hresult : ∀ n < 8, State.batchElem { s with v := v } op.sew vd vs2 vs1 ci masked (op.dot { s with v := v }) n
      = s.batchElem op.sew vd vs2 vs1 ci masked (op.dot s) n := by
    intro n hn
    unfold State.batchElem
    rw [hdot, hactive, hacc n hn, hoperand1]
    by_cases hp : s.active masked (ci + n) = true
    · have hoperand2 : State.batchOperand { s with v := v } op.sew (vs2.val + n) = s.batchOperand op.sew (vs2.val + n) :=
        State.batchOperand_congr rfl rfl (hvs2 n hn hp)
      rw [if_pos hp, if_pos hp, hoperand2]
    · rw [if_neg hp, if_neg hp]
      rfl
  obtain ⟨helem, hflags⟩ := BatchOp.after_elem_fflags op h5 hoperands
  obtain ⟨helem', hflags'⟩ := BatchOp.after_elem_fflags op (s := { s with v := v }) h5 hoperands
  have hskips : State.skipsAtVl0 { s with v := v } = s.skipsAtVl0 := rfl
  refine ⟨fun n hn => ?_, ?_⟩
  · rw [helem n hn, helem' n hn, hskips, hresult n hn, hacc n hn]
  · rw [hflags, hflags', hskips, List.map_congr_left fun n hn => hresult n (List.mem_range.1 hn)]

end Sys2Proof.Machine
end

section
/-! SUPPORT. The fields of an FP32 pattern and what decoding it gives (42_bulk_normalization.md R181, R191). -/

namespace Sys2Proof.Machine

/-! ## Bit lengths and shifts -/

theorem bitLength_eq {n k : Nat} (hlo : 2 ^ k ≤ n) (hhi : n < 2 ^ (k + 1)) : bitLength n = k + 1 := by
  have hne : n ≠ 0 := by have := Nat.two_pow_pos k; omega
  rw [bitLength, if_neg hne, (Nat.log2_eq_iff hne).2 ⟨hlo, hhi⟩]

/-- A number below a power of two has no more bits. -/
theorem bitLength_le {n k : Nat} (h : n < 2 ^ k) : bitLength n ≤ k := by
  by_cases hn : n = 0
  · simp [hn, bitLength]
  · have := (Nat.pow_lt_pow_iff_right one_lt_two).1 ((two_pow_bitLength_le hn).trans_lt h)
    omega

theorem bitLength_mul_two_pow {n : Nat} (hn : n ≠ 0) (k : Nat) : bitLength (n * 2 ^ k) = bitLength n + k := by
  have hlen : bitLength n = n.log2 + 1 := by rw [bitLength, if_neg hn]
  have hlo := Nat.mul_le_mul_right (2 ^ k) (Nat.log2_self_le hn)
  have hhi := Nat.mul_lt_mul_of_pos_right (Nat.lt_log2_self (n := n)) (Nat.two_pow_pos k)
  rw [← pow_add] at hlo hhi
  rw [hlen, bitLength_eq hlo (by rwa [show n.log2 + k + 1 = n.log2 + 1 + k by omega])]
  omega

@[simp] theorem shiftRto_zero_left (s : Int) : shiftRto 0 s = 0 := by
  unfold shiftRto
  split_ifs <;> simp_all

@[simp] theorem shiftRto_zero_right (x : Nat) : shiftRto x 0 = x := by simp [shiftRto]

theorem shiftRto_neg (x k : Nat) : shiftRto x (-k) = x * 2 ^ k := by simp [shiftRto]

/-- A right shift that drops nothing. -/
theorem shiftRto_mul_two_pow (x k : Nat) : shiftRto (x * 2 ^ k) k = x := by
  by_cases hk : k = 0
  · simp [hk]
  · simp [shiftRto, hk]

/-! ## FP32 patterns -/

/-- The biased exponent of an FP32 pattern (42_bulk_normalization.md R181). -/
def fp32Exp (C : BitVec 32) : Nat := bitField C.toNat 23 8

/-- The mantissa of an FP32 pattern (42_bulk_normalization.md R181). -/
def fp32Mant (C : BitVec 32) : Nat := bitField C.toNat 0 23

theorem fp32Exp_lt (C : BitVec 32) : fp32Exp C < 256 := bitField_lt ..

theorem fp32Mant_lt (C : BitVec 32) : fp32Mant C < 2 ^ 23 := bitField_lt ..

/-- A pattern is the word of its sign, exponent and mantissa (42_bulk_normalization.md R200). -/
theorem fp32_assemble (C : BitVec 32) : fp32Acc.assemble C.msb (fp32Exp C) (fp32Mant C) = C.toNat := by
  have hlt := C.isLt
  rw [BitVec.msb_eq_decide]
  simp only [AccFmt.assemble, fp32Acc, fp32Exp, fp32Mant, bitField]
  by_cases h : 2 ^ 31 ≤ C.toNat
  · simp only [show (32 - 1 : Nat) = 31 from rfl, h, decide_true, Bool.toNat_true]
    omega
  · simp only [show (32 - 1 : Nat) = 31 from rfl, h, decide_false, Bool.toNat_false]
    omega

/-- The fields of a word that is put together from a sign, an exponent and a mantissa. -/
theorem fp32_ofNat_assemble (sign : Bool) {exp mant : Nat} (hexp : exp < 256) (hmant : mant < 2 ^ 23) :
    (BitVec.ofNat 32 (fp32Acc.assemble sign exp mant)).msb = sign
      ∧ fp32Exp (BitVec.ofNat 32 (fp32Acc.assemble sign exp mant)) = exp
      ∧ fp32Mant (BitVec.ofNat 32 (fp32Acc.assemble sign exp mant)) = mant := by
  have hval : (BitVec.ofNat 32 (fp32Acc.assemble sign exp mant)).toNat = sign.toNat * 2 ^ 31 + exp * 2 ^ 23 + mant := by
    have := sign.toNat_le
    rw [BitVec.toNat_ofNat, Nat.mod_eq_of_lt]
    · rfl
    · simp only [AccFmt.assemble, fp32Acc]
      omega
  rw [BitVec.msb_eq_decide, fp32Exp, fp32Mant, hval, bitField, bitField]
  refine ⟨?_, by omega, by omega⟩
  cases sign
  · simp only [Bool.toNat_false, decide_eq_false_iff_not]
    omega
  · simp only [Bool.toNat_true, decide_eq_true_eq]
    omega

/-- A zero of either sign. -/
theorem fp32_eq_zero {C : BitVec 32} (hexp : fp32Exp C = 0) (hmant : fp32Mant C = 0) :
    C = if C.msb then 0x80000000 else 0 := by
  have h := fp32_assemble C
  rw [hexp, hmant] at h
  refine BitVec.eq_of_toNat_eq ?_
  cases hs : C.msb
  · rw [hs] at h
    exact h.symm
  · rw [hs] at h
    exact h.symm

/-! ## Decoding a pattern -/

variable (C : BitVec 32)

theorem decodeAddend_sign : (decodeAddend fp32Acc C.toNat).sign = C.msb := by
  show C.toNat.testBit 31 = _
  rw [BitVec.testBit_toNat, BitVec.msb_eq_getLsbD_last]

theorem decodeAddend_isZero_iff :
    (decodeAddend fp32Acc C.toNat).isZero = true ↔ fp32Exp C = 0 ∧ fp32Mant C = 0 := by
  show (bitField C.toNat 23 8 == 0 && bitField C.toNat 0 23 == 0) = true ↔ _
  simp [fp32Exp, fp32Mant]

theorem decodeAddend_isInf_iff : (decodeAddend fp32Acc C.toNat).isInf = true ↔ fp32IsInf C := by
  show (bitField C.toNat 23 8 == 255 && bitField C.toNat 0 23 == 0) = true ↔ _
  simp [fp32IsInf]

theorem decodeAddend_isNaN_iff : (decodeAddend fp32Acc C.toNat).isNaN = true ↔ fp32IsNaN C := by
  show (bitField C.toNat 23 8 == 255 && bitField C.toNat 0 23 != 0) = true ↔ _
  simp [fp32IsNaN]

theorem decodeAddend_isSNaN_iff : (decodeAddend fp32Acc C.toNat).isSNaN = true ↔ fp32IsSNaN C := by
  show (bitField C.toNat 23 8 == 255 && bitField C.toNat 0 23 != 0 && !(bitField C.toNat 0 23).testBit 22) = true ↔ _
  rw [bitField_testBit, BitVec.testBit_toNat]
  simp [fp32IsSNaN, fp32IsNaN]

theorem decodeAddend_sig :
    (decodeAddend fp32Acc C.toNat).sig = (if fp32Exp C = 0 then 0 else 2 ^ 23) + fp32Mant C := by
  show (if (bitField C.toNat 23 8 == 0) = true then 0 else 2 ^ 23) + bitField C.toNat 0 23 = _
  simp only [beq_iff_eq]
  rfl

theorem decodeAddend_ref : (decodeAddend fp32Acc C.toNat).ref = if fp32Exp C = 0 then 1 else fp32Exp C := by
  show (if (bitField C.toNat 23 8 == 0) = true then 1 else bitField C.toNat 23 8) = _
  simp only [beq_iff_eq]
  rfl

/-- A zero factor of any format has no significand (42_bulk_normalization.md R192). -/
theorem decodeFactor_sig_of_isZero {f : FactorFmt} {X : Nat} (h : (decodeFactor f X).isZero = true) :
    (decodeFactor f X).sig = 0 := by
  simp only [decodeFactor, Bool.and_eq_true, beq_iff_eq] at h ⊢
  simp [h]

end Sys2Proof.Machine
end

section
/-! SUPPORT. Bulk normalization where every product is zero (42_bulk_normalization.md R204 (e)), and the batched family with
`vl = 0` (41_zvbdot_batched.md R152). -/

namespace Sys2Proof.Machine

/-! ## Zero products -/

/-- `RVBNA2` of a list of pairs, by its decoded pairs (42_bulk_normalization.md R202). -/
theorem rvbnaPairs_eq (fA fB : FactorFmt) (n : Nat) (L : List (Nat × Nat)) (C : BitVec 32) :
    rvbnaPairs fA fB n L C =
      let c := decodeAddend fp32Acc C.toNat
      let P := L.map (decodePair fA fB)
      let scan := P.foldl scanStep (scanInit c)
      if scan.nanResult then ⟨fp32Acc.canonicalNaN, scan.invalid, false⟩
      else if scan.infinite then ⟨fp32Acc.infinity scan.infiniteSign, false, false⟩
      else
        let maxExp := maxExpOf (offsetOf fA fB) c P
        let r := normalise fp32Acc (clog2 n) maxExp
          (accumulate (offsetOf fA fB) maxExp fp32Acc (clog2 n) (fA.p + fB.p) c P)
        ⟨r.1, false, r.2⟩ := by
  have hpairs : ((L.map Prod.fst).map (decodeFactor fA)).zip ((L.map Prod.snd).map (decodeFactor fB))
      = L.map (decodePair fA fB) := by
    rw [List.map_map, List.map_map, List.zip_map']
    rfl
  rw [rvbnaPairs, rvbna2, hpairs]
  rfl

/-- What a zero pair is: finite, with a zero among its factors. -/
theorem zeroPair_iff (ab : Operand × Operand) :
    zeroPair ab = true ↔ (ab.1.isInf = false ∧ ab.1.isNaN = false ∧ ab.2.isInf = false ∧ ab.2.isNaN = false)
      ∧ (ab.1.isZero = true ∨ ab.2.isZero = true) := by
  simp [zeroPair, finitePair, and_assoc]

/-- Zero products leave the special-value scan (42_bulk_normalization.md R193), given that no factor is a signaling NaN. -/
theorem scanStep_zeroPair (st : Scan) {ab : Operand × Operand} (h : zeroPair ab = true) (ha : ab.1.isSNaN = false)
    (hb : ab.2.isSNaN = false) : scanStep st ab = st := by
  obtain ⟨⟨hai, han, hbi, hbn⟩, -⟩ := (zeroPair_iff ab).1 h
  simp [scanStep, hai, han, hbi, hbn, ha, hb]

/-- What is no NaN is no signaling NaN. -/
theorem decodeFactor_isSNaN_eq_false {f : FactorFmt} {X : Nat} (h : (decodeFactor f X).isNaN = false) :
    (decodeFactor f X).isSNaN = false := by
  obtain ⟨e, p, kind⟩ := f
  cases kind with
  | ieee =>
    simp only [decodeFactor] at h ⊢
    rw [h, Bool.false_and]
  | e4m3 => rfl

section ZeroPairs

variable {fA fB : FactorFmt} {L : List (Nat × Nat)} (h : ∀ ab ∈ L, zeroPair (decodePair fA fB ab) = true)

include h

theorem scan_zeroPairs (st : Scan) : (L.map (decodePair fA fB)).foldl scanStep st = st := by
  rw [List.foldl_map]
  refine List.foldlRecOn (motive := (· = st)) L _ rfl fun st' hst ab hab => ?_
  obtain ⟨⟨-, han, -, hbn⟩, -⟩ := (zeroPair_iff _).1 (h ab hab)
  rw [scanStep_zeroPair st' (h ab hab) (decodeFactor_isSNaN_eq_false han) (decodeFactor_isSNaN_eq_false hbn)]
  exact hst

/-- A zero product has the lowest reference exponent (42_bulk_normalization.md R194). -/
theorem maxExpOf_zeroPairs {offset : Int} {c : Operand} (hc : minExpOf offset ≤ addendRef offset c) :
    maxExpOf offset c (L.map (decodePair fA fB)) = addendRef offset c := by
  rw [maxExpOf, List.foldl_map]
  refine List.foldlRecOn (motive := (· = addendRef offset c)) L _ rfl fun m hm ab hab => ?_
  obtain ⟨-, hzero⟩ := (zeroPair_iff _).1 (h ab hab)
  rw [hm, prodRef, if_pos (by simpa using hzero), max_eq_left hc]

/-- Zero products add nothing to the accumulator (42_bulk_normalization.md R196, R198). -/
theorem accumulate_zeroPairs (offset maxExp : Int) (acc : AccFmt) (g p2 : Nat) (c : Operand) :
    accumulate offset maxExp acc g p2 c (L.map (decodePair fA fB)) = alignedAddend offset maxExp g c := by
  rw [accumulate, List.map_map, List.sum_eq_zero, zero_add]
  intro x hx
  obtain ⟨ab, hab, rfl⟩ := List.mem_map.1 hx
  obtain ⟨-, hzero⟩ := (zeroPair_iff _).1 (h ab hab)
  have hsig : (decodePair fA fB ab).1.sig * (decodePair fA fB ab).2.sig = 0 :=
    Nat.mul_eq_zero.2 (hzero.imp decodeFactor_sig_of_isZero decodeFactor_sig_of_isZero)
  rw [Function.comp, alignedProduct, hsig, shiftRto_zero_left]
  cases prodSign _ _ <;> rfl

end ZeroPairs

/-! ## The addend alone -/

theorem natAbs_signedTerm (sign : Bool) (n : Nat) : (signedTerm sign n).natAbs = n := by
  cases sign <;> simp [signedTerm]

theorem signedTerm_neg_iff (sign : Bool) {n : Nat} (hn : n ≠ 0) : decide (signedTerm sign n < 0) = sign := by
  cases sign
  · simp [signedTerm]
  · simp only [signedTerm, if_true, decide_eq_true_eq]
    omega

/-- Normalising a significand that is aligned to the accumulator gives it back: a normal number with its exponent, or a
subnormal one (42_bulk_normalization.md R199). -/
theorem normalise_signedTerm (g : Nat) (sign : Bool) {sig ref : Nat} (hsig : sig ≠ 0) (hlt : sig < 2 ^ 24)
    (href : 1 ≤ ref) (href' : ref < 255) (hnormal : ref = 1 ∨ 2 ^ 23 ≤ sig) :
    normalise fp32Acc g ref (signedTerm sign (sig * 2 ^ g))
      = (fp32Acc.assemble sign (if 2 ^ 23 ≤ sig then ref else 0) (sig % 2 ^ 23), false) := by
  have hmag : sig * 2 ^ g ≠ 0 := by positivity
  have hacc : signedTerm sign (sig * 2 ^ g) ≠ 0 := fun h => hmag (by rw [← natAbs_signedTerm sign (sig * 2 ^ g), h]; rfl)
  have hover : fp32Acc.overflowExp = 255 := rfl
  have hq : fp32Acc.q = 24 := rfl
  unfold normalise
  simp only [if_neg hacc, natAbs_signedTerm, signedTerm_neg_iff sign hmag, bitLength_mul_two_pow hsig, hover, hq]
  by_cases hn : 2 ^ 23 ≤ sig
  · have hlen : bitLength sig = 24 := bitLength_eq hn hlt
    have hshift : ((24 + g : Nat) : Int) - (24 : Nat) = g := by omega
    have hexp : (ref : Int) + (24 + g : Nat) - (24 : Nat) - g = ref := by omega
    rw [hlen, if_pos hn, hexp, hshift, shiftRto_mul_two_pow, if_neg (by omega), if_pos (by omega)]
    rfl
  · have hlen : bitLength sig ≤ 23 := bitLength_le (not_le.1 hn)
    have hone : ref = 1 := hnormal.resolve_right hn
    have hshift : (g : Int) + 1 - (ref : Nat) = g := by omega
    rw [if_neg hn, if_neg (by omega), if_neg (by omega), hshift, shiftRto_mul_two_pow, Nat.mod_eq_of_lt (not_le.1 hn)]

/-- A finite non-zero addend is the normalised accumulator of it alone. -/
theorem normalise_alignedAddend {C : BitVec 32} (hfinite : fp32Exp C ≠ 255)
    (hzero : (decodeAddend fp32Acc C.toNat).isZero = false) (offset : Int) (g : Nat) :
    normalise fp32Acc g (addendRef offset (decodeAddend fp32Acc C.toNat))
        (alignedAddend offset (addendRef offset (decodeAddend fp32Acc C.toNat)) g (decodeAddend fp32Acc C.toNat))
      = (C.toNat, false) := by
  have hexp := fp32Exp_lt C
  have hmant := fp32Mant_lt C
  have hne : ¬(fp32Exp C = 0 ∧ fp32Mant C = 0) := by rw [← decodeAddend_isZero_iff, hzero]; nofun
  have halign : alignedAddend offset (addendRef offset (decodeAddend fp32Acc C.toNat)) g (decodeAddend fp32Acc C.toNat)
      = signedTerm C.msb ((decodeAddend fp32Acc C.toNat).sig * 2 ^ g) := by
    rw [alignedAddend, sub_self, zero_sub, shiftRto_neg, decodeAddend_sign]
  rw [halign, addendRef, hzero, if_neg Bool.false_ne_true, decodeAddend_sig, decodeAddend_ref, ← fp32_assemble C]
  by_cases h0 : fp32Exp C = 0
  · rw [if_pos h0, if_pos h0, normalise_signedTerm g C.msb (by omega) (by omega) le_rfl (by omega) (.inl rfl), zero_add,
      if_neg (by omega), Nat.mod_eq_of_lt hmant, h0]
  · rw [if_neg h0, if_neg h0, normalise_signedTerm g C.msb (by omega) (by omega) (by omega) (by omega) (.inr (by omega)),
      if_pos (by omega), Nat.add_mod_left, Nat.mod_eq_of_lt hmant]

theorem normalise_zero (g : Nat) (maxExp : Int) : normalise fp32Acc g maxExp 0 = (0, false) := rfl

/-! ## The result -/

theorem zeroProductResult_of_isNaN {C : BitVec 32} (h : fp32IsNaN C) :
    zeroProductResult C = (0x7FC00000, if C.getLsbD 22 then 0 else 0x10) := if_pos h

theorem zeroProductResult_of_not_isNaN {C : BitVec 32} (h : ¬fp32IsNaN C) :
    zeroProductResult C = if C = 0x80000000 then (0, 0) else (C, 0) := if_neg h

theorem bulkPair_toNat (C : BitVec 32) : bulkPair ⟨C.toNat, false, false⟩ = (C, 0) := by
  simp [bulkPair, bulkFlagBits]

/-- An infinite pattern is the infinity of its sign. -/
theorem fp32IsInf.infinity_msb {C : BitVec 32} (h : fp32IsInf C) : fp32Acc.infinity C.msb = C.toNat := by
  obtain ⟨hexp, hmant⟩ := h
  rw [← fp32_assemble C, fp32Exp, fp32Mant, hexp, hmant]
  rfl

/-- Without infinities and NaNs, the result is the normalised addend. -/
theorem bulkPair_normalise_addend {C : BitVec 32} (hfinite : fp32Exp C ≠ 255) (offset : Int) (g : Nat) {maxExp : Int}
    (hmax : minExpOf offset ≤ addendRef offset (decodeAddend fp32Acc C.toNat) →
      maxExp = addendRef offset (decodeAddend fp32Acc C.toNat)) :
    let r := normalise fp32Acc g maxExp (alignedAddend offset maxExp g (decodeAddend fp32Acc C.toNat))
    bulkPair ⟨r.1, false, r.2⟩ = if C = 0x80000000 then (0, 0) else (C, 0) := by
  by_cases hzero : (decodeAddend fp32Acc C.toNat).isZero = true
  · have haligned : alignedAddend offset maxExp g (decodeAddend fp32Acc C.toNat) = 0 := by
      rw [alignedAddend, show (decodeAddend fp32Acc C.toNat).sig = 0 from decodeFactor_sig_of_isZero hzero,
        shiftRto_zero_left]
      cases (decodeAddend fp32Acc C.toNat).sign <;> rfl
    obtain ⟨hexp, hmant⟩ := (decodeAddend_isZero_iff C).1 hzero
    rw [haligned, normalise_zero, fp32_eq_zero hexp hmant]
    cases C.msb <;> decide
  · rw [Bool.not_eq_true] at hzero
    have hne : C ≠ 0x80000000 := by rintro rfl; exact absurd hzero (by decide)
    rw [hmax, normalise_alignedAddend hfinite hzero, if_neg hne]
    · exact bulkPair_toNat C
    · rw [addendRef, hzero, minExpOf, if_neg Bool.false_ne_true]
      omega

/-- Settles O46: zero products leave the scan, the reference exponent and the accumulator to the addend. -/
theorem zeroProductsKeepTheAddend : Obligations.ZeroProductsKeepTheAddend := by
  intro fA fB n L C _ _ hL
  rw [rvbnaPairs_eq]
  simp only [scan_zeroPairs hL, accumulate_zeroPairs hL, scanInit]
  by_cases hnan : fp32IsNaN C
  · have hquiet : (decodeAddend fp32Acc C.toNat).isSNaN = !C.getLsbD 22 := by
      rw [Bool.eq_iff_iff, decodeAddend_isSNaN_iff, fp32IsSNaN, Bool.not_eq_true', and_iff_right hnan]
    rw [if_pos ((decodeAddend_isNaN_iff C).2 hnan), zeroProductResult_of_isNaN hnan, hquiet]
    cases C.getLsbD 22 <;> rfl
  rw [if_neg (mt (decodeAddend_isNaN_iff C).1 hnan), zeroProductResult_of_not_isNaN hnan]
  by_cases hinf : fp32IsInf C
  · have hne : C ≠ 0x80000000 := by rintro rfl; exact absurd hinf.1 (by decide)
    rw [if_pos ((decodeAddend_isInf_iff C).2 hinf), if_neg hne, decodeAddend_sign, hinf.infinity_msb, bulkPair_toNat]
  · have hfinite : fp32Exp C ≠ 255 := fun h => by
      by_cases hm : bitField C.toNat 0 23 = 0
      · exact hinf ⟨h, hm⟩
      · exact hnan ⟨h, hm⟩
    rw [if_neg (mt (decodeAddend_isInf_iff C).1 hinf)]
    exact bulkPair_normalise_addend hfinite _ _ (maxExpOf_zeroPairs hL)

/-! ## The batched family with `vl = 0` -/

theorem batchFactors_of_vl_eq_zero {s : State} (h : s.vl = 0) (w r : Nat) :
    batchFactors s w r = List.replicate s.vlmax 0 := by
  simp [batchFactors, h, List.map_const']

/-- The zero pattern is a zero in every format (42_bulk_normalization.md R182). -/
theorem zeroPair_zero : ∀ fA ∈ factorFormats, ∀ fB ∈ factorFormats, zeroPair (decodePair fA fB (0, 0)) = true := by
  decide

/-- `RVBNA2` of all-zero factors (41_zvbdot_batched.md R152). -/
theorem bulkPair_rvbna2_replicate_zero {fA fB : FactorFmt} (hA : fA ∈ factorFormats) (hB : fB ∈ factorFormats) (n m : Nat)
    (C : BitVec 32) :
    bulkPair (rvbna2 fA fB fp32Acc n (List.replicate m 0) (List.replicate m 0) C.toNat) = zeroProductResult C := by
  have h := zeroProductsKeepTheAddend fA fB n (List.replicate m (0, 0)) C hA hB fun ab hab => by
    rw [List.eq_of_mem_replicate hab]
    exact zeroPair_zero fA hA fB hB
  rwa [rvbnaPairs, List.map_replicate, List.map_replicate] at h

/-- With `vl = 0` the integer forms keep the destination element. -/
theorem BatchOp.pair_int_of_vl_eq_zero (signed2 : Bool) {s : State} (h : s.vl = 0) (vd vs2 vs1 : VReg) (ci n : Nat) :
    BatchOp.pair (if signed2 then .vqmmaccS else .vqmmaccU) s vd vs2 vs1 ci n = (s.velem vd 32 (ci + n), 0) := by
  rw [BatchOp.pair_int, batchIntSum_of_vl_eq_zero h, ofInt_toNat_add_zero]

/-- With `vl = 0` the BF16 form is `RVBNA` of all-zero factors. -/
theorem BatchOp.pair_bf16_of_vl_eq_zero {s : State} (h : s.vl = 0) (vd vs2 vs1 : VReg) (ci n : Nat) :
    BatchOp.pair .vfwmmacc s vd vs2 vs1 ci n = zeroProductResult (s.velem vd 32 (ci + n)) := by
  rw [BatchOp.pair_bf16, batchFactors_of_vl_eq_zero h, batchFactors_of_vl_eq_zero h, rvbna]
  exact bulkPair_rvbna2_replicate_zero (by decide) (by decide) ..

/-- With `vl = 0` an FP8 form is `FP8_DOT` of all-zero factors. -/
theorem BatchOp.pair_fp8_of_vl_eq_zero (alt : Bool) {s : State} (h : s.vl = 0) (vd vs2 vs1 : VReg) (ci n : Nat) :
    BatchOp.pair (if alt then .vfqmmaccAlt else .vfqmmacc) s vd vs2 vs1 ci n
      = bulkPair (fp8Result s alt (List.replicate s.vlmax 0) (List.replicate s.vlmax 0) (s.velem vd 32 (ci + n))) := by
  rw [BatchOp.pair_fp8, batchFactors_of_vl_eq_zero h, batchFactors_of_vl_eq_zero h]

/-- The default `FP8_DOT` of all-zero factors. -/
theorem bulkPair_fp8Result_zero {s : State} (h : s.params.fp8Dot = .standard) (alt : Bool) (n : Nat) (C : BitVec 32) :
    bulkPair (fp8Result s alt (List.replicate n 0) (List.replicate n 0) C) = zeroProductResult C := by
  have hA : (formatsOf s false alt).1 ∈ factorFormats := by
    show (if alt then e5m2 else e4m3) ∈ factorFormats
    cases alt <;> decide
  have hB : (formatsOf s false alt).2 ∈ factorFormats := by
    show (if s.altfmt then e5m2 else e4m3) ∈ factorFormats
    cases s.altfmt <;> decide
  rw [fp8Result, h]
  exact bulkPair_rvbna2_replicate_zero hA hB ..

/-- The result of a dot product of each form with `vl = 0` (41_zvbdot_batched.md R152, log entry 14). -/
theorem BatchOp.pair_of_vl_eq_zero {op : BatchOp} {s : State} (h : s.vl = 0) (hop : op ≠ .vfmmacc) (vd vs2 vs1 : VReg)
    (ci : Nat) :
    (op.fp = false ∧ op.pair s vd vs2 vs1 ci = fun n => (s.velem vd 32 (ci + n), 0))
      ∨ (op.fp = true ∧ (op = .vfwmmacc ∨ s.params.fp8Dot = .standard)
          ∧ op.pair s vd vs2 vs1 ci = fun n => zeroProductResult (s.velem vd 32 (ci + n)))
      ∨ ((op = .vfqmmacc ∨ op = .vfqmmaccAlt) ∧ s.params.fp8Dot = .substituted
          ∧ op.pair s vd vs2 vs1 ci = fun n => bulkPair (fp8Result s (op == .vfqmmaccAlt) (List.replicate s.vlmax 0)
              (List.replicate s.vlmax 0) (s.velem vd 32 (ci + n)))) := by
  have hfp8 (alt : Bool) := funext (BatchOp.pair_fp8_of_vl_eq_zero alt h vd vs2 vs1 ci)
  have hfp8Zero (alt : Bool) (hdefault : s.params.fp8Dot = .standard) :=
    (hfp8 alt).trans (funext fun _ => bulkPair_fp8Result_zero hdefault ..)
  cases op with
  | vqmmaccU => exact .inl ⟨rfl, funext (BatchOp.pair_int_of_vl_eq_zero false h vd vs2 vs1 ci)⟩
  | vqmmaccS => exact .inl ⟨rfl, funext (BatchOp.pair_int_of_vl_eq_zero true h vd vs2 vs1 ci)⟩
  | vfwmmacc => exact .inr (.inl ⟨rfl, .inl rfl, funext (BatchOp.pair_bf16_of_vl_eq_zero h vd vs2 vs1 ci)⟩)
  | vfqmmacc =>
    cases hd : s.params.fp8Dot with
    | standard => exact .inr (.inl ⟨rfl, .inr rfl, hfp8Zero false hd⟩)
    | substituted => exact .inr (.inr ⟨.inl rfl, rfl, hfp8 false⟩)
  | vfqmmaccAlt =>
    cases hd : s.params.fp8Dot with
    | standard => exact .inr (.inl ⟨rfl, .inr rfl, hfp8Zero true hd⟩)
    | substituted => exact .inr (.inr ⟨.inr rfl, rfl, hfp8 true⟩)
  | vfmmacc => exact absurd rfl hop

/-- Settles O27: the shared effect of a batched instruction that runs, with the result of each form for all-zero factors. -/
theorem zeroLengthBatch : Obligations.ZeroLengthBatch := by
  intro op s vd vs2 vs1 ci masked h5 hop hruns hvl
  have ⟨_, _, hoperands⟩ := hruns
  obtain ⟨-, hresult⟩ := BatchOp.after_spec op h5 hoperands
  refine ⟨_, BatchOp.exec_runs hruns, ?_⟩
  rcases hresult with hr | hskip
  · rcases BatchOp.pair_of_vl_eq_zero hvl hop vd vs2 vs1 ci with ⟨hfp, hp⟩ | ⟨hfp, hform, hp⟩ | ⟨hform, hsub, hp⟩
    · rw [hp] at hr
      exact .inl ⟨hfp, hr⟩
    · rw [hp] at hr
      exact .inr (.inl ⟨hfp, hform, hr⟩)
    · rw [hp] at hr
      exact .inr (.inr (.inl ⟨hform, hsub, hr⟩))
  · exact .inr (.inr (.inr hskip))

end Sys2Proof.Machine
end

section
/-! SUPPORT. The parts of `FP32_DOT`: its operands, its products, its adders, and one rule for the tree of its sum whatever an
implementation chooses (41_zvbdot_batched.md R171, R172). -/

namespace Sys2Proof.Machine

/-! ## Operands -/

theorem fp32IsZero_iff (w : BitVec 32) : fp32IsZero w ↔ fp32Exp w = 0 ∧ fp32Mant w = 0 := by
  simp only [fp32IsZero, fp32Exp, fp32Mant, bitField]
  omega

/-- A pattern is a NaN, an infinity or finite. -/
theorem fp32_cases (w : BitVec 32) : fp32IsNaN w ∨ fp32IsInf w ∨ fp32Finite w := by
  unfold fp32IsNaN fp32IsInf fp32Finite
  tauto

theorem fp32IsInf.not_isNaN {w : BitVec 32} (h : fp32IsInf w) : ¬fp32IsNaN w := fun hc => hc.2 h.2

theorem fp32Finite.not_isNaN {w : BitVec 32} (h : fp32Finite w) : ¬fp32IsNaN w := fun hc => h hc.1

theorem fp32Finite.not_isInf {w : BitVec 32} (h : fp32Finite w) : ¬fp32IsInf w := fun hc => h hc.1

theorem fp32IsZero.finite {w : BitVec 32} (h : fp32IsZero w) : fp32Finite w := by
  obtain ⟨hexp, -⟩ := (fp32IsZero_iff w).1 h
  intro hc
  exact absurd (hexp.symm.trans hc) (by norm_num)

/-- The significand of a pattern (42_bulk_normalization.md R191). -/
def fp32Sig (w : BitVec 32) : Nat := (decodeAddend fp32Acc w.toNat).sig

/-- The weight of the last bit of that significand, as an exponent of two. -/
def fp32LastExp (w : BitVec 32) : Int := (decodeAddend fp32Acc w.toNat).ref - 127 - 23

theorem fp32Sig_eq_zero_iff (w : BitVec 32) : fp32Sig w = 0 ↔ fp32IsZero w := by
  rw [fp32Sig, decodeAddend_sig, fp32IsZero_iff]
  split_ifs with h
  · simp [h]
  · simp [h]

/-- The datum of a pattern and the flag of a signaling NaN (41_zvbdot_batched.md R173 (c)). -/
theorem fp32Decode_eq (w : BitVec 32) :
    fp32Decode w = if (decodeAddend fp32Acc w.toNat).isNaN then
        ⟨.nan, flagIf (decodeAddend fp32Acc w.toNat).isSNaN flagNV⟩
      else if (decodeAddend fp32Acc w.toNat).isInf then ⟨.inf w.msb, 0⟩
      else ⟨.fin w.msb (fp32Sig w) (fp32LastExp w), 0⟩ := by
  rw [← decodeAddend_sign]
  rfl

theorem fp32Decode_val_of_isNaN {w : BitVec 32} (h : fp32IsNaN w) : (fp32Decode w).val = .nan := by
  rw [fp32Decode_eq, if_pos ((decodeAddend_isNaN_iff w).2 h)]

theorem fp32Decode_flags_of_isSNaN {w : BitVec 32} (h : fp32IsSNaN w) : (fp32Decode w).flags = flagNV := by
  rw [fp32Decode_eq, if_pos ((decodeAddend_isNaN_iff w).2 h.1), (decodeAddend_isSNaN_iff w).2 h]
  rfl

theorem fp32Decode_of_isInf {w : BitVec 32} (h : fp32IsInf w) : fp32Decode w = ⟨.inf w.msb, 0⟩ := by
  rw [fp32Decode_eq, if_neg (mt (decodeAddend_isNaN_iff w).1 h.not_isNaN), if_pos ((decodeAddend_isInf_iff w).2 h)]

theorem fp32Decode_of_finite {w : BitVec 32} (h : fp32Finite w) :
    fp32Decode w = ⟨.fin w.msb (fp32Sig w) (fp32LastExp w), 0⟩ := by
  rw [fp32Decode_eq, if_neg (mt (decodeAddend_isNaN_iff w).1 h.not_isNaN),
    if_neg (mt (decodeAddend_isInf_iff w).1 h.not_isInf)]

/-! ## Products -/

theorem fpMul_nan_right (x : FpVal) : fpMul x .nan = ⟨.nan, 0⟩ := by cases x <;> rfl

/-- A product with NaN, infinite or zero value is the same whether it is rounded or kept exact. -/
theorem fp32Product_of_round {rm : RoundingMode} {after keep : Bool} {a b : BitVec 32} {v : FpVal} {f : FpFlags}
    (hmul : fpMul (fp32Decode a).val (fp32Decode b).val = ⟨v, f⟩) (hround : roundTo binFp32 rm after v = ⟨v, 0⟩) :
    fp32Product rm after keep a b = ⟨v, (fp32Decode a).flags ||| (fp32Decode b).flags ||| f⟩ := by
  simp only [fp32Product, hmul, hround]
  cases keep <;> simp

/-- The products by the pairs of factors and their indices. -/
theorem fp32Products_eq (rm : RoundingMode) (after : Bool) (keep : Nat → Bool) (k : Nat) (L : List (BitVec 32 × BitVec 32)) :
    fp32Products rm after keep k (L.map Prod.fst) (L.map Prod.snd)
      = (L.zipIdx k).map fun p => fp32Product rm after (keep p.2) p.1.1 p.1.2 := by
  induction L generalizing k with
  | nil => rfl
  | cons ab rest ih =>
    rw [List.map_cons, List.map_cons, fp32Products, ih, List.zipIdx_cons, List.map_cons]

/-- Every pair of factors has its product, exact or rounded. -/
theorem exists_mem_fp32Products {rm : RoundingMode} {after : Bool} {keep : Nat → Bool} {k : Nat}
    {L : List (BitVec 32 × BitVec 32)} {ab : BitVec 32 × BitVec 32} (h : ab ∈ L) :
    ∃ exact, fp32Product rm after exact ab.1 ab.2
      ∈ fp32Products rm after keep k (L.map Prod.fst) (L.map Prod.snd) := by
  rw [← List.zipIdx_map_fst k L] at h
  obtain ⟨⟨ab, i⟩, hmem, rfl⟩ := List.mem_map.1 h
  rw [fp32Products_eq]
  exact ⟨keep i, List.mem_map_of_mem hmem⟩

/-- Every product is that of a pair of factors, exact or rounded. -/
theorem of_mem_fp32Products {rm : RoundingMode} {after : Bool} {keep : Nat → Bool} {k : Nat}
    {L : List (BitVec 32 × BitVec 32)} {p : FpOut}
    (h : p ∈ fp32Products rm after keep k (L.map Prod.fst) (L.map Prod.snd)) :
    ∃ ab ∈ L, ∃ exact, p = fp32Product rm after exact ab.1 ab.2 := by
  rw [fp32Products_eq] at h
  obtain ⟨⟨ab, i⟩, hmem, rfl⟩ := List.mem_map.1 h
  exact ⟨ab, List.fst_mem_of_mem_zipIdx hmem, keep i, rfl⟩

/-! ## The tree of the sum -/

/-- One step of the sum replaces two terms by their sum, in some order of the terms (41_zvbdot_batched.md R172). -/
theorem fp32Tree_succ (rm : RoundingMode) (after : Bool) (pick : Nat → Nat × Nat) (fmt : Nat → BinFmt) (fuel step : Nat)
    {terms : List FpVal} (h : 2 ≤ terms.length) :
    ∃ left right rest, terms.Perm (left :: right :: rest)
      ∧ fp32Tree rm after pick fmt (fuel + 1) step terms
        = (let node := fp32Adder (fmt step) rm after left right
          let out := fp32Tree rm after pick fmt fuel (step + 1) (node.val :: rest)
          ⟨out.val, node.flags ||| out.flags⟩) := by
  obtain ⟨x, y, rest, rfl⟩ : ∃ x y rest, terms = x :: y :: rest := by
    match terms, h with
    | x :: y :: rest, _ => exact ⟨x, y, rest, rfl⟩
  have hi : (pick step).1 % (x :: y :: rest).length < (x :: y :: rest).length := Nat.mod_lt _ (by simp)
  have hj : (pick step).2 % ((x :: y :: rest).eraseIdx ((pick step).1 % (x :: y :: rest).length)).length
      < ((x :: y :: rest).eraseIdx ((pick step).1 % (x :: y :: rest).length)).length :=
    Nat.mod_lt _ (by rw [List.length_eraseIdx_of_lt hi]; simp)
  refine ⟨_, _, _, ?_, rfl⟩
  rw [List.getD_eq_getElem _ _ hi, List.getD_eq_getElem _ _ hj]
  exact (List.getElem_cons_eraseIdx_perm hi).symm.trans ((List.getElem_cons_eraseIdx_perm hj).symm.cons _)

/-- The rule of the tree: what holds of one term, of any order of the terms, and of two terms where it holds of their sum, holds of
the whole sum. -/
theorem fp32Tree_rule {R : List FpVal → FpOut → Prop} {rm : RoundingMode} {after : Bool} {pick : Nat → Nat × Nat}
    {fmt : Nat → BinFmt} (hperm : ∀ {l l' out}, l.Perm l' → R l' out → R l out) (hone : ∀ x, R [x] ⟨x, 0⟩)
    (hadd : ∀ step x y rest out, R ((fp32Adder (fmt step) rm after x y).val :: rest) out →
      R (x :: y :: rest) ⟨out.val, (fp32Adder (fmt step) rm after x y).flags ||| out.flags⟩)
    {fuel : Nat} (step : Nat) {terms : List FpVal} (hne : terms ≠ []) (hfuel : terms.length ≤ fuel + 1) :
    R terms (fp32Tree rm after pick fmt fuel step terms) := by
  by_cases hlen : 2 ≤ terms.length
  · induction fuel generalizing step terms with
    | zero => omega
    | succ fuel ih =>
      obtain ⟨left, right, rest, hp, htree⟩ := fp32Tree_succ rm after pick fmt fuel step hlen
      rw [htree]
      refine hperm hp (hadd step left right rest _ ?_)
      have hrest := hp.length_eq
      simp only [List.length_cons] at hrest
      cases rest with
      | nil =>
        unfold fp32Tree
        exact hone _
      | cons z rest => exact ih (step + 1) (by simp) (by simp only [List.length_cons] at hrest ⊢; omega) (by simp)
  · match terms with
    | [] => exact absurd rfl hne
    | [x] =>
      unfold fp32Tree
      exact hone x
    | _ :: _ :: _ => simp at hlen

/-- The flags of a list of outcomes. -/
theorem getLsbD_foldl_or (l : List FpOut) (init : FpFlags) (i : Nat) :
    (l.foldl (fun f p => f ||| p.flags) init).getLsbD i = (init.getLsbD i || l.any fun p => p.flags.getLsbD i) := by
  induction l generalizing init with
  | nil => simp
  | cons p rest ih => rw [List.foldl_cons, ih, BitVec.getLsbD_or, List.any_cons, Bool.or_assoc]

end Sys2Proof.Machine
end

section
/-! SUPPORT. `FP32_DOT` on NaNs, on zero times infinity and on opposite infinities (41_zvbdot_batched.md R173 (c)). -/

namespace Sys2Proof.Machine

/-! ## Products -/

/-- A NaN factor gives a NaN product. -/
theorem fp32Product_of_isNaN (rm : RoundingMode) (after keep : Bool) {a b : BitVec 32} (h : fp32IsNaN a ∨ fp32IsNaN b) :
    fp32Product rm after keep a b = ⟨.nan, (fp32Decode a).flags ||| (fp32Decode b).flags⟩ := by
  have hmul : fpMul (fp32Decode a).val (fp32Decode b).val = ⟨.nan, 0⟩ := by
    rcases h with h | h
    · rw [fp32Decode_val_of_isNaN h]
      rfl
    · rw [fp32Decode_val_of_isNaN h, fpMul_nan_right]
  rw [fp32Product_of_round hmul rfl]
  exact congrArg _ BitVec.or_zero

/-- An infinity times a zero is a NaN and invalid. -/
theorem fp32Product_of_zeroTimesInf (rm : RoundingMode) (after keep : Bool) {ab : BitVec 32 × BitVec 32}
    (h : fp32ZeroTimesInf ab) : fp32Product rm after keep ab.1 ab.2 = ⟨.nan, flagNV⟩ := by
  obtain ⟨hmul, ha, hb⟩ : fpMul (fp32Decode ab.1).val (fp32Decode ab.2).val = ⟨.nan, flagNV⟩
      ∧ (fp32Decode ab.1).flags = 0 ∧ (fp32Decode ab.2).flags = 0 := by
    rcases h with ⟨hinf, hzero⟩ | ⟨hzero, hinf⟩
    · rw [fp32Decode_of_isInf hinf, fp32Decode_of_finite hzero.finite, (fp32Sig_eq_zero_iff _).2 hzero]
      exact ⟨rfl, rfl, rfl⟩
    · rw [fp32Decode_of_isInf hinf, fp32Decode_of_finite hzero.finite, (fp32Sig_eq_zero_iff _).2 hzero]
      exact ⟨rfl, rfl, rfl⟩
  rw [fp32Product_of_round hmul rfl, ha, hb]
  rfl

/-- An infinity times anything else but a NaN is an infinity of the sign of the product. -/
theorem fp32Product_of_isInf (rm : RoundingMode) (after keep : Bool) {ab : BitVec 32 × BitVec 32}
    (h : fp32IsInf ab.1 ∨ fp32IsInf ab.2) (ha : ¬fp32IsNaN ab.1) (hb : ¬fp32IsNaN ab.2) (hzero : ¬fp32ZeroTimesInf ab) :
    (fp32Product rm after keep ab.1 ab.2).val = .inf (ab.1.msb ^^ ab.2.msb) := by
  have hmul : fpMul (fp32Decode ab.1).val (fp32Decode ab.2).val = ⟨.inf (ab.1.msb ^^ ab.2.msb), 0⟩ := by
    by_cases h1 : fp32IsInf ab.1
    · rw [fp32Decode_of_isInf h1]
      rcases (fp32_cases ab.2).resolve_left hb with h2 | h2
      · rw [fp32Decode_of_isInf h2]
        rfl
      · rw [fp32Decode_of_finite h2]
        exact if_neg fun hc => hzero (.inl ⟨h1, (fp32Sig_eq_zero_iff _).1 hc⟩)
    · have h2 := h.resolve_left h1
      rw [fp32Decode_of_isInf h2, fp32Decode_of_finite (((fp32_cases ab.1).resolve_left ha).resolve_left h1)]
      exact if_neg fun hc => hzero (.inr ⟨(fp32Sig_eq_zero_iff _).1 hc, h2⟩)
  rw [fp32Product_of_round hmul rfl]

theorem roundTo_fin_ne_nan (f : BinFmt) (rm : RoundingMode) (after sign : Bool) (mant : Nat) (exp : Int) :
    (roundTo f rm after (.fin sign mant exp)).val ≠ .nan := by
  unfold roundTo
  dsimp only
  split_ifs <;> simp

/-- Nothing else gives a NaN product. -/
theorem fp32Product_ne_nan (rm : RoundingMode) (after keep : Bool) {ab : BitVec 32 × BitVec 32} (ha : ¬fp32IsNaN ab.1)
    (hb : ¬fp32IsNaN ab.2) (hzero : ¬fp32ZeroTimesInf ab) : (fp32Product rm after keep ab.1 ab.2).val ≠ .nan := by
  by_cases hinf : fp32IsInf ab.1 ∨ fp32IsInf ab.2
  · rw [fp32Product_of_isInf rm after keep hinf ha hb hzero]
    nofun
  · rw [not_or] at hinf
    have h1 := ((fp32_cases ab.1).resolve_left ha).resolve_left hinf.1
    have h2 := ((fp32_cases ab.2).resolve_left hb).resolve_left hinf.2
    simp only [fp32Product, fp32Decode_of_finite h1, fp32Decode_of_finite h2, fpMul]
    cases keep with
    | true => simp
    | false => simpa using roundTo_fin_ne_nan _ _ _ _ _ _

/-! ## Adders -/

/-- An adder whose exact sum is a NaN or an infinity. -/
theorem fp32Adder_of_round {f : BinFmt} {rm : RoundingMode} {after : Bool} {x y v : FpVal} {flags : FpFlags}
    (hadd : fpAdd rm x y = ⟨v, flags⟩) (hround : roundTo f rm after v = ⟨v, 0⟩) :
    fp32Adder f rm after x y = ⟨v, flags⟩ := by
  simp only [fp32Adder, hadd, hround]
  simp

theorem fp32Adder_nan_left (f : BinFmt) (rm : RoundingMode) (after : Bool) (y : FpVal) :
    fp32Adder f rm after .nan y = ⟨.nan, 0⟩ := fp32Adder_of_round rfl rfl

theorem fp32Adder_nan_right (f : BinFmt) (rm : RoundingMode) (after : Bool) (x : FpVal) :
    fp32Adder f rm after x .nan = ⟨.nan, 0⟩ := fp32Adder_of_round (by cases x <;> rfl) rfl

theorem fp32Adder_inf_same (f : BinFmt) (rm : RoundingMode) (after sign : Bool) :
    fp32Adder f rm after (.inf sign) (.inf sign) = ⟨.inf sign, 0⟩ := fp32Adder_of_round (if_pos rfl) rfl

theorem fp32Adder_inf_opposite (f : BinFmt) (rm : RoundingMode) (after : Bool) {s₁ s₂ : Bool} (h : s₁ ≠ s₂) :
    fp32Adder f rm after (.inf s₁) (.inf s₂) = ⟨.nan, flagNV⟩ := fp32Adder_of_round (if_neg h) rfl

theorem fp32Adder_inf_fin (f : BinFmt) (rm : RoundingMode) (after s₁ s₂ : Bool) (m : Nat) (e : Int) :
    fp32Adder f rm after (.inf s₁) (.fin s₂ m e) = ⟨.inf s₁, 0⟩ := fp32Adder_of_round rfl rfl

theorem fp32Adder_fin_inf (f : BinFmt) (rm : RoundingMode) (after s₁ s₂ : Bool) (m : Nat) (e : Int) :
    fp32Adder f rm after (.fin s₁ m e) (.inf s₂) = ⟨.inf s₂, 0⟩ := fp32Adder_of_round rfl rfl

theorem fp32Adder_fin_ne_nan (f : BinFmt) (rm : RoundingMode) (after s₁ s₂ : Bool) (m₁ m₂ : Nat) (e₁ e₂ : Int) :
    (fp32Adder f rm after (.fin s₁ m₁ e₁) (.fin s₂ m₂ e₂)).val ≠ .nan := by
  obtain ⟨s, m, e, hadd, -⟩ := fpAdd_fin rm s₁ s₂ m₁ m₂ e₁ e₂
  simp only [fp32Adder, hadd]
  exact roundTo_fin_ne_nan f rm after s m e

/-! ## The sum -/

/-- A list of terms whose sum is a NaN: one of them is, or there are infinities of both signs. -/
def InvalidTerms (l : List FpVal) : Prop := .nan ∈ l ∨ (.inf true ∈ l ∧ .inf false ∈ l)

/-- Two terms that are not opposite infinities keep the terms invalid when they are replaced by their sum, and give a NaN only from
a NaN; opposite infinities raise NV. -/
theorem InvalidTerms.add (f : BinFmt) (rm : RoundingMode) (after : Bool) {x y : FpVal} {rest : List FpVal}
    (h : InvalidTerms (x :: y :: rest)) :
    InvalidTerms ((fp32Adder f rm after x y).val :: rest)
      ∧ (.nan ∉ x :: y :: rest →
        (fp32Adder f rm after x y).flags = flagNV ∨ .nan ∉ (fp32Adder f rm after x y).val :: rest) := by
  unfold InvalidTerms at h ⊢
  cases x with
  | nan => simp [fp32Adder_nan_left]
  | inf s₁ =>
    cases y with
    | nan => simp [fp32Adder_nan_right]
    | inf s₂ =>
      by_cases hs : s₁ = s₂
      · subst hs
        rw [fp32Adder_inf_same]
        exact ⟨by simpa using h, fun hn => .inr (by simpa using hn)⟩
      · simp [fp32Adder_inf_opposite f rm after hs]
    | fin s₂ m₂ e₂ =>
      rw [fp32Adder_inf_fin]
      exact ⟨by simpa using h, fun hn => .inr (by simpa using hn)⟩
  | fin s₁ m₁ e₁ =>
    cases y with
    | nan => simp [fp32Adder_nan_right]
    | inf s₂ =>
      rw [fp32Adder_fin_inf]
      exact ⟨by simpa using h, fun hn => .inr (by simpa using hn)⟩
    | fin s₂ m₂ e₂ =>
      have hne := (fp32Adder_fin_ne_nan f rm after s₁ s₂ m₁ m₂ e₁ e₂).symm
      simp only [List.mem_cons, reduceCtorEq, false_or] at h ⊢
      exact ⟨h.imp .inr (And.imp .inr .inr), fun hn => .inr (not_or.2 ⟨hne, hn⟩)⟩

/-- The sum of invalid terms is a NaN, and invalid unless one of them is a NaN, whatever the tree. -/
theorem fp32Tree_of_invalid (rm : RoundingMode) (after : Bool) (pick : Nat → Nat × Nat) (fmt : Nat → BinFmt)
    {fuel : Nat} (step : Nat) {terms : List FpVal} (hfuel : terms.length ≤ fuel + 1) (h : InvalidTerms terms) :
    (fp32Tree rm after pick fmt fuel step terms).val = .nan
      ∧ (.nan ∉ terms → (fp32Tree rm after pick fmt fuel step terms).flags.getLsbD 4 = true) := by
  have hne : terms ≠ [] := by
    rintro rfl
    simp [InvalidTerms] at h
  refine fp32Tree_rule (R := fun l out => InvalidTerms l → out.val = .nan ∧ (.nan ∉ l → out.flags.getLsbD 4 = true))
    (fun hp hR hl => ?_) (fun x hx => ?_) (fun step x y rest out hR hl => ?_) step hne hfuel h
  · simp only [InvalidTerms, hp.mem_iff] at hl ⊢
    exact hR hl
  · simp only [InvalidTerms, List.mem_singleton] at hx
    have hnan : x = .nan := (hx.resolve_right fun ⟨h1, h2⟩ => by rw [← h1] at h2; cases h2).symm
    exact ⟨hnan, fun hn => absurd (by simp [hnan]) hn⟩
  · obtain ⟨hinvalid, hflag⟩ := hl.add (fmt step) rm after
    obtain ⟨hval, hnv⟩ := hR hinvalid
    refine ⟨hval, fun hn => ?_⟩
    rw [BitVec.getLsbD_or]
    rcases hflag hn with hf | hn'
    · rw [hf]
      rfl
    · rw [hnv hn', Bool.or_true]

/-! ## The dot product -/

/-- The terms of the sum: the products, then the accumulator. -/
def fp32DotTerms (ch : Fp32Choices) (rm : RoundingMode) (frm : BitVec 3) (vlmax vl : Nat) (A B : List (BitVec 32))
    (C : BitVec 32) : List FpVal :=
  (fp32Products rm ch.tininessAfterRounding (ch.keepExact A B C frm vlmax vl) 0 A B).map (·.val) ++ [(fp32Decode C).val]

/-- The sum of the terms by the tree that an implementation chooses. -/
def fp32DotRoot (ch : Fp32Choices) (rm : RoundingMode) (frm : BitVec 3) (vlmax vl : Nat) (A B : List (BitVec 32))
    (C : BitVec 32) : FpOut :=
  fp32Tree rm ch.tininessAfterRounding (ch.pick vlmax vl)
    (fun step => ⟨24 + ch.extraPrecision vlmax vl step, 8 + ch.extraExponent vlmax vl step⟩)
    (fp32DotTerms ch rm frm vlmax vl A B C).length 0 (fp32DotTerms ch rm frm vlmax vl A B C)

theorem fp32Dot_eq (ch : Fp32Choices) (rm : RoundingMode) (frm : BitVec 3) (vlmax vl : Nat) (A B : List (BitVec 32))
    (C : BitVec 32) :
    fp32Dot ch rm frm vlmax vl A B C =
      let root := fp32DotRoot ch rm frm vlmax vl A B C
      let r := roundTo binFp32 rm ch.tininessAfterRounding root.val
      ⟨fp32Encode r.val,
        (fp32Products rm ch.tininessAfterRounding (ch.keepExact A B C frm vlmax vl) 0 A B).foldl (fun f p => f ||| p.flags) 0
          ||| (fp32Decode C).flags ||| root.flags ||| r.flags⟩ := rfl

theorem fp32Dot_bits (ch : Fp32Choices) (rm : RoundingMode) (frm : BitVec 3) (vlmax vl : Nat) (A B : List (BitVec 32))
    (C : BitVec 32) :
    (fp32Dot ch rm frm vlmax vl A B C).bits
      = fp32Encode (roundTo binFp32 rm ch.tininessAfterRounding (fp32DotRoot ch rm frm vlmax vl A B C).val).val := rfl

section Special

variable (ch : Fp32Choices) (rm : RoundingMode) (frm : BitVec 3) (vlmax vl : Nat) {L : List (BitVec 32 × BitVec 32)}
  {C : BitVec 32}

/-- The product of a pair of factors is a term. -/
theorem exists_mem_fp32DotTerms {ab : BitVec 32 × BitVec 32} (h : ab ∈ L) :
    ∃ exact, (fp32Product rm ch.tininessAfterRounding exact ab.1 ab.2).val
      ∈ fp32DotTerms ch rm frm vlmax vl (L.map Prod.fst) (L.map Prod.snd) C := by
  obtain ⟨exact, hmem⟩ := exists_mem_fp32Products (rm := rm) (after := ch.tininessAfterRounding)
    (keep := ch.keepExact (L.map Prod.fst) (L.map Prod.snd) C frm vlmax vl) (k := 0) h
  exact ⟨exact, List.mem_append_left _ (List.mem_map_of_mem hmem)⟩

theorem accumulator_mem_fp32DotTerms (A B : List (BitVec 32)) :
    (fp32Decode C).val ∈ fp32DotTerms ch rm frm vlmax vl A B C := by
  simp [fp32DotTerms]

/-- An infinite operand gives an infinite term. -/
theorem inf_mem_fp32DotTerms {sign : Bool} (h : fp32InfTerm L C sign) :
    .inf sign ∈ fp32DotTerms ch rm frm vlmax vl (L.map Prod.fst) (L.map Prod.snd) C := by
  rcases h with ⟨hinf, rfl⟩ | ⟨ab, hab, hinf, ha, hb, hzero, rfl⟩
  · have hacc := accumulator_mem_fp32DotTerms ch rm frm vlmax vl (L.map Prod.fst) (L.map Prod.snd) (C := C)
    rwa [fp32Decode_of_isInf hinf] at hacc
  · obtain ⟨exact, hmem⟩ := exists_mem_fp32DotTerms ch rm frm vlmax vl (C := C) hab
    rwa [fp32Product_of_isInf rm _ exact hinf ha hb hzero] at hmem

/-- A NaN operand, a zero times an infinity, or infinities of both signs make the terms invalid. -/
theorem invalidTerms_fp32DotTerms (h : (fp32IsNaN C ∨ ∃ ab ∈ L, fp32IsNaN ab.1 ∨ fp32IsNaN ab.2)
    ∨ (∃ ab ∈ L, fp32ZeroTimesInf ab) ∨ (fp32InfTerm L C true ∧ fp32InfTerm L C false)) :
    InvalidTerms (fp32DotTerms ch rm frm vlmax vl (L.map Prod.fst) (L.map Prod.snd) C) := by
  rcases h with (hC | ⟨ab, hab, hnan⟩) | ⟨ab, hab, hzero⟩ | ⟨hneg, hpos⟩
  · have hacc := accumulator_mem_fp32DotTerms ch rm frm vlmax vl (L.map Prod.fst) (L.map Prod.snd) (C := C)
    rw [fp32Decode_val_of_isNaN hC] at hacc
    exact .inl hacc
  · obtain ⟨exact, hmem⟩ := exists_mem_fp32DotTerms ch rm frm vlmax vl (C := C) hab
    rw [fp32Product_of_isNaN rm _ exact hnan] at hmem
    exact .inl hmem
  · obtain ⟨exact, hmem⟩ := exists_mem_fp32DotTerms ch rm frm vlmax vl (C := C) hab
    rw [fp32Product_of_zeroTimesInf rm _ exact hzero] at hmem
    exact .inl hmem
  · exact .inr ⟨inf_mem_fp32DotTerms ch rm frm vlmax vl hneg, inf_mem_fp32DotTerms ch rm frm vlmax vl hpos⟩

/-- Without a NaN operand or a zero times an infinity no term is a NaN. -/
theorem nan_notMem_fp32DotTerms (hC : ¬fp32IsNaN C) (hL : ∀ ab ∈ L, ¬fp32IsNaN ab.1 ∧ ¬fp32IsNaN ab.2)
    (hzero : ∀ ab ∈ L, ¬fp32ZeroTimesInf ab) :
    .nan ∉ fp32DotTerms ch rm frm vlmax vl (L.map Prod.fst) (L.map Prod.snd) C := by
  intro hmem
  rcases List.mem_append.1 hmem with hprod | hacc
  · obtain ⟨p, hp, hnan⟩ := List.mem_map.1 hprod
    obtain ⟨ab, hab, exact, rfl⟩ := of_mem_fp32Products hp
    exact fp32Product_ne_nan rm _ exact (hL ab hab).1 (hL ab hab).2 (hzero ab hab) hnan
  · have hval := (List.mem_singleton.1 hacc).symm
    rcases (fp32_cases C).resolve_left hC with hinf | hfin
    · rw [fp32Decode_of_isInf hinf] at hval
      cases hval
    · rw [fp32Decode_of_finite hfin] at hval
      cases hval

/-- Each part of the dot product accrues its flags: a product, the accumulator and the sum. -/
theorem fp32Dot_flag (i : Nat) (A B : List (BitVec 32))
    (h : (∃ p ∈ fp32Products rm ch.tininessAfterRounding (ch.keepExact A B C frm vlmax vl) 0 A B, p.flags.getLsbD i = true)
      ∨ (fp32Decode C).flags.getLsbD i = true ∨ (fp32DotRoot ch rm frm vlmax vl A B C).flags.getLsbD i = true) :
    (fp32Dot ch rm frm vlmax vl A B C).flags.getLsbD i = true := by
  rw [fp32Dot_eq]
  simp only [BitVec.getLsbD_or, getLsbD_foldl_or, Bool.or_eq_true, List.any_eq_true]
  rcases h with h | h | h
  · exact .inl (.inl (.inl (.inr h)))
  · exact .inl (.inl (.inr h))
  · exact .inl (.inr h)

/-- A product's flags accrue. -/
theorem fp32Dot_flag_of_product (i : Nat) {ab : BitVec 32 × BitVec 32} (hab : ab ∈ L)
    (h : ∀ exact, (fp32Product rm ch.tininessAfterRounding exact ab.1 ab.2).flags.getLsbD i = true) :
    (fp32Dot ch rm frm vlmax vl (L.map Prod.fst) (L.map Prod.snd) C).flags.getLsbD i = true := by
  obtain ⟨exact, hmem⟩ := exists_mem_fp32Products (rm := rm) (after := ch.tininessAfterRounding)
    (keep := ch.keepExact (L.map Prod.fst) (L.map Prod.snd) C frm vlmax vl) (k := 0) hab
  exact fp32Dot_flag ch rm frm vlmax vl i _ _ (.inl ⟨_, hmem, h exact⟩)

end Special

/-- Settles O55: such operands make the terms invalid; NV comes from the operand, from the product, or, where no term is a NaN, from
the sum. -/
theorem fp32NaNResults : Obligations.Fp32NaNResults := by
  intro ch rm frm vlmax vl L C
  have htree (h : InvalidTerms (fp32DotTerms ch rm frm vlmax vl (L.map Prod.fst) (L.map Prod.snd) C)) :=
    fp32Tree_of_invalid rm ch.tininessAfterRounding (ch.pick vlmax vl)
      (fun step => ⟨24 + ch.extraPrecision vlmax vl step, 8 + ch.extraExponent vlmax vl step⟩) 0 (Nat.le_succ _) h
  have hzeroInf (ab) (hab : ab ∈ L) (hz : fp32ZeroTimesInf ab) :
      (fp32Dot ch rm frm vlmax vl (L.map Prod.fst) (L.map Prod.snd) C).flags.getLsbD 4 = true :=
    fp32Dot_flag_of_product ch rm frm vlmax vl 4 hab fun exact => by
      rw [fp32Product_of_zeroTimesInf rm _ exact hz]
      rfl
  refine ⟨fun h => ?_, fun h => ?_⟩
  · have hroot : (fp32DotRoot ch rm frm vlmax vl (L.map Prod.fst) (L.map Prod.snd) C).val = .nan :=
      (htree (invalidTerms_fp32DotTerms ch rm frm vlmax vl h)).1
    rw [fp32Dot_bits, hroot]
    rfl
  · rcases h with hC | ⟨ab, hab, hs⟩ | ⟨ab, hab, hz⟩ | ⟨hopposite, hnan⟩
    · refine fp32Dot_flag ch rm frm vlmax vl 4 _ _ (.inr (.inl ?_))
      rw [fp32Decode_flags_of_isSNaN hC]
      rfl
    · refine fp32Dot_flag_of_product ch rm frm vlmax vl 4 hab fun exact => ?_
      rw [fp32Product_of_isNaN rm _ exact (hs.imp And.left And.left), BitVec.getLsbD_or, Bool.or_eq_true]
      refine hs.imp (fun h => ?_) fun h => ?_
      · rw [fp32Decode_flags_of_isSNaN h]
        rfl
      · rw [fp32Decode_flags_of_isSNaN h]
        rfl
    · exact hzeroInf ab hab hz
    · by_cases hz : ∃ ab ∈ L, fp32ZeroTimesInf ab
      · obtain ⟨ab, hab, hz⟩ := hz
        exact hzeroInf ab hab hz
      · have hno : .nan ∉ fp32DotTerms ch rm frm vlmax vl (L.map Prod.fst) (L.map Prod.snd) C :=
          nan_notMem_fp32DotTerms ch rm frm vlmax vl (fun hC => hnan (.inl hC))
            (fun ab hab => not_or.1 fun hc => hnan (.inr ⟨ab, hab, hc⟩)) fun ab hab hc => hz ⟨ab, hab, hc⟩
        have hinvalid := invalidTerms_fp32DotTerms ch rm frm vlmax vl (L := L) (C := C) (.inr (.inr hopposite))
        exact fp32Dot_flag ch rm frm vlmax vl 4 _ _ (.inr (.inr ((htree hinvalid).2 hno)))

end Sys2Proof.Machine
end

section
/-! SUPPORT. `FP32_DOT` where every partial sum is a number of FP32 (41_zvbdot_batched.md R173 (b)): every product, every adder and
the final rounding are exact, whatever an implementation chooses. -/

namespace Sys2Proof.Machine

/-! ## The numbers of FP32 -/

/-- A pattern as a sign, a significand and an exponent. -/
theorem fp32Rat_eq (w : BitVec 32) : fp32Rat w = finRat w.msb (fp32Sig w) (fp32LastExp w) := by
  rw [← decodeAddend_sign]
  rfl

/-- The significand and the exponent of a finite pattern: a normal number with its leading bit, or a subnormal one
(42_bulk_normalization.md R181). -/
theorem fp32Sig_spec {w : BitVec 32} (h : fp32Finite w) :
    fp32Sig w < 2 ^ 24 ∧ -149 ≤ fp32LastExp w ∧ fp32LastExp w ≤ 104
      ∧ ((2 ^ 23 ≤ fp32Sig w ∧ (fp32Exp w : Int) = fp32LastExp w + 150 ∧ fp32Mant w = fp32Sig w % 2 ^ 23)
        ∨ (fp32Sig w < 2 ^ 23 ∧ fp32LastExp w = -149 ∧ fp32Exp w = 0 ∧ fp32Mant w = fp32Sig w)) := by
  have hexp := fp32Exp_lt w
  have hne : fp32Exp w ≠ 255 := h
  have hmant := fp32Mant_lt w
  rw [fp32Sig, fp32LastExp, decodeAddend_sig, decodeAddend_ref]
  split_ifs with h0
  · omega
  · omega

/-- A value of FP32 is a number of every format at least as wide. -/
theorem inFp32.onGrid {q : ℚ} (h : inFp32 q) {prec : Nat} {low : Int} (hprec : 24 ≤ prec) (hlow : low ≤ -149) :
    onGrid prec (some low) false q := by
  obtain ⟨w, hfinite, rfl⟩ := h
  obtain ⟨hlt, hlast, -⟩ := fp32Sig_spec hfinite
  have hgrid : Machine.onGrid prec (some low) false ((fp32Sig w : ℚ) * 2 ^ fp32LastExp w) :=
    onGrid_natCast (hlt.trans_le (Nat.pow_le_pow_right (by norm_num) hprec)) (by simpa using hlow.trans hlast) nofun
  rw [fp32Rat_eq]
  cases w.msb
  · rwa [finRat_false]
  · rw [finRat_true, finRat_false]
    exact hgrid.neg

theorem inFp32.abs_lt {q : ℚ} (h : inFp32 q) : |q| < 2 ^ (128 : Int) := by
  obtain ⟨w, hfinite, rfl⟩ := h
  obtain ⟨hlt, -, hlast, -⟩ := fp32Sig_spec hfinite
  rw [fp32Rat_eq, abs_finRat]
  calc (fp32Sig w : ℚ) * 2 ^ fp32LastExp w < 2 ^ 24 * 2 ^ fp32LastExp w :=
        mul_lt_mul_of_pos_right (by exact_mod_cast hlt) (by positivity)
    _ ≤ 2 ^ 24 * 2 ^ (104 : Int) :=
        mul_le_mul_of_nonneg_left (zpow_le_zpow_right₀ one_le_two hlast) (by positivity)
    _ = 2 ^ (128 : Int) := by norm_num

/-! ## Rounding -/

/-- Rounding a value of FP32 to a format at least as wide is exact and raises no flag. -/
theorem roundTo_of_inFp32 {f : BinFmt} (rm : RoundingMode) (after : Bool) {sign : Bool} {mant : Nat} {exp : Int}
    (hprec : 24 ≤ f.prec) (hexp : 8 ≤ f.expBits) (h : inFp32 (finRat sign mant exp)) :
    ∃ m e, roundTo f rm after (.fin sign mant exp) = ⟨.fin sign m e, 0⟩ ∧ finRat sign m e = finRat sign mant exp := by
  obtain ⟨hzero, -, -, hround⟩ := roundedArithmetic.2 f rm after sign mant exp (by omega) (by omega)
  by_cases hmant : mant = 0
  · exact ⟨0, 0, hzero hmant, by simp [finRat, hmant]⟩
  · have hemax : (2 : Int) ^ 7 ≤ 2 ^ (f.expBits - 1) := pow_le_pow_right₀ (by norm_num) (by omega)
    have hv : finRat sign mant exp ≠ 0 := by
      rw [← abs_ne_zero, abs_finRat]
      positivity
    obtain ⟨r, hr, -, hbelow⟩ := hround hmant
    have hrv : r = finRat sign mant exp :=
      roundedAs_unique (by omega) hv hr (roundedAs_self rm (h.onGrid hprec (by norm_num at hemax ⊢; omega)))
    subst hrv
    obtain ⟨⟨m, e, hval, hme⟩, hflags, -⟩ := hbelow
      (h.abs_lt.trans_le (zpow_le_zpow_right₀ one_le_two (by norm_num at hemax ⊢; omega)))
    refine ⟨m, e, ?_, hme⟩
    rw [← hval, ← hflags.2 rfl]

/-! ## Encoding -/

/-- Equal values have equal leading weights. -/
theorem bitLength_add_eq {m n : Nat} {e k : Int} (hm : m ≠ 0) (hn : n ≠ 0) (h : (m : ℚ) * 2 ^ e = n * 2 ^ k) :
    e + bitLength m = k + bitLength n := by
  have h1 := (two_pow_le_iff hm e (k + bitLength n - 1)).1 (h ▸ (two_pow_le_iff hn k _).2 le_rfl)
  have h2 := (two_pow_le_iff hn k (e + bitLength m - 1)).1 (h ▸ (two_pow_le_iff hm e _).2 le_rfl)
  omega

/-- Shifting a significand to the exponent of another one for the same value gives that one. -/
theorem shiftRto_eq {m n : Nat} {e k : Int} (h : (m : ℚ) * 2 ^ e = n * 2 ^ k) : shiftRto m (k - e) = n := by
  rcases le_total k e with hle | hle
  · rw [← natCast_shift hle, mul_left_inj' (by positivity), Nat.cast_inj] at h
    rw [show k - e = -((e - k).toNat : Int) by omega, shiftRto_neg, h]
  · rw [← natCast_shift hle, mul_left_inj' (by positivity), Nat.cast_inj] at h
    rw [h, show k - e = ((k - e).toNat : Int) by omega, Int.toNat_natCast, shiftRto_mul_two_pow]

/-- A value equal to a non-zero pattern's is encoded as that pattern. -/
theorem fp32Encode_eq {w : BitVec 32} (hfinite : fp32Finite w) {mant : Nat} {exp : Int} (hmant : mant ≠ 0)
    (h : (mant : ℚ) * 2 ^ exp = fp32Sig w * 2 ^ fp32LastExp w) : fp32Encode (.fin w.msb mant exp) = w := by
  have hsig : fp32Sig w ≠ 0 := by
    intro hc
    rw [hc, Nat.cast_zero, zero_mul] at h
    exact absurd h (by positivity)
  have hlen := bitLength_add_eq hmant hsig h
  have hw : BitVec.ofNat 32 (fp32Acc.assemble w.msb (fp32Exp w) (fp32Mant w)) = w := by
    rw [fp32_assemble, BitVec.ofNat_toNat, BitVec.setWidth_eq]
  obtain ⟨hlt, hlow, -, ⟨hnormal, hE, hM⟩ | ⟨hsub, hlast, hE, hM⟩⟩ := fp32Sig_spec hfinite
  · have hlen24 : bitLength (fp32Sig w) = 24 := bitLength_eq hnormal hlt
    have hshift : exp + bitLength mant - 1 - 23 - exp = fp32LastExp w - exp := by omega
    have hbiased : (exp + bitLength mant - 1 + 127).toNat = fp32Exp w := by omega
    simp only [fp32Encode]
    rw [if_neg hmant, if_neg (by omega), hshift, shiftRto_eq h, hbiased, ← hM, hw]
  · have hlen23 : bitLength (fp32Sig w) ≤ 23 := bitLength_le hsub
    simp only [fp32Encode]
    rw [if_neg hmant, if_pos (by omega), ← hlast, shiftRto_eq h, ← hM, ← hE, hw]

theorem finRat_neg_iff (s : Bool) {m : Nat} (hm : m ≠ 0) (e : Int) : finRat s m e < 0 ↔ s = true := by
  have hpos : (0 : ℚ) < m * 2 ^ e := by positivity
  cases s
  · simpa [finRat_false] using hpos.le
  · simpa [finRat_true, finRat_false] using hpos

/-- Finite values that are equal and not zero have one sign and one magnitude. -/
theorem finRat_inj {s s' : Bool} {m m' : Nat} {e e' : Int} (hm : m ≠ 0) (h : finRat s m e = finRat s' m' e') :
    s = s' ∧ (m : ℚ) * 2 ^ e = m' * 2 ^ e' := by
  have habs : (m : ℚ) * 2 ^ e = m' * 2 ^ e' := by rw [← abs_finRat s, ← abs_finRat s', h]
  have hm' : m' ≠ 0 := by
    rintro rfl
    rw [Nat.cast_zero, zero_mul] at habs
    exact absurd habs (by positivity)
  refine ⟨Bool.eq_iff_iff.2 ?_, habs⟩
  rw [← finRat_neg_iff s hm e, h, finRat_neg_iff s' hm']

/-- Encoding a value of FP32 gives a finite pattern of that value. -/
theorem fp32Encode_of_inFp32 {sign : Bool} {mant : Nat} {exp : Int} (h : inFp32 (finRat sign mant exp)) :
    fp32Finite (fp32Encode (.fin sign mant exp)) ∧ fp32Rat (fp32Encode (.fin sign mant exp)) = finRat sign mant exp := by
  by_cases hmant : mant = 0
  · have hcode : fp32Encode (.fin sign mant exp) = BitVec.ofNat 32 (fp32Acc.assemble sign 0 0) := if_pos hmant
    obtain ⟨-, hexp, hm⟩ := fp32_ofNat_assemble sign (exp := 0) (mant := 0) (by norm_num) (by norm_num)
    have hzero : fp32IsZero (BitVec.ofNat 32 (fp32Acc.assemble sign 0 0)) := (fp32IsZero_iff _).2 ⟨hexp, hm⟩
    rw [hcode, fp32Rat_eq, (fp32Sig_eq_zero_iff _).2 hzero, hmant]
    exact ⟨hzero.finite, by simp [finRat]⟩
  · obtain ⟨w, hfinite, hw⟩ := h
    obtain ⟨rfl, hmag⟩ := finRat_inj hmant (hw.symm.trans (fp32Rat_eq w))
    rw [fp32Encode_eq hfinite hmant hmag]
    exact ⟨hfinite, hw⟩

/-! ## Exact terms -/

/-- The value is finite and stands for the rational. -/
def FpVal.Is (x : FpVal) (q : ℚ) : Prop := ∃ s m e, x = .fin s m e ∧ finRat s m e = q

/-- Rounding a finite value of FP32 to a format at least as wide. -/
theorem FpVal.Is.roundTo {x : FpVal} {q : ℚ} (hx : x.Is q) (hq : inFp32 q) {f : BinFmt} (hprec : 24 ≤ f.prec)
    (hexp : 8 ≤ f.expBits) (rm : RoundingMode) (after : Bool) :
    (Machine.roundTo f rm after x).val.Is q ∧ (Machine.roundTo f rm after x).flags = 0 := by
  obtain ⟨s, m, e, rfl, rfl⟩ := hx
  obtain ⟨m', e', hround, hval⟩ := roundTo_of_inFp32 rm after hprec hexp hq
  rw [hround]
  exact ⟨⟨s, m', e', rfl, hval⟩, rfl⟩

theorem FpVal.Is.encode {x : FpVal} {q : ℚ} (hx : x.Is q) (hq : inFp32 q) :
    fp32Finite (fp32Encode x) ∧ fp32Rat (fp32Encode x) = q := by
  obtain ⟨s, m, e, rfl, rfl⟩ := hx
  exact fp32Encode_of_inFp32 hq

/-- A finite operand. -/
theorem fp32Decode_is {w : BitVec 32} (h : fp32Finite w) : (fp32Decode w).val.Is (fp32Rat w) ∧ (fp32Decode w).flags = 0 := by
  rw [fp32Decode_of_finite h, fp32Rat_eq]
  exact ⟨⟨_, _, _, rfl, rfl⟩, rfl⟩

/-- A product of finite operands that FP32 holds is exact, rounded or not. -/
theorem fp32Product_is (rm : RoundingMode) (after keep : Bool) {a b : BitVec 32} (ha : fp32Finite a) (hb : fp32Finite b)
    (h : inFp32 (fp32Rat a * fp32Rat b)) :
    (fp32Product rm after keep a b).val.Is (fp32Rat a * fp32Rat b) ∧ (fp32Product rm after keep a b).flags = 0 := by
  have hmul : (FpVal.fin (a.msb ^^ b.msb) (fp32Sig a * fp32Sig b) (fp32LastExp a + fp32LastExp b)).Is
      (fp32Rat a * fp32Rat b) := ⟨_, _, _, rfl, by rw [finRat_mul, fp32Rat_eq, fp32Rat_eq]⟩
  simp only [fp32Product, fp32Decode_of_finite ha, fp32Decode_of_finite hb, fpMul]
  cases keep with
  | true => exact ⟨hmul, by simp⟩
  | false =>
    obtain ⟨hval, hflags⟩ := hmul.roundTo h (f := binFp32) le_rfl le_rfl rm after
    exact ⟨hval, by simp [hflags]⟩

/-- A sum of two finite values that FP32 holds is exact in every adder. -/
theorem fp32Adder_is {f : BinFmt} (rm : RoundingMode) (after : Bool) {x y : FpVal} {p q : ℚ} (hx : x.Is p) (hy : y.Is q)
    (h : inFp32 (p + q)) (hprec : 24 ≤ f.prec) (hexp : 8 ≤ f.expBits) :
    (fp32Adder f rm after x y).val.Is (p + q) ∧ (fp32Adder f rm after x y).flags = 0 := by
  obtain ⟨s₁, m₁, e₁, rfl, rfl⟩ := hx
  obtain ⟨s₂, m₂, e₂, rfl, rfl⟩ := hy
  obtain ⟨s, m, e, hadd, hval⟩ := fpAdd_fin rm s₁ s₂ m₁ m₂ e₁ e₂
  have hsum : (FpVal.fin s m e).Is (finRat s₁ m₁ e₁ + finRat s₂ m₂ e₂) := ⟨s, m, e, rfl, hval⟩
  obtain ⟨hround, hflags⟩ := hsum.roundTo h hprec hexp rm after
  simp only [fp32Adder, hadd]
  exact ⟨hround, by simp [hflags]⟩

/-! ## Partial sums -/

/-- Every sum of a non-empty sub-collection is a number of FP32. -/
def ExactSums (qs : List ℚ) : Prop := ∀ T : List ℚ, T.Subperm qs → T ≠ [] → inFp32 T.sum

theorem ExactSums.of_sublist {qs : List ℚ} (h : ∀ T : List ℚ, T.Sublist qs → T ≠ [] → inFp32 T.sum) : ExactSums qs := by
  rintro T ⟨l, hperm, hsub⟩ hne
  rw [← hperm.sum_eq]
  exact h l hsub fun hl => hne (by simpa [hl] using hperm.length_eq.symm)

theorem ExactSums.perm {qs qs' : List ℚ} (h : ExactSums qs) (hp : qs.Perm qs') : ExactSums qs' :=
  fun T hT => h T (hT.trans hp.symm.subperm)

/-- Replacing two terms by their sum leaves no new partial sum. -/
theorem ExactSums.merge {p q : ℚ} {qs : List ℚ} (h : ExactSums (p :: q :: qs)) : ExactSums ((p + q) :: qs) := by
  refine ExactSums.of_sublist fun T hT hne => ?_
  cases hT with
  | cons _ hsub => exact h T ((hsub.cons q).cons p).subperm hne
  | @cons_cons l _ _ hsub =>
    have hsum := h (p :: q :: l) ((hsub.cons_cons q).cons_cons p).subperm (by simp)
    simpa [add_assoc] using hsum

theorem ExactSums.head_add {p q : ℚ} {qs : List ℚ} (h : ExactSums (p :: q :: qs)) : inFp32 (p + q) := by
  simpa using h [p, q] (((List.nil_sublist qs).cons_cons q).cons_cons p).subperm (by simp)

/-! ## The sum -/

/-- The terms are finite and stand for the rationals, in order. -/
abbrev Terms (l : List FpVal) (qs : List ℚ) : Prop := List.Forall₂ FpVal.Is l qs

/-- The sum of exact terms is exact and raises no flag, whatever the tree. -/
theorem fp32Tree_is (rm : RoundingMode) (after : Bool) (pick : Nat → Nat × Nat) {fmt : Nat → BinFmt}
    (hprec : ∀ step, 24 ≤ (fmt step).prec) (hexp : ∀ step, 8 ≤ (fmt step).expBits) {fuel : Nat} (step : Nat)
    {terms : List FpVal} (hne : terms ≠ []) (hfuel : terms.length ≤ fuel + 1) {qs : List ℚ} (hterms : Terms terms qs)
    (hsums : ExactSums qs) :
    (fp32Tree rm after pick fmt fuel step terms).val.Is qs.sum ∧ (fp32Tree rm after pick fmt fuel step terms).flags = 0 := by
  refine fp32Tree_rule (R := fun l out => ∀ qs, Terms l qs → ExactSums qs → out.val.Is qs.sum ∧ out.flags = 0)
    (fun hp hR qs hl hqs => ?_) (fun x qs hx _ => ?_) (fun step x y rest out hR qs hl hqs => ?_) step hne hfuel qs hterms
    hsums
  · obtain ⟨qs', hl', hp'⟩ := List.perm_comp_forall₂ hp.symm hl
    rw [← hp'.sum_eq]
    exact hR qs' hl' (hqs.perm hp'.symm)
  · obtain ⟨q, ps, hq, hnil, rfl⟩ := List.forall₂_cons_left_iff.1 hx
    rw [List.forall₂_nil_left_iff.1 hnil]
    exact ⟨by simpa using hq, rfl⟩
  · obtain ⟨p, ps, hp, htail, rfl⟩ := List.forall₂_cons_left_iff.1 hl
    obtain ⟨q, qs, hq, hrest, rfl⟩ := List.forall₂_cons_left_iff.1 htail
    obtain ⟨hnode, hflags⟩ := fp32Adder_is rm after hp hq hqs.head_add (hprec step) (hexp step)
    obtain ⟨hval, hout⟩ := hR _ (.cons hnode hrest) hqs.merge
    refine ⟨by simpa [add_assoc] using hval, ?_⟩
    rw [hflags, hout]
    rfl

/-! ## The dot product -/

/-- Products of finite factors that FP32 holds are exact terms. -/
theorem fp32Products_terms (rm : RoundingMode) (after : Bool) (keep : Nat → Bool) (k : Nat) {L : List (BitVec 32 × BitVec 32)}
    (hL : ∀ ab ∈ L, fp32Finite ab.1 ∧ fp32Finite ab.2) (hprod : ∀ ab ∈ L, inFp32 (fp32Rat ab.1 * fp32Rat ab.2)) :
    Terms ((fp32Products rm after keep k (L.map Prod.fst) (L.map Prod.snd)).map (·.val))
      (L.map fun ab => fp32Rat ab.1 * fp32Rat ab.2) := by
  induction L generalizing k with
  | nil => exact .nil
  | cons ab rest ih =>
    have ⟨ha, hb⟩ := hL ab (by simp)
    refine .cons (fp32Product_is rm after (keep k) ha hb (hprod ab (by simp))).1 (ih (k + 1) (fun ab' h => ?_) fun ab' h => ?_)
    · exact hL ab' (List.mem_cons_of_mem _ h)
    · exact hprod ab' (List.mem_cons_of_mem _ h)

/-- Such products raise no flag. -/
theorem fp32Products_flags (rm : RoundingMode) (after : Bool) (keep : Nat → Bool) (k : Nat) {L : List (BitVec 32 × BitVec 32)}
    (hL : ∀ ab ∈ L, fp32Finite ab.1 ∧ fp32Finite ab.2) (hprod : ∀ ab ∈ L, inFp32 (fp32Rat ab.1 * fp32Rat ab.2)) :
    (fp32Products rm after keep k (L.map Prod.fst) (L.map Prod.snd)).foldl (fun f p => f ||| p.flags) 0 = 0 := by
  refine List.foldlRecOn (motive := (· = 0)) _ _ rfl fun f hf p hp => ?_
  obtain ⟨ab, hab, exact, rfl⟩ := of_mem_fp32Products hp
  have ⟨ha, hb⟩ := hL ab hab
  rw [hf, (fp32Product_is rm after exact ha hb (hprod ab hab)).2]
  rfl

/-- Settles O54: exact products and an exact accumulator, an exact sum, and an exact encoding of it. -/
theorem fp32ExactWhereRepresentable : Obligations.Fp32ExactWhereRepresentable := by
  intro ch rm frm vlmax vl L C hC hL hsub
  have hsums := ExactSums.of_sublist hsub
  have htotal : inFp32 (fp32Terms L C).sum := hsub _ (List.Sublist.refl _) (by simp [fp32Terms])
  have hprod : ∀ ab ∈ L, inFp32 (fp32Rat ab.1 * fp32Rat ab.2) := fun ab hab => by
    have hmem : fp32Rat ab.1 * fp32Rat ab.2 ∈ fp32Terms L C := List.mem_cons_of_mem _ (List.mem_map.2 ⟨ab, hab, rfl⟩)
    simpa using hsub [_] (List.singleton_sublist.2 hmem) (by simp)
  have hperm : (fp32Terms L C).Perm ((L.map fun ab => fp32Rat ab.1 * fp32Rat ab.2) ++ [fp32Rat C]) :=
    (List.perm_append_singleton _ _).symm
  have ⟨hacc, haccFlags⟩ := fp32Decode_is hC
  have hterms : Terms (fp32DotTerms ch rm frm vlmax vl (L.map Prod.fst) (L.map Prod.snd) C)
      ((L.map fun ab => fp32Rat ab.1 * fp32Rat ab.2) ++ [fp32Rat C]) :=
    List.rel_append (fp32Products_terms rm _ _ 0 hL hprod) (.cons hacc .nil)
  obtain ⟨hroot, hrootFlags⟩ : (fp32DotRoot ch rm frm vlmax vl (L.map Prod.fst) (L.map Prod.snd) C).val.Is (fp32Terms L C).sum
      ∧ (fp32DotRoot ch rm frm vlmax vl (L.map Prod.fst) (L.map Prod.snd) C).flags = 0 := by
    rw [hperm.sum_eq]
    exact fp32Tree_is rm _ _ (fun _ => Nat.le_add_right ..) (fun _ => Nat.le_add_right ..) 0 (by simp [fp32DotTerms])
      (Nat.le_succ _) hterms (hsums.perm hperm)
  obtain ⟨hround, hroundFlags⟩ := hroot.roundTo htotal (f := binFp32) le_rfl le_rfl rm ch.tininessAfterRounding
  obtain ⟨hfinite, hrat⟩ := hround.encode htotal
  refine ⟨hfinite, hrat, ?_⟩
  rw [fp32Dot_eq]
  simp only [fp32Products_flags rm _ _ 0 hL hprod, haccFlags, hrootFlags, hroundFlags]
  simp

end Sys2Proof.Machine
end

section
/-! SUPPORT. The accrued flags (10_state.md R42): what each instruction can raise, and that none is cleared. -/

namespace Sys2Proof.Machine

/-! ## Flags that are not raised -/

/-- None of the flags of the mask is among the flags. -/
abbrev Without (mask f : FpFlags) : Prop := f &&& mask = 0

section Without

variable {mask f g : FpFlags}

theorem Without.zero : Without mask 0 := BitVec.zero_and

theorem Without.or (hf : Without mask f) (hg : Without mask g) : Without mask (f ||| g) := by
  rw [Without, BitVec.and_or_distrib_right, hf, hg]
  exact BitVec.or_zero

theorem Without.flagIf (cond : Bool) (h : Without mask f) : Without mask (flagIf cond f) := by
  cases cond
  · exact .zero
  · exact h

theorem Without.ite {p : Prop} [Decidable p] {x y : FpOut} (hx : Without mask x.flags) (hy : Without mask y.flags) :
    Without mask (if p then x else y).flags := by
  split_ifs
  · exact hx
  · exact hy

theorem Without.foldl {α : Type} {flags : α → FpFlags} {l : List α} (hf : Without mask f)
    (h : ∀ a ∈ l, Without mask (flags a)) : Without mask (l.foldl (fun acc a => acc ||| flags a) f) :=
  List.foldlRecOn (motive := Without mask) l _ hf fun _ hacc a ha => hacc.or (h a ha)

/-- Flags that accrue one after the other, as the flags there were and the others. -/
theorem exists_foldl_or {α : Type} (flags : α → FpFlags) {l : List α} (h : ∀ a ∈ l, Without mask (flags a))
    (init : FpFlags) : ∃ f, l.foldl (fun acc a => acc ||| flags a) init = init ||| f ∧ Without mask f :=
  List.foldlRecOn (motive := fun acc => ∃ f, acc = init ||| f ∧ Without mask f) l _ ⟨0, BitVec.or_zero.symm, .zero⟩
    fun _ ⟨f, hacc, hf⟩ a ha => ⟨f ||| flags a, by rw [hacc, BitVec.or_assoc], hf.or (h a ha)⟩

end Without

/-- The flags of the second state are those of the first and some others, none of the mask among these. -/
def AccruesWithout (mask : FpFlags) (s t : State) : Prop := ∃ f, t.fflags = s.fflags ||| f ∧ Without mask f

section Accrues

variable {mask : FpFlags} {s t : State}

theorem AccruesWithout.of_eq (h : t.fflags = s.fflags) : AccruesWithout mask s t :=
  ⟨0, h.trans BitVec.or_zero.symm, .zero⟩

theorem AccruesWithout.keeps (h : AccruesWithout mask s t) : t.fflags &&& mask = s.fflags &&& mask := by
  obtain ⟨f, hf, hmask⟩ := h
  rw [hf, BitVec.and_or_distrib_right, hmask]
  exact BitVec.or_zero

/-- Flags are sticky. -/
theorem AccruesWithout.sticky (h : AccruesWithout mask s t) : s.fflags &&& t.fflags = s.fflags := by
  obtain ⟨f, hf, -⟩ := h
  rw [hf, BitVec.and_or_distrib_left, BitVec.and_self]
  ext i
  simp +contextual

/-- With every flag in the mask, nothing accrues. -/
theorem AccruesWithout.eq (h : AccruesWithout 0x1F s t) : t.fflags = s.fflags := by
  have hall (x : FpFlags) : x &&& 0x1F = x := BitVec.and_allOnes
  rw [← hall t.fflags, h.keeps, hall]

end Accrues

/-- The flags an instruction never raises: all of them for what is no floating-point form, DZ for `vfmmacc.vv`, and DZ, UF and NX
for the bulk-normalized forms (10_state.md R42, 42_bulk_normalization.md R187). -/
def unraised (i : Instr) : FpFlags :=
  match i with
  | .vfmmacc _ _ _ _ _ => 0x08
  | i => if isFpForm i then 0x0B else 0x1F

theorem unraised_of_isBulk {i : Instr} (h : isBulk i) : unraised i = 0x0B := by
  rcases h with ⟨op, vd, vs2, vs1, masked, hfp, rfl⟩ | ⟨op, vd, vs2, vs1, ci, masked, hfp, hne, rfl⟩
  · cases op
    case vqldotu => cases hfp
    case vqldots => cases hfp
    all_goals rfl
  · cases op
    case vqmmaccU => cases hfp
    case vqmmaccS => cases hfp
    case vfmmacc => exact absurd rfl hne
    all_goals rfl

theorem unraised_of_not_isFpForm {i : Instr} (h : isFpForm i = false) : unraised i = 0x1F := by
  unfold unraised
  split
  · cases h
  · rw [h]
    rfl

/-- No instruction raises DZ. -/
theorem unraised_and_dz (i : Instr) : unraised i &&& 0x08 = 0x08 := by
  unfold unraised
  split
  · rfl
  · split_ifs
    · rfl
    · rfl

/-! ## What a dot product raises -/

/-- A bulk-normalized form raises NV and OF only (42_bulk_normalization.md R187). -/
theorem bulkDot_flags (r : BulkResult) : Without 0x0B (bulkDot r).flags :=
  (Without.flagIf (f := flagNV) r.nv (by decide)).or (Without.flagIf (f := flagOF) r.overflow (by decide))

theorem LongOp.dot_flags (op : LongOp) (s : State) (vd vs2 vs1 : VReg) (masked : Bool) (A B : List (BitVec op.sew))
    (C : BitVec 32) : Without (unraised (op.instr vd vs2 vs1 masked)) (op.dot s A B C).flags := by
  cases op with
  | vqldotu => exact .zero
  | vqldots => exact .zero
  | vfwldot => exact bulkDot_flags _
  | vfqldot => exact bulkDot_flags _
  | vfqldotAlt => exact bulkDot_flags _

/-- Decoding raises NV at most (41_zvbdot_batched.md R173 (c)). -/
theorem fp32Decode_flags_dz (w : BitVec 32) : Without 0x08 (fp32Decode w).flags := by
  rw [fp32Decode_eq]
  split_ifs
  · exact .flagIf _ rfl
  · exact .zero
  · exact .zero

/-- Rounding raises OF, UF and NX at most. -/
theorem roundTo_flags_dz (f : BinFmt) (rm : RoundingMode) (after : Bool) (v : FpVal) :
    Without 0x08 (roundTo f rm after v).flags := by
  cases v with
  | nan => exact .zero
  | inf sign => exact .zero
  | fin sign mant exp =>
    by_cases hmant : mant = 0
    · rw [roundTo, if_pos hmant]
      exact .zero
    · rw [roundTo_fin f rm after sign hmant]
      split
      · show (0x05 : FpFlags) &&& 0x08 = 0
        decide
      · exact (Without.flagIf (f := flagNX) _ (by decide)).or (.flagIf (f := flagUF) _ (by decide))

theorem fpMul_flags_dz (x y : FpVal) : Without 0x08 (fpMul x y).flags := by
  match x, y with
  | .nan, _ => exact .zero
  | .inf _, .nan => exact .zero
  | .fin _ _ _, .nan => exact .zero
  | .inf _, .inf _ => exact .zero
  | .fin _ _ _, .fin _ _ _ => exact .zero
  | .inf _, .fin _ _ _ => exact .ite (by decide) .zero
  | .fin _ _ _, .inf _ => exact .ite (by decide) .zero

theorem fpAdd_flags_dz (rm : RoundingMode) (x y : FpVal) : Without 0x08 (fpAdd rm x y).flags := by
  match x, y with
  | .nan, _ => exact .zero
  | .inf _, .nan => exact .zero
  | .fin _ _ _, .nan => exact .zero
  | .inf _, .inf _ => exact .ite .zero (by decide)
  | .inf _, .fin _ _ _ => exact .zero
  | .fin _ _ _, .inf _ => exact .zero
  | .fin s₁ m₁ e₁, .fin s₂ m₂ e₂ =>
    obtain ⟨s, m, e, h, -⟩ := fpAdd_fin rm s₁ s₂ m₁ m₂ e₁ e₂
    rw [h]
    exact .zero

theorem fp32Product_flags_dz (rm : RoundingMode) (after keep : Bool) (a b : BitVec 32) :
    Without 0x08 (fp32Product rm after keep a b).flags := by
  refine (((fp32Decode_flags_dz a).or (fp32Decode_flags_dz b)).or (fpMul_flags_dz ..)).or ?_
  cases keep
  · exact roundTo_flags_dz ..
  · exact .zero

theorem mem_fp32Products {rm : RoundingMode} {after : Bool} {keep : Nat → Bool} {k : Nat} {A B : List (BitVec 32)} {p : FpOut}
    (h : p ∈ fp32Products rm after keep k A B) : ∃ a b exact, p = fp32Product rm after exact a b := by
  induction A generalizing k B with
  | nil => simp [fp32Products] at h
  | cons a as ih =>
    cases B with
    | nil => simp [fp32Products] at h
    | cons b bs =>
      rw [fp32Products, List.mem_cons] at h
      rcases h with rfl | h
      · exact ⟨a, b, _, rfl⟩
      · exact ih h

/-- `vfmmacc.vv` never raises DZ, whatever an implementation chooses (10_state.md R42). -/
theorem fp32Dot_flags_dz (ch : Fp32Choices) (rm : RoundingMode) (frm : BitVec 3) (vlmax vl : Nat) (A B : List (BitVec 32))
    (C : BitVec 32) : Without 0x08 (fp32Dot ch rm frm vlmax vl A B C).flags := by
  have hprods : Without 0x08 ((fp32Products rm ch.tininessAfterRounding (ch.keepExact A B C frm vlmax vl) 0 A B).foldl
      (fun f p => f ||| p.flags) 0) := by
    refine .foldl .zero fun p hp => ?_
    obtain ⟨a, b, exact, rfl⟩ := mem_fp32Products hp
    exact fp32Product_flags_dz ..
  have hroot : Without 0x08 (fp32DotRoot ch rm frm vlmax vl A B C).flags :=
    fp32Tree_rule (R := fun _ out => Without 0x08 out.flags) (fun _ h => h) (fun _ => .zero)
      (fun step x y rest out h => ((fpAdd_flags_dz rm x y).or (roundTo_flags_dz ..)).or h) 0 (by simp [fp32DotTerms])
      (Nat.le_succ _)
  rw [fp32Dot_eq]
  exact ((hprods.or (fp32Decode_flags_dz C)).or hroot).or (roundTo_flags_dz ..)

theorem BatchOp.dot_flags (op : BatchOp) (s : State) (vd vs2 vs1 : VReg) (ci : Nat) (masked : Bool)
    (A B : List (BitVec op.sew)) (C : BitVec 32) :
    Without (unraised (op.instr vd vs2 vs1 ci masked)) (op.dot s A B C).flags := by
  cases op with
  | vqmmaccU => exact .zero
  | vqmmaccS => exact .zero
  | vfwmmacc => exact bulkDot_flags _
  | vfqmmacc => exact bulkDot_flags _
  | vfqmmaccAlt => exact bulkDot_flags _
  | vfmmacc =>
    show Without 0x08 (s.fp32DotOf A B C).flags
    unfold State.fp32DotOf
    split
    · exact fp32Dot_flags_dz ..
    · exact .zero

/-! ## What an instruction raises -/

theorem State.raiseIllegal_fflags (s : State) : s.raiseIllegal.fflags = s.fflags := by simp [State.raiseIllegal]

theorem State.raiseDotIllegal_fflags (s : State) : s.raiseDotIllegal.fflags = s.fflags := State.raiseIllegal_fflags _

/-- A load or store leaves the flags, whether it completes or takes an exception. -/
theorem State.transferUnder_fflags {v : Verdict} {elem : State → Nat → ElemOutcome} {finish : State → State} {s t : State}
    (hstep : ∀ u u' i, ElemStep elem u u' i → u'.fflags = u.fflags) (hfinish : ∀ u, (finish u).fflags = u.fflags)
    (ht : s.transferUnder v elem finish = .next t) : t.fflags = s.fflags :=
  State.transferUnder_next (P := fun u => u.fflags = s.fflags) (R := fun u => u.fflags = s.fflags) s.raiseIllegal_fflags
    (fun u u' i hu h => (hstep u u' i h).trans hu) (fun u hu => (hfinish u).trans hu)
    (fun _ u _ _ _ _ _ _ _ hu => by simpa using hu) rfl ht

theorem State.vectorLoad_fflags {s t : State} {eew : Nat} {vd : VReg} {rs1 : XReg} {masked : Bool}
    (ht : s.vectorLoad eew vd rs1 masked = .next t) : t.fflags = s.fflags :=
  State.transferUnder_fflags
    (fun u u' _ h => show u'.fflags = u.fflags by rw [loadElem_onlyV (s := u) rfl h]) (fun u => by simp [finishLoad]) ht

theorem State.vectorStore_fflags {s t : State} {eew : Nat} {vs3 : VReg} {rs1 : XReg} {masked : Bool}
    (ht : s.vectorStore eew vs3 rs1 masked = .next t) : t.fflags = s.fflags :=
  State.transferUnder_fflags
    (fun u u' _ h => show u'.fflags = u.fflags by rw [storeElem_onlyMem (s := u) rfl h]) State.retireVector_fflags ht

theorem execVsetvli_fflags {s t : State} {rd rs1 : XReg} {zimm : BitVec 11} (ht : execVsetvli rd rs1 zimm s = .next t) :
    t.fflags = s.fflags := by
  rcases execVsetvli_cases rd rs1 zimm s with he | he | ⟨-, he⟩ | he
  · cases he.symm.trans ht
    exact s.raiseIllegal_fflags
  · cases he.symm.trans ht
  · cases he.symm.trans ht
    rw [State.setVectorConfig_eq]
  · cases he.symm.trans ht
    rw [State.setVectorConfig_eq]

theorem execBne_fflags {s t : State} {rs1 rs2 : XReg} {offset : BitVec 13} (ht : execBne rs1 rs2 offset s = .next t) :
    t.fflags = s.fflags := by
  unfold execBne at ht
  split_ifs at ht
  · cases ht; rfl
  · cases ht; simp
  · cases ht; rfl

theorem execVmvVI_fflags {s t : State} {vd : VReg} {simm5 : BitVec 5} (ht : execVmvVI vd simm5 s = .next t) :
    t.fflags = s.fflags := by
  rcases execVmvVI_next ht with rfl | ⟨-, rfl⟩
  · exact s.raiseIllegal_fflags
  · simp

theorem LongOp.accrues {op : LongOp} {s t : State} {vd vs2 vs1 : VReg} {masked : Bool}
    (ht : exec (op.instr vd vs2 vs1 masked) s = .next t) : AccruesWithout (unraised (op.instr vd vs2 vs1 masked)) s t := by
  rcases LongOp.exec_next ht with rfl | rfl
  · exact .of_eq s.raiseDotIllegal_fflags
  · unfold LongOp.after
    split_ifs
    · exact .of_eq rfl
    · exact ⟨(s.longResult op.sew vd vs2 vs1 masked (op.dot s)).flags, by simp [State.longWrite],
        op.dot_flags s vd vs2 vs1 masked _ _ _⟩

/-- A dot product that is not performed raises nothing (41_zvbdot_batched.md R147). -/
theorem BatchOp.batchElem_flags (op : BatchOp) (s : State) (vd vs2 vs1 : VReg) (ci : Nat) (masked : Bool) (n : Nat) :
    Without (unraised (op.instr vd vs2 vs1 ci masked)) (s.batchElem op.sew vd vs2 vs1 ci masked (op.dot s) n).flags := by
  unfold State.batchElem
  split_ifs
  · exact op.dot_flags s vd vs2 vs1 ci masked _ _ _
  · exact .zero
  · exact .zero

theorem BatchOp.accrues {op : BatchOp} {s t : State} {vd vs2 vs1 : VReg} {ci : Nat} {masked : Bool}
    (ht : exec (op.instr vd vs2 vs1 ci masked) s = .next t) :
    AccruesWithout (unraised (op.instr vd vs2 vs1 ci masked)) s t := by
  rcases BatchOp.exec_next ht with rfl | rfl
  · exact .of_eq s.raiseDotIllegal_fflags
  · unfold BatchOp.after
    split_ifs
    · exact .of_eq rfl
    · unfold AccruesWithout
      rw [State.dirtyRetire_fflags, State.fflags_batchWrite, List.foldl_map]
      exact exists_foldl_or _ (fun n _ => op.batchElem_flags s vd vs2 vs1 ci masked n) _

/-- The flags accrue, instruction by instruction. -/
theorem exec_accrues {i : Instr} {s t : State} (ht : exec i s = .next t) : AccruesWithout (unraised i) s t := by
  induction i using Instr.byFamily with
  | long op vd vs2 vs1 masked => exact LongOp.accrues ht
  | batch op vd vs2 vs1 ci masked => exact BatchOp.accrues ht
  | load op vd rs1 masked => exact .of_eq (State.vectorLoad_fflags (op.exec_eq s vd rs1 masked ▸ ht))
  | add rd rs1 rs2 => cases ht; exact .of_eq (by simp)
  | sub rd rs1 rs2 => cases ht; exact .of_eq (by simp)
  | addi rd rs1 imm => cases ht; exact .of_eq (by simp)
  | bne rs1 rs2 offset => exact .of_eq (execBne_fflags ht)
  | vsetvli rd rs1 zimm => exact .of_eq (execVsetvli_fflags ht)
  | vmvVI vd simm5 => exact .of_eq (execVmvVI_fflags ht)
  | vse32 vs3 rs1 masked => exact .of_eq (State.vectorStore_fflags ht)

/-- Settles O32: the flags an instruction leaves are the old ones and some it may raise. -/
theorem flagsAccrue : Obligations.FlagsAccrue := by
  intro i s t ht
  have h := exec_accrues ht
  refine ⟨h.sticky, fun hi => ?_, fun hi => ?_, ?_⟩
  · exact (unraised_of_not_isFpForm hi ▸ h).eq
  · exact (unraised_of_isBulk hi ▸ h).keeps
  · rw [← unraised_and_dz i, ← BitVec.and_assoc, h.keeps, BitVec.and_assoc]

end Sys2Proof.Machine
end

section
/-! SUPPORT. Worked values of bulk normalization and the FP8 formats (42_bulk_normalization.md R210 to R215). -/

namespace Sys2Proof.Machine

/-- Settles O43: each table is evaluated by the kernel. -/
theorem workedBulkValues : Obligations.WorkedBulkValues :=
  ⟨by decide +kernel, by decide +kernel, by decide +kernel, by decide +kernel⟩

/-- A positive normal factor as a rational: its significand at the weight of its last bit (42_bulk_normalization.md R192). -/
theorem factorRat_of_decode {f : FactorFmt} {X sig ref : Nat}
    (h : decodeFactor f X = ⟨false, false, false, false, false, sig, ref⟩) :
    factorRat f X = sig * 2 ^ (ref - f.bias - ((f.p : Int) - 1) : Int) := by
  rw [factorRat, h]
  simp

/-- Settles O44: the special values pattern by pattern, the named values by their significand and exponent. -/
theorem fp8Formats : Obligations.Fp8Formats := by
  refine ⟨by decide +kernel, ?_, ?_, ?_, ?_, ?_⟩
  · rw [factorRat_of_decode (sig := 8) (ref := 7) (by decide)]; norm_num [e4m3, FactorFmt.bias]
  · rw [factorRat_of_decode (sig := 8) (ref := 15) (by decide)]; norm_num [e4m3, FactorFmt.bias]
  · rw [factorRat_of_decode (sig := 14) (ref := 15) (by decide)]; norm_num [e4m3, FactorFmt.bias]
  · rw [factorRat_of_decode (sig := 4) (ref := 15) (by decide)]; norm_num [e5m2, FactorFmt.bias]
  · rw [factorRat_of_decode (sig := 7) (ref := 30) (by decide)]; norm_num [e5m2, FactorFmt.bias]

end Sys2Proof.Machine
end

section
/-! SUPPORT. The special-value scan of bulk normalization, apart from its order (42_bulk_normalization.md R188, R193). -/

namespace Sys2Proof.Machine

/-! ## The parts of a result -/

/-- The scan of the pairs (42_bulk_normalization.md R193). -/
def scanPairs (fA fB : FactorFmt) (L : List (Nat × Nat)) (C : BitVec 32) : Scan :=
  (L.map (decodePair fA fB)).foldl scanStep (scanInit (decodeAddend fp32Acc C.toNat))

/-- The largest reference exponent (R195). -/
def pairsMaxExp (fA fB : FactorFmt) (L : List (Nat × Nat)) (C : BitVec 32) : Int :=
  maxExpOf (offsetOf fA fB) (decodeAddend fp32Acc C.toNat) (L.map (decodePair fA fB))

/-- The accumulator (R198). -/
def pairsAcc (fA fB : FactorFmt) (n : Nat) (L : List (Nat × Nat)) (C : BitVec 32) : Int :=
  accumulate (offsetOf fA fB) (pairsMaxExp fA fB L C) fp32Acc (clog2 n) (fA.p + fB.p) (decodeAddend fp32Acc C.toNat)
    (L.map (decodePair fA fB))

/-- The result from what the scan found and the normalised accumulator (R193, R199). -/
def scanResult (scan : Scan) (r : Nat × Bool) : BulkResult :=
  if scan.nanResult then ⟨fp32Acc.canonicalNaN, scan.invalid, false⟩
  else if scan.infinite then ⟨fp32Acc.infinity scan.infiniteSign, false, false⟩
  else ⟨r.1, false, r.2⟩

theorem rvbnaPairs_eq_scanResult (fA fB : FactorFmt) (n : Nat) (L : List (Nat × Nat)) (C : BitVec 32) :
    rvbnaPairs fA fB n L C = scanResult (scanPairs fA fB L C)
      (normalise fp32Acc (clog2 n) (pairsMaxExp fA fB L C) (pairsAcc fA fB n L C)) :=
  rvbnaPairs_eq fA fB n L C

section

variable {scan : Scan} (r : Nat × Bool)

theorem scanResult_of_nan (h : scan.nanResult = true) :
    scanResult scan r = ⟨0x7FC00000, scan.invalid, false⟩ := if_pos h

theorem scanResult_of_infinite (h : scan.nanResult = false) (hinf : scan.infinite = true) :
    scanResult scan r = ⟨if scan.infiniteSign then 0xFF800000 else 0x7F800000, false, false⟩ := by
  rw [scanResult, if_neg (by simp [h]), if_pos hinf]
  cases scan.infiniteSign <;> rfl

theorem scanResult_nv_of_not_nan (h : scan.nanResult = false) : (scanResult scan r).nv = false := by
  rw [scanResult, if_neg (by simp [h])]
  split_ifs <;> rfl

theorem scanResult_of_finite (h : scan.nanResult = false) (hinf : scan.infinite = false) :
    scanResult scan r = ⟨r.1, false, r.2⟩ := by
  rw [scanResult, if_neg (by simp [h]), if_neg (by simp [hinf])]

end

/-! ## What the scan finds -/

/-- An infinite product against an infinity of the other sign found before it. -/
def opposes (st : Scan) (ab : Operand × Operand) : Bool :=
  st.infinite && infProduct ab && (st.infiniteSign != prodSign ab.1 ab.2)

section Step

variable (st : Scan) (ab : Operand × Operand)

/-- A step of the scan by what the pair is. -/
theorem scanStep_eq : scanStep st ab = ⟨st.infinite || infProduct ab,
    if infProduct ab then prodSign ab.1 ab.2 else st.infiniteSign,
    st.nanResult || (ab.1.isNaN || ab.2.isNaN) || zeroTimesInf ab || opposes st ab,
    st.invalid || zeroTimesInf ab || opposes st ab || (ab.1.isSNaN || ab.2.isSNaN)⟩ := by
  rw [← Bool.or_assoc, ← Bool.or_assoc]
  rfl

theorem scanStep_nanResult : (scanStep st ab).nanResult = true
    ↔ st.nanResult = true ∨ (ab.1.isNaN = true ∨ ab.2.isNaN = true) ∨ zeroTimesInf ab = true ∨ opposes st ab = true := by
  simp only [scanStep_eq, Bool.or_eq_true, or_assoc]

theorem scanStep_invalid : (scanStep st ab).invalid = true
    ↔ st.invalid = true ∨ (ab.1.isSNaN = true ∨ ab.2.isSNaN = true) ∨ zeroTimesInf ab = true ∨ opposes st ab = true := by
  simp only [scanStep_eq, Bool.or_eq_true]
  tauto

theorem scanStep_infinite : (scanStep st ab).infinite = true ↔ st.infinite = true ∨ infProduct ab = true := by
  rw [scanStep_eq, Bool.or_eq_true]

theorem scanStep_infiniteSign :
    (scanStep st ab).infiniteSign = if infProduct ab then prodSign ab.1 ab.2 else st.infiniteSign := by
  rw [scanStep_eq]

end Step

/-- What the scan's variables say of the addend and the pairs scanned so far, whatever their order (R188, R193). -/
structure ScanSpec (c : Operand) (P : List (Operand × Operand)) (st : Scan) : Prop where
  nan : st.nanResult = true ↔ anyNaN c P ∨ invalidSum c P
  invalid : st.invalid = true ↔ anySNaN c P ∨ invalidSum c P
  infinite : st.infinite = true ↔ ∃ sign, infTerm c P sign
  sign : st.infinite = true → infTerm c P st.infiniteSign

theorem ScanSpec.init (c : Operand) : ScanSpec c [] (scanInit c) where
  nan := by simp +contextual [scanInit, anyNaN, invalidSum, infTerm]
  invalid := by simp +contextual [scanInit, anySNaN, invalidSum, infTerm]
  infinite := by simp [scanInit, infTerm]
  sign := by simp [scanInit, infTerm]

section Append

variable (c : Operand) (P : List (Operand × Operand)) (ab : Operand × Operand)

theorem anyNaN_append : anyNaN c (P ++ [ab]) ↔ anyNaN c P ∨ ab.1.isNaN = true ∨ ab.2.isNaN = true := by
  simp only [anyNaN, List.mem_append, List.mem_singleton, or_and_right, exists_or, exists_eq_left, or_assoc]

theorem anySNaN_append : anySNaN c (P ++ [ab]) ↔ anySNaN c P ∨ ab.1.isSNaN = true ∨ ab.2.isSNaN = true := by
  simp only [anySNaN, List.mem_append, List.mem_singleton, or_and_right, exists_or, exists_eq_left, or_assoc]

theorem infTerm_append (sign : Bool) :
    infTerm c (P ++ [ab]) sign ↔ infTerm c P sign ∨ (infProduct ab = true ∧ prodSign ab.1 ab.2 = sign) := by
  simp only [infTerm, prodSign, List.mem_append, List.mem_singleton, or_and_right, exists_or, exists_eq_left, or_assoc]

end Append

section Snoc

variable {c : Operand} {P : List (Operand × Operand)} {st : Scan}

theorem infTerm_both_iff (s : Bool) : infTerm c P true ∧ infTerm c P false ↔ infTerm c P s ∧ infTerm c P !s := by
  cases s
  · exact and_comm
  · exact Iff.rfl

/-- Infinities of both signs are in the sum with the next product where they were before it, or where it opposes the last
one. -/
theorem ScanSpec.infTerm_both_append (h : ScanSpec c P st) (ab : Operand × Operand) :
    infTerm c (P ++ [ab]) true ∧ infTerm c (P ++ [ab]) false
      ↔ (infTerm c P true ∧ infTerm c P false) ∨ opposes st ab = true := by
  have hopposes : opposes st ab = true
      ↔ (st.infinite = true ∧ infProduct ab = true) ∧ st.infiniteSign = !prodSign ab.1 ab.2 := by
    simp [opposes, Bool.eq_not]
  have hother : infTerm c (P ++ [ab]) (!prodSign ab.1 ab.2) ↔ infTerm c P !prodSign ab.1 ab.2 := by
    simp [infTerm_append]
  rw [infTerm_both_iff (prodSign ab.1 ab.2), infTerm_both_iff (prodSign ab.1 ab.2), hother, infTerm_append, hopposes]
  constructor
  · rintro ⟨hsame | ⟨hab, -⟩, hnot⟩
    · exact .inl ⟨hsame, hnot⟩
    · have hinf : st.infinite = true := h.infinite.2 ⟨_, hnot⟩
      by_cases hlast : st.infiniteSign = prodSign ab.1 ab.2
      · exact .inl ⟨hlast ▸ h.sign hinf, hnot⟩
      · exact .inr ⟨⟨hinf, hab⟩, Bool.eq_not.2 hlast⟩
  · rintro (⟨hsame, hnot⟩ | ⟨⟨hinf, hab⟩, hlast⟩)
    · exact ⟨.inl hsame, hnot⟩
    · exact ⟨.inr ⟨hab, rfl⟩, hlast ▸ h.sign hinf⟩

theorem ScanSpec.invalidSum_append (h : ScanSpec c P st) (ab : Operand × Operand) :
    invalidSum c (P ++ [ab]) ↔ invalidSum c P ∨ zeroTimesInf ab = true ∨ opposes st ab = true := by
  have hzero : (∃ p ∈ P ++ [ab], zeroTimesInf p = true) ↔ (∃ p ∈ P, zeroTimesInf p = true) ∨ zeroTimesInf ab = true := by
    simp only [List.mem_append, List.mem_singleton, or_and_right, exists_or, exists_eq_left]
  rw [invalidSum, hzero, h.infTerm_both_append, invalidSum]
  exact or_or_or_comm

theorem ScanSpec.snoc (h : ScanSpec c P st) (ab : Operand × Operand) : ScanSpec c (P ++ [ab]) (scanStep st ab) where
  nan := by
    rw [scanStep_nanResult, anyNaN_append, h.invalidSum_append, h.nan]
    exact or_or_or_comm
  invalid := by
    rw [scanStep_invalid, anySNaN_append, h.invalidSum_append, h.invalid]
    exact or_or_or_comm
  infinite := by
    rw [scanStep_infinite, h.infinite]
    simp only [infTerm_append, exists_or, exists_and_left, exists_eq', and_true]
  sign := by
    rw [scanStep_infinite, scanStep_infiniteSign, infTerm_append]
    intro hinf
    split_ifs with hab
    · exact .inr ⟨hab, rfl⟩
    · exact .inl (h.sign (hinf.resolve_right hab))

end Snoc

/-- The scan of any pairs. -/
theorem scanSpec_foldl (c : Operand) (P : List (Operand × Operand)) : ScanSpec c P (P.foldl scanStep (scanInit c)) := by
  induction P using List.reverseRecOn with
  | nil => exact .init c
  | append_singleton P ab ih =>
    rw [List.foldl_append]
    exact ih.snoc ab

theorem scanPairs_spec (fA fB : FactorFmt) (L : List (Nat × Nat)) (C : BitVec 32) :
    ScanSpec (decodeAddend fp32Acc C.toNat) (L.map (decodePair fA fB)) (scanPairs fA fB L C) := scanSpec_foldl ..

/-! ## Special values -/

/-- A signaling NaN is a NaN, in every format (42_bulk_normalization.md R192). -/
theorem decodeFactor_isNaN_of_isSNaN {f : FactorFmt} {X : Nat} (h : (decodeFactor f X).isSNaN = true) :
    (decodeFactor f X).isNaN = true := by
  by_contra hn
  rw [decodeFactor_isSNaN_eq_false (Bool.not_eq_true _ ▸ hn)] at h
  cases h

theorem anyNaN_of_anySNaN {fA fB : FactorFmt} {L : List (Nat × Nat)} {C : BitVec 32}
    (h : anySNaN (decodeAddend fp32Acc C.toNat) (L.map (decodePair fA fB))) :
    anyNaN (decodeAddend fp32Acc C.toNat) (L.map (decodePair fA fB)) := by
  rcases h with hc | ⟨ab, hab, hs⟩
  · exact .inl (decodeFactor_isNaN_of_isSNaN hc)
  · obtain ⟨x, -, rfl⟩ := List.mem_map.1 hab
    exact .inr ⟨_, hab, hs.imp decodeFactor_isNaN_of_isSNaN decodeFactor_isNaN_of_isSNaN⟩

/-- Where the scan finds no NaN, every infinite term has the sign it kept. -/
theorem ScanSpec.infiniteSign_eq {c : Operand} {P : List (Operand × Operand)} {st : Scan} (h : ScanSpec c P st)
    (hnan : st.nanResult = false) {sign : Bool} (hinf : infTerm c P sign) : st.infiniteSign = sign := by
  by_contra hne
  have hother : infTerm c P !sign := Bool.eq_not.2 hne ▸ h.sign (h.infinite.2 ⟨_, hinf⟩)
  have hboth : invalidSum c P := .inr ((infTerm_both_iff sign).2 ⟨hinf, hother⟩)
  rw [h.nan.2 (.inr hboth)] at hnan
  cases hnan

/-- Settles O45: the result by what the scan finds. -/
theorem specialValues : Obligations.SpecialValues := by
  intro fA fB n L C _ _ P c r
  have hspec : ScanSpec c P (scanPairs fA fB L C) := scanPairs_spec fA fB L C
  have hr : r = scanResult (scanPairs fA fB L C) _ := rvbnaPairs_eq_scanResult fA fB n L C
  by_cases hnan : (scanPairs fA fB L C).nanResult = true
  · rw [hr, scanResult_of_nan _ hnan]
    exact ⟨hspec.invalid, fun _ => ⟨rfl, rfl⟩, fun sign hno _ => absurd (hspec.nan.1 hnan) hno⟩
  · have hno : ¬(anyNaN c P ∨ invalidSum c P) := mt hspec.nan.2 hnan
    rw [Bool.not_eq_true] at hnan
    have hnv : r.nv = false := by rw [hr, scanResult_nv_of_not_nan _ hnan]
    refine ⟨?_, fun h => absurd h hno, fun sign _ hinf => ?_⟩
    · rw [hnv]
      exact iff_of_false Bool.false_ne_true fun h => hno (h.imp_left anyNaN_of_anySNaN)
    · rw [hr, scanResult_of_infinite _ hnan (hspec.infinite.2 ⟨sign, hinf⟩), hspec.infiniteSign_eq hnan hinf]
      exact ⟨rfl, rfl⟩

end Sys2Proof.Machine
end

section
/-! SUPPORT. What does not change a bulk-normalized dot product: the order of the pairs, the order of the factors, and pairs
with a zero (42_bulk_normalization.md R204 (b), (c), (i)). -/

namespace Sys2Proof.Machine

/-! ## The order of the pairs -/

/-- What the scan finds depends on which pairs there are alone. -/
theorem ScanSpec.of_mem_iff {c : Operand} {P P' : List (Operand × Operand)} {st : Scan} (h : ScanSpec c P st)
    (hmem : ∀ ab, ab ∈ P' ↔ ab ∈ P) : ScanSpec c P' st := by
  have hinf : infTerm c P' = infTerm c P := by
    funext sign
    simp only [infTerm, hmem]
  have hinvalid : invalidSum c P' = invalidSum c P := by simp only [invalidSum, hmem, hinf]
  have hnan : anyNaN c P' = anyNaN c P := by simp only [anyNaN, hmem]
  have hsnan : anySNaN c P' = anySNaN c P := by simp only [anySNaN, hmem]
  constructor
  · rw [hnan, hinvalid]; exact h.nan
  · rw [hsnan, hinvalid]; exact h.invalid
  · rw [hinf]; exact h.infinite
  · rw [hinf]; exact h.sign

/-- Two scans with the same findings give the same result. -/
theorem ScanSpec.scanResult_eq {c : Operand} {P : List (Operand × Operand)} {st st' : Scan} (h : ScanSpec c P st)
    (h' : ScanSpec c P st') (r : Nat × Bool) : scanResult st r = scanResult st' r := by
  have hnan : st.nanResult = st'.nanResult := Bool.eq_iff_iff.2 (h.nan.trans h'.nan.symm)
  have hinvalid : st.invalid = st'.invalid := Bool.eq_iff_iff.2 (h.invalid.trans h'.invalid.symm)
  have hinf : st.infinite = st'.infinite := Bool.eq_iff_iff.2 (h.infinite.trans h'.infinite.symm)
  cases hn : st'.nanResult with
  | true => rw [scanResult_of_nan r hn, scanResult_of_nan r (hnan.trans hn), hinvalid]
  | false =>
    cases hi : st'.infinite with
    | true =>
      rw [scanResult_of_infinite r hn hi, scanResult_of_infinite r (hnan.trans hn) (hinf.trans hi),
        h.infiniteSign_eq (hnan.trans hn) (h'.sign hi)]
    | false => rw [scanResult_of_finite r hn hi, scanResult_of_finite r (hnan.trans hn) (hinf.trans hi)]

section Perm

variable {P P' : List (Operand × Operand)} (h : P.Perm P')

include h

/-- The maximum does not depend on the order (R195). -/
theorem maxExpOf_perm (offset : Int) (c : Operand) : maxExpOf offset c P = maxExpOf offset c P' :=
  h.foldl_eq' (fun _ _ _ _ _ => max_right_comm (α := Int) ..) _

/-- Nor does the sum (R198). -/
theorem accumulate_perm (offset maxExp : Int) (acc : AccFmt) (g p2 : Nat) (c : Operand) :
    accumulate offset maxExp acc g p2 c P = accumulate offset maxExp acc g p2 c P' := by
  rw [accumulate, accumulate, (h.map _).sum_eq]

end Perm

/-- Settles O47: the scan finds the same, and the maximum and the sum are the same. -/
theorem pairOrderIrrelevant : Obligations.PairOrderIrrelevant := by
  intro fA fB n L L' C _ _ hperm
  have hP := hperm.map (decodePair fA fB)
  have hmax : pairsMaxExp fA fB L C = pairsMaxExp fA fB L' C := maxExpOf_perm hP ..
  have hacc : pairsAcc fA fB n L C = pairsAcc fA fB n L' C := by
    rw [pairsAcc, pairsAcc, hmax, accumulate_perm hP]
  rw [rvbnaPairs_eq_scanResult, rvbnaPairs_eq_scanResult, hmax, hacc]
  exact (scanPairs_spec fA fB L C).scanResult_eq ((scanPairs_spec fA fB L' C).of_mem_iff fun _ => hP.mem_iff) _

/-! ## The order of the factors -/

section Swap

variable (ab : Operand × Operand)

theorem zeroTimesInf_swap : zeroTimesInf ab.swap = zeroTimesInf ab := Bool.or_comm ..

theorem infProduct_swap : infProduct ab.swap = infProduct ab := Bool.or_comm ..

theorem prodSign_comm (a b : Operand) : prodSign a b = prodSign b a := Bool.xor_comm ..

theorem opposes_swap (st : Scan) : opposes st ab.swap = opposes st ab := by
  rw [opposes, infProduct_swap, Prod.fst_swap, Prod.snd_swap, prodSign_comm, opposes]

theorem scanStep_swap (st : Scan) : scanStep st ab.swap = scanStep st ab := by
  rw [scanStep_eq, scanStep_eq, infProduct_swap, zeroTimesInf_swap, opposes_swap, Prod.fst_swap, Prod.snd_swap, prodSign_comm,
    Bool.or_comm ab.2.isNaN, Bool.or_comm ab.2.isSNaN]

theorem prodRef_swap (offset : Int) : prodRef offset ab.swap = prodRef offset ab := by
  simp only [prodRef, Prod.fst_swap, Prod.snd_swap, Bool.or_comm, add_comm]

theorem alignedProduct_swap (offset maxExp : Int) (F p2 : Nat) :
    alignedProduct offset maxExp F p2 ab.swap = alignedProduct offset maxExp F p2 ab := by
  rw [alignedProduct, alignedProduct, prodRef_swap]
  rw [Prod.fst_swap, Prod.snd_swap, prodSign_comm, Nat.mul_comm]

theorem offsetOf_comm (fA fB : FactorFmt) : offsetOf fA fB = offsetOf fB fA := by
  rw [offsetOf, offsetOf]
  ring

end Swap

theorem map_decodePair_swap (fA fB : FactorFmt) (L : List (Nat × Nat)) :
    (L.map Prod.swap).map (decodePair fB fA) = (L.map (decodePair fA fB)).map Prod.swap := by
  simp [decodePair]

/-- Settles O48: no step tells the two factors of a product apart. -/
theorem factorsCommute : Obligations.FactorsCommute := by
  intro fA fB n L C
  have hscan : scanPairs fB fA (L.map Prod.swap) C = scanPairs fA fB L C := by
    simp only [scanPairs, map_decodePair_swap, List.foldl_map, scanStep_swap]
  have hmax : pairsMaxExp fB fA (L.map Prod.swap) C = pairsMaxExp fA fB L C := by
    simp only [pairsMaxExp, maxExpOf, map_decodePair_swap, List.foldl_map, prodRef_swap, offsetOf_comm fB fA]
  have hacc : pairsAcc fB fA n (L.map Prod.swap) C = pairsAcc fA fB n L C := by
    rw [pairsAcc, pairsAcc, hmax, map_decodePair_swap, accumulate, accumulate, List.map_map, offsetOf_comm fB fA,
      Nat.add_comm fB.p]
    simp only [Function.comp_def, alignedProduct_swap]
  rw [rvbnaPairs_eq_scanResult, rvbnaPairs_eq_scanResult, hscan, hmax, hacc]

/-! ## Pairs with a zero -/

/-- The addend's reference exponent is at least the extremal value (42_bulk_normalization.md R194). -/
theorem minExpOf_le_addendRef (offset : Int) (c : Operand) : minExpOf offset ≤ addendRef offset c := by
  rw [addendRef]
  split_ifs
  · rfl
  · exact (min_le_right _ _).trans (Int.natCast_nonneg _)

theorem minExpOf_le_maxExpOf (offset : Int) (c : Operand) (P : List (Operand × Operand)) :
    minExpOf offset ≤ maxExpOf offset c P :=
  List.foldlRecOn (motive := (minExpOf offset ≤ ·)) P _ (minExpOf_le_addendRef offset c)
    fun _ hm _ _ => hm.trans (le_max_left ..)

/-- Zero products do not raise a reference exponent that has the extremal value or more. -/
theorem foldl_prodRef_zeroPairs {fA fB : FactorFmt} {Z : List (Nat × Nat)}
    (h : ∀ ab ∈ Z, zeroPair (decodePair fA fB ab) = true) {offset m : Int} (hm : minExpOf offset ≤ m) :
    Z.foldl (fun m ab => max m (prodRef offset (decodePair fA fB ab))) m = m := by
  refine List.foldlRecOn (motive := (· = m)) Z _ rfl fun m' hm' ab hab => ?_
  obtain ⟨-, hzero⟩ := (zeroPair_iff _).1 (h ab hab)
  rw [hm', prodRef, if_pos (by simpa using hzero), max_eq_left hm]

/-- Settles O49: pairs with a zero leave the scan, the maximum and the sum. -/
theorem zeroPairsChangeNothing : Obligations.ZeroPairsChangeNothing := by
  intro fA fB n L Z C hZ
  have hscan : scanPairs fA fB (L ++ Z) C = scanPairs fA fB L C := by
    rw [scanPairs, List.map_append, List.foldl_append, scan_zeroPairs hZ, scanPairs]
  have hmax : pairsMaxExp fA fB (L ++ Z) C = pairsMaxExp fA fB L C := by
    rw [pairsMaxExp, maxExpOf, List.map_append, List.foldl_append, List.foldl_map (l := Z)]
    exact foldl_prodRef_zeroPairs hZ (minExpOf_le_maxExpOf ..)
  have hacc : pairsAcc fA fB n (L ++ Z) C = pairsAcc fA fB n L C := by
    have hzero := accumulate_zeroPairs hZ (offsetOf fA fB) (pairsMaxExp fA fB L C) fp32Acc (clog2 n)
      (fA.p + fB.p) (decodeAddend fp32Acc C.toNat)
    rw [accumulate, add_eq_right] at hzero
    rw [pairsAcc, pairsAcc, hmax, accumulate, accumulate, List.map_append, List.map_append, List.sum_append, hzero, add_zero]
  rw [rvbnaPairs_eq_scanResult, rvbnaPairs_eq_scanResult, hscan, hmax, hacc]

end Sys2Proof.Machine
end

section
/-! SUPPORT. The final rounding of bulk normalization: to odd, with overflow to infinity (42_bulk_normalization.md R184 to R186,
R189, R199). -/

namespace Sys2Proof.Machine

/-! ## Rounding to odd -/

/-- The natural number is the rational rounded to odd: it is the rational, or odd and less than one away (R184). -/
def RoundedToOdd (r : Nat) (v : ℚ) : Prop := (r : ℚ) = v ∨ (r % 2 = 1 ∧ |(r : ℚ) - v| < 1)

theorem or_one_eq (n : Nat) : n ||| 1 = n / 2 * 2 + 1 := by
  have hdiv : (n ||| 1) / 2 = n / 2 := by simp [Nat.or_div_two]
  have hmod : (n ||| 1) % 2 = 1 := by simp [Nat.or_mod_two_eq_one]
  omega

/-- `shift_rto` rounds the shifted number to odd (R196, R202). -/
theorem shiftRto_roundedToOdd (x : Nat) (s : Int) : RoundedToOdd (shiftRto x s) (x * 2 ^ (-s)) := by
  by_cases hs : s ≤ 0
  · obtain ⟨k, hk⟩ := Int.eq_ofNat_of_zero_le (neg_nonneg.2 hs)
    rw [← neg_neg s, hk, shiftRto_neg, neg_neg, zpow_natCast]
    exact .inl (by push_cast; rfl)
  · obtain ⟨k, rfl⟩ := Int.eq_ofNat_of_zero_le (not_le.1 hs).le
    have hshift : shiftRto x k = x / 2 ^ k ||| if x % 2 ^ k = 0 then 0 else 1 := if_neg hs
    have hpow : (0 : ℚ) < 2 ^ k := by positivity
    have hv : (x : ℚ) * 2 ^ (-(k : Int)) = (x / 2 ^ k : Nat) + (x % 2 ^ k : Nat) / 2 ^ k := by
      rw [zpow_neg, zpow_natCast, ← div_eq_mul_inv, div_eq_iff hpow.ne', add_mul, div_mul_cancel₀ _ hpow.ne']
      exact_mod_cast (Nat.div_add_mod' x (2 ^ k)).symm
    rw [hshift, hv]
    by_cases hrest : x % 2 ^ k = 0
    · exact .inl (by simp [hrest])
    · have hpos : (0 : ℚ) < (x % 2 ^ k : Nat) / 2 ^ k := by
        have := Nat.pos_of_ne_zero hrest
        positivity
      have hlt : ((x % 2 ^ k : Nat) : ℚ) / 2 ^ k < 1 := by
        rw [div_lt_one hpow]
        exact_mod_cast Nat.mod_lt x (Nat.two_pow_pos k)
      rw [if_neg hrest, or_one_eq]
      refine .inr ⟨by omega, ?_⟩
      have hle : ((x / 2 ^ k : Nat) : ℚ) ≤ (x / 2 ^ k / 2 * 2 + 1 : Nat) := by exact_mod_cast (by omega)
      have hge : ((x / 2 ^ k / 2 * 2 + 1 : Nat) : ℚ) ≤ (x / 2 ^ k + 1 : Nat) := by exact_mod_cast (by omega)
      rw [Nat.cast_succ (x / 2 ^ k)] at hge
      rw [abs_lt]
      constructor
      · linarith
      · linarith

namespace RoundedToOdd

variable {r : Nat} {v : ℚ}

theorem abs_sub_lt (h : RoundedToOdd r v) : |(r : ℚ) - v| < 1 := by
  rcases h with rfl | ⟨-, h⟩
  · simp
  · exact h

/-- A value below a power of two is rounded to a number below it. -/
theorem lt_two_pow (h : RoundedToOdd r v) {k : Nat} (hk : k ≠ 0) (hv : v < 2 ^ k) : r < 2 ^ k := by
  rcases h with h | ⟨hodd, h⟩
  · rw [← h] at hv
    exact_mod_cast hv
  · have hle : (r : ℚ) < (2 ^ k + 1 : Nat) := by
      push_cast
      linarith [(abs_lt.1 h).2]
    have hle : r < 2 ^ k + 1 := by exact_mod_cast hle
    have heven : 2 ^ k % 2 = 0 := Nat.two_pow_mod_two_eq_zero.2 (Nat.pos_of_ne_zero hk)
    omega

/-- A value that reaches a power of two is rounded to a number that reaches it. -/
theorem two_pow_le (h : RoundedToOdd r v) {k : Nat} (hv : 2 ^ k ≤ v) : 2 ^ k ≤ r := by
  have hlt : ((2 ^ k : Nat) : ℚ) < (r + 1 : Nat) := by
    push_cast
    linarith [(abs_lt.1 h.abs_sub_lt).1]
  have hlt : 2 ^ k < r + 1 := by exact_mod_cast hlt
  omega

/-- What is not zero is not rounded to zero (R186). -/
theorem ne_zero (h : RoundedToOdd r v) (hv : v ≠ 0) : r ≠ 0 := by
  rintro rfl
  rcases h with h | ⟨hodd, -⟩
  · exact hv (by simpa using h.symm)
  · cases hodd

/-- The same at another weight. -/
theorem scale (h : RoundedToOdd r v) (e : Int) :
    (r : ℚ) * 2 ^ e = v * 2 ^ e ∨ (r % 2 = 1 ∧ |(r : ℚ) * 2 ^ e - v * 2 ^ e| < 2 ^ e) := by
  refine h.imp (fun h => by rw [h]) fun ⟨hodd, h⟩ => ⟨hodd, ?_⟩
  have hpos : (0 : ℚ) < 2 ^ e := by positivity
  rw [← sub_mul, abs_mul, abs_of_pos hpos]
  exact (mul_lt_iff_lt_one_left hpos).2 h

end RoundedToOdd

/-! ## The fields of the result -/

/-- The biased exponent, the mantissa and the overflow of a result (R199, R200). -/
structure ResultFields where
  exp : Nat
  mant : Nat
  overflow : Bool

/-- The fields that a non-zero accumulator of the given magnitude gives, whatever its sign (R199). -/
def resultFields (g : Nat) (maxExp : Int) (mag : Nat) : ResultFields :=
  if 255 ≤ maxExp + bitLength mag - 24 - g then ⟨255, 0, true⟩
  else if 1 ≤ maxExp + bitLength mag - 24 - g then
    ⟨(maxExp + bitLength mag - 24 - g).toNat, shiftRto mag (bitLength mag - 24) % 2 ^ 23, false⟩
  else ⟨0, shiftRto mag (g + 1 - maxExp), false⟩

/-- The result of a non-zero accumulator, by its sign and its magnitude. -/
theorem normalise_eq (g : Nat) (maxExp : Int) {acc : Int} (h : acc ≠ 0) :
    normalise fp32Acc g maxExp acc
      = (fp32Acc.assemble (decide (acc < 0)) (resultFields g maxExp acc.natAbs).exp (resultFields g maxExp acc.natAbs).mant,
        (resultFields g maxExp acc.natAbs).overflow) := by
  have hover : fp32Acc.overflowExp = 255 := rfl
  have hq : fp32Acc.q = 24 := rfl
  simp only [normalise, resultFields, if_neg h, hover, hq, Nat.cast_ofNat]
  split_ifs <;> rfl

/-- The significand, with the leading bit of a normal number (R191). -/
def ResultFields.sig (f : ResultFields) : Nat := (if f.exp = 0 then 0 else 2 ^ 23) + f.mant

/-- The exponent, 1 for a subnormal number (R191). -/
def ResultFields.ref (f : ResultFields) : Nat := if f.exp = 0 then 1 else f.exp

/-- The magnitude an accumulator stands for (R196). -/
def magRat (g : Nat) (maxExp : Int) (mag : Nat) : ℚ := mag * 2 ^ (maxExp - 150 - g)

section Fields

variable {g : Nat} {maxExp : Int} {mag : Nat} (hmag : mag ≠ 0)

include hmag

/-- The result exponent reaches the overflow exponent exactly where the magnitude reaches `2 ^ 128` (R189). -/
theorem two_pow_le_magRat_iff : 2 ^ 128 ≤ magRat g maxExp mag ↔ 255 ≤ maxExp + bitLength mag - 24 - g := by
  have h := two_pow_le_iff hmag (maxExp - 150 - g) 128
  rw [magRat]
  refine Iff.trans (by norm_cast) (h.trans ?_)
  omega

theorem resultFields_of_overflow (h : 2 ^ 128 ≤ magRat g maxExp mag) : resultFields g maxExp mag = ⟨255, 0, true⟩ :=
  if_pos ((two_pow_le_magRat_iff hmag).1 h)

/-- Without overflow the fields are those of a finite number, whose significand is the magnitude rounded to odd. -/
theorem resultFields_of_not_overflow (h : ¬2 ^ 128 ≤ magRat g maxExp mag) :
    (resultFields g maxExp mag).overflow = false ∧ (resultFields g maxExp mag).exp < 255
      ∧ (resultFields g maxExp mag).mant < 2 ^ 23
      ∧ RoundedToOdd (resultFields g maxExp mag).sig
          (magRat g maxExp mag * 2 ^ (150 - (resultFields g maxExp mag).ref : Int)) := by
  rw [two_pow_le_magRat_iff hmag] at h
  have hscale (s : Int) (ref : Nat) (hs : s = g - maxExp + ref) :
      magRat g maxExp mag * 2 ^ (150 - ref : Int) = mag * 2 ^ (-s) := by
    rw [magRat, mul_assoc, ← zpow_add₀ two_ne_zero]
    congr 2
    omega
  by_cases hnormal : 1 ≤ maxExp + bitLength mag - 24 - g
  · obtain ⟨e, he⟩ := Int.eq_ofNat_of_zero_le (zero_le_one.trans hnormal)
    have hround := shiftRto_roundedToOdd mag (bitLength mag - 24)
    have hlt := hround.lt_two_pow (k := 24) (by norm_num)
      (by rw [← zpow_natCast]; exact (lt_two_pow_iff hmag ..).2 (by omega))
    have hge := hround.two_pow_le (k := 23) (by rw [← zpow_natCast]; exact (two_pow_le_iff hmag ..).2 (by omega))
    have hfields : resultFields g maxExp mag = ⟨e, shiftRto mag (bitLength mag - 24) % 2 ^ 23, false⟩ := by
      rw [resultFields, if_neg h, if_pos hnormal, he]
      rfl
    have hsig : (resultFields g maxExp mag).sig = shiftRto mag (bitLength mag - 24) := by
      rw [hfields, ResultFields.sig, if_neg (show e ≠ 0 by omega)]
      show 2 ^ 23 + shiftRto mag (bitLength mag - 24) % 2 ^ 23 = _
      omega
    have href : (resultFields g maxExp mag).ref = e := by
      rw [hfields]
      exact if_neg (show e ≠ 0 by omega)
    rw [hsig, href, hscale (bitLength mag - 24) e (by omega), hfields]
    exact ⟨rfl, show e < 255 by omega, Nat.mod_lt _ (by norm_num), hround⟩
  · have hround := shiftRto_roundedToOdd mag (g + 1 - maxExp)
    have hlt := hround.lt_two_pow (k := 23) (by norm_num)
      (by rw [← zpow_natCast]; exact (lt_two_pow_iff hmag ..).2 (by omega))
    have hfields : resultFields g maxExp mag = ⟨0, shiftRto mag (g + 1 - maxExp), false⟩ := by
      rw [resultFields, if_neg h, if_neg hnormal]
    have hsig : (resultFields g maxExp mag).sig = shiftRto mag (g + 1 - maxExp) := by
      rw [hfields]
      exact Nat.zero_add _
    have href : (resultFields g maxExp mag).ref = 1 := by
      rw [hfields]
      rfl
    rw [hsig, href, hscale (g + 1 - maxExp) 1 (by omega), hfields]
    exact ⟨rfl, by norm_num, hlt, hround⟩

end Fields

end Sys2Proof.Machine
end

section
/-! SUPPORT. The word of a bulk-normalized result (42_bulk_normalization.md R186, R199, R200). -/

namespace Sys2Proof.Machine

/-! ## The word of the fields -/

theorem assemble_lt (sign : Bool) {exp mant : Nat} (hexp : exp < 256) (hmant : mant < 2 ^ 23) :
    fp32Acc.assemble sign exp mant < 2 ^ 32 := by
  have := sign.toNat_le
  simp only [AccFmt.assemble, fp32Acc]
  omega

/-- A significand has its leading bit, or is subnormal. -/
theorem ResultFields.normal_or_subnormal (f : ResultFields) : 2 ^ 23 ≤ f.sig ∨ f.ref = 1 := by
  unfold ResultFields.sig ResultFields.ref
  split_ifs
  · exact .inr rfl
  · exact .inl (Nat.le_add_right ..)

/-- Decoding the word of a finite result gives its fields back (R191, R200). -/
theorem decodeAddend_assemble (sign : Bool) {f : ResultFields} (hexp : f.exp < 255) (hmant : f.mant < 2 ^ 23) :
    let d := decodeAddend fp32Acc (fp32Acc.assemble sign f.exp f.mant)
    d.isInf = false ∧ d.isNaN = false ∧ d.sign = sign ∧ d.sig = f.sig ∧ d.ref = f.ref := by
  intro d
  obtain ⟨hsign, hE, hM⟩ := fp32_ofNat_assemble sign (by omega : f.exp < 256) hmant
  have hd : d = decodeAddend fp32Acc (BitVec.ofNat 32 (fp32Acc.assemble sign f.exp f.mant)).toNat := by
    rw [BitVec.toNat_ofNat, Nat.mod_eq_of_lt (assemble_lt sign (by omega) hmant)]
  have hfinite : fp32Finite (BitVec.ofNat 32 (fp32Acc.assemble sign f.exp f.mant)) := by
    show fp32Exp _ ≠ 255
    omega
  rw [hd]
  refine ⟨?_, ?_, ?_, ?_, ?_⟩
  · rw [← Bool.not_eq_true, decodeAddend_isInf_iff]
    exact hfinite.not_isInf
  · rw [← Bool.not_eq_true, decodeAddend_isNaN_iff]
    exact hfinite.not_isNaN
  · rw [decodeAddend_sign, hsign]
  · rw [decodeAddend_sig, hE, hM]
    rfl
  · rw [decodeAddend_ref, hE]
    rfl

/-- The rational of the word of a finite result. -/
theorem fp32Rat_assemble (sign : Bool) {f : ResultFields} (hexp : f.exp < 255) (hmant : f.mant < 2 ^ 23) :
    fp32Rat (BitVec.ofNat 32 (fp32Acc.assemble sign f.exp f.mant)) = finRat sign f.sig (f.ref - 150) := by
  obtain ⟨hsign, hE, hM⟩ := fp32_ofNat_assemble sign (by omega : f.exp < 256) hmant
  rw [fp32Rat_eq, hsign, fp32Sig, fp32LastExp, decodeAddend_sig, decodeAddend_ref, hE, hM, sub_sub]
  rfl

/-! ## The rounding as a whole -/

theorem finRat_sub (sign : Bool) (m m' : Nat) (e e' : Int) :
    |finRat sign m e - finRat sign m' e'| = |(m : ℚ) * 2 ^ e - m' * 2 ^ e'| := by
  cases sign
  · rw [finRat_false, finRat_false]
  · rw [finRat_true, finRat_true, finRat_false, finRat_false, neg_sub_neg, abs_sub_comm]

theorem finRat_congr (sign : Bool) {m m' : Nat} {e e' : Int} (h : (m : ℚ) * 2 ^ e = m' * 2 ^ e') :
    finRat sign m e = finRat sign m' e' := by
  rw [← sub_eq_zero, ← abs_eq_zero, finRat_sub, h, sub_self, abs_zero]

theorem accRat_eq (g : Nat) (maxExp acc : Int) :
    accRat g maxExp acc = finRat (decide (acc < 0)) acc.natAbs (maxExp - 150 - g) := (finRat_natAbs ..).symm

theorem abs_accRat (g : Nat) (maxExp acc : Int) : |accRat g maxExp acc| = magRat g maxExp acc.natAbs := by
  rw [accRat_eq, abs_finRat, magRat]

section Normalise

variable {g : Nat} {maxExp acc : Int} (hacc : acc ≠ 0)

include hacc

theorem normalise_of_overflow (h : 2 ^ 128 ≤ |accRat g maxExp acc|) :
    normalise fp32Acc g maxExp acc = (fp32Acc.infinity (decide (acc < 0)), true) := by
  rw [abs_accRat] at h
  rw [normalise_eq g maxExp hacc, resultFields_of_overflow (Int.natAbs_ne_zero.2 hacc) h]
  rfl

theorem normalise_of_not_overflow (h : ¬2 ^ 128 ≤ |accRat g maxExp acc|) :
    ∃ f : ResultFields, normalise fp32Acc g maxExp acc = (fp32Acc.assemble (decide (acc < 0)) f.exp f.mant, false)
      ∧ f.exp < 255 ∧ f.mant < 2 ^ 23 ∧ RoundedToOdd f.sig (|accRat g maxExp acc| * 2 ^ (150 - f.ref : Int)) := by
  rw [abs_accRat] at h ⊢
  obtain ⟨hflag, hexp, hmant, hround⟩ := resultFields_of_not_overflow (Int.natAbs_ne_zero.2 hacc) h
  exact ⟨_, by rw [normalise_eq g maxExp hacc, hflag], hexp, hmant, hround⟩

end Normalise

/-- Settles O52: an infinity where the accumulator overflows, else the word of its magnitude rounded to odd. -/
theorem finalRoundingIsToOdd : Obligations.FinalRoundingIsToOdd := by
  intro g maxExp acc hacc
  dsimp only
  by_cases hover : 2 ^ 128 ≤ |accRat g maxExp acc|
  · rw [normalise_of_overflow hacc hover]
    refine ⟨assemble_lt _ (by decide) (by decide), iff_of_true rfl hover, fun _ => ?_, nofun⟩
    by_cases hneg : acc < 0
    · rw [if_pos hneg, decide_eq_true hneg]; rfl
    · rw [if_neg hneg, decide_eq_false hneg]; rfl
  · obtain ⟨f, hr, hexp, hmant, hround⟩ := normalise_of_not_overflow hacc hover
    obtain ⟨hinf, hnan, hsign, hsig, href⟩ := decodeAddend_assemble (decide (acc < 0)) hexp hmant
    rw [hr]
    dsimp only
    rw [hsig, href, fp32Rat_assemble _ hexp hmant, accRat_eq, finRat_sub]
    refine ⟨assemble_lt _ (by omega) hmant, iff_of_false nofun (accRat_eq .. ▸ hover), nofun,
      fun _ => ⟨hinf, hnan, hsign, f.normal_or_subnormal, ?_⟩⟩
    have hscaled := hround.scale (f.ref - 150)
    rw [mul_assoc, ← zpow_add₀ two_ne_zero, sub_add_sub_cancel', sub_self, zpow_zero, mul_one, abs_accRat, magRat] at hscaled
    exact hscaled.imp_left (finRat_congr _)

/-! ## Zero results -/

/-- The fields of a non-zero accumulator are those of a non-zero number or of an infinity (R186, R189). -/
theorem resultFields_bounds (g : Nat) (maxExp : Int) {mag : Nat} (hmag : mag ≠ 0) :
    (resultFields g maxExp mag).exp < 256 ∧ (resultFields g maxExp mag).mant < 2 ^ 23
      ∧ ((resultFields g maxExp mag).exp = 255 → (resultFields g maxExp mag).mant = 0)
      ∧ ¬((resultFields g maxExp mag).exp = 0 ∧ (resultFields g maxExp mag).mant = 0) := by
  by_cases hover : 2 ^ 128 ≤ magRat g maxExp mag
  · rw [resultFields_of_overflow hmag hover]
    exact ⟨by norm_num, by norm_num, fun _ => rfl, by norm_num⟩
  · obtain ⟨-, hexp, hmant, hround⟩ := resultFields_of_not_overflow hmag hover
    have hsig := hround.ne_zero (by rw [magRat]; positivity)
    refine ⟨by omega, hmant, by omega, fun ⟨hE, hM⟩ => hsig ?_⟩
    rw [ResultFields.sig, if_pos hE, hM]

/-- The word of a non-zero accumulator is no zero. -/
theorem normalise_fst_ne (g : Nat) (maxExp : Int) {acc : Int} (hacc : acc ≠ 0) :
    (normalise fp32Acc g maxExp acc).1 ≠ 0 ∧ (normalise fp32Acc g maxExp acc).1 ≠ 0x80000000 := by
  rw [normalise_eq g maxExp hacc]
  obtain ⟨hexp, hmant, -, hne⟩ := resultFields_bounds g maxExp (Int.natAbs_ne_zero.2 hacc)
  cases decide (acc < 0) with
  | false =>
    simp only [AccFmt.assemble, fp32Acc, Bool.toNat_false]
    omega
  | true =>
    simp only [AccFmt.assemble, fp32Acc, Bool.toNat_true]
    omega

/-- Without a NaN or an infinity among the operands the result is the normalised accumulator. -/
theorem rvbnaPairs_of_finite {fA fB : FactorFmt} {L : List (Nat × Nat)} {C : BitVec 32}
    (hL : ∀ ab ∈ L, finitePair (decodePair fA fB ab) = true) (hC : fp32Finite C) (n : Nat) :
    rvbnaPairs fA fB n L C
      = ⟨(normalise fp32Acc (clog2 n) (pairsMaxExp fA fB L C) (pairsAcc fA fB n L C)).1, false,
        (normalise fp32Acc (clog2 n) (pairsMaxExp fA fB L C) (pairsAcc fA fB n L C)).2⟩ := by
  have hspec := scanPairs_spec fA fB L C
  have hpair : ∀ ab ∈ L.map (decodePair fA fB),
      ab.1.isInf = false ∧ ab.1.isNaN = false ∧ ab.2.isInf = false ∧ ab.2.isNaN = false := by
    intro ab hab
    obtain ⟨x, hx, rfl⟩ := List.mem_map.1 hab
    simpa [finitePair, and_assoc] using hL x hx
  have hinf (sign : Bool) : ¬infTerm (decodeAddend fp32Acc C.toNat) (L.map (decodePair fA fB)) sign := by
    rintro (⟨hc, -⟩ | ⟨ab, hab, hprod, -⟩)
    · exact hC.not_isInf ((decodeAddend_isInf_iff C).1 hc)
    · obtain ⟨ha, -, hb, -⟩ := hpair ab hab
      simp [infProduct, ha, hb] at hprod
  have hinfinite : (scanPairs fA fB L C).infinite = false := by
    rw [← Bool.not_eq_true, hspec.infinite]
    exact fun ⟨sign, h⟩ => hinf sign h
  have hnan : (scanPairs fA fB L C).nanResult = false := by
    rw [← Bool.not_eq_true, hspec.nan]
    rintro ((hc | ⟨ab, hab, h⟩) | ⟨ab, hab, h⟩ | ⟨h, -⟩)
    · exact hC.not_isNaN ((decodeAddend_isNaN_iff C).1 hc)
    · obtain ⟨-, ha, -, hb⟩ := hpair ab hab
      simp [ha, hb] at h
    · obtain ⟨ha, -, hb, -⟩ := hpair ab hab
      simp [zeroTimesInf, ha, hb] at h
    · exact hinf true h
  rw [rvbnaPairs_eq_scanResult, scanResult_of_finite _ hnan hinfinite]

/-- Settles O51: no special result is `-0`, and no non-zero accumulator gives a zero. -/
theorem zeroResultIsPositive : Obligations.ZeroResultIsPositive := by
  intro fA fB n L C _ _
  have hzero : normalise fp32Acc (clog2 n) (pairsMaxExp fA fB L C) 0 = (0, false) := normalise_zero ..
  refine ⟨?_, fun hL hC => ?_⟩
  · rw [rvbnaPairs_eq_scanResult]
    cases hnan : (scanPairs fA fB L C).nanResult with
    | true =>
      rw [scanResult_of_nan _ hnan]
      exact (by decide : (0x7FC00000 : Nat) ≠ 0x80000000)
    | false =>
      cases hinf : (scanPairs fA fB L C).infinite with
      | true =>
        rw [scanResult_of_infinite _ hnan hinf]
        cases (scanPairs fA fB L C).infiniteSign <;> decide
      | false =>
        rw [scanResult_of_finite _ hnan hinf]
        by_cases hacc : pairsAcc fA fB n L C = 0
        · rw [hacc, hzero]
          decide
        · exact (normalise_fst_ne _ _ hacc).2
  · rw [rvbnaPairs_of_finite hL hC]
    show (normalise fp32Acc (clog2 n) (pairsMaxExp fA fB L C) (pairsAcc fA fB n L C)).1 = 0 ↔ pairsAcc fA fB n L C = 0
    refine ⟨fun h => ?_, fun h => by rw [h, hzero]⟩
    by_contra hacc
    exact (normalise_fst_ne _ _ hacc).1 h

end Sys2Proof.Machine
end

section
/-! SUPPORT. The sign symmetry of bulk normalization (42_bulk_normalization.md R204 (f)). -/

namespace Sys2Proof.Machine

/-! ## The sign bit -/

theorem bitField_xor_two_pow (X : Nat) {lsb width k : Nat} (h : lsb + width ≤ k) :
    bitField (X ^^^ 2 ^ k) lsb width = bitField X lsb width := by
  refine Nat.eq_of_testBit_eq fun j => ?_
  rw [bitField_testBit, bitField_testBit, Nat.testBit_xor, Nat.testBit_two_pow]
  by_cases hj : j < width
  · simp [show k ≠ lsb + j by omega]
  · simp [hj]

/-- The operand with the other sign. -/
def Operand.flip (a : Operand) : Operand := { a with sign := !a.sign }

/-- Changing the top bit of an encoded operand changes its sign alone (42_bulk_normalization.md R192). -/
theorem decodeFactor_xor_sign {f : FactorFmt} (hp : 0 < f.p) (X : Nat) :
    decodeFactor f (X ^^^ 2 ^ (f.e + f.p - 1)) = (decodeFactor f X).flip := by
  have hexp : bitField (X ^^^ 2 ^ (f.e + f.p - 1)) (f.p - 1) f.e = bitField X (f.p - 1) f.e :=
    bitField_xor_two_pow X (by omega)
  have hmant : bitField (X ^^^ 2 ^ (f.e + f.p - 1)) 0 (f.p - 1) = bitField X 0 (f.p - 1) :=
    bitField_xor_two_pow X (by omega)
  have hsign : (X ^^^ 2 ^ (f.e + f.p - 1)).testBit (f.e + (f.p - 1)) = !X.testBit (f.e + (f.p - 1)) := by
    rw [Nat.testBit_xor, Nat.testBit_two_pow, decide_eq_true (by omega), Bool.xor_true]
  simp only [decodeFactor, hexp, hmant, hsign, Operand.flip]

theorem decodeAddend_xor_sign (C : BitVec 32) :
    decodeAddend fp32Acc (C ^^^ 0x80000000).toNat = (decodeAddend fp32Acc C.toNat).flip := by
  rw [BitVec.toNat_xor]
  exact decodeFactor_xor_sign (f := ⟨8, 24, .ieee⟩) (by norm_num) _

/-- The pair whose product has the other sign. -/
def flipFirst (ab : Operand × Operand) : Operand × Operand := (ab.1.flip, ab.2)

theorem xor_two_pow_of_lt {low k : Nat} (h : low < 2 ^ k) : low ^^^ 2 ^ k = 2 ^ k * 1 + low := by
  refine Nat.eq_of_testBit_eq fun j => ?_
  rw [Nat.testBit_two_pow_mul_add 1 h, Nat.testBit_xor, Nat.testBit_two_pow]
  rcases lt_trichotomy j k with hj | rfl | hj
  · simp [hj, hj.ne']
  · simp [Nat.testBit_lt_two_pow h]
  · have hone : (1 : Nat).testBit (j - k) = false := Nat.testBit_lt_two_pow (Nat.one_lt_two_pow (by omega))
    have hlow := Nat.testBit_lt_two_pow (h.trans (Nat.pow_lt_pow_right one_lt_two hj))
    simp [hone, hlow, hj.ne, hj.not_gt]

/-- A word with the other sign. -/
theorem assemble_not (sign : Bool) {exp mant : Nat} (hexp : exp < 256) (hmant : mant < 2 ^ 23) :
    fp32Acc.assemble (!sign) exp mant = fp32Acc.assemble sign exp mant ^^^ 2 ^ 31 := by
  have hfalse : fp32Acc.assemble false exp mant = exp * 2 ^ 23 + mant := by
    rw [AccFmt.assemble, Bool.toNat_false, Nat.zero_mul, Nat.zero_add]
    rfl
  have htrue : fp32Acc.assemble true exp mant = fp32Acc.assemble false exp mant ^^^ 2 ^ 31 := by
    rw [hfalse, xor_two_pow_of_lt (by omega), AccFmt.assemble, Bool.toNat_true, Nat.add_assoc, Nat.mul_comm]
    rfl
  cases sign with
  | false => exact htrue
  | true => rw [htrue, Nat.xor_assoc, Nat.xor_self, Nat.xor_zero, Bool.not_true]

/-! ## The scan and the sum -/

section Flip

variable (ab : Operand × Operand)

theorem prodSign_flipFirst : prodSign (flipFirst ab).1 (flipFirst ab).2 = !prodSign ab.1 ab.2 := Bool.not_xor ..

theorem signedTerm_not (sign : Bool) (n : Nat) : signedTerm (!sign) n = -signedTerm sign n := by
  cases sign <;> simp [signedTerm]

/-- The scan with every infinity of the other sign. -/
def Scan.flip (st : Scan) : Scan := { st with infiniteSign := !st.infiniteSign }

theorem scanStep_flip (st : Scan) : scanStep st.flip (flipFirst ab) = (scanStep st ab).flip := by
  have hopposes : opposes st.flip (flipFirst ab) = opposes st ab := by
    rw [opposes, prodSign_flipFirst]
    exact congrArg (st.infinite && infProduct ab && ·) (Bool.not_bne_not ..)
  have hprod : infProduct (flipFirst ab) = infProduct ab := rfl
  rw [scanStep_eq, scanStep_eq, hopposes, hprod, prodSign_flipFirst]
  cases infProduct ab <;> rfl

theorem alignedProduct_flip (offset maxExp : Int) (F p2 : Nat) :
    alignedProduct offset maxExp F p2 (flipFirst ab) = -alignedProduct offset maxExp F p2 ab := by
  rw [alignedProduct, prodSign_flipFirst, signedTerm_not]
  rfl

end Flip

section Flipped

variable {fA fB : FactorFmt} (hp : 0 < fA.p) (L : List (Nat × Nat)) (C : BitVec 32)

/-- The pairs with the sign of the first factor changed. -/
def flipPairs (fA : FactorFmt) (L : List (Nat × Nat)) : List (Nat × Nat) :=
  L.map fun ab => (ab.1 ^^^ 2 ^ (fA.e + fA.p - 1), ab.2)

include hp

theorem map_decodePair_flip : (flipPairs fA L).map (decodePair fA fB) = (L.map (decodePair fA fB)).map flipFirst := by
  simp [flipPairs, decodePair, flipFirst, decodeFactor_xor_sign hp]

theorem scanPairs_flip : scanPairs fA fB (flipPairs fA L) (C ^^^ 0x80000000) = (scanPairs fA fB L C).flip := by
  rw [scanPairs, map_decodePair_flip hp, List.foldl_map, decodeAddend_xor_sign, scanPairs]
  exact List.foldl_hom Scan.flip (init := scanInit (decodeAddend fp32Acc C.toNat)) fun st ab => scanStep_flip ab st

theorem pairsMaxExp_flip : pairsMaxExp fA fB (flipPairs fA L) (C ^^^ 0x80000000) = pairsMaxExp fA fB L C := by
  rw [pairsMaxExp, map_decodePair_flip hp, maxExpOf, List.foldl_map, decodeAddend_xor_sign]
  rfl

theorem pairsAcc_flip (n : Nat) : pairsAcc fA fB n (flipPairs fA L) (C ^^^ 0x80000000) = -pairsAcc fA fB n L C := by
  rw [pairsAcc, pairsMaxExp_flip hp, map_decodePair_flip hp, decodeAddend_xor_sign, accumulate, List.map_map, pairsAcc,
    accumulate, neg_add]
  congr 1
  · simp only [List.sum_neg, List.map_map]
    exact congrArg List.sum (List.map_congr_left fun ab _ => alignedProduct_flip ..)
  · exact signedTerm_not ..

end Flipped

/-- An accumulator and its negation differ in the sign of a result that is not zero, and in nothing else (R199). -/
theorem normalise_neg (g : Nat) (maxExp acc : Int) :
    (normalise fp32Acc g maxExp (-acc)).2 = (normalise fp32Acc g maxExp acc).2
      ∧ (normalise fp32Acc g maxExp (-acc)).1
        = if (normalise fp32Acc g maxExp acc).1 = 0 ∨ (normalise fp32Acc g maxExp acc).1 = 0x7FC00000 then
            (normalise fp32Acc g maxExp acc).1
          else (normalise fp32Acc g maxExp acc).1 ^^^ 0x80000000 := by
  by_cases hacc : acc = 0
  · rw [hacc, neg_zero, normalise_zero]
    exact ⟨rfl, rfl⟩
  · have hne := (normalise_fst_ne g maxExp hacc).1
    obtain ⟨hexp, hmant, hinf, -⟩ := resultFields_bounds g maxExp (Int.natAbs_ne_zero.2 hacc)
    have hsign : decide (-acc < 0) = !decide (acc < 0) := by
      rw [← decide_not, decide_eq_decide]
      omega
    rw [normalise_eq g maxExp hacc] at hne ⊢
    rw [normalise_eq g maxExp (neg_ne_zero.2 hacc), Int.natAbs_neg, hsign, assemble_not _ hexp hmant, if_neg]
    · exact ⟨rfl, rfl⟩
    · rintro (h | h)
      · exact hne h
      · have := (decide (acc < 0)).toNat_le
        simp only [AccFmt.assemble, fp32Acc] at h
        omega

/-- Settles O50: the scan finds infinities of the other sign, and the sum is the negated one. -/
theorem signSymmetry : Obligations.SignSymmetry := by
  intro fA fB n L C hA _
  have hp : 0 < fA.p := by
    revert fA
    decide
  obtain ⟨hover, hbits⟩ := normalise_neg (clog2 n) (pairsMaxExp fA fB L C) (pairsAcc fA fB n L C)
  have hflipped : rvbnaPairs fA fB n (L.map fun ab => (ab.1 ^^^ 2 ^ (fA.e + fA.p - 1), ab.2)) (C ^^^ 0x80000000)
      = scanResult (scanPairs fA fB L C).flip
        (normalise fp32Acc (clog2 n) (pairsMaxExp fA fB L C) (-pairsAcc fA fB n L C)) := by
    rw [← scanPairs_flip hp, ← pairsMaxExp_flip hp, ← pairsAcc_flip hp, ← rvbnaPairs_eq_scanResult]
    rfl
  dsimp only
  rw [hflipped, rvbnaPairs_eq_scanResult]
  cases hnan : (scanPairs fA fB L C).nanResult with
  | true =>
    rw [scanResult_of_nan _ hnan, scanResult_of_nan (scan := (scanPairs fA fB L C).flip) _ hnan]
    exact ⟨rfl, rfl, rfl⟩
  | false =>
    cases hinf : (scanPairs fA fB L C).infinite with
    | true =>
      rw [scanResult_of_infinite _ hnan hinf, scanResult_of_infinite (scan := (scanPairs fA fB L C).flip) _ hnan hinf]
      refine ⟨rfl, rfl, ?_⟩
      show (if (!(scanPairs fA fB L C).infiniteSign) = true then _ else _) = _
      cases (scanPairs fA fB L C).infiniteSign <;> decide
    | false =>
      rw [scanResult_of_finite _ hnan hinf, scanResult_of_finite (scan := (scanPairs fA fB L C).flip) _ hnan hinf]
      exact ⟨rfl, hover, hbits⟩

end Sys2Proof.Machine
end

section
/-! SUPPORT. The error of the alignment of bulk normalization (42_bulk_normalization.md R196 to R198, R204 (g)). -/

namespace Sys2Proof.Machine

/-! ## One term -/

/-- A term that is shifted to the accumulator loses less than one of its units (R196, R197). -/
theorem signedTerm_shiftRto_error (sign : Bool) (x : Nat) (s u : Int) :
    |(signedTerm sign (shiftRto x s) : ℚ) * 2 ^ u - finRat sign x (u - s)| < 2 ^ u := by
  have hpos : (0 : ℚ) < 2 ^ u := by positivity
  have hsplit : (x : ℚ) * 2 ^ (u - s) = x * 2 ^ (-s) * 2 ^ u := by
    rw [mul_assoc, ← zpow_add₀ two_ne_zero, neg_add_eq_sub]
  rw [signedTerm_cast, finRat_sub, hsplit, ← sub_mul, abs_mul, abs_of_pos hpos]
  exact (mul_lt_iff_lt_one_left hpos).2 (shiftRto_roundedToOdd x s).abs_sub_lt

/-- The error of an aligned product. -/
theorem alignedProduct_error (fA fB : FactorFmt) (g : Nat) (maxExp : Int) (ab : Nat × Nat) :
    |(alignedProduct (offsetOf fA fB) maxExp (23 + g) (fA.p + fB.p) (decodePair fA fB ab) : ℚ) * 2 ^ (maxExp - 150 - g : Int)
        - factorRat fA ab.1 * factorRat fB ab.2| < 2 ^ (maxExp - 150 - g : Int) := by
  have hvalue : factorRat fA ab.1 * factorRat fB ab.2
      = finRat (prodSign (decodePair fA fB ab).1 (decodePair fA fB ab).2)
        ((decodePair fA fB ab).1.sig * (decodePair fA fB ab).2.sig)
        ((maxExp - 150 - g) - ((maxExp - prodRef (offsetOf fA fB) (decodePair fA fB ab))
          - (((23 + g : Nat) : Int) - (((fA.p + fB.p : Nat) : Int) - 2)))) := by
    have hfactor : factorRat fA ab.1 * factorRat fB ab.2
        = finRat (decodePair fA fB ab).1.sign (decodePair fA fB ab).1.sig
            ((decodePair fA fB ab).1.ref - fA.bias - ((fA.p : Int) - 1))
          * finRat (decodePair fA fB ab).2.sign (decodePair fA fB ab).2.sig
            ((decodePair fA fB ab).2.ref - fB.bias - ((fB.p : Int) - 1)) := rfl
    rw [hfactor, ← finRat_mul]
    refine finRat_congr _ ?_
    by_cases hzero : (decodePair fA fB ab).1.isZero = true ∨ (decodePair fA fB ab).2.isZero = true
    · have hsig : (decodePair fA fB ab).1.sig * (decodePair fA fB ab).2.sig = 0 :=
        Nat.mul_eq_zero.2 (hzero.imp decodeFactor_sig_of_isZero decodeFactor_sig_of_isZero)
      rw [hsig, Nat.cast_zero, zero_mul, zero_mul]
    · have href : prodRef (offsetOf fA fB) (decodePair fA fB ab)
          = (decodePair fA fB ab).1.ref + (decodePair fA fB ab).2.ref + offsetOf fA fB := if_neg (by simpa using hzero)
      rw [href, offsetOf]
      congr 2
      push_cast
      ring
  rw [hvalue]
  exact signedTerm_shiftRto_error ..

/-- The error of the aligned addend. -/
theorem alignedAddend_error (offset maxExp : Int) (g : Nat) (C : BitVec 32) :
    |(alignedAddend offset maxExp g (decodeAddend fp32Acc C.toNat) : ℚ) * 2 ^ (maxExp - 150 - g : Int) - fp32Rat C|
      < 2 ^ (maxExp - 150 - g : Int) := by
  have hvalue : fp32Rat C = finRat (decodeAddend fp32Acc C.toNat).sign (decodeAddend fp32Acc C.toNat).sig
      ((maxExp - 150 - g) - ((maxExp - addendRef offset (decodeAddend fp32Acc C.toNat)) - g)) := by
    rw [fp32Rat_eq, ← decodeAddend_sign]
    refine finRat_congr _ ?_
    by_cases hzero : (decodeAddend fp32Acc C.toNat).isZero = true
    · have hsig : (decodeAddend fp32Acc C.toNat).sig = 0 := decodeFactor_sig_of_isZero hzero
      rw [fp32Sig, hsig, Nat.cast_zero, zero_mul, zero_mul]
    · rw [addendRef, if_neg hzero, fp32LastExp]
      congr 2
      ring
  rw [hvalue]
  exact signedTerm_shiftRto_error ..

/-! ## The sum -/

theorem abs_sum_map_sub_le {α : Type} {f g : α → ℚ} {u : ℚ} {l : List α} (h : ∀ a ∈ l, |f a - g a| ≤ u) :
    |(l.map f).sum - (l.map g).sum| ≤ l.length * u := by
  induction l with
  | nil => simp
  | cons a rest ih =>
    have hhead := h a List.mem_cons_self
    have htail := ih fun b hb => h b (List.mem_cons_of_mem _ hb)
    rw [List.map_cons, List.map_cons, List.sum_cons, List.sum_cons, add_sub_add_comm, List.length_cons]
    calc |f a - g a + ((rest.map f).sum - (rest.map g).sum)|
        ≤ |f a - g a| + |(rest.map f).sum - (rest.map g).sum| := abs_add_le ..
      _ ≤ u + rest.length * u := add_le_add hhead htail
      _ = ((rest.length + 1 : Nat) : ℚ) * u := by push_cast; ring

/-- The accumulator differs from the exact sum by less than one unit for each term. -/
theorem accumulate_error (fA fB : FactorFmt) (g : Nat) (maxExp : Int) (L : List (Nat × Nat)) (C : BitVec 32) :
    |accRat g maxExp (accumulate (offsetOf fA fB) maxExp fp32Acc g (fA.p + fB.p) (decodeAddend fp32Acc C.toNat)
          (L.map (decodePair fA fB)))
        - ((L.map fun ab => factorRat fA ab.1 * factorRat fB ab.2).sum + fp32Rat C)|
      < (L.length + 1) * 2 ^ (maxExp - 150 - g : Int) := by
  have hsplit : accRat g maxExp (accumulate (offsetOf fA fB) maxExp fp32Acc g (fA.p + fB.p) (decodeAddend fp32Acc C.toNat)
        (L.map (decodePair fA fB)))
      = (L.map fun ab => (alignedProduct (offsetOf fA fB) maxExp (23 + g) (fA.p + fB.p) (decodePair fA fB ab) : ℚ)
          * 2 ^ (maxExp - 150 - g : Int)).sum
        + alignedAddend (offsetOf fA fB) maxExp g (decodeAddend fp32Acc C.toNat) * 2 ^ (maxExp - 150 - g : Int) := by
    rw [accRat, accumulate, Int.cast_add, add_mul, Int.cast_list_sum, List.map_map, List.map_map, ← List.sum_map_mul_right]
    rfl
  rw [hsplit, add_sub_add_comm, add_mul, one_mul]
  refine (abs_add_le _ _).trans_lt (add_lt_add_of_le_of_lt ?_ (alignedAddend_error ..))
  exact abs_sum_map_sub_le fun ab _ => (alignedProduct_error fA fB g maxExp ab).le

theorem le_two_pow_clog2 (n : Nat) : n ≤ 2 ^ clog2 n := by
  unfold clog2
  split_ifs with h
  · exact h
  · have := Nat.lt_log2_self (n := n - 1)
    omega

/-- Settles O53: the accumulator's error term by term, and at most `2 ^ (g + 1)` terms of it. -/
theorem alignmentErrorBound : Obligations.AlignmentErrorBound := by
  intro fA fB n L C _ _ hL hC P c g maxExp acc total
  have herror : |accRat g maxExp acc - total| < (L.length + 1) * 2 ^ (maxExp - 150 - g : Int) := accumulate_error ..
  refine ⟨rvbnaPairs_of_finite hL hC n, herror, fun hlen => herror.trans_le ?_⟩
  have hterms : ((L.length : ℚ) + 1) ≤ 2 ^ (g + 1) := by
    have hle : n ≤ 2 ^ g := le_two_pow_clog2 n
    have hone := Nat.one_le_two_pow (n := g)
    exact_mod_cast (by rw [pow_succ]; omega : L.length + 1 ≤ 2 ^ (g + 1))
  calc ((L.length : ℚ) + 1) * 2 ^ (maxExp - 150 - g : Int)
      ≤ 2 ^ (g + 1) * 2 ^ (maxExp - 150 - g : Int) := mul_le_mul_of_nonneg_right hterms (by positivity)
    _ = 2 ^ (maxExp - 149 : Int) := by
      rw [← zpow_natCast, ← zpow_add₀ two_ne_zero]
      congr 1
      push_cast
      ring

end Sys2Proof.Machine
end

section
/-! SUPPORT. `bne`, `vmv.v.i`, and the vector load that meets an exception (43_host_subset.md R236, R241, R247). -/

namespace Sys2Proof.Machine

/-! ## The branch -/

/-- Adding a sign-extended offset to a word, modulo `2 ^ XLEN` (00_scope.md R8). -/
theorem truncX_add_sextX_toNat (p : Params) {n : Nat} (hn : n ≤ 64) (w : Word) (offset : BitVec n) :
    ((truncX p (w + sextX p offset)).toNat : Int) = (w.toNat + offset.toInt) % 2 ^ p.xlen.bits := by
  have hsum : ((w + sextX p offset).toNat : Int) = (w.toNat + (sextX p offset).toNat : Int) % (2 ^ 64 : Nat) := by
    rw [BitVec.toNat_add]; norm_cast
  rw [truncX_toInt_emod _ hsum, sextX_toNat _ hn]
  push_cast
  rw [Int.add_emod_emod]

/-- Going to a branch target, which is an XLEN-bit value already. -/
theorem State.setPc_branchTarget (s : State) (offset : BitVec 13) :
    s.setPc (s.branchTarget offset) = { s with pc := s.branchTarget offset } := by
  rw [State.setPc, State.branchTarget, truncX_truncX]

theorem exec_bne_aligned {s : State} {rs1 rs2 : XReg} {offset : BitVec 13} (hne : s.readX rs1 ≠ s.readX rs2)
    (hal : (s.branchTarget offset).toNat % 4 = 0) :
    exec (.bne rs1 rs2 offset) s = .next { s with pc := s.branchTarget offset } := by
  rw [exec, execBne, if_pos hne, if_pos hal, State.setPc_branchTarget]

theorem exec_bne_misaligned {s : State} {rs1 rs2 : XReg} {offset : BitVec 13} (hne : s.readX rs1 ≠ s.readX rs2)
    (hal : (s.branchTarget offset).toNat % 4 ≠ 0) :
    exec (.bne rs1 rs2 offset) s = .next (s.takeException .insnMisaligned (s.branchTarget offset)) := by
  rw [exec, execBne, if_pos hne, if_neg hal]

theorem exec_bne_not_taken {s : State} {rs1 rs2 : XReg} {offset : BitVec 13} (heq : s.readX rs1 = s.readX rs2) :
    exec (.bne rs1 rs2 offset) s = .next { s with pc := nextPc s } := by
  rw [exec, execBne, if_neg (not_not_intro heq), State.advance_eq]

/-- Settles O35: the target is the branch target of the model, and each clause is one branch of the instruction. -/
theorem branchNotEqual : Obligations.BranchNotEqual := by
  intro s rs1 rs2 offset
  exact ⟨s.branchTarget offset, truncX_add_sextX_toNat _ (by decide) .., exec_bne_aligned, exec_bne_misaligned,
    exec_bne_not_taken⟩

/-! ## The vector move -/

/-- What `vmv.v.i` has written before it ends: the immediate in the body, then the tail policy in the tail (R241). -/
def State.moved (s : State) (vd : VReg) (simm5 : BitVec 5) : State :=
  (s.fillElems vd s.sew (simm5.signExtend s.sew) s.bodyIndices).agnosticElems vd s.sew s.vta s.moveTail

theorem exec_vmvVI_of_runs {s : State} {vd : VReg} (hr : moveRuns s vd) (simm5 : BitVec 5) :
    exec (.vmvVI vd simm5) s = .next (s.moved vd simm5).retireVector := by
  rw [exec, execVmvVI, (s.moveLegal_legal_iff vd).2 hr]
  rfl

theorem State.moved_onlyV (s : State) (vd : VReg) (simm5 : BitVec 5) : OnlyV s (s.moved vd simm5) :=
  (OnlyV.fillElems rfl ..).agnosticElems ..

theorem State.mem_bodyIndices {s : State} {i : Nat} : i ∈ s.bodyIndices ↔ s.vstart.toNat ≤ i ∧ i < s.vl.toNat := by
  rw [State.bodyIndices, List.mem_range'_1]
  omega

theorem State.mem_moveTail {s : State} {i : Nat} : i ∈ s.moveTail ↔ s.vl.toNat ≤ i ∧ i < s.moveElems := by
  rw [State.moveTail, List.mem_range'_1]
  omega

theorem State.eight_le_sew (s : State) : 8 ≤ s.sew := Nat.le_mul_of_pos_right 8 (Nat.two_pow_pos _)

section Move

variable {s : State} {vd : VReg} {i : Nat}

/-- Where the elements of a legal move stand (10_state.md R31 to R33). -/
theorem State.moveElem_in_group (hinv : s.Inv) (hr : moveRuns s vd) (hi : i < s.moveElems) :
    vd.val ≤ s.elemReg vd s.sew i ∧ s.elemReg vd s.sew i < vd.val + lmulRegs s ∧ vd.val + lmulRegs s ≤ 32 := by
  obtain ⟨⟨-, -, -, hvill⟩, -, hlmul, halign⟩ := hr
  have hpow : ∃ k ≤ 6, s.lmul8 = 2 ^ k := by
    rcases lmul8Of_cases s.vtype with ⟨hreserved, -⟩ | ⟨-, hk⟩
    · exact absurd hreserved hlmul
    · exact hk
  refine State.elemReg_in_group (State.sew_dvd_vlen hinv hvill) (by have := s.eight_le_sew; omega) hpow (fun h => ?_) ?_
  · have hal := halign h
    rwa [lmulRegs, max_eq_right (by omega)] at hal
  · rwa [State.moveElems, max_comm] at hi

/-- `vl` is at most the elements of the destination of a legal move. -/
theorem State.vl_le_moveElems (hinv : s.Inv) : s.vl.toNat ≤ s.moveElems := by
  rcases hinv.config with ⟨-, hvl⟩ | ⟨-, hvl⟩
  · simp [hvl]
  · exact hvl.trans (le_max_left ..)

/-- A legal move writes no register outside its group. -/
theorem State.moved_outside (hinv : s.Inv) (hr : moveRuns s vd) (simm5 : BitVec 5) :
    outsideGroup s (s.moved vd simm5) vd (lmulRegs s) := by
  intro r hr'
  have hgroup : ∀ i < s.moveElems, r.val ≠ s.elemReg vd s.sew i := by
    intro i hi
    obtain ⟨hle, hlt, -⟩ := State.moveElem_in_group hinv hr hi
    omega
  have hbody : ∀ i ∈ s.bodyIndices, r.val ≠ s.elemReg vd s.sew i := fun i hi =>
    hgroup i ((State.mem_bodyIndices.1 hi).2.trans_le (State.vl_le_moveElems hinv))
  have htail : ∀ i ∈ s.moveTail, r.val ≠ s.elemReg vd s.sew i := fun i hi => hgroup i (State.mem_moveTail.1 hi).2
  rw [State.moved, State.vreg_agnosticElems_other (by simpa [State.elemReg] using htail), State.vreg_fillElems_other hbody]

/-- The tail of a move follows `vta`. -/
theorem State.moved_tail (hd : s.sew ∣ s.params.vlen) (simm5 : BitVec 5) (hi : s.vl.toNat ≤ i) :
    keptOrOnes s (s.moved vd simm5) s.vta vd s.sew i := by
  have hbody : i ∉ s.bodyIndices := fun h => by have := (State.mem_bodyIndices.1 h).2; omega
  rw [keptOrOnes, State.moved, ← State.velem_fillElems_other (w := simm5.signExtend s.sew) hd hbody]
  exact State.velem_agnosticElems (by simpa using hd) i

/-- Below `vl` a move leaves what filling the body leaves. -/
theorem State.moved_velem_of_lt_vl (hd : s.sew ∣ s.params.vlen) (simm5 : BitVec 5) (hi : i < s.vl.toNat) :
    (s.moved vd simm5).velem vd s.sew i
      = (s.fillElems vd s.sew (simm5.signExtend s.sew) s.bodyIndices).velem vd s.sew i := by
  have htail : i ∉ s.moveTail := fun h => by have := (State.mem_moveTail.1 h).1; omega
  exact State.velem_agnosticElems_other (by simpa using hd) htail

/-- A move writes no element below `vstart`. -/
theorem State.moved_prestart (hd : s.sew ∣ s.params.vlen) (simm5 : BitVec 5) (hvl : i < s.vl.toNat)
    (hi : i < s.vstart.toNat) : (s.moved vd simm5).velem vd s.sew i = s.velem vd s.sew i := by
  have hbody : i ∉ s.bodyIndices := fun h => by have := (State.mem_bodyIndices.1 h).1; omega
  rw [State.moved_velem_of_lt_vl hd simm5 hvl, State.velem_fillElems_other hd hbody]

/-- The body elements of a legal move are the sign-extended immediate. -/
theorem State.moved_body (hinv : s.Inv) (hr : moveRuns s vd) (simm5 : BitVec 5) (hvstart : s.vstart.toNat ≤ i)
    (hvl : i < s.vl.toNat) : ((s.moved vd simm5).velem vd s.sew i).toInt = simm5.toInt := by
  have ⟨⟨_, _, _, hvill⟩, _⟩ := hr
  have hd := State.sew_dvd_vlen hinv hvill
  obtain ⟨-, hlt, h32⟩ := State.moveElem_in_group hinv hr (hvl.trans_le (State.vl_le_moveElems hinv))
  have hwidth : 5 ≤ s.sew := by have := s.eight_le_sew; omega
  rw [State.moved_velem_of_lt_vl hd simm5 hvl,
    State.velem_fillElems_mem hd (State.mem_bodyIndices.2 ⟨hvstart, hvl⟩) (by omega), BitVec.toInt_signExtend_of_le hwidth]

end Move

/-- Settles O37: the three ranges of elements one by one, with the frame of a vector instruction. -/
theorem vectorMove : Obligations.VectorMove := by
  intro s vd simm5 hinv hr
  have ⟨⟨_, _, _, hvill⟩, _⟩ := hr
  have hd := State.sew_dvd_vlen hinv hvill
  refine ⟨_, exec_vmvVI_of_runs hr simm5, (s.moved_onlyV vd simm5).vectorFrame_retireVector,
    State.moved_outside hinv hr simm5, fun i _ => ?_⟩
  split_ifs with htail hprestart
  · exact State.moved_tail hd simm5 htail
  · exact State.moved_prestart hd simm5 (by omega) hprestart
  · exact State.moved_body hinv hr simm5 (by omega) (by omega)

/-! ## A load that meets an exception -/

/-- An element of a load leaves every other element of the group. -/
theorem loadElem_velem_other {eew : Nat} {vd : VReg} {rs1 : XReg} {masked : Bool} {u u' : State} {i j : Nat}
    (hd : eew ∣ u.params.vlen) (hstep : ElemStep (loadElem eew vd rs1 masked) u u' i) (hij : j ≠ i) :
    u'.velem vd eew j = u.velem vd eew j := by
  rcases loadElem_cases hstep with ⟨w, rfl⟩ | rfl
  · exact State.velem_setVelem_other w hd hij
  · exact State.velem_agnosticElem_other hd hij

/-- An element of a load leaves every register but its own. -/
theorem loadElem_vreg_other {eew : Nat} {vd : VReg} {rs1 : XReg} {masked : Bool} {u u' : State} {i r : Nat}
    (hstep : ElemStep (loadElem eew vd rs1 masked) u u' i) (hr : r ≠ u.elemReg vd eew i) : u'.vreg r = u.vreg r := by
  rcases loadElem_cases hstep with ⟨w, rfl⟩ | rfl
  · exact State.vreg_setVelem_other w hr
  · exact State.vreg_agnosticElem_other hr

/-- A load of a group of `n` registers that met an exception at element `i`, where elements above `i` may have been
transferred too (log entry 21): the elements below `i` are as the rules leave them, element `i` is untouched, and so is all
outside the group. -/
structure LoadedUpTo (s u : State) (eew : Nat) (vd : VReg) (rs1 : XReg) (masked : Bool) (n i : Nat) : Prop where
  progress : LoadProgress s u masked
  outside : outsideGroup s u vd n
  loaded : ∀ j < i, loadedElem s u vd rs1 eew masked j
  untouched : u.velem vd eew i = s.velem vd eew i

section Trap

variable {s u u' : State} {eew : Nat} {vd : VReg} {rs1 : XReg} {masked : Bool} {n i j : Nat}

theorem LoadedBelow.loadedUpTo (h : LoadedBelow s u eew vd rs1 masked n i) :
    LoadedUpTo s u eew vd rs1 masked n i where
  progress := h.progress
  outside := h.outside
  loaded := h.loaded
  untouched := h.untouched i le_rfl

/-- An element above the one that met the exception, transferred or not, keeps what the load has done up to it. -/
theorem LoadedUpTo.overrun (h : LoadedUpTo s u eew vd rs1 masked n i) (hd : eew ∣ s.params.vlen)
    (hmask : ¬(masked = true ∧ vd = 0)) (hij : i < j)
    (hreg : vd.val ≤ s.elemReg vd eew j ∧ s.elemReg vd eew j < vd.val + n)
    (hstep : ElemStep (loadElem eew vd rs1 masked) u u' j) : LoadedUpTo s u' eew vd rs1 masked n i := by
  have hp : u.params = s.params := h.progress.1.keepsConfig.params
  have hreg' : u.elemReg vd eew j = s.elemReg vd eew j := by rw [State.elemReg, State.elemReg, hp]
  have hsame : ∀ k ≤ i, u'.velem vd eew k = u.velem vd eew k := fun k hk =>
    loadElem_velem_other (hp ▸ hd) hstep (by omega)
  refine ⟨h.progress.step hmask hstep, fun r hr => ?_, fun k hk => ?_, (hsame i le_rfl).trans h.untouched⟩
  · exact (loadElem_vreg_other hstep (by omega)).trans (h.outside r hr)
  · exact (loadedElem_congr (hsame k hk.le)).2 (h.loaded k hk)

/-- An accessed element that is misaligned or outside launch memory raises its exception, whatever the load has written. -/
theorem LoadProgress.loadElem_trap (h : LoadProgress s u masked) (hacc : accessed s masked i)
    (hfail : ¬(elemAligned s rs1 eew i ∧ inMemory s.params (elemAddress s rs1 eew i) (eew / 8))) :
    loadElem eew vd rs1 masked u i
      = .trap (if elemAligned s rs1 eew i then .loadAccess else .loadMisaligned)
          (BitVec.ofNat 64 (elemAddress s rs1 eew i)) := by
  obtain ⟨-, -, hmask⟩ := hacc
  have hactive : u.active masked i = true := (h.active i).trans ((s.active_iff masked i).2 hmask)
  rw [Machine.loadElem_trap hactive (fun hu => hfail (by rw [h.1] at hu; exact hu)), h.1]
  rfl

end Trap

/-- Settles O40: the elements below `i` are transferred, element `i` raises its exception, and an overrun above it writes only
elements above `i`. -/
theorem loadExceptionAtElement : Obligations.LoadExceptionAtElement := by
  intro op s vd rs1 masked i hinv hr hacc hbelow hfail
  have ⟨hvstart, hvl, _⟩ := hacc
  have ⟨_, _, _, _, _, _, hmask⟩ := hr
  have hd := op.eew_dvd_vlen (Params.wf_bounds hinv.params).1
  have hvlmax : s.vl.toNat ≤ s.memElems op.eew :=
    (State.vl_le_memElems hinv.config op.eew_eq_two_pow hr).trans (le_max_right ..)
  obtain ⟨k, rfl⟩ := Nat.exists_eq_add_of_le hvstart
  obtain ⟨u, hexec, hu⟩ := LoadedBelow.of_transfer (rs1 := rs1) op hinv hr (by omega) hbelow
  have htrap := transferElems_trap (finish := finishLoad op.eew vd) (k := s.vl.toNat - s.vstart.toNat - k) (by omega)
    (hu.progress.loadElem_trap (vd := vd) hacc hfail)
  have hover : LoadedUpTo s (overrunElems (loadElem op.eew vd rs1 masked) u
      (List.range' (s.vstart.toNat + k + 1) (s.vl.toNat - s.vstart.toNat - k - 1))) op.eew vd rs1 masked
      (max 1 (emul8Of s op.eew / 8)) (s.vstart.toNat + k) := by
    refine overrunElems_keeps (P := fun v => LoadedUpTo s v op.eew vd rs1 masked _ (s.vstart.toNat + k))
      (fun v v' j hj hv hstep => ?_) hu.loadedUpTo
    rw [List.mem_range'_1] at hj
    obtain ⟨hle, hlt, -⟩ := op.elemReg_in_group hinv hr (j := j) (by omega)
    exact hv.overrun hd (by simpa using hmask) (by omega) ⟨hle, hlt⟩ hstep
  refine ⟨_, hexec.trans htrap, ?_, hover.outside, hover.loaded, hover.untouched⟩
  rw [hover.progress.1]

end Sys2Proof.Machine
end

section
/-! SUPPORT. Taking an exception and the return from it under the two trap policies (60_exceptions.md R264, R269, R271; log entry
11). -/

namespace Sys2Proof.Machine

/-! ## The base of `mtvec` -/

/-- The base is `mtvec` without its two mode bits. -/
theorem State.trapBase_toNat (s : State) : s.trapBase.toNat = s.mtvec.toNat - s.mtvec.toNat % 4 := by
  have hmtvec := s.mtvec.isLt
  rw [State.trapBase, BitVec.toNat_ofNat]
  omega

theorem State.trapBase_fits {s : State} (h : fitsX s.params s.mtvec) : fitsX s.params s.trapBase :=
  (s.trapBase_toNat.trans_le (Nat.sub_le ..)).trans_lt h

/-! ## The two policies -/

/-- The model stops with the record (60_exceptions.md R269). -/
theorem State.takeException_of_stop {s : State} (hp : s.params.trapPolicy = .stop) (cause : Cause) (value : Word) :
    s.takeException cause value = { s with stopped := some ⟨cause, s.pc, value, s.vstart⟩ } := by
  rw [State.takeException, hp]

/-- The trap entry to machine mode that R269 recalls. -/
theorem State.takeException_of_enter {s : State} (hp : s.params.trapPolicy = .enter) (cause : Cause) (value : Word) :
    s.takeException cause value =
      { s with mepc := s.pc, mcause := BitVec.ofNat 64 cause.code, mtval := value, pc := truncX s.params s.trapBase,
               mstatus := { s.mstatus with mpie := s.mstatus.mie, mie := false, mpp := s.mode }, mode := .machine } := by
  rw [State.takeException, hp]

/-- The return from a trap entry: `pc`, the mode and `MIE` are back, and what the entry recorded stays (R271). -/
theorem State.returnFromTrap_takeException {s : State} (hp : s.params.trapPolicy = .enter) (cause : Cause) (value : Word) :
    (s.takeException cause value).returnFromTrap =
      { s with mepc := s.pc, mcause := BitVec.ofNat 64 cause.code, mtval := value, pc := truncX s.params s.pc,
               mstatus := { s.mstatus with mpie := s.mstatus.mie, mpp := s.mode } } := by
  rw [State.takeException_of_enter hp, State.returnFromTrap]

/-- Settles O11: the state of each policy, the base of `mtvec`, and the return from the entry. -/
theorem takingAnException : Obligations.TakingAnException := by
  refine ⟨rfl, fun s cause value => ⟨fun hp => State.takeException_of_stop hp cause value, fun hp => ?_⟩⟩
  have hentry := State.takeException_of_enter hp cause value
  have hreturn := State.returnFromTrap_takeException hp cause value
  refine ⟨?entry, fun hmtvec => ?base, fun hpc => ?pc, ?mode, ?mie⟩
  case entry => rw [hentry]
  case base => rw [hentry, truncX_of_fits (State.trapBase_fits hmtvec), State.trapBase_toNat]
  case pc => rw [hreturn, truncX_of_fits hpc]
  case mode => rw [hreturn]
  case mie => rw [hreturn]

end Sys2Proof.Machine
end
